-- ==== Sys2Proof/Word.lean ====
section
/-! DEFINITION. The widths of the block: bytes of host memory, 16-bit peripheral registers, the 32-bit packed
status word and the 20-bit engine selector (spec 00_scope R22, 10_state R45 and R53, 30_encoding R110). -/

namespace Sys2Proof

/-- One byte of host memory (20_memory R82). -/
abbrev Byte := BitVec 8

/-- A peripheral register: 16 bits, accessed whole (10_state R53). -/
abbrev Half := BitVec 16

/-- The packed status word SR1, SR2 in bits 31 to 16 (30_encoding R120). -/
abbrev Word32 := BitVec 32

/-- The engine selector word (30_encoding R110). -/
abbrev Selector := BitVec 20

end Sys2Proof
end

