-- ==== Sys2Proof/Config.lean ====
section
/-! DEFINITION. The parameters fixed for a run (spec 00_scope R10 to R21, 10_state R33) as plain data, and the free
values: opaque constants with no body, one per kind of draw the spec leaves open (93_implementation_defined). -/

namespace Sys2Proof

/-- The physical ports (00_scope R14, 60_exceptions R415). -/
inductive Port where
  | i2c1 | i2c2 | i2c3
deriving DecidableEq, Repr

/-- The dispatch mode (00_scope R10). -/
inductive Mode where
  | polled | interrupt
deriving DecidableEq, Repr

/-- Who may move between two actions of a call (00_scope R5): an IRQ of a port, a thread in the middle of a call, a
caller that begins its next call, an agent outside the block that stores to host memory (70_reset_and_hazards R461). -/
inductive Agent where
  | entry (p : Port)
  | thread (k : Nat)
  | caller
  | store
deriving DecidableEq, Repr

/-- How the deadline of a wait is computed (00_scope R11). -/
inductive TimeoutKind where
  | static | dynamic
deriving DecidableEq, Repr

/-- The error kind returned for SR1.AF, left open by the source (00_scope R20). -/
inductive AfError where
  | noent | nxio
deriving DecidableEq, Repr

/-- The magnitudes of the returned error codes (00_scope R21). -/
structure Errno where
  timedout    : Nat
  io          : Nat
  again       : Nat
  noent       : Nat
  nxio        : Nat
  proto       : Nat
  time        : Nat
  busy        : Nat
  interrupted : Nat
deriving DecidableEq, Repr

/-- The register offsets from a port's base address (00_scope R17, 20_memory R89). -/
structure RegOffsets where
  cr1   : Nat
  cr2   : Nat
  oar1  : Nat
  oar2  : Nat
  dr    : Nat
  sr1   : Nat
  sr2   : Nat
  ccr   : Nat
  trise : Nat
deriving DecidableEq, Repr

/-- A field of several bits: the position of its lowest bit and its width. -/
structure BitField where
  lo    : Fin 16
  width : Nat
deriving DecidableEq, Repr

/-- The position of every register field the spec names (00_scope R17, 10_state R54 to R62), register by register. The
rules of the block read or write those of 30_encoding R123; the others stand here because the layout is a parameter as
a whole. -/
structure BitLayout where
  pe        : Fin 16
  smbus     : Fin 16
  smbtype   : Fin 16
  enarp     : Fin 16
  enpec     : Fin 16
  engc      : Fin 16
  nostretch : Fin 16
  start     : Fin 16
  stop      : Fin 16
  ack       : Fin 16
  pos       : Fin 16
  pec       : Fin 16
  alert     : Fin 16
  swrst     : Fin 16
  freq      : BitField
  iterren   : Fin 16
  itevten   : Fin 16
  itbufen   : Fin 16
  dmaen     : Fin 16
  last      : Fin 16
  add0      : Fin 16
  add7      : BitField
  add10hi   : BitField
  addmode   : Fin 16
  data      : BitField
  sb        : Fin 16
  addr      : Fin 16
  btf       : Fin 16
  add10     : Fin 16
  stopf     : Fin 16
  rxne      : Fin 16
  txe       : Fin 16
  berr      : Fin 16
  arlo      : Fin 16
  af        : Fin 16
  ovr       : Fin 16
  pecerr    : Fin 16
  timeout   : Fin 16
  smbalert  : Fin 16
  msl       : Fin 16
  busy      : Fin 16
  tra       : Fin 16
  gencall   : Fin 16
  smbdefault : Fin 16
  smbhost   : Fin 16
  dualf     : Fin 16
  pecval    : BitField
  ccr       : BitField
  duty      : Fin 16
  fs        : Fin 16
  trise     : BitField
deriving DecidableEq, Repr

/-- The immutable Bus Configuration of one port (10_state R33). No rule of the engine reads it. -/
structure BusConfig where
  base   : Nat
  clkBit : Nat
  rstBit : Nat
  scl    : Nat
  sda    : Nat
  evIrq  : Option Nat
  erIrq  : Option Nat
deriving DecidableEq, Repr

/-- Every parameter of 00_scope R10 to R21, with the address width of 20_memory R81 and the launch value of the FSMC
clock bit of 70_reset_and_hazards R453. A run never changes it. -/
structure Config where
  mode           : Mode
  timeoutKind    : TimeoutKind
  timeoutS       : Nat
  timeoutMs      : Nat
  usPerByte      : Nat
  duty169        : Bool
  traceOn        : Bool
  traceCap       : Nat
  recoveryOn     : Bool
  transferOn     : Bool
  ports          : List Port
  fsmcWorkaround : Bool
  fsmcLaunch     : Bool
  pclk           : Nat
  offsets        : RegOffsets
  layout         : BitLayout
  bus1           : BusConfig
  bus2           : BusConfig
  bus3           : BusConfig
  maxLen         : Nat
  addrWidth      : Nat
  afError        : AfError
  errno          : Errno
deriving DecidableEq, Repr

/-- The default offsets of 20_memory R89 (PRESUMED there: general knowledge; log entry 4). -/
def RegOffsets.standard : RegOffsets where
  cr1 := 0x00
  cr2 := 0x04
  oar1 := 0x08
  oar2 := 0x0C
  dr := 0x10
  sr1 := 0x14
  sr2 := 0x18
  ccr := 0x1C
  trise := 0x20

/-- The default layout of 10_state R54 to R62 and 30_encoding R121 and R123 (PRESUMED there: general knowledge;
log entry 4). -/
def BitLayout.standard : BitLayout where
  pe := 0
  smbus := 1
  smbtype := 3
  enarp := 4
  enpec := 5
  engc := 6
  nostretch := 7
  start := 8
  stop := 9
  ack := 10
  pos := 11
  pec := 12
  alert := 13
  swrst := 15
  freq := ⟨0, 6⟩
  iterren := 8
  itevten := 9
  itbufen := 10
  dmaen := 11
  last := 12
  add0 := 0
  add7 := ⟨1, 7⟩
  add10hi := ⟨8, 2⟩
  addmode := 15
  data := ⟨0, 8⟩
  sb := 0
  addr := 1
  btf := 2
  add10 := 3
  stopf := 4
  rxne := 6
  txe := 7
  berr := 8
  arlo := 9
  af := 10
  ovr := 11
  pecerr := 12
  timeout := 14
  smbalert := 15
  msl := 0
  busy := 1
  tra := 2
  gencall := 4
  smbdefault := 5
  smbhost := 6
  dualf := 7
  pecval := ⟨8, 8⟩
  ccr := ⟨0, 12⟩
  duty := 14
  fs := 15
  trise := ⟨0, 6⟩

/-- The conventional magnitudes of 92_eei_decisions D11 (PRESUMED there: general knowledge; log entry 5). -/
def Errno.standard : Errno where
  timedout := 110
  io := 5
  again := 11
  noent := 2
  nxio := 6
  proto := 71
  time := 62
  busy := 16
  interrupted := 4

/-- One port's platform identifiers for `Config.standard` (DESIGN CHOICE, log entry 5: no rule reads them). -/
def BusConfig.standard (n : Nat) : BusConfig where
  base := 0x400 * n
  clkBit := n
  rstBit := n
  scl := 2 * n
  sda := 2 * n + 1
  evIrq := some (2 * n)
  erIrq := some (2 * n + 1)

/-- The parameters `Machine.State.reset` launches with (DESIGN CHOICE, log entry 5). Claims hold for every `Config`. -/
def Config.standard : Config where
  mode := .interrupt
  timeoutKind := .static
  timeoutS := 0
  timeoutMs := 500
  usPerByte := 500
  duty169 := false
  traceOn := true
  traceCap := 32
  recoveryOn := true
  transferOn := true
  ports := [.i2c1, .i2c2, .i2c3]
  fsmcWorkaround := false
  fsmcLaunch := false
  pclk := 8000000
  offsets := .standard
  layout := .standard
  bus1 := .standard 1
  bus2 := .standard 2
  bus3 := .standard 3
  maxLen := 65535
  addrWidth := 32
  afError := .noent
  errno := .standard

/-- FREE VALUE: the value a peripheral register read answers (20_memory R84; log entry 2). -/
opaque Config.freeReg : Nat → Half

/-- FREE VALUE: the level a recovery pin read answers (47_lifecycle_trace_ops R343, U2; log entry 2). -/
opaque Config.freePin : Nat → Bool

/-- FREE VALUE: how often a wait goes round before its deadline passes (46_dispatcher R310, U25; log entry 11). -/
opaque Config.freeWait : Nat → Nat

/-- FREE VALUE: which agents move at one point, in order (60_exceptions R406, 20_memory R93; log entry 10). -/
opaque Config.freeTurns : Nat → List Agent

/-- FREE VALUE: whether a lock wait is interrupted by a signal (46_dispatcher R301, U28; log entry 9). -/
opaque Config.freeSignal : Nat → Bool

/-- FREE VALUE: whether a byte under a race is another of the values written to it (70_reset_and_hazards R461, U6;
log entry 17). -/
opaque Config.freeRace : Nat → Bool

/-- FREE VALUE: the trace recorder's clock (47_lifecycle_trace_ops R344, U23; log entry 2). -/
opaque Config.freeTime : Nat → Nat

end Sys2Proof
end

