-- ==== Sys2Proof/Syntax.lean ====
section
/-! DEFINITION. The instructions: one constructor of `Instr` per row of spec/opcode_table.json (30_encoding R115 and
R117), their operands, and the requests in which they reach the machine. -/

namespace Sys2Proof

/-- A register an accessor may be given (10_state R54 to R63): the eight of the block, OAR2, and any other code. -/
inductive Reg where
  | cr1 | cr2 | oar1 | oar2 | dr | sr1 | sr2 | ccr | trise
  | unlisted (code : Nat)
deriving DecidableEq, Repr

/-- A subset of READ, TEN, NORESTART (30_encoding R119, 10_state R43). -/
structure MsgFlags where
  read      : Bool
  ten       : Bool
  norestart : Bool
deriving DecidableEq, Repr

/-- The empty flag set. -/
def MsgFlags.empty : MsgFlags := ⟨false, false, false⟩

/-- A message record (10_state R50). -/
structure Message where
  addr   : Nat
  flags  : MsgFlags
  buffer : Nat
  length : Nat
deriving DecidableEq, Repr

/-- The dispatcher's `errval` (46_dispatcher R313). -/
inductive ErrVal where
  | ok | timedout | io | again | noent | nxio | proto | time | busy | interrupted
deriving DecidableEq, Repr

/-- The trace events the rules name (47_lifecycle_trace_ops R346); `none` is the NONE of a fresh entry. -/
inductive EvName where
  | none | advance | sendaddr | empty | addrNack | rcvbyte1 | rcvbyte2 | rcvbyteN
  | sendbyte | stop | restart | norestart | writeFlagError | writeIdle
  | rcvbyteLast | read2Wait | read2 | readWait | rcvbyte | rcvbyteNackprep | rcvbyteFinal | readError
  | shutdown | done | notReady | stateError | stopSettleTimeout
deriving DecidableEq, Repr

/-- FREE VALUE: the numeric code of a trace event (47_lifecycle_trace_ops R346, U22; no step reads it; log entry 14). -/
opaque Config.eventCode : EvName → Nat

/-- The engine sub-cases: the rows of the engine decoding table (30_encoding R115). -/
inductive Subcase where
  | advance | sbAddr | sbEmpty | addrNack | raddr1 | raddr2 | raddrN
  | wByte | wStop | wRestart | wNorestart | wFlagerr | wNone
  | r1Last | r2Wait | r2Final | rnWait | rnByte | rnNackprep | rnFinal | rErr
  | emptyTerm | fallbackPoll | fallbackInt | termPoll | termInt
deriving DecidableEq, Repr

/-- Which of the three selectors of an entry a row is matched against (30_encoding R114): `S_pre`, `S`, `S_post`. -/
inductive Phase where
  | pre | branch | term
deriving DecidableEq, Repr

/-- One constructor per row of spec/opcode_table.json. An engine sub-case acts on the entry in `State.entry`. -/
inductive Instr where
  | engAdvance
  | engSbAddr
  | engSbEmpty
  | engAddrNack
  | engRaddr1
  | engRaddr2
  | engRaddrN
  | engWByte
  | engWStop
  | engWRestart
  | engWNorestart
  | engWFlagerr
  | engWNone
  | engR1Last
  | engR2Wait
  | engR2Final
  | engRnWait
  | engRnByte
  | engRnNackprep
  | engRnFinal
  | engRErr
  | engEmptyTerm
  | engFallbackPoll
  | engFallbackInt
  | engTermPoll
  | engTermInt
  | regGet (p : Port) (r : Reg)
  | regPut (p : Port) (r : Reg) (v : Half)
  | regModify (p : Port) (r : Reg) (clr set : Half)
  | opInit (p : Port)
  | opUninit (d : Nat)
  | opReset (d : Nat)
  | opSetfrequency (d f : Nat)
  | opSetaddress (d addr nbits : Nat)
  | opWrite (d buf n : Nat)
  | opRead (d buf n : Nat)
  | opTransfer (d : Nat) (msgs : List Message)
  | opProcess (d : Nat) (msgs : List Message)
  | clkProgram (p : Port) (fp ft : Nat)
  | traceSample (p : Port) (w : Word32)
  | traceEvent (p : Port) (ev : EvName) (param : Int)
  | traceReset (p : Port)
  | traceDump (p : Port)
  | engEntry (p : Port)
  | errClassify (x : Word32) (e : ErrVal)
  | lifeUp (p : Port)
  | lifeDown (p : Port)
deriving DecidableEq, Repr

/-- The instruction of a sub-case. -/
def Subcase.instr : Subcase → Instr
  | .advance => .engAdvance
  | .sbAddr => .engSbAddr
  | .sbEmpty => .engSbEmpty
  | .addrNack => .engAddrNack
  | .raddr1 => .engRaddr1
  | .raddr2 => .engRaddr2
  | .raddrN => .engRaddrN
  | .wByte => .engWByte
  | .wStop => .engWStop
  | .wRestart => .engWRestart
  | .wNorestart => .engWNorestart
  | .wFlagerr => .engWFlagerr
  | .wNone => .engWNone
  | .r1Last => .engR1Last
  | .r2Wait => .engR2Wait
  | .r2Final => .engR2Final
  | .rnWait => .engRnWait
  | .rnByte => .engRnByte
  | .rnNackprep => .engRnNackprep
  | .rnFinal => .engRnFinal
  | .rErr => .engRErr
  | .emptyTerm => .engEmptyTerm
  | .fallbackPoll => .engFallbackPoll
  | .fallbackInt => .engFallbackInt
  | .termPoll => .engTermPoll
  | .termInt => .engTermInt

/-- What the machine fetches (log entry 1): an operation code with its operand bytes, or an engine selector word in
24 bits (bits 19 to 0 the selector, bits 21 and 20 which of the three selectors it stands for). -/
inductive Request where
  | op (bytes : List Byte)
  | selector (w : BitVec 24)
deriving DecidableEq, Repr

end Sys2Proof
end

