-- ==== Sys2Proof/WellFormed.lean ====
section
/-! DEFINITION. When an instruction's operands fit the fields of this model's operand encoding (log entry 1). The
spec gives the operands no bits; what it says of their values is checked by the instructions themselves. -/

namespace Sys2Proof

/-- A natural that fits a 32-bit operand. -/
def fits32 (n : Nat) : Bool := n < 2 ^ 32

/-- A natural that fits a 16-bit operand. -/
def fits16 (n : Nat) : Bool := n < 2 ^ 16

/-- An integer that fits a 32-bit two's complement operand. -/
def fitsInt32 (n : Int) : Bool := -2 ^ 31 ≤ n && n < 2 ^ 31

/-- The register codes of the nine listed registers: their default offsets (20_memory R89). -/
def listedCodes : List Nat := [0x00, 0x04, 0x08, 0x0C, 0x10, 0x14, 0x18, 0x1C, 0x20]

/-- An unlisted register's code is a byte that is none of the nine. -/
def Reg.wellFormed : Reg → Bool
  | .unlisted n => n < 256 && !listedCodes.contains n
  | _ => true

/-- Every number of the record fits its field. -/
def Message.wellFormed (m : Message) : Bool := fits32 m.addr && fits32 m.buffer && fits32 m.length

/-- The chain's count and every record fit. -/
def chainWellFormed (msgs : List Message) : Bool := fits16 msgs.length && msgs.all Message.wellFormed

/-- The operands fit their encoding. -/
def Instr.wellFormed : Instr → Bool
  | .regGet _ r => r.wellFormed
  | .regPut _ r _ => r.wellFormed
  | .regModify _ r _ _ => r.wellFormed
  | .opUninit d => fits16 d
  | .opReset d => fits16 d
  | .opSetfrequency d f => fits16 d && fits32 f
  | .opSetaddress d addr nbits => fits16 d && fits32 addr && fits32 nbits
  | .opWrite d buf n => fits16 d && fits32 buf && fits32 n
  | .opRead d buf n => fits16 d && fits32 buf && fits32 n
  | .opTransfer d msgs => fits16 d && chainWellFormed msgs
  | .opProcess d msgs => fits16 d && chainWellFormed msgs
  | .clkProgram _ fp ft => fits32 fp && fits32 ft
  | .traceEvent _ _ param => fitsInt32 param
  | .engAdvance | .engSbAddr | .engSbEmpty | .engAddrNack | .engRaddr1 | .engRaddr2 | .engRaddrN
  | .engWByte | .engWStop | .engWRestart | .engWNorestart | .engWFlagerr | .engWNone
  | .engR1Last | .engR2Wait | .engR2Final | .engRnWait | .engRnByte | .engRnNackprep | .engRnFinal | .engRErr
  | .engEmptyTerm | .engFallbackPoll | .engFallbackInt | .engTermPoll | .engTermInt
  | .opInit _ | .traceSample _ _ | .traceReset _ | .traceDump _ | .engEntry _ | .errClassify _ _
  | .lifeUp _ | .lifeDown _ => true

end Sys2Proof
end

