-- ==== Sys2Proof/Decode.lean ====
section
/-! DEFINITION. The decoder, total on every request, and the encoder, from 30_encoding R110 to R117. The selector
layout, the masks and matches and the operation codes are the spec's; the operand bytes after an operation code and
the phase bits of a selector word are this model's (DESIGN CHOICE, log entry 1). -/

namespace Sys2Proof

/-- Why a request is not an instruction. -/
inductive Reject where
  /-- a reserved operation code (30_encoding R117) -/
  | unknownOp
  /-- a reserved selector value (30_encoding R116) -/
  | badSelector
  /-- the operand bytes end early (log entry 1) -/
  | truncated
  /-- an operand byte that stands for nothing (log entry 1) -/
  | badOperand
deriving DecidableEq, Repr

/-- One row of the engine decoding table. -/
structure SelRow where
  mask : Selector
  hit  : Selector
  sub  : Subcase
deriving DecidableEq, Repr

/-- (b) START generated (R203, R207) and (c) address NACK (R212), in the table's order. -/
def rowsStart : List SelRow :=
  [ ⟨0x00401, 0x00401, .sbAddr⟩,
    ⟨0x00401, 0x00001, .sbEmpty⟩,
    ⟨0x000C2, 0x000C0, .addrNack⟩ ]

/-- (d) read-mode address clear (R213 to R215), in the table's order. -/
def rowsAddress : List SelRow :=
  [ ⟨0x01F62, 0x00C62, .raddr1⟩,
    ⟨0x01F62, 0x01562, .raddr2⟩,
    ⟨0x00062, 0x00062, .raddrN⟩ ]

/-- (e) write path (R231 to R236), in the table's order. -/
def rowsWrite : List SelRow :=
  [ ⟨0x10420, 0x10400, .wByte⟩,
    ⟨0x12720, 0x12100, .wStop⟩,
    ⟨0x1E720, 0x10100, .wRestart⟩,
    ⟨0x1E720, 0x14100, .wNorestart⟩,
    ⟨0x1E720, 0x18100, .wFlagerr⟩,
    ⟨0x10720, 0x10000, .wNone⟩ ]

/-- (f) read data (R252 to R258, R262), in the table's order. -/
def rowsRead : List SelRow :=
  [ ⟨0x01F28, 0x00928, .r1Last⟩,
    ⟨0x01F2C, 0x01528, .r2Wait⟩,
    ⟨0x01F2C, 0x0152C, .r2Final⟩,
    ⟨0x0182C, 0x01828, .rnWait⟩,
    ⟨0x01F2C, 0x01F2C, .rnByte⟩,
    ⟨0x01F2C, 0x01E2C, .rnNackprep⟩,
    ⟨0x01F2C, 0x01D2C, .rnFinal⟩,
    ⟨0x00028, 0x00028, .rErr⟩ ]

/-- (g) empty-call termination (R282) and (h) fallback (R287, R288), in the table's order. -/
def rowsLast : List SelRow :=
  [ ⟨0x02700, 0x02000, .emptyTerm⟩,
    ⟨0x00080, 0x00000, .fallbackPoll⟩,
    ⟨0x00080, 0x00080, .fallbackInt⟩ ]

/-- The branch rows in order of priority (30_encoding R115): the first match is the sub-case. -/
def branchRows : List SelRow := rowsStart ++ rowsAddress ++ rowsWrite ++ rowsRead ++ rowsLast

/-- The prelude row, matched against `S_pre` (R200). -/
def preRows : List SelRow :=
  [ ⟨0x02700, 0x00000, .advance⟩ ]

/-- The terminal rows, matched against `S_post` (R285, R286). -/
def termRows : List SelRow :=
  [ ⟨0x02780, 0x02000, .termPoll⟩,
    ⟨0x02780, 0x02080, .termInt⟩ ]

/-- The rows a selector of the phase is matched against (30_encoding R114). -/
def rowsOf : Phase → List SelRow
  | .pre => preRows
  | .branch => branchRows
  | .term => termRows

/-- A row matches when the masked selector equals its match value. -/
def SelRow.hits (r : SelRow) (w : Selector) : Bool := w &&& r.mask == r.hit

/-- DC, the class of `dcnt`, in bits 10 to 8 (30_encoding R110, R111). -/
def selDC (w : Selector) : BitVec 3 := w.extractLsb' 8 3

/-- NX, the class of the next message, in bits 15 and 14 (30_encoding R113). -/
def selNX (w : Selector) : BitVec 2 := w.extractLsb' 14 2

/-- The reserved selector values (30_encoding R116). -/
def reservedSelector (w : Selector) : Bool :=
  w.extractLsb' 17 3 != 0 || selDC w == 2 || selDC w == 3 || selNX w == 3

/-- Whether the prelude row matches `S_pre`. -/
def matchesAdvance (w : Selector) : Bool := preRows.any (·.hits w)

/-- The first row of the phase that matches; none for a reserved value, or where the phase has no such row. -/
def decodeSelector (ph : Phase) (w : Selector) : Option Subcase :=
  if reservedSelector w then none else ((rowsOf ph).find? (·.hits w)).map (·.sub)

/-- The phase a 24-bit selector word names in bits 21 and 20 (log entry 1). -/
def phaseOf (w : BitVec 24) : Option Phase :=
  if w.extractLsb' 20 4 == 0 then some .branch
  else if w.extractLsb' 20 4 == 1 then some .pre
  else if w.extractLsb' 20 4 == 2 then some .term
  else none

/-- A 24-bit selector word. -/
def decodeSelectorWord (w : BitVec 24) : Except Reject Instr :=
  match phaseOf w with
  | none => .error .badSelector
  | some ph =>
    match decodeSelector ph (w.extractLsb' 0 20) with
    | none => .error .badSelector
    | some c => .ok c.instr

/-- The next operand byte. -/
def take8 : List Byte → Except Reject (Nat × List Byte)
  | [] => .error .truncated
  | b :: bs => .ok (b.toNat, bs)

/-- A 16-bit operand, low byte first. -/
def take16 (bs : List Byte) : Except Reject (Nat × List Byte) := do
  let (lo, bs) ← take8 bs
  let (hi, bs) ← take8 bs
  return (lo + 256 * hi, bs)

/-- A 32-bit operand, low half first. -/
def take32 (bs : List Byte) : Except Reject (Nat × List Byte) := do
  let (lo, bs) ← take16 bs
  let (hi, bs) ← take16 bs
  return (lo + 65536 * hi, bs)

/-- The port with a number. -/
def portOfNat : Nat → Option Port
  | 0 => some .i2c1
  | 1 => some .i2c2
  | 2 => some .i2c3
  | _ => none

/-- The register with a code: its default offset (20_memory R89), any other byte an unlisted register. -/
def regOfNat (n : Nat) : Reg :=
  if n = 0x00 then .cr1 else if n = 0x04 then .cr2 else if n = 0x08 then .oar1
  else if n = 0x0C then .oar2 else if n = 0x10 then .dr else if n = 0x14 then .sr1
  else if n = 0x18 then .sr2 else if n = 0x1C then .ccr else if n = 0x20 then .trise
  else .unlisted n

/-- A flag set from its number: READ 0x0001, TEN 0x0002, NORESTART 0x0080 (30_encoding R119). -/
def flagsOfNat (n : Nat) : Option MsgFlags :=
  if n / 4 % 32 = 0 ∧ n / 256 = 0 then
    some ⟨n % 2 == 1, n / 2 % 2 == 1, n / 128 % 2 == 1⟩
  else none

/-- Every event name, in the order of its operand byte. -/
def evNames : List EvName :=
  [.none, .advance, .sendaddr, .empty, .addrNack, .rcvbyte1, .rcvbyte2, .rcvbyteN,
   .sendbyte, .stop, .restart, .norestart, .writeFlagError, .writeIdle,
   .rcvbyteLast, .read2Wait, .read2, .readWait, .rcvbyte, .rcvbyteNackprep, .rcvbyteFinal, .readError,
   .shutdown, .done, .notReady, .stateError, .stopSettleTimeout]

/-- Every value of `errval`, in the order of its operand byte (46_dispatcher R313). -/
def errVals : List ErrVal := [.ok, .timedout, .io, .again, .noent, .nxio, .proto, .time, .busy, .interrupted]

/-- An operand byte that must stand for something. -/
def need {α : Type} : Option α → Except Reject α
  | some a => .ok a
  | none => .error .badOperand

/-- A port operand. -/
def takePort (bs : List Byte) : Except Reject (Port × List Byte) := do
  let (n, bs) ← take8 bs
  let p ← need (portOfNat n)
  return (p, bs)

/-- A register operand. -/
def takeReg (bs : List Byte) : Except Reject (Reg × List Byte) := do
  let (n, bs) ← take8 bs
  return (regOfNat n, bs)

/-- A message record: address, flags, buffer, length. -/
def takeMessage (bs : List Byte) : Except Reject (Message × List Byte) := do
  let (addr, bs) ← take32 bs
  let (n, bs) ← take16 bs
  let flags ← need (flagsOfNat n)
  let (buffer, bs) ← take32 bs
  let (length, bs) ← take32 bs
  return (⟨addr, flags, buffer, length⟩, bs)

/-- The given number of message records. -/
def takeMessages : Nat → List Byte → Except Reject (List Message × List Byte)
  | 0, bs => .ok ([], bs)
  | k + 1, bs => do
    let (m, bs) ← takeMessage bs
    let (ms, bs) ← takeMessages k bs
    return (m :: ms, bs)

/-- A chain: its count, then its records. -/
def takeChain (bs : List Byte) : Except Reject (List Message × List Byte) := do
  let (k, bs) ← take16 bs
  takeMessages k bs

/-- A two's complement integer of 32 bits. -/
def intOfNat32 (n : Nat) : Int := if n < 2 ^ 31 then n else (n : Int) - 2 ^ 32

/-- The operation with a code (30_encoding R117), its operands read from the bytes after it. -/
def decodeOperands (code : Nat) (bs : List Byte) : Except Reject (Instr × List Byte) :=
  match code with
  | 0x01 => do
    let (p, bs) ← takePort bs
    let (r, bs) ← takeReg bs
    return (.regGet p r, bs)
  | 0x02 => do
    let (p, bs) ← takePort bs
    let (r, bs) ← takeReg bs
    let (v, bs) ← take16 bs
    return (.regPut p r (BitVec.ofNat 16 v), bs)
  | 0x03 => do
    let (p, bs) ← takePort bs
    let (r, bs) ← takeReg bs
    let (c, bs) ← take16 bs
    let (v, bs) ← take16 bs
    return (.regModify p r (BitVec.ofNat 16 c) (BitVec.ofNat 16 v), bs)
  | 0x10 => do
    let (p, bs) ← takePort bs
    return (.opInit p, bs)
  | 0x11 => do
    let (d, bs) ← take16 bs
    return (.opUninit d, bs)
  | 0x12 => do
    let (d, bs) ← take16 bs
    return (.opReset d, bs)
  | 0x13 => do
    let (d, bs) ← take16 bs
    let (f, bs) ← take32 bs
    return (.opSetfrequency d f, bs)
  | 0x14 => do
    let (d, bs) ← take16 bs
    let (a, bs) ← take32 bs
    let (n, bs) ← take32 bs
    return (.opSetaddress d a n, bs)
  | 0x15 => do
    let (d, bs) ← take16 bs
    let (b, bs) ← take32 bs
    let (n, bs) ← take32 bs
    return (.opWrite d b n, bs)
  | 0x16 => do
    let (d, bs) ← take16 bs
    let (b, bs) ← take32 bs
    let (n, bs) ← take32 bs
    return (.opRead d b n, bs)
  | 0x17 => do
    let (d, bs) ← take16 bs
    let (ms, bs) ← takeChain bs
    return (.opTransfer d ms, bs)
  | 0x18 => do
    let (d, bs) ← take16 bs
    let (ms, bs) ← takeChain bs
    return (.opProcess d ms, bs)
  | 0x20 => do
    let (p, bs) ← takePort bs
    let (fp, bs) ← take32 bs
    let (ft, bs) ← take32 bs
    return (.clkProgram p fp ft, bs)
  | 0x21 => do
    let (p, bs) ← takePort bs
    let (w, bs) ← take32 bs
    return (.traceSample p (BitVec.ofNat 32 w), bs)
  | 0x22 => do
    let (p, bs) ← takePort bs
    let (n, bs) ← take8 bs
    let ev ← need evNames[n]?
    let (x, bs) ← take32 bs
    return (.traceEvent p ev (intOfNat32 x), bs)
  | 0x23 => do
    let (p, bs) ← takePort bs
    return (.traceReset p, bs)
  | 0x24 => do
    let (p, bs) ← takePort bs
    return (.traceDump p, bs)
  | 0x25 => do
    let (p, bs) ← takePort bs
    return (.engEntry p, bs)
  | 0x26 => do
    let (x, bs) ← take32 bs
    let (n, bs) ← take8 bs
    let e ← need errVals[n]?
    return (.errClassify (BitVec.ofNat 32 x) e, bs)
  | 0x27 => do
    let (p, bs) ← takePort bs
    return (.lifeUp p, bs)
  | 0x28 => do
    let (p, bs) ← takePort bs
    return (.lifeDown p, bs)
  | _ => .error .unknownOp

/-- An operation and the bytes after it. -/
def decodeOp (bs : List Byte) : Except Reject (Instr × List Byte) := do
  let (code, bs) ← take8 bs
  decodeOperands code bs

/-- A request's instruction; bytes after an operation's last operand are padding. -/
def decodeRequest : Request → Except Reject Instr
  | .selector w => decodeSelectorWord w
  | .op bs =>
    match decodeOp bs with
    | .ok (i, _) => .ok i
    | .error e => .error e

/-- The bytes of a number, low byte first. -/
def bytesOfNat : Nat → Nat → List Byte
  | 0, _ => []
  | k + 1, n => BitVec.ofNat 8 n :: bytesOfNat k (n / 256)

/-- The longest operation with its operands all zero: REG_MODIFY's seven bytes fit, and so do OP_SETADDRESS's eleven. -/
def longestOp : Nat := 11

/-- The phase's bits 23 to 20 of a selector word. -/
def Phase.code : Phase → BitVec 4
  | .branch => 0
  | .pre => 1
  | .term => 2

/-- The 24-bit selector word a table word stands for. The table's word does not say its phase: a word that is the match
value of a prelude or terminal row and of no branch row is of that phase; any other is of the branch phase
(log entry 1). -/
def tableSelector (w : BitVec 24) : BitVec 24 :=
  let sel : Selector := w.setWidth 20
  if w.extractLsb' 20 4 != 0 || branchRows.any (·.hit == sel) then w
  else if preRows.any (·.hit == sel) then Phase.pre.code ++ sel
  else if termRows.any (·.hit == sel) then Phase.term.code ++ sel
  else w

/-- The request whose bits are `w` as the table numbers them, every higher bit zero. A number of at most eight
bits is an operation code, reserved codes among them (30_encoding R117); a longer one is a selector word. -/
def tableRequest (nbits w : Nat) : Request :=
  if nbits ≤ 8 then .op (bytesOfNat longestOp w)
  else .selector (tableSelector (BitVec.ofNat 24 w))

/-- What this decoder reads from an instruction whose bits are `w`, numbered as spec/opcode_table.json numbers them. -/
def decodeTableWord (nbits w : Nat) : Option Instr := (decodeRequest (tableRequest nbits w)).toOption

/-! The encoder: the request of a well-formed instruction, from the same tables. -/

/-- The match value of a sub-case's row (30_encoding R115). -/
def Subcase.hit (c : Subcase) : Selector :=
  match (preRows ++ branchRows ++ termRows).find? (·.sub == c) with
  | some r => r.hit
  | none => 0

/-- The phase of a sub-case's row. -/
def Subcase.phase : Subcase → Phase
  | .advance => .pre
  | .termPoll | .termInt => .term
  | .sbAddr | .sbEmpty | .addrNack | .raddr1 | .raddr2 | .raddrN
  | .wByte | .wStop | .wRestart | .wNorestart | .wFlagerr | .wNone
  | .r1Last | .r2Wait | .r2Final | .rnWait | .rnByte | .rnNackprep | .rnFinal | .rErr
  | .emptyTerm | .fallbackPoll | .fallbackInt => .branch

/-- The selector word of a sub-case. -/
def encodeSubcase (c : Subcase) : Request := .selector (c.phase.code ++ c.hit)

/-- A port's operand byte. -/
def portByte : Port → List Byte
  | .i2c1 => [0]
  | .i2c2 => [1]
  | .i2c3 => [2]

/-- A register's code. -/
def Reg.code : Reg → Nat
  | .cr1 => 0x00
  | .cr2 => 0x04
  | .oar1 => 0x08
  | .oar2 => 0x0C
  | .dr => 0x10
  | .sr1 => 0x14
  | .sr2 => 0x18
  | .ccr => 0x1C
  | .trise => 0x20
  | .unlisted n => n

/-- A flag set's number (30_encoding R119). -/
def MsgFlags.number (f : MsgFlags) : Nat :=
  (if f.read then 0x0001 else 0) + (if f.ten then 0x0002 else 0) + (if f.norestart then 0x0080 else 0)

/-- A message record's bytes. -/
def encodeMessage (m : Message) : List Byte :=
  bytesOfNat 4 m.addr ++ bytesOfNat 2 m.flags.number ++ bytesOfNat 4 m.buffer ++ bytesOfNat 4 m.length

/-- A chain's bytes. -/
def encodeChain (msgs : List Message) : List Byte :=
  bytesOfNat 2 msgs.length ++ msgs.flatMap encodeMessage

/-- An event name's operand byte. -/
def EvName.code (e : EvName) : Nat := evNames.idxOf e

/-- An error value's operand byte. -/
def ErrVal.code (e : ErrVal) : Nat := errVals.idxOf e

/-- The two's complement number of an integer in 32 bits. -/
def natOfInt32 (x : Int) : Nat := (x % 2 ^ 32).toNat

/-- The request of an instruction. -/
def encode : Instr → Request
  | .engAdvance => encodeSubcase .advance
  | .engSbAddr => encodeSubcase .sbAddr
  | .engSbEmpty => encodeSubcase .sbEmpty
  | .engAddrNack => encodeSubcase .addrNack
  | .engRaddr1 => encodeSubcase .raddr1
  | .engRaddr2 => encodeSubcase .raddr2
  | .engRaddrN => encodeSubcase .raddrN
  | .engWByte => encodeSubcase .wByte
  | .engWStop => encodeSubcase .wStop
  | .engWRestart => encodeSubcase .wRestart
  | .engWNorestart => encodeSubcase .wNorestart
  | .engWFlagerr => encodeSubcase .wFlagerr
  | .engWNone => encodeSubcase .wNone
  | .engR1Last => encodeSubcase .r1Last
  | .engR2Wait => encodeSubcase .r2Wait
  | .engR2Final => encodeSubcase .r2Final
  | .engRnWait => encodeSubcase .rnWait
  | .engRnByte => encodeSubcase .rnByte
  | .engRnNackprep => encodeSubcase .rnNackprep
  | .engRnFinal => encodeSubcase .rnFinal
  | .engRErr => encodeSubcase .rErr
  | .engEmptyTerm => encodeSubcase .emptyTerm
  | .engFallbackPoll => encodeSubcase .fallbackPoll
  | .engFallbackInt => encodeSubcase .fallbackInt
  | .engTermPoll => encodeSubcase .termPoll
  | .engTermInt => encodeSubcase .termInt
  | .regGet p r => .op ([0x01] ++ portByte p ++ bytesOfNat 1 r.code)
  | .regPut p r v => .op ([0x02] ++ portByte p ++ bytesOfNat 1 r.code ++ bytesOfNat 2 v.toNat)
  | .regModify p r c v =>
    .op ([0x03] ++ portByte p ++ bytesOfNat 1 r.code ++ bytesOfNat 2 c.toNat ++ bytesOfNat 2 v.toNat)
  | .opInit p => .op ([0x10] ++ portByte p)
  | .opUninit d => .op ([0x11] ++ bytesOfNat 2 d)
  | .opReset d => .op ([0x12] ++ bytesOfNat 2 d)
  | .opSetfrequency d f => .op ([0x13] ++ bytesOfNat 2 d ++ bytesOfNat 4 f)
  | .opSetaddress d a n => .op ([0x14] ++ bytesOfNat 2 d ++ bytesOfNat 4 a ++ bytesOfNat 4 n)
  | .opWrite d b n => .op ([0x15] ++ bytesOfNat 2 d ++ bytesOfNat 4 b ++ bytesOfNat 4 n)
  | .opRead d b n => .op ([0x16] ++ bytesOfNat 2 d ++ bytesOfNat 4 b ++ bytesOfNat 4 n)
  | .opTransfer d ms => .op ([0x17] ++ bytesOfNat 2 d ++ encodeChain ms)
  | .opProcess d ms => .op ([0x18] ++ bytesOfNat 2 d ++ encodeChain ms)
  | .clkProgram p fp ft => .op ([0x20] ++ portByte p ++ bytesOfNat 4 fp ++ bytesOfNat 4 ft)
  | .traceSample p w => .op ([0x21] ++ portByte p ++ bytesOfNat 4 w.toNat)
  | .traceEvent p ev x => .op ([0x22] ++ portByte p ++ bytesOfNat 1 ev.code ++ bytesOfNat 4 (natOfInt32 x))
  | .traceReset p => .op ([0x23] ++ portByte p)
  | .traceDump p => .op ([0x24] ++ portByte p)
  | .engEntry p => .op ([0x25] ++ portByte p)
  | .errClassify x e => .op ([0x26] ++ bytesOfNat 4 x.toNat ++ bytesOfNat 1 e.code)
  | .lifeUp p => .op ([0x27] ++ portByte p)
  | .lifeDown p => .op ([0x28] ++ portByte p)

end Sys2Proof
end

