-- ==== Sys2Proof/Machine/State.lean ====
section
/-! DEFINITION. The state as plain data: the Bus State of each port, the instances, host memory, the platform, and
the model's own inputs and marks (spec 10_state R30 to R66, 70_reset_and_hazards R450 to R456). -/

namespace Sys2Proof.Machine

/-- Why the machine stops with a fault (60_exceptions R403). Each fault is safe: nothing is claimed of a run that stops. -/
inductive Fault where
  /-- raised by the register accessors: not one of the eight registers (40_register_access R150); safe -/
  | regUnmapped
  /-- raised by the register accessors: the port's peripheral clock is gated (R150); safe -/
  | portDown
  /-- raised by REG_PUT: a write to SR2 (R151); safe -/
  | regReadOnly
  /-- raised by REG_MODIFY: a register other than CR1 and CR2 (R152); safe -/
  | modifyNotControl
  /-- raised by ReadByte and WriteByte: `ptr` outside the current message's buffer (20_memory R81); safe -/
  | bufferOverrun
  /-- raised by ENG_ADVANCE and the selector: a message is needed and `msgv` names none (R200, U8); safe -/
  | badMsgv
  /-- raised by the decoder: a reserved selector value (30_encoding R116); safe -/
  | badSelector
  /-- raised by buffer accesses: an address outside the `addr_width`-bit space (20_memory R81; log entry 7); safe -/
  | noSuchAddress
  /-- raised by `step` for an instruction on a port whose sticky mark `faulted` is set (10_state R49, R403); safe -/
  | markedFaulted
deriving DecidableEq, Repr

/-- Why the machine refuses (60_exceptions R404). Each refusal is safe. A refused operation stops nothing but itself
(93_implementation_defined). -/
inductive Refusal where
  /-- raised by `exec` for an instruction with no meaning yet; safe -/
  | notModelled (mnemonic : String)
  /-- raised by the decoder: a reserved operation code (30_encoding R117); safe -/
  | unknownOp
  /-- raised by OP_RESET and OP_TRANSFER when their option is off (00_scope R14); safe -/
  | optionOff
  /-- raised by OP_INIT: the port is not present (47_lifecycle_trace_ops R340); safe -/
  | portAbsent
  /-- raised by OP_UNINIT: no open handle to release (R341); safe -/
  | notOpen
  /-- raised by OP_UNINIT: the lock is held (R341); safe -/
  | uninitDuringTransfer
  /-- raised by OP_PROCESS: no message (46_dispatcher R300); safe -/
  | emptyChain
  /-- raised by ENG_ADVANCE: a length above `max_len` (42_engine_address_phase R200); safe -/
  | lengthTooLarge
  /-- raised by CLK_PROGRAM: target frequency 0 (41_clock_programmer R190); safe -/
  | divByZero
  /-- raised by CLK_PROGRAM: the divider does not fit CCR (R190); safe -/
  | ccrOverflow
  /-- raised by CLK_PROGRAM: the rise time does not fit TRISE (R190); safe -/
  | triseOverflow
  /-- raised by LIFE_UP: the clock does not fit CR2.FREQ (47_lifecycle_trace_ops R342); safe -/
  | freqFieldOverflow
  /-- raised by an operation on a handle that no OP_INIT opened (70_reset_and_hazards R454; log entry 8); safe -/
  | noInstance
  /-- raised by the decoder: the operand bytes end early (log entry 1); safe -/
  | truncated
  /-- raised by the decoder: an operand byte that stands for nothing (log entry 1); safe -/
  | badOperand
deriving DecidableEq, Repr

/-- The per-port exclusion lock (10_state R35); the owner is the handle that holds it. -/
inductive Lock where
  | free
  | held (owner : Nat)
deriving DecidableEq, Repr

/-- The interrupt handshake (10_state R37). -/
inductive IntState where
  | idle | waiting | done
deriving DecidableEq, Repr

/-- A recovery line (47_lifecycle_trace_ops R343). -/
inductive Line where
  | scl | sda
deriving DecidableEq, Repr

/-- The configuration of a pin (10_state R64). -/
inductive PinMode where
  | unconf | afOd | gpio
deriving DecidableEq, Repr

/-- The ordered history of a port (00_scope R24, 47_lifecycle_trace_ops R343 and R346). -/
inductive Event where
  | rd (r : Reg) (v : Half)
  | wr (r : Reg) (v : Half)
  | mrd (a : Nat) (v : Byte)
  | mwr (a : Nat) (v : Byte)
  | ev (e : EvName) (param : Int)
  | pin (l : Line) (level : Bool)
  | pinRead (l : Line) (level : Bool)
  | delay (us : Nat)
deriving DecidableEq, Repr

/-- A trace entry (10_state R52). That `param` is an integer of any size and sign, as `dcnt` is (R38), is a DESIGN CHOICE:
R52 says 'word' and gives no width (log entry 14). -/
structure TraceEntry where
  status    : Word32
  count     : Nat
  event     : EvName
  param     : Int
  timestamp : Nat
deriving DecidableEq, Repr

/-- The fresh entry `(0, 0, NONE, 0, 0)` (47_lifecycle_trace_ops R345). -/
def TraceEntry.fresh : TraceEntry := ⟨0, 0, .none, 0, 0⟩

/-- The Trace Recorder's ring (10_state R48, R52), with the time of the last TRACE_RESET, which R348 refers to. -/
structure Trace where
  ring  : List TraceEntry
  cur   : Nat
  epoch : Nat
deriving DecidableEq, Repr

/-- What is written to the host log (47_lifecycle_trace_ops R347, R348); `rel` is relative to the TRACE_RESET time. -/
inductive LogItem where
  | traceOverflow
  | entry (status : Word32) (count : Nat) (event : EvName) (param : Int) (rel : Int)
deriving DecidableEq, Repr

/-- The eight peripheral registers as the block last wrote them or the reset pulse left them (10_state R54 to R62,
20_memory R87). A read never looks here: it is an oracle draw (R84). -/
structure Regs where
  cr1   : Half
  cr2   : Half
  oar1  : Half
  dr    : Half
  sr1   : Half
  sr2   : Half
  ccr   : Half
  trise : Half
deriving DecidableEq, Repr

/-- The registers after the reset pulse (70_reset_and_hazards R452). -/
def Regs.afterPulse : Regs := ⟨0, 0, 0, 0, 0, 0, 0, 0x0002⟩

/-- One pin: its configuration and the level the block last drove under direct control. -/
structure Pin where
  mode  : PinMode
  level : Bool
deriving DecidableEq, Repr

/-- One IRQ line at the interrupt controller (10_state R64). -/
structure IrqLine where
  attached : Bool
  enabled  : Bool
deriving DecidableEq, Repr

/-- The platform state of one port (10_state R64); `rstPulses` counts the pulses of its reset line. -/
structure Platform where
  clkEn     : Bool
  rstPulses : Nat
  scl       : Pin
  sda       : Pin
  evIrq     : IrqLine
  erIrq     : IrqLine
deriving DecidableEq, Repr

/-- The Bus State of one port with its registers, platform and history (10_state R34 to R49, R53 to R64), the sticky
marks among them (R49, 70_reset_and_hazards R450). The last five fields are the model's own: the current message's
buffer base (R81 needs it), the last value the block wrote to CR2 (60_exceptions R406), the deadline of the last wait
in microseconds (46_dispatcher R310), the host log, and whether a transfer is between its step 5 and its return, so that
the buffers of its chain are its own (70_reset_and_hazards R461). -/
structure BusState where
  refs         : Nat
  lock         : Lock
  sem          : Nat
  intstate     : IntState
  dcnt         : Int
  msgc         : Nat
  msgv         : Option Nat
  ptr          : Nat
  totalMsgLen  : Nat
  flags        : MsgFlags
  checkAddrAck : Bool
  status       : Word32
  curAddr      : Nat
  msgs         : List Message
  count        : Nat
  trace        : Trace
  hist         : List Event
  faulted      : Bool
  refused      : Bool
  regs         : Regs
  plat         : Platform
  curBuf       : Nat
  cr2Written   : Half
  deadline     : Nat
  log          : List LogItem
  owning       : Bool
deriving DecidableEq, Repr

/-- An instance, one per caller handle (10_state R51). -/
structure Inst where
  port      : Port
  address   : Nat
  iflags    : MsgFlags
  frequency : Nat
deriving DecidableEq, Repr

/-- The entry-local data of the engine: the port, the SR1 value read at entry and the status word `s` (10_state R66). -/
structure Entry where
  port : Port
  sr1  : Half
  s    : Word32
deriving DecidableEq, Repr

/-- A source of draws of one kind: first the answers a script holds, then a free value for each further draw
(log entry 2). -/
structure Source (α : Type) where
  script : List α
  used   : Nat
deriving DecidableEq, Repr

/-- The draws of the run, one source per kind (20_memory R84, 92_eei_decisions D27, D38, D42, D45). -/
structure Draws where
  regs    : Source Half
  pins    : Source Bool
  waits   : Source Nat
  turns   : Source (List Agent)
  signals : Source Bool
  races   : Source Bool
  times   : Source Nat
deriving DecidableEq, Repr

/-- Host memory: address and byte pairs, addresses strictly rising, no entry equal to `Memory.unlisted`. -/
abbrev Memory := List Host.Cell

/-- What one action of a call answers the call (log entry 9). -/
inductive Ans where
  | unit
  | half (v : Half)
  | flag (b : Bool)
  | num (n : Nat)
  | inst (x : Inst)
  | word (w : Word32)
deriving DecidableEq, Repr

/-- A thread in the middle of a call (00_scope R5): the call, the port it acts on (from its first action on that of the
instance found, `State.threadPort`), and what its actions so far were answered. The rest of the call is a function of these
(log entry 9). -/
structure Thread where
  call : Instr
  port : Option Port
  past : List Ans
deriving DecidableEq, Repr

/-- What an operation returns to its caller: a value, or `Refused(reason)` (93_implementation_defined). -/
inductive Result where
  | value (x : Int)
  | refused (r : Refusal)
deriving DecidableEq, Repr

/-- What a call that ran beside others returned to its caller. -/
structure Returned where
  call   : Instr
  result : Result
deriving DecidableEq, Repr

/-- The machine. `cfg` never changes. `threads` are the calls under way (00_scope R5, 20_memory R93, R96). `races` are
the other values written to bytes under a race (70_reset_and_hazards R461; log entry 17). `entry`, `past` (the answers of
the call a step is running), `draws`, `requests`, `stores` (what agents outside the block store next), `returned`, `ret`
and `errval` are the model's own (10_state R66; log entries 1, 2, 3, 9, 13, 17). -/
structure State where
  cfg       : Config
  i2c1      : BusState
  i2c2      : BusState
  i2c3      : BusState
  instances : List (Option Inst)
  mem       : Memory
  races     : List Host.Cell
  fsmcEn    : Bool
  intsOff   : Bool
  entry     : Entry
  draws     : Draws
  requests  : List Request
  stores    : List Host.Cell
  threads   : List Thread
  past      : List Ans
  returned  : List Returned
  ret       : Int
  errval    : ErrVal
deriving DecidableEq, Repr

/-- How a piece of a meaning stops: a fault, a refusal, or a lock wait that goes on (20_memory R96). -/
inductive Stop where
  | fault (f : Fault)
  | refusal (r : Refusal)
  | lockWait
deriving DecidableEq, Repr

/-- A piece of a meaning: it answers a value and a state, or stops in a state. -/
abbrev M := EStateM Stop State

/-- The platform at launch: clock gated, pins unconfigured, IRQs detached (70_reset_and_hazards R453). The driven
levels are a DESIGN CHOICE (log entry 6). -/
def Platform.launch : Platform where
  clkEn := false
  rstPulses := 0
  scl := ⟨.unconf, true⟩
  sda := ⟨.unconf, true⟩
  evIrq := ⟨false, false⟩
  erIrq := ⟨false, false⟩

/-- The trace at launch: every entry fresh (70_reset_and_hazards R450). -/
def Trace.launch (c : Config) : Trace where
  ring := List.replicate c.traceCap TraceEntry.fresh
  cur := 0
  epoch := 0

/-- The Bus State at launch (70_reset_and_hazards R450). `ptr`, the registers before the first pulse and the model's
own fields are a DESIGN CHOICE (log entry 6). -/
def BusState.launch (c : Config) : BusState where
  refs := 0
  lock := .free
  sem := 0
  intstate := .idle
  dcnt := -1
  msgc := 0
  msgv := none
  ptr := 0
  totalMsgLen := 0
  flags := MsgFlags.empty
  checkAddrAck := false
  status := 0
  curAddr := 0
  msgs := []
  count := 0
  trace := Trace.launch c
  hist := []
  faulted := false
  refused := false
  regs := Regs.afterPulse
  plat := Platform.launch
  curBuf := 0
  cr2Written := 0
  deadline := 0
  log := []
  owning := false

/-- No scripted answer: every draw is free. -/
def Draws.free : Draws where
  regs := ⟨[], 0⟩
  pins := ⟨[], 0⟩
  waits := ⟨[], 0⟩
  turns := ⟨[], 0⟩
  signals := ⟨[], 0⟩
  races := ⟨[], 0⟩
  times := ⟨[], 0⟩

/-- The machine launched with given parameters (70_reset_and_hazards R450 to R454). -/
def State.launch (c : Config) : State where
  cfg := c
  i2c1 := BusState.launch c
  i2c2 := BusState.launch c
  i2c3 := BusState.launch c
  instances := []
  mem := []
  races := []
  fsmcEn := c.fsmcLaunch
  intsOff := false
  entry := ⟨.i2c1, 0, 0⟩
  draws := Draws.free
  requests := []
  stores := []
  threads := []
  past := []
  returned := []
  ret := 0
  errval := .ok

/-- The machine right after reset: the launch state under the parameters of log entry 5. -/
def State.reset : State := State.launch Config.standard

end Sys2Proof.Machine
end

