-- ==== Sys2Proof/Machine/Ops.lean ====
section
/-! DEFINITION. The shared operations: a port's state, draws, stops, host memory, and the register accessors of
40_register_access R150 to R155. The block has no trap mechanism (60_exceptions): nothing here takes an exception.
The engine entry, which stands for its interrupts, is the one operation `engineEntry` of Machine/Entry.lean. -/

namespace Sys2Proof.Machine

/-- The Bus State of a port. -/
def State.bus (s : State) : Port → BusState
  | .i2c1 => s.i2c1
  | .i2c2 => s.i2c2
  | .i2c3 => s.i2c3

/-- The state with a port's Bus State replaced. -/
def State.setBus (s : State) (p : Port) (b : BusState) : State :=
  match p with
  | .i2c1 => { s with i2c1 := b }
  | .i2c2 => { s with i2c2 := b }
  | .i2c3 => { s with i2c3 := b }

/-! One update per field outside the ports. -/

/-- The state with its instances replaced. -/
def State.withInstances (s : State) (x : List (Option Inst)) : State := { s with instances := x }

/-- The state with its memory replaced. -/
def State.withMem (s : State) (x : Memory) : State := { s with mem := x }

/-- The state with its bytes under a race replaced. -/
def State.withRaces (s : State) (x : List Host.Cell) : State := { s with races := x }

/-- The state with the FSMC clock bit written. -/
def State.withFsmc (s : State) (x : Bool) : State := { s with fsmcEn := x }

/-- The state with the `interrupts_off` region entered or left. -/
def State.withIntsOff (s : State) (x : Bool) : State := { s with intsOff := x }

/-- The state with the entry-local data replaced. -/
def State.withEntry (s : State) (x : Entry) : State := { s with entry := x }

/-- The state with its draws replaced. -/
def State.withDraws (s : State) (x : Draws) : State := { s with draws := x }

/-- The state with its pending requests replaced. -/
def State.withRequests (s : State) (x : List Request) : State := { s with requests := x }

/-- The state with the pending stores of agents outside the block replaced. -/
def State.withStores (s : State) (x : List Host.Cell) : State := { s with stores := x }

/-- The state with its threads replaced. -/
def State.withThreads (s : State) (x : List Thread) : State := { s with threads := x }

/-- The state with the answers of the running call replaced. -/
def State.withPast (s : State) (x : List Ans) : State := { s with past := x }

/-- The state with what calls beside others returned replaced. -/
def State.withReturned (s : State) (x : List Returned) : State := { s with returned := x }

/-- The state with the returned value replaced. -/
def State.withRet (s : State) (x : Int) : State := { s with ret := x }

/-- The state with the error kind replaced. -/
def State.withErrval (s : State) (x : ErrVal) : State := { s with errval := x }

/-- A value read from the state. -/
def look {α : Type} (f : State → α) : M α := fun s => .ok (f s) s

/-- A change of the state. -/
def upd (f : State → State) : M Unit := fun s => .ok () (f s)

/-- A value read from a port's Bus State. -/
def lookBus {α : Type} (p : Port) (f : BusState → α) : M α := look fun s => f (s.bus p)

/-- A change of a port's Bus State. -/
def updBus (p : Port) (f : BusState → BusState) : M Unit := upd fun s => s.setBus p (f (s.bus p))

/-- `raise Fault(reason)` (00_scope R23): stop. The port's sticky mark is set by whoever ran this piece beside an
instruction (`State.stopped`); where it was the instruction itself, the step ends with the fault (log entry 18). -/
def raise {α : Type} (f : Fault) : M α := fun s => .error (.fault f) s

/-- `refuse(reason)` (00_scope R23): the operation ends with its refusal; nothing else stops (log entry 18). -/
def refuse {α : Type} (r : Refusal) : M α := fun s => .error (.refusal r) s

/-- The lock is held and the wait for it goes on. -/
def keepWaiting {α : Type} : M α := fun s => .error .lockWait s

/-- Go on only if the condition holds; otherwise the fault. -/
def ensure (c : Bool) (f : Fault) : M Unit := if c then pure () else raise f

/-- Go on only if the condition holds; otherwise the refusal. -/
def require (c : Bool) (r : Refusal) : M Unit := if c then pure () else refuse r

/-- An action done only if the condition holds. -/
def onlyIf (c : Bool) (m : M Unit) : M Unit := if c then m else pure ()

/-- The outcome of an instruction that is one piece. Only a call can wait for a lock (`call`). -/
def finish (m : M Unit) (s : State) : Host.Outcome State Fault Refusal :=
  match m s with
  | .ok _ t => .next t
  | .error (.fault f) _ => .fault f
  | .error (.refusal r) _ => .refused r
  | .error .lockWait t => .next t

/-! Draws. -/

/-- The next answer of a source. -/
def Source.peek {α : Type} (free : Nat → α) (x : Source α) : α :=
  match x.script with
  | [] => free x.used
  | a :: _ => a

/-- The source after one draw. -/
def Source.advance {α : Type} (x : Source α) : Source α := ⟨x.script.tail, x.used + 1⟩

/-- The `k`-th answer from here of a source, counted from 0. -/
def Source.nth {α : Type} (free : Nat → α) (x : Source α) : Nat → α
  | 0 => x.peek free
  | k + 1 => x.advance.nth free k

/-- A register value (20_memory R84). -/
def drawReg : M Half := fun s =>
  .ok (s.draws.regs.peek Config.freeReg) (s.withDraws { s.draws with regs := s.draws.regs.advance })

/-- A pin level (47_lifecycle_trace_ops R343). -/
def drawPin : M Bool := fun s =>
  .ok (s.draws.pins.peek Config.freePin) (s.withDraws { s.draws with pins := s.draws.pins.advance })

/-- How many more rounds a wait makes before its deadline passes (46_dispatcher R310). -/
def drawWait : M Nat := fun s =>
  .ok (s.draws.waits.peek Config.freeWait) (s.withDraws { s.draws with waits := s.draws.waits.advance })

/-- The agents that move here, in order (60_exceptions R406, 20_memory R93). -/
def drawTurns : M (List Agent) := fun s =>
  .ok (s.draws.turns.peek Config.freeTurns) (s.withDraws { s.draws with turns := s.draws.turns.advance })

/-- Whether a signal ends a lock wait (46_dispatcher R301). -/
def drawSignal : M Bool := fun s =>
  .ok (s.draws.signals.peek Config.freeSignal)
    (s.withDraws { s.draws with signals := s.draws.signals.advance })

/-- `now()` (47_lifecycle_trace_ops R344). -/
def drawTime : M Nat := fun s =>
  .ok (s.draws.times.peek Config.freeTime) (s.withDraws { s.draws with times := s.draws.times.advance })

/-! Host memory. -/

/-- What a byte of host memory that nothing has written reads as (DESIGN CHOICE, unsafe: log entry 7). -/
def Memory.unlisted : Byte := 0

/-- One byte. -/
def Memory.read : Memory → Nat → Byte
  | [], _ => Memory.unlisted
  | (b, w) :: m, a => if a = b then w else Memory.read m a

/-- A listed byte in front of a memory, left out where it is what an unlisted address reads as. -/
def Memory.cell (a : Nat) (v : Byte) (m : Memory) : Memory := if v = Memory.unlisted then m else (a, v) :: m

/-- The memory with one byte written. -/
def Memory.write : Memory → Nat → Byte → Memory
  | [], a, v => Memory.cell a v []
  | (b, w) :: m, a, v =>
    if a < b then Memory.cell a v ((b, w) :: m)
    else if a = b then Memory.cell a v m
    else (b, w) :: Memory.write m a v

/-- Every address from the bound on, strictly rising, no entry equal to an unlisted byte. -/
def Memory.wfFrom : Nat → Memory → Bool
  | _, [] => true
  | lo, (a, v) :: m => decide (lo ≤ a) && (v != Memory.unlisted) && Memory.wfFrom (a + 1) m

/-- The canonical form. -/
def Memory.wf (m : Memory) : Bool := Memory.wfFrom 0 m

/-! Races (70_reset_and_hazards R461, 92_eei_decisions D45; log entry 17). -/

/-- The address lies in a buffer of the transfer the port has under way. -/
def BusState.owns (b : BusState) (a : Nat) : Bool :=
  b.owning && b.msgs.any fun m => m.buffer ≤ a && a < m.buffer + m.length

/-- The address lies in a buffer of a transfer under way on some port. -/
def State.owned (s : State) (a : Nat) : Bool := s.i2c1.owns a || s.i2c2.owns a || s.i2c3.owns a

/-- The address lies in a buffer of a transfer of which the writer is not the engine. -/
def State.ownedByOther (s : State) (writer : Option Port) (a : Nat) : Bool :=
  (writer != some .i2c1 && s.i2c1.owns a) || (writer != some .i2c2 && s.i2c2.owns a)
    || (writer != some .i2c3 && s.i2c3.owns a)

/-- The other values written to a byte under a race. -/
def State.raceOf (s : State) (a : Nat) : List Byte := (s.races.filter fun c => c.1 == a).map (·.2)

/-- A byte stored by a port's engine or, with no port, by an agent outside the block. A store to a byte another agent's
transfer owns is a race, and so is each further store to that byte: what the byte held stays one of its values. -/
def State.stored (s : State) (writer : Option Port) (a : Nat) (v : Byte) : State :=
  if s.ownedByOther writer a || !(s.raceOf a).isEmpty then
    (s.withRaces (s.races ++ [(a, s.mem.read a)])).withMem (s.mem.write a v)
  else s.withMem (s.mem.write a v)

/-- One of several values, the last in the list drawn for, or the first value where none is. -/
def oneOf : List Byte → Byte → Source Bool → Byte × Source Bool
  | [], v, x => (v, x)
  | w :: ws, v, x => oneOf ws (if x.peek Config.freeRace then w else v) x.advance

/-- What an engine finds in a byte: under a race any of the values written to it. -/
def State.found (s : State) (a : Nat) : Byte := (oneOf (s.raceOf a) (s.mem.read a) s.draws.races).1

/-- The state after that. -/
def State.afterFound (s : State) (a : Nat) : State :=
  s.withDraws { s.draws with races := (oneOf (s.raceOf a) (s.mem.read a) s.draws.races).2 }

/-- A byte an engine reads. -/
def loadByte (a : Nat) : M Byte := fun s => .ok (s.found a) (s.afterFound a)

/-- The memory in which the listed races ended: each byte one of the values written to it. -/
def Memory.decided : Memory → List Host.Cell → Source Bool → Memory × Source Bool
  | m, [], x => (m, x)
  | m, (a, v) :: cs, x => Memory.decided (if x.peek Config.freeRace then m.write a v else m) cs x.advance

/-- The state in which the races over bytes that no transfer owns any more ended. -/
def State.decided (s : State) : State :=
  let ended := s.mem.decided (s.races.filter fun c => !s.owned c.1) s.draws.races
  ((s.withMem ended.1).withDraws { s.draws with races := ended.2 }).withRaces (s.races.filter fun c => s.owned c.1)

/-! The register accessors. -/

/-- One of the eight registers of the block (40_register_access R150). -/
def mapped : Reg → Bool
  | .cr1 | .cr2 | .oar1 | .dr | .sr1 | .sr2 | .ccr | .trise => true
  | .oar2 | .unlisted _ => false

/-- A control register (40_register_access R152). -/
def isControl : Reg → Bool
  | .cr1 | .cr2 => true
  | .oar1 | .oar2 | .dr | .sr1 | .sr2 | .ccr | .trise | .unlisted _ => false

/-- What a write leaves in a register (20_memory R87). SR1's error bits, 8 to 15, are cleared where 0 is written and
its other bits are read-only (10_state R58). That they are bits 8 to 15 under every layout is a DESIGN CHOICE (log
entry 16): R58 places them in the default layout, 46_dispatcher R303 names the flags only. -/
def Regs.written (x : Regs) (r : Reg) (v : Half) : Regs :=
  match r with
  | .cr1 => { x with cr1 := v }
  | .cr2 => { x with cr2 := v }
  | .oar1 => { x with oar1 := v }
  | .dr => { x with dr := v }
  | .sr1 => { x with sr1 := x.sr1 &&& (v ||| 0x00FF) }
  | .ccr => { x with ccr := v }
  | .trise => { x with trise := v }
  | .sr2 | .oar2 | .unlisted _ => x

/-- The Bus State with an event appended to its history (00_scope R24). -/
def BusState.record (b : BusState) (e : Event) : BusState := { b with hist := b.hist ++ [e] }

/-- The Bus State after a register write: the register, the history, and the last value written to CR2. -/
def BusState.put (b : BusState) (r : Reg) (v : Half) : BusState :=
  { b with
    regs := b.regs.written r v
    cr2Written := if r = .cr2 then v else b.cr2Written
    hist := b.hist ++ [.wr r v] }

/-- REG_GET (40_register_access R150). -/
def regGet (p : Port) (r : Reg) : M Half := do
  ensure (mapped r) .regUnmapped
  ensure (← lookBus p (·.plat.clkEn)) .portDown
  let v ← drawReg
  updBus p (·.record (.rd r v))
  return v

/-- REG_PUT (40_register_access R151). -/
def regPut (p : Port) (r : Reg) (v : Half) : M Unit := do
  ensure (mapped r) .regUnmapped
  ensure (r != .sr2) .regReadOnly
  ensure (← lookBus p (·.plat.clkEn)) .portDown
  updBus p (·.put r v)

/-- The value a Modify writes for the value it read (00_scope R23). -/
def modified (v clr set : Half) : Half := (v &&& ~~~clr) ||| set

/-- REG_MODIFY (40_register_access R152): a Get, then a Put. -/
def regModify (p : Port) (r : Reg) (clr set : Half) : M Unit := do
  ensure (mapped r) .regUnmapped
  ensure (isControl r) .modifyNotControl
  let v ← regGet p r
  regPut p r (modified v clr set)

/-! Buffer bytes (40_register_access R158, 20_memory R81). -/

/-- `ptr` lies in the current message's buffer. -/
def BusState.inBuffer (b : BusState) : Bool := b.curBuf ≤ b.ptr && b.ptr < b.curBuf + b.totalMsgLen

/-- The address exists. -/
def State.hasAddress (s : State) (a : Nat) : Bool := a < 2 ^ s.cfg.addrWidth

/-- The buffer byte at `ptr` may be accessed. -/
def bufferAccess (p : Port) : M Nat := do
  ensure (← lookBus p (·.inBuffer)) .bufferOverrun
  let a ← lookBus p (·.ptr)
  ensure (← look (·.hasAddress a)) .noSuchAddress
  return a

/-- ReadByte (30_encoding R125): one byte from DR to the buffer. -/
def readByte (p : Port) : M Unit := do
  let v ← regGet p .dr
  let a ← bufferAccess p
  let b : Byte := v.setWidth 8
  upd (·.stored (some p) a b)
  updBus p (·.record (.mwr a b))
  updBus p fun x => { x with ptr := x.ptr + 1 }

/-- WriteByte (30_encoding R125): one byte from the buffer to DR. -/
def writeByte (p : Port) : M Unit := do
  let a ← bufferAccess p
  let b ← loadByte a
  updBus p (·.record (.mrd a b))
  regPut p .dr (b.setWidth 16)
  updBus p fun x => { x with ptr := x.ptr + 1 }

/-! Instances (10_state R51). -/

/-- The instance of a handle. -/
def State.inst (s : State) (d : Nat) : Option Inst := (s.instances[d]?).getD none

/-- The instance of a handle an operation acts on (70_reset_and_hazards R454; log entry 8). -/
def getInst (d : Nat) : M Inst := do
  match ← look (·.inst d) with
  | some x => return x
  | none => refuse .noInstance

/-- A handle's instance changed; a handle released meanwhile stays released (log entry 8). -/
def updInst (d : Nat) (f : Inst → Inst) : M Unit := upd fun s => s.withInstances (s.instances.modify d (·.map f))

/-- A handle released. -/
def freeInst (d : Nat) : M Unit := upd fun s => s.withInstances (s.instances.set d none)

/-- The value an operation returns to its caller (46_dispatcher R320; log entry 13). -/
def answer (x : Int) : M Unit := upd fun s => s.withRet x

end Sys2Proof.Machine
end

