-- ==== Sys2Proof/Machine/Operands.lean ====
section
/-! DEFINITION. The words the rules assemble: the address byte, the status word, the CCR word, the clock formulas and
the deadline (30_encoding R118 to R122, 41_clock_programmer R183 to R191, 46_dispatcher R310). -/

namespace Sys2Proof.Machine

/-- `zext_32` of a register value. -/
def zext32 (v : Half) : Word32 := v.setWidth 32

/-- A register value in bits 31 to 16 of the status word (30_encoding R120). -/
def high16 (v : Half) : Word32 := zext32 v <<< 16

/-- The packed status word (30_encoding R120). -/
def statusWord (sr1 sr2 : Half) : Word32 := zext32 sr1 ||| high16 sr2

/-- The address byte (30_encoding R118): 0 for a 10-bit message, else the address shifted left with READ in bit 0. -/
def addressByte (addr : Nat) (f : MsgFlags) : Byte :=
  if f.ten then 0 else BitVec.ofNat 8 (2 * addr + (if f.read then 1 else 0))

/-- The numbers CLK_PROGRAM computes. -/
structure ClockWords where
  ccr   : Nat
  duty  : Bool
  fs    : Bool
  trise : Nat
deriving DecidableEq, Repr

/-- Standard mode (41_clock_programmer R183). -/
def clockStandard (fp ft : Nat) : ClockWords := ⟨max 4 (fp / (2 * ft)), false, false, fp / 1000000 + 1⟩

/-- Fast mode (41_clock_programmer R184). -/
def clockFast (duty169 : Bool) (fp ft : Nat) : ClockWords :=
  ⟨max 1 (if duty169 then fp / (25 * ft) else fp / (3 * ft)), duty169, true, fp / 1000000 * 300 / 1000 + 1⟩

/-- The clock formulas (41_clock_programmer R183, R184). -/
def clockWords (duty169 : Bool) (fp ft : Nat) : ClockWords :=
  if ft ≤ 100000 then clockStandard fp ft else clockFast duty169 fp ft

/-- Why CLK_PROGRAM refuses, in the order R190 lists, or nothing. Under a layout with other widths than the default, the
bounds are the largest numbers its CCR and TRISE fields hold (DESIGN CHOICE, log entry 4: R190 and 30_encoding R121 give
0xFFF and 0x3F, those of the default layout, only). -/
def clockRefusal (l : BitLayout) (duty169 : Bool) (fp ft : Nat) : Option Refusal :=
  if ft = 0 then some .divByZero
  else if 2 ^ l.ccr.width ≤ (clockWords duty169 fp ft).ccr then some .ccrOverflow
  else if 2 ^ l.trise.width ≤ (clockWords duty169 fp ft).trise then some .triseOverflow
  else none

/-- The mask of one register bit. -/
def bit (i : Fin 16) : Half := 1#16 <<< i.val

/-- A number placed in a field of a register, every other bit 0 (00_scope R17). -/
def place (f : BitField) (n : Nat) : Half := BitVec.ofNat 16 n <<< f.lo.val

/-- The CCR word (30_encoding R121). -/
def ccrWord (l : BitLayout) (w : ClockWords) : Half :=
  place l.ccr (w.ccr % 2 ^ l.ccr.width) ||| (if w.duty then bit l.duty else 0) ||| (if w.fs then bit l.fs else 0)

/-- The deadline of a wait in microseconds (46_dispatcher R310). -/
def deadlineUs (c : Config) (msgs : List Message) : Nat :=
  match c.timeoutKind with
  | .static => c.timeoutS * 1000000 + c.timeoutMs * 1000
  | .dynamic => c.usPerByte * (msgs.map (·.length)).sum

/-- The magnitude of an error (00_scope R21). -/
def Errno.magnitude (e : Errno) : ErrVal → Nat
  | .ok => 0
  | .timedout => e.timedout
  | .io => e.io
  | .again => e.again
  | .noent => e.noent
  | .nxio => e.nxio
  | .proto => e.proto
  | .time => e.time
  | .busy => e.busy
  | .interrupted => e.interrupted

/-- The value an operation returns (46_dispatcher R320): 0, or the negative error value. -/
def returnValue (c : Config) (e : ErrVal) : Int := -(Errno.magnitude c.errno e : Int)

/-- The address of a register: its port's base and its offset (20_memory R89); none for an unlisted register. -/
def regAddress (c : Config) (p : Port) (r : Reg) : Option Nat :=
  let base := match p with
    | .i2c1 => c.bus1.base
    | .i2c2 => c.bus2.base
    | .i2c3 => c.bus3.base
  match r with
  | .cr1 => some (base + c.offsets.cr1)
  | .cr2 => some (base + c.offsets.cr2)
  | .oar1 => some (base + c.offsets.oar1)
  | .oar2 => some (base + c.offsets.oar2)
  | .dr => some (base + c.offsets.dr)
  | .sr1 => some (base + c.offsets.sr1)
  | .sr2 => some (base + c.offsets.sr2)
  | .ccr => some (base + c.offsets.ccr)
  | .trise => some (base + c.offsets.trise)
  | .unlisted _ => none

end Sys2Proof.Machine
end

