-- ==== Sys2Proof/Machine/Flags.lean ====
section
/-! DEFINITION. The flags: the masks of the register fields, the engine selector and the error classification
(30_encoding R110 to R113 and R123, 46_dispatcher R318). -/

namespace Sys2Proof.Machine

/-- A field of a 16-bit register value. -/
def has (v : Half) (i : Fin 16) : Bool := v.getLsbD i.val

/-- START, STOP and PEC of CR1, which step 4 and the timeout path clear (46_dispatcher R304, R311). -/
def startStopPec (l : BitLayout) : Half := bit l.start ||| bit l.stop ||| bit l.pec

/-- ITERREN and ITEVTEN of CR2 (46_dispatcher R307). -/
def evErrEnables (l : BitLayout) : Half := bit l.iterren ||| bit l.itevten

/-- ALLINTS: every I2C interrupt enable of CR2 (10_state R55). -/
def allInts (l : BitLayout) : Half := evErrEnables l ||| bit l.itbufen

/-- ERRMASK: the SR1 bits the dispatcher classifies (10_state R59). -/
def errMask (l : BitLayout) : Half :=
  bit l.berr ||| bit l.arlo ||| bit l.af ||| bit l.ovr ||| bit l.pecerr ||| bit l.timeout

/-- DC, the class of `dcnt` (30_encoding R111). A `dcnt` below -1 has no class: it gets the reserved code 010. -/
def dcClass (d : Int) : BitVec 3 :=
  if d = -1 then 0 else if d = 0 then 1 else if d = 1 then 4 else if d = 2 then 5 else if d = 3 then 6
  else if d < -1 then 2 else 7

/-- LC, the class of `total_msg_len` (30_encoding R112). -/
def lcClass (n : Nat) : BitVec 2 :=
  if n = 0 then 0 else if n = 1 then 1 else if n = 2 then 2 else 3

/-- The class of a message's flags: restart, no-restart or unrecognized (30_encoding R113). -/
def flagsClass (f : MsgFlags) : BitVec 2 :=
  if f = MsgFlags.empty ∨ f.read = true then 0 else if f.norestart then 1 else 2

/-- The message `msgv` names; none where it names none (42_engine_address_phase R200). -/
def BusState.message (b : BusState) : Option Message :=
  match b.msgv with
  | none => none
  | some i => if i < b.count then b.msgs[i]? else none

/-- NX, the class of the next message (30_encoding R113); none where a message is needed and `msgv` names none. -/
def nxClass (b : BusState) : Option (BitVec 2) :=
  if b.msgc = 0 then some 0 else b.message.map (flagsClass ·.flags)

/-- The selector's bits, from the highest (30_encoding R110). -/
def selectorBits (c : Config) (sr1 : Half) (b : BusState) (nx : BitVec 2) : Selector :=
  0#3 ++ BitVec.ofBool (has sr1 c.layout.addr || has sr1 c.layout.txe) ++ nx
    ++ BitVec.ofBool (b.msgc == 0) ++ lcClass b.totalMsgLen ++ dcClass b.dcnt
    ++ BitVec.ofBool (c.mode == .interrupt) ++ BitVec.ofBool b.checkAddrAck ++ BitVec.ofBool b.flags.read
    ++ BitVec.ofBool (has sr1 c.layout.txe) ++ BitVec.ofBool (has sr1 c.layout.rxne)
    ++ BitVec.ofBool (has sr1 c.layout.btf) ++ BitVec.ofBool (has sr1 c.layout.addr)
    ++ BitVec.ofBool (has sr1 c.layout.sb)

/-- The selector of a Bus State for the SR1 value read at entry (30_encoding R110). -/
def selector (c : Config) (sr1 : Half) (b : BusState) : Option Selector := (nxClass b).map (selectorBits c sr1 b)

/-- The error kind of SR1.AF (00_scope R20). -/
def afErrVal : AfError → ErrVal
  | .noent => .noent
  | .nxio => .nxio

/-- ERR_CLASSIFY (46_dispatcher R318): the first match wins. -/
def classify (c : Config) (x : Word32) (e : ErrVal) : ErrVal :=
  if x.getLsbD c.layout.berr then .io
  else if x.getLsbD c.layout.arlo then .again
  else if x.getLsbD c.layout.af then afErrVal c.afError
  else if x.getLsbD c.layout.ovr then .io
  else if x.getLsbD c.layout.pecerr then .proto
  else if x.getLsbD c.layout.timeout then .time
  else if x.getLsbD (c.layout.busy + 16) then .busy
  else e

end Sys2Proof.Machine
end

