-- ==== Sys2Proof/Machine/Registers.lean ====
section
/-! DEFINITION. The register primitives as instructions, and the edits of CR1 and CR2 the rules name
(40_register_access R150 to R155, 30_encoding R125). -/

namespace Sys2Proof.Machine

/-- The meaning of REG_GET: the value read is answered (R150). -/
def execRegGet (p : Port) (r : Reg) (s : State) : Host.Outcome State Fault Refusal :=
  finish (do let v ← regGet p r; answer v.toNat) s

/-- The meaning of REG_PUT (R151). -/
def execRegPut (p : Port) (r : Reg) (v : Half) (s : State) : Host.Outcome State Fault Refusal :=
  finish (regPut p r v) s

/-- The meaning of REG_MODIFY (R152). -/
def execRegModify (p : Port) (r : Reg) (clr set : Half) (s : State) : Host.Outcome State Fault Refusal :=
  finish (regModify p r clr set) s

/-- A bit of CR1 set. -/
def setCr1 (p : Port) (i : BitLayout → Fin 16) : M Unit := do
  regModify p .cr1 0 (bit (i (← look (·.cfg.layout))))

/-- A bit of CR1 cleared. -/
def clrCr1 (p : Port) (i : BitLayout → Fin 16) : M Unit := do
  regModify p .cr1 (bit (i (← look (·.cfg.layout)))) 0

/-- EmitSTART (R153). -/
def emitStart (p : Port) : M Unit := setCr1 p (·.start)

/-- EmitSTOP (R153). -/
def emitStop (p : Port) : M Unit := setCr1 p (·.stop)

/-- SetACK (R154). -/
def setAck (p : Port) : M Unit := setCr1 p (·.ack)

/-- ClrACK (R154). -/
def clrAck (p : Port) : M Unit := clrCr1 p (·.ack)

/-- SetPOS (R154). -/
def setPos (p : Port) : M Unit := setCr1 p (·.pos)

/-- ClrPOS (R154). -/
def clrPos (p : Port) : M Unit := clrCr1 p (·.pos)

/-- SetITBUFEN (R155). -/
def setItbufen (p : Port) : M Unit := do
  regModify p .cr2 0 (bit (← look (·.cfg.layout.itbufen)))

/-- DisableAll (R155). -/
def disableAll (p : Port) : M Unit := do
  regModify p .cr2 (allInts (← look (·.cfg.layout))) 0

end Sys2Proof.Machine
end

