-- ==== Sys2Proof/Machine/Trace.lean ====
section
/-! DEFINITION. The Trace Recorder (47_lifecycle_trace_ops R344 to R348). With tracing off each does nothing. -/

namespace Sys2Proof.Machine

/-- The current entry of the ring; a fresh one where the ring has no such entry (log entry 14). -/
def Trace.current (t : Trace) : TraceEntry := (t.ring[t.cur]?).getD TraceEntry.fresh

/-- The ring with its current entry replaced. -/
def Trace.setCurrent (t : Trace) (e : TraceEntry) : Trace := { t with ring := t.ring.set t.cur e }

/-- The ring with the current entry annotated by an event (R346). -/
def Trace.annotate (t : Trace) (ev : EvName) (param : Int) : Trace :=
  t.setCurrent { t.current with event := ev, param := param }

/-- The ring with its current entry's count raised (R344). -/
def Trace.bump (t : Trace) : Trace := t.setCurrent { t.current with count := t.current.count + 1 }

/-- The ring after TRACE_RESET at a time (R345). -/
def Trace.cleared (t : Trace) (now : Nat) : Trace :=
  { ring := t.ring.set 0 TraceEntry.fresh, cur := 0, epoch := now }

/-- A dumped entry, its timestamp relative to the TRACE_RESET time (R348). -/
def Trace.dumped (t : Trace) (e : TraceEntry) : LogItem :=
  .entry e.status e.count e.event e.param ((e.timestamp : Int) - t.epoch)

/-- What TRACE_DUMP writes: the entries 0 to `cur` (R348). -/
def Trace.dump (t : Trace) : List LogItem := (t.ring.take (t.cur + 1)).map t.dumped

/-- TRACE_SAMPLE's action on the ring (R344, R347). -/
def sample (p : Port) (w : Word32) : M Unit := do
  let t ← lookBus p (·.trace)
  let cap ← look (·.cfg.traceCap)
  if t.current.count = 0 then
    let now ← drawTime
    updBus p fun b => { b with trace := t.setCurrent ⟨w, 1, .none, 0, now⟩ }
  else if w = t.current.status then
    updBus p fun b => { b with trace := t.bump }
  else if cap ≤ t.cur + 1 then
    updBus p fun b => { b with log := b.log ++ [.traceOverflow] }
  else
    let now ← drawTime
    updBus p fun b => { b with trace := { t with cur := t.cur + 1 }.setCurrent ⟨w, 1, .none, 0, now⟩ }

/-- An action of the recorder: nothing with tracing off (00_scope R13). -/
def whenTracing (m : M Unit) : M Unit := do
  onlyIf (← look (·.cfg.traceOn)) m

/-- TRACE_SAMPLE (R344). -/
def traceSample (p : Port) (w : Word32) : M Unit := whenTracing (sample p w)

/-- The Bus State after an event: appended to the history, and annotating the current trace entry (R346). -/
def BusState.emitted (b : BusState) (ev : EvName) (param : Int) : BusState :=
  { b with hist := b.hist ++ [.ev ev param], trace := b.trace.annotate ev param }

/-- TRACE_EVENT, `emit(ev, param)` (R346). -/
def emit (p : Port) (ev : EvName) (param : Int) : M Unit := whenTracing (updBus p (·.emitted ev param))

/-- TRACE_RESET (R345). -/
def traceReset (p : Port) : M Unit := whenTracing do
  let now ← drawTime
  updBus p fun b => { b with trace := b.trace.cleared now }

/-- TRACE_DUMP (R348). -/
def traceDump (p : Port) : M Unit := whenTracing (updBus p fun b => { b with log := b.log ++ b.trace.dump })

/-- The meaning of TRACE_SAMPLE. -/
def execTraceSample (p : Port) (w : Word32) (s : State) : Host.Outcome State Fault Refusal :=
  finish (traceSample p w) s

/-- The meaning of TRACE_EVENT. -/
def execTraceEvent (p : Port) (ev : EvName) (param : Int) (s : State) : Host.Outcome State Fault Refusal :=
  finish (emit p ev param) s

/-- The meaning of TRACE_RESET. -/
def execTraceReset (p : Port) (s : State) : Host.Outcome State Fault Refusal :=
  finish (traceReset p) s

/-- The meaning of TRACE_DUMP. -/
def execTraceDump (p : Port) (s : State) : Host.Outcome State Fault Refusal :=
  finish (traceDump p) s

end Sys2Proof.Machine
end

