-- ==== Sys2Proof/Machine/Address.lean ====
section
/-! DEFINITION. The message-advance prelude and the address phase (42_engine_address_phase R200 to R218). Every
sub-case acts on the port and the SR1 value of `State.entry`, and does not test its own condition: the decoder does. -/

namespace Sys2Proof.Machine

/-- The port of the entry. -/
def entryPort : M Port := look (·.entry.port)

/-- ReadSR2 (30_encoding R125): SR2 read and ORed into the status word `s`. -/
def readSr2 (p : Port) : M Unit := do
  let v ← regGet p .sr2
  upd fun s => s.withEntry { s.entry with s := s.entry.s ||| high16 v }

/-- The message `msgv` names (42_engine_address_phase R200). -/
def nextMessage (p : Port) : M Message := do
  match ← lookBus p (·.message) with
  | some m => return m
  | none => raise .badMsgv

/-- The Bus State with a message latched (R200). -/
def BusState.latch (b : BusState) (m : Message) : BusState :=
  { b with
    ptr := m.buffer
    curBuf := m.buffer
    dcnt := m.length
    totalMsgLen := m.length
    flags := m.flags
    curAddr := m.addr
    msgc := b.msgc - 1
    msgv := if b.msgc - 1 > 0 then b.msgv.map (· + 1) else b.msgv }

/-- ENG_ADVANCE (R200). -/
def subAdvance : M Unit := do
  let p ← entryPort
  let m ← nextMessage p
  require (m.length ≤ (← look (·.cfg.maxLen))) .lengthTooLarge
  updBus p (·.latch m)
  emit p .advance m.length

/-- The ACK and POS policy of the data phase (R202). -/
def ackPosPolicy (p : Port) (n : Nat) (read : Bool) : M Unit :=
  if n = 1 ∧ read = true then do clrPos p; clrAck p
  else if n = 2 ∧ read = true then do setPos p; setAck p
  else do clrPos p; setAck p

/-- ENG_SB_ADDR (R203). -/
def subSbAddr : M Unit := do
  let p ← entryPort
  let b ← lookBus p id
  ackPosPolicy p b.totalMsgLen b.flags.read
  let a := addressByte b.curAddr b.flags
  regPut p .dr (a.setWidth 16)
  updBus p fun b => { b with checkAddrAck := true }
  emit p .sendaddr a.toNat

/-- ENG_SB_EMPTY (R207). -/
def subSbEmpty : M Unit := do
  let p ← entryPort
  updBus p fun b => { b with dcnt := -1 }
  setItbufen p
  emit p .empty 0

/-- ENG_ADDR_NACK (R212). -/
def subAddrNack : M Unit := do
  let p ← entryPort
  updBus p fun b => { b with checkAddrAck := false, dcnt := -1, msgc := 0 }
  emitStop p
  emit p .addrNack 0

/-- ENG_RADDR_1 (R213). -/
def subRaddr1 : M Unit := do
  let p ← entryPort
  setItbufen p
  readSr2 p
  emitStop p
  updBus p fun b => { b with dcnt := b.dcnt - 1, checkAddrAck := false }
  emit p .rcvbyte1 0

/-- ENG_RADDR_2 (R214). -/
def subRaddr2 : M Unit := do
  let p ← entryPort
  clrAck p
  readSr2 p
  updBus p fun b => { b with checkAddrAck := false }
  emit p .rcvbyte2 0

/-- ENG_RADDR_N (R215). -/
def subRaddrN : M Unit := do
  let p ← entryPort
  readSr2 p
  updBus p fun b => { b with checkAddrAck := false }
  emit p .rcvbyteN (← lookBus p (·.dcnt))

/-- The meaning of ENG_ADVANCE. -/
def execEngAdvance (s : State) : Host.Outcome State Fault Refusal := finish subAdvance s

/-- The meaning of ENG_SB_ADDR. -/
def execEngSbAddr (s : State) : Host.Outcome State Fault Refusal := finish subSbAddr s

/-- The meaning of ENG_SB_EMPTY. -/
def execEngSbEmpty (s : State) : Host.Outcome State Fault Refusal := finish subSbEmpty s

/-- The meaning of ENG_ADDR_NACK. -/
def execEngAddrNack (s : State) : Host.Outcome State Fault Refusal := finish subAddrNack s

/-- The meaning of ENG_RADDR_1. -/
def execEngRaddr1 (s : State) : Host.Outcome State Fault Refusal := finish subRaddr1 s

/-- The meaning of ENG_RADDR_2. -/
def execEngRaddr2 (s : State) : Host.Outcome State Fault Refusal := finish subRaddr2 s

/-- The meaning of ENG_RADDR_N. -/
def execEngRaddrN (s : State) : Host.Outcome State Fault Refusal := finish subRaddrN s

end Sys2Proof.Machine
end

