-- ==== Sys2Proof/Machine/Read.lean ====
section
/-! DEFINITION. The read data phase of the engine (44_engine_read_path R250 to R263); every sub-case ends with the SR2
read of R251. -/

namespace Sys2Proof.Machine

/-- ENG_R1_LAST (R252). -/
def subR1Last : M Unit := do
  let p ← entryPort
  readByte p
  updBus p fun b => { b with dcnt := b.dcnt - 1 }
  emit p .rcvbyteLast 0
  readSr2 p

/-- ENG_R2_WAIT (R253). -/
def subR2Wait : M Unit := do
  let p ← entryPort
  emit p .read2Wait 0
  readSr2 p

/-- STOP, then the last two bytes, then `dcnt` to -1: the common body of R254 and R258. -/
def finalPair (p : Port) : M Unit := do
  emitStop p
  readByte p
  readByte p
  updBus p fun b => { b with dcnt := -1 }

/-- ENG_R2_FINAL (R254). -/
def subR2Final : M Unit := do
  let p ← entryPort
  finalPair p
  emit p .read2 0
  readSr2 p

/-- ENG_RN_WAIT (R255). -/
def subRnWait : M Unit := do
  let p ← entryPort
  emit p .readWait (← lookBus p (·.dcnt))
  readSr2 p

/-- ENG_RN_BYTE (R256). -/
def subRnByte : M Unit := do
  let p ← entryPort
  readByte p
  updBus p fun b => { b with dcnt := b.dcnt - 1 }
  emit p .rcvbyte (← lookBus p (·.dcnt))
  readSr2 p

/-- ENG_RN_NACKPREP (R257). -/
def subRnNackprep : M Unit := do
  let p ← entryPort
  clrAck p
  readByte p
  updBus p fun b => { b with dcnt := b.dcnt - 1 }
  emit p .rcvbyteNackprep 2
  readSr2 p

/-- ENG_RN_FINAL (R258). -/
def subRnFinal : M Unit := do
  let p ← entryPort
  finalPair p
  emit p .rcvbyteFinal 0
  readSr2 p

/-- ENG_R_ERR (R262). -/
def subRErr : M Unit := do
  let p ← entryPort
  emit p .readError (← lookBus p (·.dcnt))
  updBus p fun b => { b with dcnt := -1, msgc := 0 }
  readSr2 p

/-- The meaning of ENG_R1_LAST. -/
def execEngR1Last (s : State) : Host.Outcome State Fault Refusal := finish subR1Last s

/-- The meaning of ENG_R2_WAIT. -/
def execEngR2Wait (s : State) : Host.Outcome State Fault Refusal := finish subR2Wait s

/-- The meaning of ENG_R2_FINAL. -/
def execEngR2Final (s : State) : Host.Outcome State Fault Refusal := finish subR2Final s

/-- The meaning of ENG_RN_WAIT. -/
def execEngRnWait (s : State) : Host.Outcome State Fault Refusal := finish subRnWait s

/-- The meaning of ENG_RN_BYTE. -/
def execEngRnByte (s : State) : Host.Outcome State Fault Refusal := finish subRnByte s

/-- The meaning of ENG_RN_NACKPREP. -/
def execEngRnNackprep (s : State) : Host.Outcome State Fault Refusal := finish subRnNackprep s

/-- The meaning of ENG_RN_FINAL. -/
def execEngRnFinal (s : State) : Host.Outcome State Fault Refusal := finish subRnFinal s

/-- The meaning of ENG_R_ERR. -/
def execEngRErr (s : State) : Host.Outcome State Fault Refusal := finish subRErr s

end Sys2Proof.Machine
end

