-- ==== Sys2Proof/Machine/Write.lean ====
section
/-! DEFINITION. The write path of the engine (43_engine_write_path R230 to R237). -/

namespace Sys2Proof.Machine

/-- The preamble of every write sub-case (R230): where ADDR was set at entry, SR2 is read and the mark cleared. -/
def writePreamble (p : Port) : M Unit := do
  let sr1 ← look (·.entry.sr1)
  if has sr1 (← look (·.cfg.layout.addr)) then
    readSr2 p
    updBus p fun b => { b with checkAddrAck := false }

/-- ENG_W_BYTE (R231). -/
def subWByte : M Unit := do
  let p ← entryPort
  writePreamble p
  writeByte p
  updBus p fun b => { b with dcnt := b.dcnt - 1 }
  emit p .sendbyte (← lookBus p (·.dcnt))

/-- ENG_W_STOP (R232). -/
def subWStop : M Unit := do
  let p ← entryPort
  writePreamble p
  emitStop p
  updBus p fun b => { b with dcnt := b.dcnt - 1 }
  emit p .stop 0

/-- ENG_W_RESTART (R233). -/
def subWRestart : M Unit := do
  let p ← entryPort
  writePreamble p
  emitStart p
  updBus p fun b => { b with dcnt := b.dcnt - 1 }
  emit p .restart 0

/-- ENG_W_NORESTART (R234). -/
def subWNorestart : M Unit := do
  let p ← entryPort
  writePreamble p
  updBus p fun b => { b with dcnt := -1 }
  emit p .norestart 0

/-- ENG_W_FLAGERR (R235): the event's parameter is the next message's flags as a number (30_encoding R119). -/
def subWFlagerr : M Unit := do
  let p ← entryPort
  writePreamble p
  let m ← nextMessage p
  emit p .writeFlagError m.flags.number

/-- ENG_W_NONE (R236). -/
def subWNone : M Unit := do
  let p ← entryPort
  writePreamble p
  emit p .writeIdle 0

/-- The meaning of ENG_W_BYTE. -/
def execEngWByte (s : State) : Host.Outcome State Fault Refusal := finish subWByte s

/-- The meaning of ENG_W_STOP. -/
def execEngWStop (s : State) : Host.Outcome State Fault Refusal := finish subWStop s

/-- The meaning of ENG_W_RESTART. -/
def execEngWRestart (s : State) : Host.Outcome State Fault Refusal := finish subWRestart s

/-- The meaning of ENG_W_NORESTART. -/
def execEngWNorestart (s : State) : Host.Outcome State Fault Refusal := finish subWNorestart s

/-- The meaning of ENG_W_FLAGERR. -/
def execEngWFlagerr (s : State) : Host.Outcome State Fault Refusal := finish subWFlagerr s

/-- The meaning of ENG_W_NONE. -/
def execEngWNone (s : State) : Host.Outcome State Fault Refusal := finish subWNone s

end Sys2Proof.Machine
end

