-- ==== Sys2Proof/Machine/Entry.lean ====
section
/-! DEFINITION. Termination, fallback and the engine entry (45_engine_termination R280 to R289). `engineEntry` is the
one operation by which an event IRQ, an error IRQ and the polled loop run the engine (60_exceptions R405, R409). -/

namespace Sys2Proof.Machine

/-- ENG_EMPTY_TERM (R282). -/
def subEmptyTerm : M Unit := do emit (← entryPort) .shutdown 0

/-- ENG_FALLBACK_POLL (R287); that the entry then ends is `engineEntry`'s. -/
def subFallbackPoll : M Unit := do emit (← entryPort) .notReady 0

/-- ENG_FALLBACK_INT (R288). -/
def subFallbackInt : M Unit := do
  let p ← entryPort
  emit p .stateError (← look (·.entry.sr1.toNat))
  updBus p fun b => { b with dcnt := -1, msgc := 0 }

/-- The first two actions of terminal handling: status captured, `msgv` cleared (R283, R284). -/
def capture (p : Port) : M Unit := do
  let s ← look (·.entry.s)
  updBus p fun b => { b with status := s, msgv := none }

/-- ENG_TERM_POLL (R285). -/
def subTermPoll : M Unit := do
  let p ← entryPort
  capture p
  updBus p fun b => { b with intstate := .done }
  emit p .done 0

/-- DONE and one post, only if a waiter waits (R286). -/
def BusState.signalled (b : BusState) : BusState :=
  if b.intstate = .waiting then { b with intstate := .done, sem := b.sem + 1 } else b

/-- ENG_TERM_INT (R286). -/
def subTermInt : M Unit := do
  let p ← entryPort
  capture p
  disableAll p
  updBus p BusState.signalled
  emit p .done 0

/-- The meaning of a sub-case inside an entry. -/
def runSubcase : Subcase → M Unit
  | .advance => subAdvance
  | .sbAddr => subSbAddr
  | .sbEmpty => subSbEmpty
  | .addrNack => subAddrNack
  | .raddr1 => subRaddr1
  | .raddr2 => subRaddr2
  | .raddrN => subRaddrN
  | .wByte => subWByte
  | .wStop => subWStop
  | .wRestart => subWRestart
  | .wNorestart => subWNorestart
  | .wFlagerr => subWFlagerr
  | .wNone => subWNone
  | .r1Last => subR1Last
  | .r2Wait => subR2Wait
  | .r2Final => subR2Final
  | .rnWait => subRnWait
  | .rnByte => subRnByte
  | .rnNackprep => subRnNackprep
  | .rnFinal => subRnFinal
  | .rErr => subRErr
  | .emptyTerm => subEmptyTerm
  | .fallbackPoll => subFallbackPoll
  | .fallbackInt => subFallbackInt
  | .termPoll => subTermPoll
  | .termInt => subTermInt

/-- The selector of the port's Bus State now (30_encoding R110); a reserved value faults (R116). -/
def currentSelector (p : Port) (sr1 : Half) : M Selector := do
  let c ← look (·.cfg)
  match ← lookBus p (selector c sr1) with
  | none => raise .badMsgv
  | some w => do
    ensure (!reservedSelector w) .badSelector
    return w

/-- The branch sub-case of `S` (30_encoding R114). -/
def branchOf (w : Selector) : M Subcase :=
  match decodeSelector .branch w with
  | some c => pure c
  | none => raise .badSelector

/-- The prelude: ENG_ADVANCE where it matches `S_pre` (30_encoding R114). -/
def prelude (p : Port) (sr1 : Half) : M Unit := do
  let sPre ← currentSelector p sr1
  onlyIf (matchesAdvance sPre) subAdvance

/-- Terminal handling where a terminal row matches `S_post` (30_encoding R114). -/
def terminal (p : Port) (sr1 : Half) : M Unit := do
  let sPost ← currentSelector p sr1
  match decodeSelector .term sPost with
  | some c => runSubcase c
  | none => pure ()

/-- ENG_ENTRY (R280). The entry-local word does not survive the entry (10_state R66). An entry that a fault or a refusal
ends early leaves its port, SR1 value and word in `State.entry` until the next entry (DESIGN CHOICE, log entry 18: R66 is
silent). -/
def engineEntry (p : Port) : M Unit := do
  let sr1 ← regGet p .sr1
  upd fun s => s.withEntry ⟨p, sr1, zext32 sr1⟩
  traceSample p (zext32 sr1)
  prelude p sr1
  let w ← currentSelector p sr1
  let c ← branchOf w
  runSubcase c
  onlyIf (c != .fallbackPoll) (terminal p sr1)
  upd fun s => s.withEntry ⟨p, 0, 0⟩

/-- The meaning of ENG_EMPTY_TERM. -/
def execEngEmptyTerm (s : State) : Host.Outcome State Fault Refusal := finish subEmptyTerm s

/-- The meaning of ENG_FALLBACK_POLL. -/
def execEngFallbackPoll (s : State) : Host.Outcome State Fault Refusal := finish subFallbackPoll s

/-- The meaning of ENG_FALLBACK_INT. -/
def execEngFallbackInt (s : State) : Host.Outcome State Fault Refusal := finish subFallbackInt s

/-- The meaning of ENG_TERM_POLL. -/
def execEngTermPoll (s : State) : Host.Outcome State Fault Refusal := finish subTermPoll s

/-- The meaning of ENG_TERM_INT. -/
def execEngTermInt (s : State) : Host.Outcome State Fault Refusal := finish subTermInt s

/-- The meaning of ENG_ENTRY. -/
def execEngEntry (p : Port) (s : State) : Host.Outcome State Fault Refusal := finish (engineEntry p) s

end Sys2Proof.Machine
end

