-- ==== Sys2Proof/Machine/Thread.lean ====
section
/-! DEFINITION. Thread context (00_scope R5, 60_exceptions R412): a call as a tree of actions. Between two actions of a
call every other agent may move (20_memory R93, 60_exceptions R406; Machine/Schedule.lean); an action is one primitive
access (a Get, a Put or a Modify, 00_scope R23), one pin access, or one piece of software that R406 leaves whole. A
Modify is one action because 20_memory R88 makes it atomic against the other software agents of its port. -/

namespace Sys2Proof.Machine

/-- A call, or a part of one: it ends with a value, or does an action and goes on with what that was answered. -/
inductive Prog (α : Type) where
  | ret (a : α)
  | act (m : M Ans) (k : Ans → Prog α)

/-- One part of a call, then another. -/
def Prog.andThen {α β : Type} : Prog α → (α → Prog β) → Prog β
  | .ret a, f => f a
  | .act m k, f => .act m fun x => (k x).andThen f

/-- A part of a call done only if the condition holds. -/
def Prog.onlyIf (c : Bool) (x : Prog Unit) : Prog Unit := if c then x else .ret ()

/-- A part of a call with no other agent between its actions (`interrupts_off`, 60_exceptions R412). -/
def Prog.direct {α : Type} : Prog α → M α
  | .ret a => pure a
  | .act m k => do
    let x ← m
    (k x).direct

/-- The rest of a call after its first actions were answered as listed. -/
def Prog.after {α : Type} : Prog α → List Ans → Prog α
  | x, [] => x
  | .ret a, _ :: _ => .ret a
  | .act _ k, x :: xs => (k x).after xs

/-- The call is over. -/
def Prog.isOver {α : Type} : Prog α → Bool
  | .ret _ => true
  | .act _ _ => false

/-! Answers, each read as the kind of value the action gives. -/

/-- A register value. -/
def Ans.toHalf : Ans → Half
  | .half v => v
  | _ => 0

/-- A flag. -/
def Ans.toFlag : Ans → Bool
  | .flag b => b
  | _ => false

/-- A number. -/
def Ans.toNum : Ans → Nat
  | .num n => n
  | _ => 0

/-- A status word. -/
def Ans.toWord : Ans → Word32
  | .word w => w
  | _ => 0

/-- A new instance (47_lifecycle_trace_ops R340, 70_reset_and_hazards R451). -/
def Inst.fresh (p : Port) : Inst := ⟨p, 0, MsgFlags.empty, 100000⟩

/-- An instance. -/
def Ans.toInst : Ans → Inst
  | .inst x => x
  | _ => Inst.fresh .i2c1

/-! Actions. -/

/-- An action that answers nothing. -/
def act (m : M Unit) : Prog Unit := .act (do m; return .unit) fun _ => .ret ()

/-- An action that answers a register value. -/
def askHalf (m : M Half) : Prog Half := .act (do return .half (← m)) fun x => .ret x.toHalf

/-- An action that answers a flag. -/
def askFlag (m : M Bool) : Prog Bool := .act (do return .flag (← m)) fun x => .ret x.toFlag

/-- An action that answers a number. -/
def askNum (m : M Nat) : Prog Nat := .act (do return .num (← m)) fun x => .ret x.toNum

/-- An action that answers a status word. -/
def askWord (m : M Word32) : Prog Word32 := .act (do return .word (← m)) fun x => .ret x.toWord

/-- An action that answers an instance. -/
def askInst (m : M Inst) : Prog Inst := .act (do return .inst (← m)) fun x => .ret x.toInst

/-- A Get of a thread. -/
def get (p : Port) (r : Reg) : Prog Half := askHalf (regGet p r)

/-- A Put of a thread. -/
def put (p : Port) (r : Reg) (v : Half) : Prog Unit := act (regPut p r v)

/-- A Modify of a thread (20_memory R88). -/
def modify (p : Port) (r : Reg) (clr set : Half) : Prog Unit := act (regModify p r clr set)

/-- A change of a port's Bus State by a thread. -/
def write (p : Port) (f : BusState → BusState) : Prog Unit := act (updBus p f)

/-- Go on only if the condition holds; otherwise the refusal. -/
def demand (c : Bool) (r : Refusal) : Prog Unit := if c then .ret () else act (refuse r)

/-- A call, or the rest of one, only if the condition holds; otherwise the refusal, and nothing after it. -/
def offered (c : Bool) (r : Refusal) (x : Prog Unit) : Prog Unit := if c then x else act (refuse r)

/-- The instance a call acts on. -/
def theInst (d : Nat) : Prog Inst := askInst (getInst d)

/-! The lock (20_memory R96). -/

/-- The exclusion lock held by a handle. -/
def BusState.locked (b : BusState) (d : Nat) : BusState := { b with lock := .held d }

/-- One try to acquire: a free lock is taken; while it is held, a signal may end the wait (46_dispatcher R301,
93_implementation_defined U28), or the wait goes on. -/
def tryAcquire (p : Port) (d : Nat) : M Bool := do
  if (← lookBus p (·.lock)) = .free then
    updBus p (·.locked d)
    return true
  else if ← drawSignal then return false
  else keepWaiting

/-- `acquire`: true when the lock is taken, false when a signal ended the wait. -/
def acquire (p : Port) (d : Nat) : Prog Bool := askFlag (tryAcquire p d)

/-- One try of an `acquire` whose wait a signal only restarts (41_clock_programmer R189). -/
def tryAcquireRestart (p : Port) (d : Nat) : M Unit := do
  if (← lookBus p (·.lock)) = .free then updBus p (·.locked d) else keepWaiting

/-- `acquire` whose wait a signal only restarts. -/
def acquireRestart (p : Port) (d : Nat) : Prog Unit := act (tryAcquireRestart p d)

/-- The Bus State with its lock released. -/
def BusState.unlocked (b : BusState) : BusState := { b with lock := .free }

/-- `release` (20_memory R96), then the value the call returns. -/
def releaseAndReturn (p : Port) (x : Int) : Prog Unit := act do
  updBus p (·.unlocked)
  answer x

/-- A call returns an interrupted lock wait's value (60_exceptions R400). -/
def returnInterrupted (c : Config) : Prog Unit := act (answer (returnValue c .interrupted))

end Sys2Proof.Machine
end

