-- ==== Sys2Proof/Machine/Clock.lean ====
section
/-! DEFINITION. The clock programmer and setfrequency (41_clock_programmer R180 to R191). -/

namespace Sys2Proof.Machine

/-- CLK_PROGRAM (R180 to R188, refusals R190). -/
def clkProgram (c : Config) (p : Port) (fp ft : Nat) : Prog Unit :=
  (get p .cr1).andThen fun cr1 =>
  (put p .cr1 (cr1 &&& ~~~(bit c.layout.pe))).andThen fun _ =>
  match clockRefusal c.layout c.duty169 fp ft with
  | some r => act (refuse r)
  | none =>
    (put p .ccr (ccrWord c.layout (clockWords c.duty169 fp ft))).andThen fun _ =>
    (put p .trise (place c.layout.trise (clockWords c.duty169 fp ft).trise)).andThen fun _ =>
    (put p .oar1 0x4000).andThen fun _ =>
    put p .cr1 cr1

/-- The frequency OP_SETFREQUENCY stores (R189). -/
def storedFrequency (pclk f : Nat) : Nat := if pclk < 4000000 then 100000 else f

/-- OP_SETFREQUENCY (R189). -/
def setFrequency (c : Config) (d f : Nat) : Prog Unit :=
  (theInst d).andThen fun x =>
  (acquireRestart x.port d).andThen fun _ =>
  (act (updInst d fun y => { y with frequency := storedFrequency c.pclk f })).andThen fun _ =>
  releaseAndReturn x.port (storedFrequency c.pclk f)

end Sys2Proof.Machine
end

