-- ==== Sys2Proof/Machine/Dispatcher.lean ====
section
/-! DEFINITION. The dispatcher, `process()` (46_dispatcher R300 to R331). Its waits go round as often as a draw says
before their deadline passes (R310; log entry 11). -/

namespace Sys2Proof.Machine

/-- A wait starts: its deadline (46_dispatcher R310) and how many rounds it may make before that passes. -/
def startWait (c : Config) (p : Port) (msgs : List Message) : Prog Nat :=
  askNum do
    updBus p fun b => { b with deadline := deadlineUs c msgs }
    drawWait

/-- The STOP-settle loop with a number of further rounds before the deadline (R302). -/
def settleLoop (c : Config) (p : Port) : Nat → Prog Unit
  | 0 =>
    (get p .cr1).andThen fun v =>
    if has v c.layout.stop then
      (get p .sr1).andThen fun w =>
      if has w c.layout.timeout then .ret () else act (emit p .stopSettleTimeout v.toNat)
    else .ret ()
  | k + 1 =>
    (get p .cr1).andThen fun v =>
    if has v c.layout.stop then
      (get p .sr1).andThen fun w =>
      if has w c.layout.timeout then .ret () else settleLoop c p k
    else .ret ()

/-- `stop_settle()` (R302). -/
def stopSettle (c : Config) (p : Port) (msgs : List Message) : Prog Unit :=
  (startWait c p msgs).andThen (settleLoop c p)

/-- ClrStartStopPec (R304). -/
def clrStartStopPec (c : Config) (p : Port) : Prog Unit := modify p .cr1 (startStopPec c.layout) 0

/-- The Bus State with a chain installed (R305); from here to the transfer's return its buffers are the engine's own
(70_reset_and_hazards R461). -/
def BusState.install (b : BusState) (msgs : List Message) : BusState :=
  { b with msgs := msgs, count := msgs.length, msgc := msgs.length, msgv := some 0, owning := true }

/-- The Bus State at step 6, before the START (R306). -/
def BusState.begun (b : BusState) : BusState := { b with dcnt := -1, status := 0 }

/-- The Bus State with the handshake set (R307, R309). -/
def BusState.handshake (b : BusState) (x : IntState) : BusState := { b with intstate := x }

/-- One round of the polled loop: an entry, then whether DONE is set (R308). -/
def polledRound (p : Port) : M Bool := do
  engineEntry p
  return (← lookBus p (·.intstate)) == .done

/-- The polled loop with a number of further rounds before the deadline; at least one entry (R308). -/
def polledLoop (p : Port) : Nat → Prog Bool
  | 0 => askFlag (polledRound p)
  | k + 1 => (askFlag (polledRound p)).andThen fun ok => if ok then .ret true else polledLoop p k

/-- The Bus State after one take of the semaphore (20_memory R97). -/
def BusState.taken (b : BusState) : BusState := { b with sem := b.sem - 1 }

/-- One wake-up of the wait: a post is taken, or a signal woke it (20_memory R97). -/
def takeOrSignal (p : Port) : M Bool := do
  if (← lookBus p (·.sem)) > 0 then
    updBus p (·.taken)
    return true
  else return false

/-- The deadline passes: a take returns TIMEOUT only with no post there (20_memory R97), so posts still there are taken
first, one that DONE backs as completion, others ignored (R307). -/
def expire (p : Port) : M Bool := do
  let b ← lookBus p id
  if b.sem > 0 ∧ b.intstate = .done then
    updBus p (·.taken)
    return true
  else
    updBus p fun b => { b with sem := 0 }
    return false

/-- The take loop with a number of further wake-ups before the deadline (R307): a post counts only where `intstate` is
then read as DONE. -/
def takeLoop (p : Port) : Nat → Prog Bool
  | 0 => askFlag (expire p)
  | k + 1 =>
    (askFlag (takeOrSignal p)).andThen fun post =>
    if post then
      (askFlag (lookBus p fun b => b.intstate == .done)).andThen fun done =>
      if done then .ret true else takeLoop p k
    else takeLoop p k

/-- The opening of `wait_interrupt()`: WAITING before the enables (R307). -/
def openWait (c : Config) (p : Port) : Prog Unit :=
  (write p (·.handshake .waiting)).andThen fun _ =>
  modify p .cr2 0 (evErrEnables c.layout)

/-- `wait_interrupt()` (R307). -/
def waitInterrupt (c : Config) (p : Port) (msgs : List Message) : Prog Bool :=
  (startWait c p msgs).andThen fun n =>
  (openWait c p).andThen fun _ =>
  (takeLoop p n).andThen fun ok =>
  (modify p .cr2 (allInts c.layout) 0).andThen fun _ =>
  .ret ok

/-- `wait_polled()` (R308). -/
def waitPolled (c : Config) (p : Port) (msgs : List Message) : Prog Bool := (startWait c p msgs).andThen (polledLoop p)

/-- The wait of the mode (R307, R308). -/
def modeWait (c : Config) (p : Port) (msgs : List Message) : Prog Bool :=
  match c.mode with
  | .interrupt => waitInterrupt c p msgs
  | .polled => waitPolled c p msgs

/-- Step 7: the wait of the mode, then the handshake back to IDLE (R307 to R309). -/
def completionWait (c : Config) (p : Port) (msgs : List Message) : Prog Bool :=
  (modeWait c p msgs).andThen fun ok =>
  (write p (·.handshake .idle)).andThen fun _ =>
  .ret ok

/-- Step 8 after a timeout: the live status, then the clean-up (R311). -/
def timeoutStatus (c : Config) (p : Port) : Prog Word32 :=
  (get p .sr1).andThen fun v1 =>
  (get p .sr2).andThen fun v2 =>
  (clrStartStopPec c p).andThen fun _ =>
  (Prog.onlyIf (c.mode == .polled) (modify p .cr1 0 (bit c.layout.stop))).andThen fun _ =>
  .ret (statusWord v1 v2)

/-- Step 8 after completion: the captured status without its SR2 half (R312). -/
def capturedStatus (p : Port) : Prog Word32 := askWord (lookBus p fun b => b.status &&& 0x0000FFFF)

/-- Steps 8 and 9: the classified error value (R311, R312, R314, R318). -/
def transferResult (c : Config) (p : Port) (ok : Bool) : Prog ErrVal :=
  if ok then (capturedStatus p).andThen fun x => .ret (classify c x .ok)
  else (timeoutStatus c p).andThen fun x => .ret (classify c x .timedout)

/-- The FSMC workaround acts on this port (R331). -/
def fsmcActive (c : Config) (p : Port) : Bool := c.fsmcWorkaround && p == .i2c1

/-- The frequency step 5 programs: the instance's, read under the lock (R305); that of the call's start where the handle
was released meanwhile (log entry 8). -/
def frequencyOf (d : Nat) (x : Inst) : M Nat := look fun s => ((s.inst d).getD x).frequency

/-- Steps 2 to 6: settle, clear, install, program, START (R302 to R306). -/
def startTransfer (c : Config) (d : Nat) (x : Inst) (msgs : List Message) (settle : Bool) : Prog Unit :=
  (Prog.onlyIf settle (stopSettle c x.port msgs)).andThen fun _ =>
  (put x.port .sr1 0).andThen fun _ =>
  (clrStartStopPec c x.port).andThen fun _ =>
  (write x.port (·.install msgs)).andThen fun _ =>
  (act (traceReset x.port)).andThen fun _ =>
  (askNum (frequencyOf d x)).andThen fun f =>
  (clkProgram c x.port c.pclk f).andThen fun _ =>
  (write x.port (·.begun)).andThen fun _ =>
  modify x.port .cr1 0 (bit c.layout.start)

/-- The FSMC clock bit saved and cleared (R331). -/
def saveFsmc : M Bool := do
  let v ← look (·.fsmcEn)
  upd fun s => s.withFsmc false
  return v

/-- The FSMC clock bit restored (R331). -/
def restoreFsmc (saved : Bool) : M Unit := upd fun s => s.withFsmc saved

/-- The opening of a transfer under the FSMC workaround: the bit saved and cleared (R331). -/
def openFsmc (active : Bool) : Prog Bool := if active then askFlag saveFsmc else .ret false

/-- Its end: the deferred settle, then the bit restored (R331). -/
def closeFsmc (c : Config) (p : Port) (msgs : List Message) (active saved : Bool) : Prog Unit :=
  Prog.onlyIf active
    ((stopSettle c p msgs).andThen fun _ => act (restoreFsmc saved))

/-- An error kind and the value returned for it (R320). -/
def conclude (c : Config) (e : ErrVal) : M Unit := do
  upd fun s => s.withErrval e
  answer (returnValue c e)

/-- The Bus State after a transfer: the lock released, the buffers the caller's again (R321, 70_reset_and_hazards R461). -/
def BusState.released (b : BusState) : BusState := { b with lock := .free, owning := false }

/-- `release` and return, a transfer's last action (R320, R321), which ends its races (70_reset_and_hazards R461). -/
def releaseAndConclude (c : Config) (p : Port) (e : ErrVal) : M Unit := do
  updBus p (·.released)
  upd (·.decided)
  conclude c e

/-- Step 10 (R320, R321). -/
def closeTransfer (c : Config) (p : Port) (e : ErrVal) : Prog Unit :=
  (act (traceDump p)).andThen fun _ =>
  act (releaseAndConclude c p e)

/-- Steps 2 to 10 with the lock held (R302 to R321, R331). -/
def runTransfer (c : Config) (d : Nat) (x : Inst) (msgs : List Message) : Prog Unit :=
  (openFsmc (fsmcActive c x.port)).andThen fun saved =>
  (startTransfer c d x msgs (!fsmcActive c x.port)).andThen fun _ =>
  (completionWait c x.port msgs).andThen fun ok =>
  (transferResult c x.port ok).andThen fun e =>
  (closeFsmc c x.port msgs (fsmcActive c x.port) saved).andThen fun _ =>
  closeTransfer c x.port e

/-- `process()` for an instance (R300, R301). -/
def process (c : Config) (d : Nat) (x : Inst) (msgs : List Message) : Prog Unit :=
  offered (!msgs.isEmpty) .emptyChain <|
    (acquire x.port d).andThen fun ok =>
    if ok then runTransfer c d x msgs else returnInterrupted c

/-- OP_PROCESS (R300). -/
def opProcess (c : Config) (d : Nat) (msgs : List Message) : Prog Unit :=
  (theInst d).andThen fun x => process c d x msgs

/-- ERR_CLASSIFY (R318): the kind and its return value (R320; log entry 13). -/
def errClassify (x : Word32) (e : ErrVal) : M Unit := do
  let c ← look (·.cfg)
  conclude c (classify c x e)

/-- The meaning of ERR_CLASSIFY. -/
def execErrClassify (x : Word32) (e : ErrVal) (s : State) : Host.Outcome State Fault Refusal :=
  finish (errClassify x e) s

end Sys2Proof.Machine
end

