-- ==== Sys2Proof/Machine/Lifecycle.lean ====
section
/-! DEFINITION. Reference counting, bring-up and shut-down, bus recovery (47_lifecycle_trace_ops R340 to R343). -/

namespace Sys2Proof.Machine

/-- The Bus State with the port's clock enabled (R342). -/
def BusState.clockOn (b : BusState) : BusState := { b with plat := { b.plat with clkEn := true } }

/-- The Bus State after the reset pulse (R342, 70_reset_and_hazards R452). -/
def BusState.pulsed (b : BusState) : BusState :=
  { b with regs := Regs.afterPulse, plat := { b.plat with rstPulses := b.plat.rstPulses + 1 } }

/-- The Bus State with both pins configured (R341 to R343). -/
def BusState.pins (b : BusState) (m : PinMode) : BusState :=
  { b with plat := { b.plat with scl := { b.plat.scl with mode := m }, sda := { b.plat.sda with mode := m } } }

/-- The Bus State with both IRQ lines attached and enabled, or detached and disabled (R341, R342; log entry 20). -/
def BusState.irqs (b : BusState) (on : Bool) : BusState :=
  { b with plat := { b.plat with evIrq := ⟨on, on⟩, erIrq := ⟨on, on⟩ } }

/-- The Bus State with the port's clock gated (R341). -/
def BusState.clockOff (b : BusState) : BusState := { b with plat := { b.plat with clkEn := false } }

/-- LIFE_UP (R342). Under a layout with another width than the default, the bound is the largest number its FREQ field holds
(DESIGN CHOICE, log entry 4: R342 and 30_encoding R122 give the default layout's 0x3F only). -/
def lifeUp (c : Config) (p : Port) : Prog Unit :=
  (write p (·.clockOn)).andThen fun _ =>
  (write p (·.pulsed)).andThen fun _ =>
  (write p (·.pins .afOd)).andThen fun _ =>
  (Prog.onlyIf (c.mode == .interrupt) (write p (·.irqs true))).andThen fun _ =>
  (demand (c.pclk / 1000000 < 2 ^ c.layout.freq.width) .freqFieldOverflow).andThen fun _ =>
  (put p .cr2 (place c.layout.freq (c.pclk / 1000000))).andThen fun _ =>
  (clkProgram c p c.pclk 100000).andThen fun _ =>
  modify p .cr1 0 (bit c.layout.pe)

/-- LIFE_DOWN (R341). -/
def lifeDown (p : Port) : Prog Unit :=
  (put p .cr1 0).andThen fun _ =>
  (write p (·.irqs false)).andThen fun _ =>
  (write p (·.pins .unconf)).andThen fun _ =>
  write p (·.clockOff)

/-- `interrupts_off` and `interrupts_on` (60_exceptions R412). -/
def setIntsOff (x : Bool) : M Unit := upd fun s => s.withIntsOff x

/-- A new instance added; its handle is its place in the list (log entry 8). -/
def openInst (p : Port) : M Nat := fun s =>
  .ok s.instances.length (s.withInstances (s.instances ++ [some (Inst.fresh p)]))

/-- The `interrupts_off` region of `init` and the new instance (R340), in which no other agent runs. That the instance is
made at the end is no difference anyone can see: nobody has its handle before OP_INIT returns. -/
def openPort (c : Config) (p : Port) : M Unit := do
  setIntsOff true
  onlyIf ((← lookBus p (·.refs)) == 0) (lifeUp c p).direct
  updBus p fun b => { b with refs := b.refs + 1 }
  setIntsOff false
  answer (← openInst p)

/-- OP_INIT (R340). -/
def opInit (c : Config) (p : Port) : Prog Unit :=
  offered (c.ports.contains p) .portAbsent (act (openPort c p))

/-- The tests of OP_UNINIT (R341); a handle that is not open is an unmatched release (log entry 8). -/
def uninitTests (d : Nat) : M Inst := do
  match ← look (·.inst d) with
  | none => refuse .notOpen
  | some x => do
    let b ← lookBus x.port id
    require (b.refs != 0) .notOpen
    require (b.lock == .free) .uninitDuringTransfer
    return x

/-- The `interrupts_off` region of `uninit` (R341), in which no other agent runs. Where another release took the last
reference since the tests, this one is unmatched (log entry 8). -/
def closePort (p : Port) : M Unit := do
  require ((← lookBus p (·.refs)) != 0) .notOpen
  setIntsOff true
  updBus p fun b => { b with refs := b.refs - 1 }
  onlyIf ((← lookBus p (·.refs)) == 0) (lifeDown p).direct
  setIntsOff false

/-- The end of OP_UNINIT: the instance freed, 0 returned (R341). -/
def freeHandle (d : Nat) : M Unit := do
  freeInst d
  answer 0

/-- OP_UNINIT (R341). -/
def opUninit (d : Nat) : Prog Unit :=
  (askInst (uninitTests d)).andThen fun x =>
  (act (closePort x.port)).andThen fun _ =>
  act (freeHandle d)

/-- The Bus State with a line driven. -/
def BusState.driven (b : BusState) (l : Line) (v : Bool) : BusState :=
  match l with
  | .scl => { b with plat := { b.plat with scl := { b.plat.scl with level := v } }, hist := b.hist ++ [.pin l v] }
  | .sda => { b with plat := { b.plat with sda := { b.plat.sda with level := v } }, hist := b.hist ++ [.pin l v] }

/-- `Pin(line, level)` (R343). -/
def drivePin (p : Port) (l : Line) (v : Bool) : Prog Unit := write p (·.driven l v)

/-- `PinRead(line)` (R343): an oracle draw. -/
def readPin (p : Port) (l : Line) : M Bool := do
  let v ← drawPin
  updBus p (·.record (.pinRead l v))
  return v

/-- `Delay(10 µs)` (R343). -/
def delay (p : Port) : Prog Unit := write p (·.record (.delay 10))

/-- A line driven, then a half period. -/
def driveHalf (p : Port) (l : Line) (v : Bool) : Prog Unit := (drivePin p l v).andThen fun _ => delay p

/-- The stretch wait with a number of delays left: SCL is read before the bound is tested (R343; log entry 12). -/
def stretchLoop (p : Port) : Nat → Prog Unit
  | 0 => (askFlag (readPin p .scl)).andThen fun _ => .ret ()
  | k + 1 =>
    (askFlag (readPin p .scl)).andThen fun high =>
    if high then .ret () else (delay p).andThen fun _ => stretchLoop p k

/-- One SCL pulse after the stretch wait (R343). -/
def sclPulse (p : Port) : Prog Unit :=
  (stretchLoop p 10).andThen fun _ =>
  (driveHalf p .scl false).andThen fun _ =>
  driveHalf p .scl true

/-- The pulse loop with a number of pulses left: SDA is read before the bound is tested (R343; log entry 12). -/
def pulseLoop (p : Port) : Nat → Prog Unit
  | 0 => (askFlag (readPin p .sda)).andThen fun _ => .ret ()
  | k + 1 =>
    (askFlag (readPin p .sda)).andThen fun high =>
    if high then .ret () else (sclPulse p).andThen fun _ => pulseLoop p k

/-- The manual START and STOP (R343). -/
def manualStartStop (p : Port) : Prog Unit :=
  (driveHalf p .sda false).andThen fun _ =>
  (driveHalf p .scl false).andThen fun _ =>
  (driveHalf p .scl true).andThen fun _ =>
  driveHalf p .sda true

/-- OP_RESET with the lock held, up to its release (R343). -/
def recoverBus (c : Config) (p : Port) : Prog Unit :=
  (lifeDown p).andThen fun _ =>
  (write p (·.pins .gpio)).andThen fun _ =>
  (drivePin p .sda true).andThen fun _ =>
  (pulseLoop p 10).andThen fun _ =>
  (manualStartStop p).andThen fun _ =>
  (write p (·.pins .afOd)).andThen fun _ =>
  lifeUp c p

/-- OP_RESET (R343). -/
def opReset (c : Config) (d : Nat) : Prog Unit :=
  offered c.recoveryOn .optionOff <|
    (theInst d).andThen fun x =>
    (acquire x.port d).andThen fun ok =>
    if ok then (recoverBus c x.port).andThen fun _ => releaseAndReturn x.port 0
    else returnInterrupted c

end Sys2Proof.Machine
end

