-- ==== Sys2Proof/Machine/Caller.lean ====
section
/-! DEFINITION. The caller operations over an instance (47_lifecycle_trace_ops R349 to R352), and the program of every
host operation (30_encoding R117). -/

namespace Sys2Proof.Machine

/-- The width hint of an address (R349): only 10 bits select TEN. -/
def widthFlags (nbits : Nat) : MsgFlags := ⟨false, nbits == 10, false⟩

/-- OP_SETADDRESS (R349). -/
def setAddress (c : Config) (d addr nbits : Nat) : Prog Unit :=
  (theInst d).andThen fun x =>
  (acquire x.port d).andThen fun ok =>
  if ok then
    (act (updInst d fun y => { y with address := addr, iflags := widthFlags nbits })).andThen fun _ =>
    releaseAndReturn x.port 0
  else returnInterrupted c

/-- The message of OP_WRITE (R350). -/
def writeMessage (x : Inst) (buf n : Nat) : Message := ⟨x.address, x.iflags, buf, n⟩

/-- The message of OP_READ (R351). -/
def readMessage (x : Inst) (buf n : Nat) : Message := ⟨x.address, { x.iflags with read := true }, buf, n⟩

/-- OP_WRITE (R350). -/
def opWrite (c : Config) (d buf n : Nat) : Prog Unit :=
  (theInst d).andThen fun x => process c d x [writeMessage x buf n]

/-- OP_READ (R351). -/
def opRead (c : Config) (d buf n : Nat) : Prog Unit :=
  (theInst d).andThen fun x => process c d x [readMessage x buf n]

/-- OP_TRANSFER (R352). -/
def opTransfer (c : Config) (d : Nat) (msgs : List Message) : Prog Unit :=
  offered c.transferOn .optionOff (opProcess c d msgs)

/-- The program of a host operation; none for what is no caller's operation (30_encoding R117). -/
def programOf (c : Config) : Instr → Option (Prog Unit)
  | .opInit p => some (opInit c p)
  | .opUninit d => some (opUninit d)
  | .opReset d => some (opReset c d)
  | .opSetfrequency d f => some (setFrequency c d f)
  | .opSetaddress d addr nbits => some (setAddress c d addr nbits)
  | .opWrite d buf n => some (opWrite c d buf n)
  | .opRead d buf n => some (opRead c d buf n)
  | .opTransfer d msgs => some (opTransfer c d msgs)
  | .opProcess d msgs => some (opProcess c d msgs)
  | .engAdvance | .engSbAddr | .engSbEmpty | .engAddrNack | .engRaddr1 | .engRaddr2 | .engRaddrN
  | .engWByte | .engWStop | .engWRestart | .engWNorestart | .engWFlagerr | .engWNone
  | .engR1Last | .engR2Wait | .engR2Final | .engRnWait | .engRnByte | .engRnNackprep | .engRnFinal | .engRErr
  | .engEmptyTerm | .engFallbackPoll | .engFallbackInt | .engTermPoll | .engTermInt
  | .regGet _ _ | .regPut _ _ _ | .regModify _ _ _ _ | .clkProgram _ _ _ | .traceSample _ _ | .traceEvent _ _ _
  | .traceReset _ | .traceDump _ | .engEntry _ | .errClassify _ _ | .lifeUp _ | .lifeDown _ => none

/-- The port an instruction acts on: its operand, its handle's, or the current entry's. -/
def State.portOf (s : State) : Instr → Option Port
  | .engAdvance | .engSbAddr | .engSbEmpty | .engAddrNack | .engRaddr1 | .engRaddr2 | .engRaddrN
  | .engWByte | .engWStop | .engWRestart | .engWNorestart | .engWFlagerr | .engWNone
  | .engR1Last | .engR2Wait | .engR2Final | .engRnWait | .engRnByte | .engRnNackprep | .engRnFinal | .engRErr
  | .engEmptyTerm | .engFallbackPoll | .engFallbackInt | .engTermPoll | .engTermInt => some s.entry.port
  | .regGet p _ | .regPut p _ _ | .regModify p _ _ _ | .opInit p | .clkProgram p _ _ | .traceSample p _
  | .traceEvent p _ _ | .traceReset p | .traceDump p | .engEntry p | .lifeUp p | .lifeDown p => some p
  | .opUninit d | .opReset d | .opSetfrequency d _ | .opSetaddress d _ _ | .opWrite d _ _ | .opRead d _ _
  | .opTransfer d _ | .opProcess d _ => (s.inst d).map (·.port)
  | .errClassify _ _ => none

end Sys2Proof.Machine
end

