-- ==== Sys2Proof/Machine/Schedule.lean ====
section
/-! DEFINITION. Who moves beside an instruction (00_scope R5, 20_memory R93, 60_exceptions R406): engine entries by
IRQs, threads in the middle of a call, a caller that begins one, stores by agents outside the block. They move between
any two actions of a call and between two requests; which of them, and in which order, is drawn (log entries 9, 10 and
17). -/

namespace Sys2Proof.Machine

/-- No fault has stopped the port (10_state R49, 93_implementation_defined; log entry 18). -/
def BusState.live (b : BusState) : Bool := !b.faulted

/-- The port of a call, if it has one, goes on. -/
def State.portLive (s : State) : Option Port → Bool
  | none => true
  | some p => (s.bus p).live

/-- An engine entry of the port may start (60_exceptions R406); none of its own is running, because an entry is one
action. A port that a fault stopped starts none (93_implementation_defined; log entry 18). -/
def canEnter (s : State) (p : Port) : Bool :=
  s.cfg.mode == .interrupt && !s.intsOff && (s.bus p).live
    && (s.bus p).plat.evIrq.attached && (s.bus p).plat.erIrq.attached
    && (has (s.bus p).cr2Written s.cfg.layout.iterren || has (s.bus p).cr2Written s.cfg.layout.itevten)

/-- An engine entry of some port may start. -/
def anyCanEnter (s : State) : Bool := canEnter s .i2c1 || canEnter s .i2c2 || canEnter s .i2c3

/-- The Bus State with the sticky mark of a stop (10_state R49). -/
def BusState.stopped (b : BusState) : Stop → BusState
  | .fault _ => { b with faulted := true }
  | .refusal _ => { b with refused := true }
  | .lockWait => b

/-- The state after a piece stopped: the mark of its port, if it has one, is set, and no `interrupts_off` region stays
open. A fault stops that port and no other; a refusal ends the operation that made it and stops no port
(93_implementation_defined, DESIGN CHOICE where R403 and R23 speak of the run: log entry 18). -/
def State.stopped (s : State) (e : Stop) : Option Port → State
  | some p => (s.setBus p ((s.bus p).stopped e)).withIntsOff false
  | none => s.withIntsOff false

/-- A piece run beside an instruction on the port `own`: where it faults on that port, the instruction stops with it;
where it faults on another, or is refused, its port is marked and the instruction goes on (log entry 18, also for what a
stopped entry leaves in `State.entry`). -/
def beside (own q : Option Port) (m : M Unit) : M Unit := fun s =>
  match m s with
  | .ok u t => .ok u t
  | .error (.fault f) t => if q.isSome && q == own then .error (.fault f) t else .ok () (t.stopped (.fault f) q)
  | .error e t => .ok () (t.stopped e q)

/-- The port of the instance a call found: its first action answers the instance (log entry 9). -/
def portFound : List Ans → Option Port
  | .inst y :: _ => some y.port
  | _ => none

/-- The port a thread acts on: until its first action that of its call as the handles stand now, since its handle may
have been opened after the call began (log entry 9); from then on the one the thread holds. -/
def State.threadPort (s : State) (x : Thread) : Option Port :=
  match x.past with
  | [] => s.portOf x.call
  | _ :: _ => x.port

/-- A thread's next action and what follows each answer; none where its call is over. -/
def Thread.next (c : Config) (x : Thread) : Option (M Ans × (Ans → Prog Unit)) :=
  match programOf c x.call with
  | none => none
  | some f =>
    match f.after x.past with
    | .act m k => some (m, k)
    | .ret _ => none

/-- The state after the `k`-th thread's action was answered: the thread goes on, on the port of the instance its first
action found, or its call has returned. -/
def State.answered (s : State) (k : Nat) (x : Thread) (a : Ans) (done : Bool) : State :=
  if done then (s.withThreads (s.threads.eraseIdx k)).withReturned (s.returned ++ [⟨x.call, .value s.ret⟩])
  else s.withThreads (s.threads.set k { x with port := portFound (x.past ++ [a]), past := x.past ++ [a] })

/-- What a refused call gives back as it returns, so that its refusal has no effect but on the history
(93_implementation_defined; DEDUCED, log entry 18): the lock, if it had taken it, with its buffers, and the FSMC clock bit,
if it had cleared it (46_dispatcher R331). A call that took its lock found its instance and was answered true; the saved
bit is the next answer. -/
def State.givenBack (s : State) (x : Thread) : State :=
  match x.port, x.past with
  | some p, .inst _ :: .flag true :: .flag saved :: _ => (s.setBus p (s.bus p).released).decided.withFsmc saved
  | some p, .inst _ :: .flag true :: _ => (s.setBus p (s.bus p).released).decided
  | _, _ => s

/-- A thread's action: a lock wait that goes on leaves the thread where it is; a fault ends it, and so does a refusal,
which its call returns. -/
def threadAction (k : Nat) (x : Thread) (m : M Ans) (rest : Ans → Prog Unit) : M Unit := fun s =>
  match m s with
  | .ok a t => .ok () (t.answered k x a (rest a).isOver)
  | .error .lockWait t => .ok () t
  | .error (.fault f) t => .error (.fault f) (t.withThreads (t.threads.eraseIdx k))
  | .error (.refusal r) t =>
    .error (.refusal r)
      (((t.givenBack x).withThreads (t.threads.eraseIdx k)).withReturned (t.returned ++ [⟨x.call, .refused r⟩]))

/-- The `k`-th thread moves by one action, unless its port is stopped. -/
def moveThread (own : Option Port) (k : Nat) : M Unit := do
  match ← look (·.threads[k]?) with
  | none => return ()
  | some x =>
    match ← look (x.next ·.cfg) with
    | none => return ()
    | some (m, rest) => do
      let p ← look (·.threadPort x)
      onlyIf (← look (·.portLive p)) (beside own p (threadAction k x m rest))

/-- The next pending request is a host operation on a port that goes on: its instruction, and the requests after it. -/
def State.nextCall (s : State) : Option (Instr × List Request) :=
  match s.requests with
  | [] => none
  | q :: qs =>
    match decodeRequest q with
    | .error _ => none
    | .ok i => if (programOf s.cfg i).isSome && s.portLive (s.portOf i) then some (i, qs) else none

/-- A caller begins the next pending call. -/
def beginCall : M Unit := do
  match ← look (·.nextCall) with
  | none => return ()
  | some (i, qs) => upd fun s => (s.withRequests qs).withThreads (s.threads ++ [⟨i, s.portOf i, []⟩])

/-- An agent outside the block makes its next store; to an address that does not exist none is made. -/
def outsideStore : M Unit := do
  match ← look (·.stores) with
  | [] => return ()
  | (a, v) :: cs =>
    upd (·.withStores cs)
    onlyIf (← look (·.hasAddress a)) (upd (·.stored none a v))

/-- One move of an agent; where it cannot move, nothing. -/
def runAgent (own : Option Port) : Agent → M Unit
  | .entry p => do onlyIf (← look (canEnter · p)) (beside own (some p) (engineEntry p))
  | .thread k => moveThread own k
  | .caller => beginCall
  | .store => outsideStore

/-- Agents move, one after another. -/
def runAgents (own : Option Port) : List Agent → M Unit
  | [] => pure ()
  | a :: as => do
    runAgent own a
    runAgents own as

/-- Some other agent may move: an entry may start, a thread is in the middle of a call, or a call or a store is pending;
none in an `interrupts_off` region (60_exceptions R406, R412). -/
def othersCanMove (s : State) : Bool :=
  !s.intsOff && (anyCanEnter s || !s.threads.isEmpty || !s.requests.isEmpty || !s.stores.isEmpty)

/-- A point between two actions: the drawn agents move. -/
def window (own : Option Port) : M Unit := do
  if ← look othersCanMove then runAgents own (← drawTurns)

/-- The running call's action was answered. -/
def remember (x : Ans) : M Unit := upd fun s => s.withPast (s.past ++ [x])

/-- A call with a point before each of its actions. -/
def drive {α : Type} (own : Option Port) : Prog α → M α
  | .ret a => pure a
  | .act m k => do
    window own
    let x ← m
    remember x
    drive own (k x)

/-- A call whose handle is not open when its step begins: another thread may open it at the point before its first
action, and the call then acts on that instance's port, unless a fault stopped it meanwhile (log entries 9 and 18). -/
def driveUnopened (i : Instr) : Prog Unit → M Unit
  | .ret a => pure a
  | .act m k => do
    window none
    let own ← look (·.portOf i)
    ensure (← look (·.portLive own)) .markedFaulted
    let x ← m
    remember x
    drive own (k x)

/-- A call with a point before each of its actions, on the port of the instruction. -/
def driveCall (i : Instr) (x : Prog Unit) : M Unit := do
  match ← look (·.portOf i) with
  | some p => drive (some p) x
  | none => driveUnopened i x

/-- The outcome of an instruction that is a call: it ends, or stops, or waits for its lock as a thread (20_memory R96;
log entry 9). -/
def call (i : Instr) (f : Config → Prog Unit) (s : State) : Host.Outcome State Fault Refusal :=
  match driveCall i (f s.cfg) (s.withPast []) with
  | .ok _ t => .next (t.withPast [])
  | .error (.fault f) _ => .fault f
  | .error (.refusal r) _ => .refused r
  | .error .lockWait t => .next ((t.withThreads (t.threads ++ [⟨i, portFound t.past, t.past⟩])).withPast [])

/-- Between two requests, where an entry may start, a thread is in the middle of a call, or a store is pending. -/
def othersBetween (s : State) : Bool := !s.intsOff && (anyCanEnter s || !s.threads.isEmpty || !s.stores.isEmpty)

/-- The point between two requests: no instruction is running, so a stop there only marks its port. -/
def betweenRequests : M Unit := do
  if ← look othersBetween then runAgents none (← drawTurns)

/-- The state after that point. -/
def State.settled (s : State) : State :=
  match betweenRequests s with
  | .ok _ t => t
  | .error _ t => t

end Sys2Proof.Machine
end

