-- ==== Sys2Proof/Machine/Calls.lean ====
section
/-! DEFINITION. The meanings of the calls (47_lifecycle_trace_ops R340 to R352, 46_dispatcher R300, 41_clock_programmer
R180 and R189): the program of each, run with every other agent between its actions. -/

namespace Sys2Proof.Machine

/-- The meaning of OP_INIT (R340). -/
def execOpInit (p : Port) (s : State) : Host.Outcome State Fault Refusal :=
  call (.opInit p) (opInit · p) s

/-- The meaning of OP_UNINIT (R341). -/
def execOpUninit (d : Nat) (s : State) : Host.Outcome State Fault Refusal :=
  call (.opUninit d) (fun _ => opUninit d) s

/-- The meaning of OP_RESET (R343). -/
def execOpReset (d : Nat) (s : State) : Host.Outcome State Fault Refusal :=
  call (.opReset d) (opReset · d) s

/-- The meaning of OP_SETFREQUENCY (R189). -/
def execOpSetfrequency (d f : Nat) (s : State) : Host.Outcome State Fault Refusal :=
  call (.opSetfrequency d f) (setFrequency · d f) s

/-- The meaning of OP_SETADDRESS (R349). -/
def execOpSetaddress (d addr nbits : Nat) (s : State) : Host.Outcome State Fault Refusal :=
  call (.opSetaddress d addr nbits) (setAddress · d addr nbits) s

/-- The meaning of OP_WRITE (R350). -/
def execOpWrite (d buf n : Nat) (s : State) : Host.Outcome State Fault Refusal :=
  call (.opWrite d buf n) (opWrite · d buf n) s

/-- The meaning of OP_READ (R351). -/
def execOpRead (d buf n : Nat) (s : State) : Host.Outcome State Fault Refusal :=
  call (.opRead d buf n) (opRead · d buf n) s

/-- The meaning of OP_TRANSFER (R352). -/
def execOpTransfer (d : Nat) (msgs : List Message) (s : State) : Host.Outcome State Fault Refusal :=
  call (.opTransfer d msgs) (opTransfer · d msgs) s

/-- The meaning of OP_PROCESS (R300). -/
def execOpProcess (d : Nat) (msgs : List Message) (s : State) : Host.Outcome State Fault Refusal :=
  call (.opProcess d msgs) (opProcess · d msgs) s

/-- The meaning of CLK_PROGRAM (R180 to R190). -/
def execClkProgram (p : Port) (fp ft : Nat) (s : State) : Host.Outcome State Fault Refusal :=
  call (.clkProgram p fp ft) (clkProgram · p fp ft) s

/-- The meaning of LIFE_UP (R342). -/
def execLifeUp (p : Port) (s : State) : Host.Outcome State Fault Refusal :=
  call (.lifeUp p) (lifeUp · p) s

/-- The meaning of LIFE_DOWN (R341). -/
def execLifeDown (p : Port) (s : State) : Host.Outcome State Fault Refusal :=
  call (.lifeDown p) (fun _ => lifeDown p) s

end Sys2Proof.Machine
end

