-- ==== Sys2Proof/Machine/Dispatch.lean ====
section
/-! DEFINITION. One arm per instruction: the meaning of each row of spec/opcode_table.json. -/

namespace Sys2Proof.Machine

def exec (i : Instr) (s : State) : Host.Outcome State Fault Refusal :=
  match i with
  | .engAdvance => Sys2Proof.Machine.execEngAdvance s
  | .engSbAddr => Sys2Proof.Machine.execEngSbAddr s
  | .engSbEmpty => Sys2Proof.Machine.execEngSbEmpty s
  | .engAddrNack => Sys2Proof.Machine.execEngAddrNack s
  | .engRaddr1 => Sys2Proof.Machine.execEngRaddr1 s
  | .engRaddr2 => Sys2Proof.Machine.execEngRaddr2 s
  | .engRaddrN => Sys2Proof.Machine.execEngRaddrN s
  | .engWByte => Sys2Proof.Machine.execEngWByte s
  | .engWStop => Sys2Proof.Machine.execEngWStop s
  | .engWRestart => Sys2Proof.Machine.execEngWRestart s
  | .engWNorestart => Sys2Proof.Machine.execEngWNorestart s
  | .engWFlagerr => Sys2Proof.Machine.execEngWFlagerr s
  | .engWNone => Sys2Proof.Machine.execEngWNone s
  | .engR1Last => Sys2Proof.Machine.execEngR1Last s
  | .engR2Wait => Sys2Proof.Machine.execEngR2Wait s
  | .engR2Final => Sys2Proof.Machine.execEngR2Final s
  | .engRnWait => Sys2Proof.Machine.execEngRnWait s
  | .engRnByte => Sys2Proof.Machine.execEngRnByte s
  | .engRnNackprep => Sys2Proof.Machine.execEngRnNackprep s
  | .engRnFinal => Sys2Proof.Machine.execEngRnFinal s
  | .engRErr => Sys2Proof.Machine.execEngRErr s
  | .engEmptyTerm => Sys2Proof.Machine.execEngEmptyTerm s
  | .engFallbackPoll => Sys2Proof.Machine.execEngFallbackPoll s
  | .engFallbackInt => Sys2Proof.Machine.execEngFallbackInt s
  | .engTermPoll => Sys2Proof.Machine.execEngTermPoll s
  | .engTermInt => Sys2Proof.Machine.execEngTermInt s
  | .regGet p r => Sys2Proof.Machine.execRegGet p r s
  | .regPut p r v => Sys2Proof.Machine.execRegPut p r v s
  | .regModify p r clr set => Sys2Proof.Machine.execRegModify p r clr set s
  | .opInit p => Sys2Proof.Machine.execOpInit p s
  | .opUninit d => Sys2Proof.Machine.execOpUninit d s
  | .opReset d => Sys2Proof.Machine.execOpReset d s
  | .opSetfrequency d f => Sys2Proof.Machine.execOpSetfrequency d f s
  | .opSetaddress d addr nbits => Sys2Proof.Machine.execOpSetaddress d addr nbits s
  | .opWrite d buf n => Sys2Proof.Machine.execOpWrite d buf n s
  | .opRead d buf n => Sys2Proof.Machine.execOpRead d buf n s
  | .opTransfer d msgs => Sys2Proof.Machine.execOpTransfer d msgs s
  | .opProcess d msgs => Sys2Proof.Machine.execOpProcess d msgs s
  | .clkProgram p fp ft => Sys2Proof.Machine.execClkProgram p fp ft s
  | .traceSample p w => Sys2Proof.Machine.execTraceSample p w s
  | .traceEvent p ev param => Sys2Proof.Machine.execTraceEvent p ev param s
  | .traceReset p => Sys2Proof.Machine.execTraceReset p s
  | .traceDump p => Sys2Proof.Machine.execTraceDump p s
  | .engEntry p => Sys2Proof.Machine.execEngEntry p s
  | .errClassify x e => Sys2Proof.Machine.execErrClassify x e s
  | .lifeUp p => Sys2Proof.Machine.execLifeUp p s
  | .lifeDown p => Sys2Proof.Machine.execLifeDown p s

end Sys2Proof.Machine
end

