-- ==== Sys2Proof/Machine/Step.lean ====
section
/-! DEFINITION. One step: other agents may move, then the next request is fetched, decoded and executed. The block has
no program counter and fetches no instructions (10_state R31, 20_memory R99): what it runs next is what its callers and
its interrupts present, here the list `State.requests` (log entries 1 and 3). -/

namespace Sys2Proof.Machine

/-- How a request that is no instruction stops the machine (30_encoding R116, R117). -/
def rejected : Reject → Host.Outcome State Fault Refusal
  | .unknownOp => .refused .unknownOp
  | .badSelector => .fault .badSelector
  | .truncated => .refused .truncated
  | .badOperand => .refused .badOperand

/-- An instruction on a port that a fault stopped stops too; another is executed (10_state R49, 60_exceptions R403,
93_implementation_defined; log entry 18). -/
def execLive (i : Instr) (s : State) : Host.Outcome State Fault Refusal :=
  match s.portOf i with
  | none => exec i s
  | some p => if (s.bus p).live then exec i s else .fault .markedFaulted

/-- The next request runs; with none pending, nothing. -/
def runRequest (s : State) : Host.Outcome State Fault Refusal :=
  match s.requests with
  | [] => .next s
  | q :: qs =>
    match decodeRequest q with
    | .ok i => execLive i (s.withRequests qs)
    | .error e => rejected e

/-- One step: the agents drawn between two requests move (60_exceptions R406, 20_memory R93), then the next request
runs. -/
def step (s : State) : Host.Outcome State Fault Refusal := runRequest s.settled

/-- The instruction whose bits are `w`, presented as the machine's next request; where other agents may move before it,
none of them does. -/
def State.withFetchWord (s : State) (nbits w : Nat) : State :=
  let t := s.withRequests (tableRequest nbits w :: s.requests)
  if othersBetween s then
    t.withDraws { s.draws with turns := { s.draws.turns with script := [] :: s.draws.turns.script } }
  else t

end Sys2Proof.Machine
end

