-- ==== Sys2Proof/Safety.lean ====
section
/-! DEFINITION. The terms in which claims are stated: what a run may change (frames), when it goes on (readiness), the
invariants, and the spec's conditions in its own words. Nothing here is part of a meaning. -/

namespace Sys2Proof.Machine

/-! What the environment answers next. -/

/-- The value the `k`-th register read from here answers, counted from 0 (20_memory R84). -/
def State.regAt (s : State) (k : Nat) : Half := s.draws.regs.nth Config.freeReg k

/-- The level the `k`-th pin look from here sees, counted from 0 (47_lifecycle_trace_ops R343). -/
def State.pinAt (s : State) (k : Nat) : Bool := s.draws.pins.nth Config.freePin k

/-- No signal ends the lock wait when it next looks at a held lock (46_dispatcher R301). -/
def State.noSignal (s : State) : Bool := !s.draws.signals.peek Config.freeSignal

/-! The history. -/

/-- What `emit` appends to the history (47_lifecycle_trace_ops R346): nothing with tracing off. -/
def evs (c : Config) (ev : EvName) (param : Int) : List Event := if c.traceOn then [.ev ev param] else []

/-- What a Modify that reads `v` appends to the history (40_register_access R152). -/
def modEvs (r : Reg) (v clr set : Half) : List Event := [.rd r v, .wr r ((v &&& ~~~clr) ||| set)]

/-- What CLK_PROGRAM appends to the history when it reads `v` from CR1 and writes a CCR and a TRISE word (R180). -/
def clockEvs (l : BitLayout) (v ccr trise : Half) : List Event :=
  [.rd .cr1 v, .wr .cr1 (v &&& ~~~(bit l.pe)), .wr .ccr ccr, .wr .trise trise, .wr .oar1 0x4000, .wr .cr1 v]

/-- The reads of a number of whole rounds of the STOP-settle wait: CR1, then SR1 (46_dispatcher R302). -/
def State.settleReads (s : State) (k : Nat) : List Event :=
  (List.range k).flatMap fun j => [.rd .cr1 (s.regAt (2 * j)), .rd .sr1 (s.regAt (2 * j + 1))]

/-- A round of the STOP-settle wait finds STOP set and TIMEOUT clear, so that the wait goes on (46_dispatcher R302). -/
def State.stillSettling (s : State) (j : Nat) : Prop :=
  has (s.regAt (2 * j)) s.cfg.layout.stop = true ∧ has (s.regAt (2 * j + 1)) s.cfg.layout.timeout = false

/-- What the looks at SCL of one stretch wait see where `w` of them, eleven at most, see it low (47_lifecycle_trace_ops
R343; the eleventh look is log entry 12). -/
def stretchLooks (w : Nat) : List Bool := List.replicate w false ++ (if w ≤ 10 then [true] else [])

/-- What that stretch wait appends to the history: a delay after each of the first ten low looks. -/
def stretchEvs (w : Nat) : List Event :=
  (List.replicate (min w 10) [.pinRead .scl false, .delay 10]).flatten ++ [.pinRead .scl (decide (w ≤ 10))]

/-- What one round of the pulse loop appends to the history: SDA read low, the stretch wait, one SCL pulse (R343). -/
def pulseEvs (w : Nat) : List Event :=
  .pinRead .sda false :: stretchEvs w ++ [.pin .scl false, .delay 10, .pin .scl true, .delay 10]

/-- A register or buffer access (00_scope R24). -/
def Event.isAccess : Event → Bool
  | .rd _ _ | .wr _ _ | .mrd _ _ | .mwr _ _ => true
  | .ev _ _ | .pin _ _ | .pinRead _ _ | .delay _ => false

/-- An SR1 read. -/
def Event.readsSr1 : Event → Bool
  | .rd .sr1 _ => true
  | _ => false

/-- A port's history only got longer: nothing recorded was changed or lost (00_scope R24). -/
def HistoryKept (s t : State) : Prop := ∀ p, (s.bus p).hist <+: (t.bus p).hist

/-! Frames. -/

/-- The fields of a Bus State that a rule's 'Bus State written' names, and the model's two beside them. -/
inductive Field where
  | sem | intstate | dcnt | msgc | msgv | ptr | totalMsgLen | flags | checkAddrAck | status | curAddr | curBuf
  | cr2Written
deriving DecidableEq, Repr

/-- A field holds the same value in two Bus States. -/
def Field.Same : Field → BusState → BusState → Prop
  | .sem, b, c => c.sem = b.sem
  | .intstate, b, c => c.intstate = b.intstate
  | .dcnt, b, c => c.dcnt = b.dcnt
  | .msgc, b, c => c.msgc = b.msgc
  | .msgv, b, c => c.msgv = b.msgv
  | .ptr, b, c => c.ptr = b.ptr
  | .totalMsgLen, b, c => c.totalMsgLen = b.totalMsgLen
  | .flags, b, c => c.flags = b.flags
  | .checkAddrAck, b, c => c.checkAddrAck = b.checkAddrAck
  | .status, b, c => c.status = b.status
  | .curAddr, b, c => c.curAddr = b.curAddr
  | .curBuf, b, c => c.curBuf = b.curBuf
  | .cr2Written, b, c => c.cr2Written = b.cr2Written

end Sys2Proof.Machine

namespace Sys2Proof

open Machine

/-- What each sub-case's rule lists as 'Bus State written' (42_engine_address_phase to 45_engine_termination), with
`curBuf` where the prelude latches a buffer and `cr2Written` where CR2 is written. -/
def Subcase.written : Subcase → List Field
  | .advance => [.ptr, .dcnt, .totalMsgLen, .flags, .curAddr, .msgc, .msgv, .curBuf]
  | .sbAddr => [.checkAddrAck]
  | .sbEmpty => [.dcnt, .cr2Written]
  | .addrNack => [.checkAddrAck, .dcnt, .msgc]
  | .raddr1 => [.dcnt, .checkAddrAck, .cr2Written]
  | .raddr2 | .raddrN => [.checkAddrAck]
  | .wByte => [.ptr, .dcnt, .checkAddrAck]
  | .wStop | .wRestart | .wNorestart => [.dcnt, .checkAddrAck]
  | .wFlagerr | .wNone => [.checkAddrAck]
  | .r1Last | .r2Final | .rnByte | .rnNackprep | .rnFinal => [.ptr, .dcnt]
  | .r2Wait | .rnWait => []
  | .rErr | .fallbackInt => [.dcnt, .msgc]
  | .emptyTerm | .fallbackPoll => []
  | .termPoll => [.status, .msgv, .intstate]
  | .termInt => [.status, .msgv, .intstate, .sem, .cr2Written]

/-- The peripheral registers each sub-case writes (the same rules). -/
def Subcase.registersWritten : Subcase → List Reg
  | .sbAddr => [.cr1, .dr]
  | .raddr1 => [.cr1, .cr2]
  | .sbEmpty | .termInt => [.cr2]
  | .addrNack | .raddr2 | .wStop | .wRestart | .r2Final | .rnNackprep | .rnFinal => [.cr1]
  | .wByte => [.dr]
  | .advance | .raddrN | .wNorestart | .wFlagerr | .wNone | .r1Last | .r2Wait | .rnWait | .rnByte | .rErr
  | .emptyTerm | .fallbackPoll | .fallbackInt | .termPoll => []

/-- The sub-cases that read SR2 (the same rules); the write path does so where it saw ADDR (R230). -/
def Subcase.readsSr2 (c : Subcase) (addrSeen : Bool) : Bool :=
  match c with
  | .wByte | .wStop | .wRestart | .wNorestart | .wFlagerr | .wNone => addrSeen
  | .raddr1 | .raddr2 | .raddrN | .r1Last | .r2Wait | .r2Final | .rnWait | .rnByte | .rnNackprep | .rnFinal | .rErr =>
    true
  | .advance | .sbAddr | .sbEmpty | .addrNack | .emptyTerm | .fallbackPoll | .fallbackInt | .termPoll | .termInt =>
    false

/-- The addresses each sub-case stores to, from the cursor of the Bus State it starts in (40_register_access R158). -/
def Subcase.stores (c : Subcase) (b : BusState) : List Nat :=
  match c with
  | .r1Last | .rnByte | .rnNackprep => [b.ptr]
  | .r2Final | .rnFinal => [b.ptr, b.ptr + 1]
  | .advance | .sbAddr | .sbEmpty | .addrNack | .raddr1 | .raddr2 | .raddrN | .wByte | .wStop | .wRestart
  | .wNorestart | .wFlagerr | .wNone | .r2Wait | .rnWait | .rErr | .emptyTerm | .fallbackPoll | .fallbackInt
  | .termPoll | .termInt => []

end Sys2Proof

namespace Sys2Proof.Machine

/-- The value of a register in the register file. -/
def Regs.at (x : Regs) : Reg → Half
  | .cr1 => x.cr1
  | .cr2 => x.cr2
  | .oar1 => x.oar1
  | .dr => x.dr
  | .sr1 => x.sr1
  | .sr2 => x.sr2
  | .ccr => x.ccr
  | .trise => x.trise
  | .oar2 | .unlisted _ => 0

/-- What no sub-case writes in its own port's Bus State: `refs`, the lock, the installed chain and whose its buffers are,
the sticky marks, the platform, the deadline (20_memory R92; 47_lifecycle_trace_ops R340). -/
structure EngineKeeps (b c : BusState) : Prop where
  refs : c.refs = b.refs
  faulted : c.faulted = b.faulted
  refused : c.refused = b.refused
  lock : c.lock = b.lock
  msgs : c.msgs = b.msgs
  count : c.count = b.count
  plat : c.plat = b.plat
  deadline : c.deadline = b.deadline
  owning : c.owning = b.owning

/-- A port's history and Trace Recorder under a rule that only emits: the history only got longer, the ring's shape,
index, time and all entries but the current one are the same, and with tracing off the recorder is the same (R346). -/
structure RecorderKept (c : Config) (b b' : BusState) : Prop where
  hist : b.hist <+: b'.hist
  length : b'.trace.ring.length = b.trace.ring.length
  cur : b'.trace.cur = b.trace.cur
  epoch : b'.trace.epoch = b.trace.epoch
  others : ∀ k, k ≠ b.trace.cur → b'.trace.ring[k]? = b.trace.ring[k]?
  off : c.traceOn = false → b'.trace = b.trace
  log : b'.log = b.log

/-- Everything in a Bus State is the same but the fields and registers listed (and what `RecorderKept` admits). -/
structure KeptBut (c : Config) (fields : List Field) (regs : List Reg) (b b' : BusState) : Prop where
  engine : EngineKeeps b b'
  recorder : RecorderKept c b b'
  fields : ∀ f, f ∉ fields → f.Same b b'
  regs : ∀ r, r ∉ regs → b'.regs.at r = b.regs.at r

/-- Every byte of host memory reads as before, and no race began or ended. -/
structure MemoryKept (s t : State) : Prop where
  bytes : ∀ a, t.mem.read a = s.mem.read a
  races : t.races = s.races

/-- Only the listed fields and registers of one port changed, and no byte of memory. -/
structure OnlyPort (p : Port) (fields : List Field) (regs : List Reg) (s t : State) : Prop where
  port : KeptBut s.cfg fields regs (s.bus p) (t.bus p)
  others : ∀ q, q ≠ p → t.bus q = s.bus q
  memory : MemoryKept s t

/-- Every other port's Bus State is the same (60_exceptions R415). -/
def OtherPortsKept (p : Port) (s t : State) : Prop := ∀ q, q ≠ p → t.bus q = s.bus q

/-- What lies outside the ports and memory is the same. The draws, the engine's entry-local data and the answers kept
while a call runs are not in it. -/
structure OutsideKept (s t : State) : Prop where
  cfg : t.cfg = s.cfg
  instances : t.instances = s.instances
  fsmcEn : t.fsmcEn = s.fsmcEn
  intsOff : t.intsOff = s.intsOff
  requests : t.requests = s.requests
  stores : t.stores = s.stores
  threads : t.threads = s.threads
  returned : t.returned = s.returned
  ret : t.ret = s.ret
  errval : t.errval = s.errval

/-- The transfer fields of a Bus State (10_state R36 to R47), which the lifecycle leaves alone
(70_reset_and_hazards R455). -/
structure TransferKept (b c : BusState) : Prop where
  sem : c.sem = b.sem
  intstate : c.intstate = b.intstate
  dcnt : c.dcnt = b.dcnt
  msgc : c.msgc = b.msgc
  msgv : c.msgv = b.msgv
  ptr : c.ptr = b.ptr
  totalMsgLen : c.totalMsgLen = b.totalMsgLen
  flags : c.flags = b.flags
  checkAddrAck : c.checkAddrAck = b.checkAddrAck
  status : c.status = b.status
  curAddr : c.curAddr = b.curAddr
  msgs : c.msgs = b.msgs
  count : c.count = b.count

/-- What the lifecycle operations leave alone in a Bus State (70_reset_and_hazards R455): everything but `refs`, the
registers, the platform, the history and the last value written to CR2. -/
structure LifecycleKeeps (b c : BusState) : Prop where
  transfer : TransferKept b c
  lock : c.lock = b.lock
  faulted : c.faulted = b.faulted
  refused : c.refused = b.refused
  trace : c.trace = b.trace
  log : c.log = b.log
  deadline : c.deadline = b.deadline
  curBuf : c.curBuf = b.curBuf
  owning : c.owning = b.owning

/-! Who else may move. -/

/-- No other thread is in the middle of a call, and no further call and no store from outside the block is pending:
beside an instruction only engine entries move (60_exceptions R406). -/
structure Solo (s : State) : Prop where
  threads : s.threads = []
  requests : s.requests = []
  stores : s.stores = []

/-- Nobody moves beside an instruction: no thread, no pending call or store, and no entry may start, `interrupts_off`
region or not (60_exceptions R406). -/
structure Alone (s : State) : Prop extends Solo s where
  entries : ∀ p, canEnter (s.withIntsOff false) p = false

/-- Nobody moves beside an instruction, whatever the block writes: the machine is in an `interrupts_off` region, or the
mode is POLLED and there is no thread and no pending call or store (60_exceptions R406, R412). -/
def Masked (s : State) : Prop := s.intsOff = true ∨ s.cfg.mode = .polled ∧ Solo s

/-! Readiness: when an engine entry runs to its end. -/

/-- A message the model admits: its length is at most `max_len` and its buffer lies in the address space
(00_scope R19, 20_memory R81, 70_reset_and_hazards R461). -/
def Admissible (c : Config) (m : Message) : Prop := m.length ≤ c.maxLen ∧ m.buffer + m.length ≤ 2 ^ c.addrWidth

/-- The invariant of the transfer fields: `dcnt` is at least -1 (10_state R38); while messages remain, `msgv` names the
next of them (R40); the cursor has `dcnt` bytes of the current buffer before it (R41, 20_memory R81); a one-byte read
has not moved it. -/
structure Coherent (b : BusState) : Prop where
  dcnt : -1 ≤ b.dcnt
  next : 0 < b.msgc → ∃ i, b.msgv = some i ∧ i + b.msgc = b.count
  count : b.count = b.msgs.length
  cursor : 0 < b.dcnt → b.curBuf ≤ b.ptr ∧ (b.ptr : Int) + b.dcnt ≤ b.curBuf + b.totalMsgLen
  single : b.flags.read = true → b.totalMsgLen = 1 → 0 ≤ b.dcnt → b.ptr = b.curBuf

/-- A Bus State in which an entry runs to its end: coherent, its messages and current buffer admissible. -/
structure EntryReady (c : Config) (b : BusState) : Prop where
  coherent : Coherent b
  chain : ∀ m ∈ b.msgs, Admissible c m
  buffer : b.curBuf + b.totalMsgLen ≤ 2 ^ c.addrWidth

/-- A machine in which every entry an interrupt may start runs to its end. -/
structure Ready (s : State) : Prop where
  entry : ∀ p, EntryReady s.cfg (s.bus p)
  clock : ∀ p, (s.bus p).plat.evIrq.attached = true → (s.bus p).plat.clkEn = true

/-- How many open handles a port has (10_state R51). -/
def State.handles (s : State) (p : Port) : Nat := (s.instances.filter fun o => o.any (·.port == p)).length

/-- The trace ring has `trace_cap` entries and its index is one of them, or there is no entry (10_state R52). -/
def TraceShape (c : Config) (t : Trace) : Prop := t.ring.length = c.traceCap ∧ (t.cur < c.traceCap ∨ t.cur = 0)

/-- A thread acts on the port its record names: OP_INIT on its operand, another call on the port of the instance its
first action found. -/
structure Thread.OnPort (x : Thread) (p : Port) : Prop where
  port : x.port = some p
  init : ∀ q, x.call = .opInit q → q = p
  first : (∀ q, x.call ≠ .opInit q) → x.past ≠ [] → ∃ y ys, x.past = .inst y :: ys ∧ y.port = p

/-- A thread that has made a move acts on the port its record names; one that has made none still has its port to find
(`State.threadPort`; log entry 9). -/
def Thread.Placed (x : Thread) : Prop := x.past = [] ∨ ∃ p, x.OnPort p

/-- The invariant of every run, whatever threads are under way. Memory is in canonical form; between steps no
`interrupts_off` region is open (60_exceptions R412); `count` is the chain's length (10_state R47); the ring keeps its
shape (R52); a port's two IRQ lines are attached together, and only in INTERRUPT mode (47_lifecycle_trace_ops R341,
R342); a thread acts on its instance's port (20_memory R93, log entry 9). -/
structure Sound (s : State) : Prop where
  memory : s.mem.wf = true
  region : s.intsOff = false
  count : ∀ p, (s.bus p).count = (s.bus p).msgs.length
  ring : ∀ p, TraceShape s.cfg (s.bus p).trace
  lines : ∀ p, (s.bus p).plat.evIrq = (s.bus p).plat.erIrq
  mode : ∀ p, (s.bus p).plat.evIrq.attached = true → s.cfg.mode = .interrupt
  threads : ∀ x ∈ s.threads, x.Placed

/-- What holds of a port with no call in the middle: its lock is free (46_dispatcher R321), `refs` counts its open
handles (10_state R34), and its IRQ lines are attached only with its clock on (47_lifecycle_trace_ops R341, R342). -/
structure PortSettled (s : State) (p : Port) : Prop where
  lock : (s.bus p).lock = .free
  refs : (s.bus p).refs = s.handles p
  clock : (s.bus p).plat.evIrq.attached = true → (s.bus p).plat.clkEn = true

/-- A sound state in which every port that no fault stopped is settled. -/
structure Settled (s : State) : Prop where
  sound : Sound s
  ports : ∀ p, (s.bus p).live = true → PortSettled s p

/-! Calls. -/

/-- The handle and chain of the transfer a host operation starts (47_lifecycle_trace_ops R350 to R352,
46_dispatcher R300); none for another instruction, or where OP_TRANSFER is off. -/
def callOf (s : State) : Instr → Option (Nat × List Message)
  | .opProcess d msgs => some (d, msgs)
  | .opTransfer d msgs => if s.cfg.transferOn then some (d, msgs) else none
  | .opWrite d buf n => (s.inst d).map fun x => (d, [⟨x.address, x.iflags, buf, n⟩])
  | .opRead d buf n => (s.inst d).map fun x => (d, [⟨x.address, { x.iflags with read := true }, buf, n⟩])
  | _ => none

/-- A call of a handle finds its lock free, and so takes it (20_memory R96). -/
structure LockTaken (s : State) (d : Nat) (x : Inst) : Prop where
  inst : s.inst d = some x
  lock : (s.bus x.port).lock = .free

/-- The clock programmer does not refuse a frequency (41_clock_programmer R190; other widths: log entry 4). -/
def ClockFits (c : Config) (ft : Nat) : Prop :=
  ft ≠ 0 ∧ (clockWords c.duty169 c.pclk ft).ccr < 2 ^ c.layout.ccr.width
    ∧ (clockWords c.duty169 c.pclk ft).trise < 2 ^ c.layout.trise.width

/-- LIFE_UP does not refuse (47_lifecycle_trace_ops R342, 41_clock_programmer R190). -/
def BringUpFits (c : Config) : Prop := c.pclk / 1000000 < 2 ^ c.layout.freq.width ∧ ClockFits c 100000

/-- What LIFE_UP appends to the history (47_lifecycle_trace_ops R342), with CLK_PROGRAM at 100 kHz (R180, R183). -/
def State.bringUpEvs (s : State) : List Event :=
  .wr .cr2 (place s.cfg.layout.freq (s.cfg.pclk / 1000000))
    :: clockEvs s.cfg.layout (s.regAt 0) (place s.cfg.layout.ccr (max 4 (s.cfg.pclk / 200000)))
      (place s.cfg.layout.trise (s.cfg.pclk / 1000000 + 1))
    ++ modEvs .cr1 (s.regAt 1) 0 (bit s.cfg.layout.pe)

/-- Every error kind has a non-zero magnitude, so that only success returns 0 (46_dispatcher R320). -/
def ErrnoPositive (e : Errno) : Prop := ∀ k, k ≠ ErrVal.ok → 0 < Errno.magnitude e k

/-- The address byte of 30_encoding R118 as DR is written: 0 for a 10-bit message, else the address shifted left by one
with READ in bit 0, its low eight bits. -/
def addressWord (addr : Nat) (f : MsgFlags) : Half :=
  if f.ten then 0 else BitVec.ofNat 16 ((2 * addr + (if f.read then 1 else 0)) % 256)

/-- The write path saw ADDR in this entry (43_engine_write_path R230). -/
def State.addrSeen (s : State) : Bool := has s.entry.sr1 s.cfg.layout.addr

/-- What the write-path preamble appends to the history (R230). -/
def State.preambleEvs (s : State) : List Event := if s.addrSeen then [.rd .sr2 (s.regAt 0)] else []

/-- How many register reads the write-path preamble makes (R230). -/
def State.preambleReads (s : State) : Nat := if s.addrSeen then 1 else 0

/-- The write-path preamble clears `check_addr_ACK` where ADDR was seen (R230). -/
def State.preambleAck (s : State) (b : BusState) : Bool := if s.addrSeen then false else b.checkAddrAck

/-- The entry's status word after the write-path preamble: SR2 joins it where ADDR was seen (R230, 30_encoding R120). -/
def State.preambleStatus (s : State) : Word32 :=
  if s.addrSeen then s.entry.s ||| (s.regAt 0).setWidth 32 <<< 16 else s.entry.s

/-- The cursor has `n` bytes of the current buffer before it, all of them in the address space (20_memory R81). -/
def CursorHolds (c : Config) (b : BusState) (n : Nat) : Prop :=
  b.curBuf ≤ b.ptr ∧ b.ptr + n ≤ b.curBuf + b.totalMsgLen ∧ b.ptr + n ≤ 2 ^ c.addrWidth

/-- The eight registers of the block (10_state R54 to R62). -/
def theRegisters : List Reg := [.cr1, .cr2, .oar1, .dr, .sr1, .sr2, .ccr, .trise]

/-- The address lies in the buffer of a READ message of the chain (10_state R50). -/
def InReadBuffer (msgs : List Message) (a : Nat) : Prop :=
  ∃ m ∈ msgs, m.flags.read = true ∧ m.buffer ≤ a ∧ a < m.buffer + m.length

/-! Instructions by kind. -/

end Sys2Proof.Machine

namespace Sys2Proof

/-- An engine sub-case on its own, outside an entry. -/
def Instr.isSubcase : Instr → Bool
  | .engAdvance | .engSbAddr | .engSbEmpty | .engAddrNack | .engRaddr1 | .engRaddr2 | .engRaddrN
  | .engWByte | .engWStop | .engWRestart | .engWNorestart | .engWFlagerr | .engWNone
  | .engR1Last | .engR2Wait | .engR2Final | .engRnWait | .engRnByte | .engRnNackprep | .engRnFinal | .engRErr
  | .engEmptyTerm | .engFallbackPoll | .engFallbackInt | .engTermPoll | .engTermInt => true
  | .regGet _ _ | .regPut _ _ _ | .regModify _ _ _ _ | .opInit _ | .opUninit _ | .opReset _
  | .opSetfrequency _ _ | .opSetaddress _ _ _ | .opWrite _ _ _ | .opRead _ _ _ | .opTransfer _ _ | .opProcess _ _
  | .clkProgram _ _ _ | .traceSample _ _ | .traceEvent _ _ _ | .traceReset _ | .traceDump _ | .engEntry _
  | .errClassify _ _ | .lifeUp _ | .lifeDown _ => false

/-- The operation code of 30_encoding R117; none for an engine sub-case, which has no operation code. -/
def Instr.opCode : Instr → Option Byte
  | .regGet _ _ => some 0x01
  | .regPut _ _ _ => some 0x02
  | .regModify _ _ _ _ => some 0x03
  | .opInit _ => some 0x10
  | .opUninit _ => some 0x11
  | .opReset _ => some 0x12
  | .opSetfrequency _ _ => some 0x13
  | .opSetaddress _ _ _ => some 0x14
  | .opWrite _ _ _ => some 0x15
  | .opRead _ _ _ => some 0x16
  | .opTransfer _ _ => some 0x17
  | .opProcess _ _ => some 0x18
  | .clkProgram _ _ _ => some 0x20
  | .traceSample _ _ => some 0x21
  | .traceEvent _ _ _ => some 0x22
  | .traceReset _ => some 0x23
  | .traceDump _ => some 0x24
  | .engEntry _ => some 0x25
  | .errClassify _ _ => some 0x26
  | .lifeUp _ => some 0x27
  | .lifeDown _ => some 0x28
  | .engAdvance | .engSbAddr | .engSbEmpty | .engAddrNack | .engRaddr1 | .engRaddr2 | .engRaddrN
  | .engWByte | .engWStop | .engWRestart | .engWNorestart | .engWFlagerr | .engWNone
  | .engR1Last | .engR2Wait | .engR2Final | .engRnWait | .engRnByte | .engRnNackprep | .engRnFinal | .engRErr
  | .engEmptyTerm | .engFallbackPoll | .engFallbackInt | .engTermPoll | .engTermInt => none

end Sys2Proof

namespace Sys2Proof.Machine

/-- The conditions of 30_encoding R115 in its own words, in the priority of 45_engine_termination R281: which branch an
entry with this SR1 value takes in this Bus State. -/
def branchInWords (c : Config) (sr1 : Half) (b : BusState) : Subcase :=
  let sb := has sr1 c.layout.sb = true
  let addr := has sr1 c.layout.addr = true
  let btf := has sr1 c.layout.btf = true
  let rxne := has sr1 c.layout.rxne = true
  let at' := has sr1 c.layout.addr = true ∨ has sr1 c.layout.txe = true
  let rd := b.flags.read = true
  let ca := b.checkAddrAck = true
  let next := (b.message.map (·.flags)).getD MsgFlags.empty
  if sb ∧ 1 ≤ b.dcnt then .sbAddr
  else if sb then .sbEmpty
  else if c.mode = .interrupt ∧ ¬addr ∧ ca then .addrNack
  else if addr ∧ rd ∧ ca ∧ b.dcnt = 1 ∧ b.totalMsgLen = 1 then .raddr1
  else if addr ∧ rd ∧ ca ∧ b.dcnt = 2 ∧ b.totalMsgLen = 2 then .raddr2
  else if addr ∧ rd ∧ ca then .raddrN
  else if ¬rd ∧ at' ∧ 1 ≤ b.dcnt then .wByte
  else if ¬rd ∧ at' ∧ b.dcnt = 0 ∧ b.msgc = 0 then .wStop
  else if ¬rd ∧ at' ∧ b.dcnt = 0 ∧ (next = MsgFlags.empty ∨ next.read = true) then .wRestart
  else if ¬rd ∧ at' ∧ b.dcnt = 0 ∧ next.norestart = true then .wNorestart
  else if ¬rd ∧ at' ∧ b.dcnt = 0 then .wFlagerr
  else if ¬rd ∧ at' then .wNone
  else if rd ∧ rxne ∧ b.totalMsgLen = 1 ∧ b.dcnt = 0 then .r1Last
  else if rd ∧ rxne ∧ b.totalMsgLen = 2 ∧ b.dcnt = 2 ∧ ¬btf then .r2Wait
  else if rd ∧ rxne ∧ b.totalMsgLen = 2 ∧ b.dcnt = 2 ∧ btf then .r2Final
  else if rd ∧ rxne ∧ 3 ≤ b.totalMsgLen ∧ ¬btf then .rnWait
  else if rd ∧ rxne ∧ 3 ≤ b.totalMsgLen ∧ btf ∧ 4 ≤ b.dcnt then .rnByte
  else if rd ∧ rxne ∧ 3 ≤ b.totalMsgLen ∧ btf ∧ b.dcnt = 3 then .rnNackprep
  else if rd ∧ rxne ∧ 3 ≤ b.totalMsgLen ∧ btf ∧ b.dcnt = 2 then .rnFinal
  else if rd ∧ rxne then .rErr
  else if b.dcnt = -1 ∧ b.msgc = 0 then .emptyTerm
  else if c.mode = .polled then .fallbackPoll
  else .fallbackInt

/-- The handle whose lock an instruction acquires with an `acquire` that a signal may end (46_dispatcher R301,
47_lifecycle_trace_ops R343, R349); none where it does not come to that. -/
def interruptibleCall (s : State) : Instr → Option Nat
  | .opSetaddress d _ _ => some d
  | .opReset d => if s.cfg.recoveryOn then some d else none
  | i =>
    match callOf s i with
    | some (d, _ :: _) => some d
    | _ => none

/-! The recorder's part of the state. -/

/-- A Bus State without what only the Trace Recorder uses: its ring and the host log. -/
def BusState.sansTrace (b : BusState) : BusState := { b with trace := ⟨[], 0, 0⟩, log := [] }

/-- A state without what only the Trace Recorder uses: the rings, the host logs and the clock's draws. -/
def State.sansTrace (s : State) : State :=
  { s with
    i2c1 := s.i2c1.sansTrace
    i2c2 := s.i2c2.sansTrace
    i2c3 := s.i2c3.sansTrace
    draws := { s.draws with times := ⟨[], 0⟩ } }

/-- Two outcomes are the same but for the recorder's part. -/
def SameProtocol : Host.Outcome State Fault Refusal → Host.Outcome State Fault Refusal → Prop
  | .next s, .next t => s.sansTrace = t.sansTrace
  | .fault f, .fault g => f = g
  | .refused q, .refused r => q = r
  | _, _ => False

end Sys2Proof.Machine
end

