-- ==== Sys2Proof/Certificates/Slice0/Obligations.lean ====
section
/-! DEFINITION. The statements for the provers, each from numbered rules of spec/. `s` is any state of the machine, `t`
the next one; the free values (`regAt`, draws) are whatever they are: a statement holds for every value of them. -/

open Sys2Proof Sys2Proof.Machine

/-! Encoding and decoding (30_encoding R110 to R117). -/

/-- Every well-formed instruction's request decodes to it, every operand at every value its field holds. The operand bytes
and the phase bits of a selector word are the model's own encoding (DESIGN CHOICE, log entry 1); the selectors and the
operation codes are 30_encoding R110 to R117. -/
def Obligations.EncodedInstructionDecodes : Prop :=
  ∀ i : Instr, i.wellFormed = true → decodeRequest (encode i) = .ok i

/-- Whatever the decoder accepts is well-formed. Well-formed is the range of the fields of the model's own operand encoding
(DESIGN CHOICE, log entry 1): no operand leaves its field's range. -/
def Obligations.DecodedInstructionIsWellFormed : Prop :=
  ∀ (q : Request) (i : Instr), decodeRequest q = .ok i → i.wellFormed = true

/-- Words written out from 30_encoding R110 and R115, one for each branch of the engine (sanity). The last clause is no
selector word: the 8-bit operation word 0x25, its operand byte zero (the model's own operand encoding, DESIGN CHOICE, log
entry 1). -/
def Obligations.TableWordsDecode : Prop :=
  decodeSelector .pre 0x00000 = some .advance ∧
  decodeSelector .branch 0x00401 = some .sbAddr ∧
  decodeSelector .branch 0x000C0 = some .addrNack ∧
  decodeSelector .branch 0x10C62 = some .raddr1 ∧
  decodeSelector .branch 0x10410 = some .wByte ∧
  decodeSelector .branch 0x12114 = some .wStop ∧
  decodeSelector .branch 0x03D2C = some .rnFinal ∧
  decodeSelector .branch 0x00200 = none ∧
  decodeSelector .branch 0x02000 = some .emptyTerm ∧
  decodeSelector .branch 0x02180 = some .fallbackInt ∧
  decodeSelector .term 0x02080 = some .termInt ∧
  decodeTableWord 8 0x25 = some (.engEntry .i2c1)

/-- R117: every operation code starts the operation the table gives it, and every other code is refused, as a request and
as a word of the table's eight bits. -/
def Obligations.OperationCodesAreTheTable : Prop :=
  (∀ (code : Byte) (bs : List Byte) (i : Instr), decodeRequest (.op (code :: bs)) = .ok i → i.opCode = some code) ∧
  (∀ (s : State) (code : Byte) (bs : List Byte) (qs : List Request), (∀ i : Instr, i.opCode ≠ some code) →
    s.settled.requests = .op (code :: bs) :: qs → step s = .refused .unknownOp) ∧
  (∀ code : Byte, (∀ i : Instr, i.opCode ≠ some code) → decodeTableWord 8 code.toNat = none)

/-- R114, R115 and R281: the selector of a Bus State decodes to the branch whose condition in words holds first; the
prelude and terminal rows match exactly under their conditions. -/
def Obligations.SelectorRowsAreTheirConditions : Prop :=
  ∀ (c : Config) (sr1 : Half) (b : BusState) (w : Selector), -1 ≤ b.dcnt → selector c sr1 b = some w →
    decodeSelector .branch w = some (branchInWords c sr1 b) ∧
    (matchesAdvance w = true ↔ b.dcnt = -1 ∧ 0 < b.msgc) ∧
    decodeSelector .term w =
      if b.dcnt = -1 ∧ b.msgc = 0 then some (if c.mode = .polled then .termPoll else .termInt) else none

/-- R116: no Bus State with `dcnt` in its range produces a reserved selector; a reserved word decodes to nothing and,
presented as a request (with the phase bits of log entry 1), faults. An entry whose `dcnt` lies below its range, which no
rule produces, would form one and faults (DEDUCED, log entry 19). -/
def Obligations.ReservedSelectorsFault : Prop :=
  (∀ (c : Config) (sr1 : Half) (b : BusState) (w : Selector), -1 ≤ b.dcnt → selector c sr1 b = some w →
    w.extractLsb' 17 3 = 0 ∧ w.extractLsb' 8 3 ≠ 2 ∧ w.extractLsb' 8 3 ≠ 3 ∧ w.extractLsb' 14 2 ≠ 3) ∧
  (∀ (s : State) (ph : Phase) (w : Selector) (qs : List Request),
    w.extractLsb' 17 3 ≠ 0 ∨ w.extractLsb' 8 3 = 2 ∨ w.extractLsb' 8 3 = 3 ∨ w.extractLsb' 14 2 = 3 →
    decodeSelector ph w = none ∧
    (s.settled.requests = .selector (ph.code ++ w) :: qs → step s = .fault .badSelector)) ∧
  (∀ (s : State) (p : Port), (s.bus p).plat.clkEn = true → (s.bus p).dcnt < -1 → (s.bus p).msgc = 0 →
    exec (.engEntry p) s = .fault .badSelector)

/-! Steps. -/

/-- A step lets the drawn agents move, then runs the decoded instruction of the next request, which it takes off the
list. Where no entry may start, no thread is in the middle of a call and no store is pending nobody moves. A request
that decodes to nothing stops by name; an instruction on a port that a fault stopped stops too, and a port's refused
mark stops nothing (93_implementation_defined); the word placed by `withFetchWord` is what runs next. The request list
is log entry 3, the point before a request log entry 10, the names of a cut or bad operand log entry 1, what a marked
port does log entry 18 (all DESIGN CHOICE). -/
def Obligations.StepRunsDecodedInstruction : Prop :=
  (∀ (s : State) (q : Request) (qs : List Request) (i : Instr), s.settled.requests = q :: qs →
    decodeRequest q = .ok i → (∀ p, s.settled.portOf i = some p → (s.settled.bus p).faulted = false) →
    step s = exec i (s.settled.withRequests qs)) ∧
  (∀ s : State, s.intsOff = true ∨ (∀ p, canEnter s p = false) ∧ s.threads = [] ∧ s.stores = [] → s.settled = s) ∧
  (∀ (s : State) (q : Request) (qs : List Request) (e : Reject), s.settled.requests = q :: qs →
    decodeRequest q = .error e →
    step s = match e with
      | .unknownOp => .refused .unknownOp
      | .badSelector => .fault .badSelector
      | .truncated => .refused .truncated
      | .badOperand => .refused .badOperand) ∧
  (∀ (s : State) (q : Request) (qs : List Request) (i : Instr) (p : Port), s.settled.requests = q :: qs →
    decodeRequest q = .ok i → s.settled.portOf i = some p →
    (s.settled.bus p).faulted = true → step s = .fault .markedFaulted) ∧
  (∀ (s : State) (nbits w : Nat) (i : Instr), decodeTableWord nbits w = some i →
    (∀ p, s.portOf i = some p → (s.bus p).faulted = false) →
    step (s.withFetchWord nbits w) = exec i s ∨
    step (s.withFetchWord nbits w) =
      exec i (s.withDraws { s.draws with turns := { s.draws.turns with used := s.draws.turns.used + 1 } }))

/-- 60_exceptions R406: an entry of a port may start only in INTERRUPT mode, outside an `interrupts_off` region, with
both IRQ lines attached and ITERREN or ITEVTEN set in the last value written to CR2 (and on a port no fault has stopped,
93_implementation_defined, log entry 18). With no request pending (log entry 3) a step is only moves of other agents:
nothing where none may move; where the drawn list (log entry 10) is one port's entry, that entry, or its port's mark where
it stops. Several drawn agents move one after another, and a thread's move touches no Bus State but its port's, which is that of its
call's handle until its first action found the instance and is kept from then on (20_memory R93, 60_exceptions R415;
threads: log entry 9). Another agent's refusal never stops the instruction it moves beside, and its fault only where it is
an entry of that instruction's port or a thread's on it; a fault marks no port but that of the entry or thread that made it
(60_exceptions R403, R404, log entry 18). An agent outside the block
stores its next byte; into a buffer of a transfer under way that begins a race (70_reset_and_hazards R461, log entry 17). -/
def Obligations.IdleStepRunsTheDrawnEntry : Prop :=
  (∀ (s : State) (p : Port), canEnter s p = true ↔
    s.cfg.mode = .interrupt ∧ s.intsOff = false ∧ (s.bus p).faulted = false ∧
    (s.bus p).plat.evIrq.attached = true ∧ (s.bus p).plat.erIrq.attached = true ∧
    (has (s.bus p).cr2Written s.cfg.layout.iterren = true ∨ has (s.bus p).cr2Written s.cfg.layout.itevten = true)) ∧
  (∀ s : State, s.requests = [] → s.threads = [] → s.stores = [] → (∀ p, canEnter s p = false) → step s = .next s) ∧
  (∀ (s u : State) (p : Port), s.requests = [] → canEnter s p = true →
    s.draws.turns.peek Config.freeTurns = [.entry p] →
    u = s.withDraws { s.draws with turns := s.draws.turns.advance } →
    (∀ t, exec (.engEntry p) u = .next t → step s = .next t) ∧
    (∀ f, exec (.engEntry p) u = .fault f → ∃ t, step s = .next t ∧ (t.bus p).faulted = true ∧
      ∀ q, q ≠ p → t.bus q = s.bus q) ∧
    (∀ r, exec (.engEntry p) u = .refused r → ∃ t, step s = .next t ∧ (t.bus p).refused = true ∧
      ∀ q, q ≠ p → t.bus q = s.bus q)) ∧
  (∀ (own : Option Port) (xs ys : List Agent) (s t : State), runAgents own xs s = .ok () t →
    runAgents own (xs ++ ys) s = runAgents own ys t) ∧
  (∀ (own : Option Port) (k : Nat) (x : Thread) (s t : State), s.threads[k]? = some x → x.Placed →
    runAgent own (.thread k) s = .ok () t →
    (∀ q, s.threadPort x ≠ some q → t.bus q = s.bus q) ∧
    ∀ y ∈ t.threads, y ∈ s.threads ∨ y.Placed ∧ y.port = s.threadPort x) ∧
  (∀ (own : Option Port) (a : Agent) (s t : State) (e : Stop), runAgent own a s = .error e t →
    ∃ p f, own = some p ∧ e = .fault f ∧
      (a = .entry p ∨ ∃ k x, a = .thread k ∧ s.threads[k]? = some x ∧ s.threadPort x = some p)) ∧
  (∀ (own : Option Port) (a : Agent) (s t : State) (p : Port), runAgent own a s = .ok () t → (s.bus p).faulted = false →
    (t.bus p).faulted = true →
    a = .entry p ∨ ∃ k x, a = .thread k ∧ s.threads[k]? = some x ∧ s.threadPort x = some p) ∧
  (∀ (own : Option Port) (s : State) (a : Nat) (v : Byte) (cs : List Host.Cell), s.stores = (a, v) :: cs →
    s.mem.wf = true → a < 2 ^ s.cfg.addrWidth →
    ∃ t, runAgent own .store s = .ok () t ∧ t.stores = cs ∧ (∀ q, t.bus q = s.bus q) ∧
      t.mem.read a = v ∧ (∀ b, b ≠ a → t.mem.read b = s.mem.read b) ∧
      ((∃ p m, (s.bus p).owning = true ∧ m ∈ (s.bus p).msgs ∧ m.buffer ≤ a ∧ a < m.buffer + m.length) →
        s.mem.read a ∈ t.raceOf a))

/-- 00_scope R24, 10_state R49: a step never changes the parameters, never clears a port's sticky mark, and never loses a
recorded access, whoever moves in it. -/
def Obligations.HistoryOnlyGrows : Prop :=
  ∀ s t : State, step s = .next t →
    t.cfg = s.cfg ∧ ∀ p, (s.bus p).hist <+: (t.bus p).hist ∧
      ((s.bus p).faulted = true → (t.bus p).faulted = true) ∧ ((s.bus p).refused = true → (t.bus p).refused = true)

/-! The register primitives (40_register_access R150 to R152). -/

/-- R150 REG_GET: the value read is the environment's next answer; only the history grows (and the answer is returned). -/
def Obligations.RegGetReads : Prop :=
  ∀ (s : State) (p : Port) (r : Reg),
    (r ∈ theRegisters → (s.bus p).plat.clkEn = true → ∃ t, exec (.regGet p r) s = .next t ∧
      t.ret = (s.regAt 0).toNat ∧ (t.bus p).hist = (s.bus p).hist ++ [.rd r (s.regAt 0)] ∧
      (∀ k, t.regAt k = s.regAt (k + 1)) ∧
      OnlyPort p [] [] s t ∧ OutsideKept (s.withRet (s.regAt 0).toNat) t) ∧
    (r ∉ theRegisters → (s.bus p).plat.clkEn = true → exec (.regGet p r) s = .fault .regUnmapped) ∧
    (r ∈ theRegisters → (s.bus p).plat.clkEn = false → exec (.regGet p r) s = .fault .portDown)

/-- R151 REG_PUT: the write is recorded and the register holds the value; 0 written to SR1 clears its error bits, 15 to
8 (any other value: `RegisterAccessCorners`). That these are the error bits under every layout is log entry 16 (DESIGN
CHOICE). -/
def Obligations.RegPutWrites : Prop :=
  ∀ (s : State) (p : Port) (r : Reg) (v : Half),
    (r ∈ theRegisters → r ≠ .sr2 → (s.bus p).plat.clkEn = true → ∃ t, exec (.regPut p r v) s = .next t ∧
      (t.bus p).hist = (s.bus p).hist ++ [.wr r v] ∧ (r ≠ .sr1 → (t.bus p).regs.at r = v) ∧
      (r = .sr1 → v = 0 → (t.bus p).regs.sr1 &&& 0xFF00 = 0) ∧
      (r = .cr2 → (t.bus p).cr2Written = v) ∧
      OnlyPort p (if r = .cr2 then [.cr2Written] else []) [r] s t ∧ OutsideKept s t) ∧
    (r ∉ theRegisters → (s.bus p).plat.clkEn = true → exec (.regPut p r v) s = .fault .regUnmapped) ∧
    ((s.bus p).plat.clkEn = true → exec (.regPut p .sr2 v) s = .fault .regReadOnly) ∧
    (r ∈ theRegisters → r ≠ .sr2 → (s.bus p).plat.clkEn = false → exec (.regPut p r v) s = .fault .portDown)

/-- R152 REG_MODIFY: a read then a write of `(v & ~clr) | set`, so a bit in both masks ends set. -/
def Obligations.RegModifyReadsThenWrites : Prop :=
  ∀ (s : State) (p : Port) (r : Reg) (clr set : Half),
    (r = .cr1 ∨ r = .cr2 → (s.bus p).plat.clkEn = true → ∃ t, exec (.regModify p r clr set) s = .next t ∧
      (t.bus p).hist = (s.bus p).hist ++ [.rd r (s.regAt 0), .wr r ((s.regAt 0 &&& ~~~clr) ||| set)] ∧
      (t.bus p).regs.at r = (s.regAt 0 &&& ~~~clr) ||| set ∧
      (r = .cr2 → (t.bus p).cr2Written = (s.regAt 0 &&& ~~~clr) ||| set) ∧
      OnlyPort p (if r = .cr2 then [.cr2Written] else []) [r] s t ∧ OutsideKept s t) ∧
    (r ∉ theRegisters → (s.bus p).plat.clkEn = true → exec (.regModify p r clr set) s = .fault .regUnmapped) ∧
    (r ∈ theRegisters → r ≠ .cr1 → r ≠ .cr2 → (s.bus p).plat.clkEn = true →
      exec (.regModify p r clr set) s = .fault .modifyNotControl) ∧
    (r = .cr1 ∨ r = .cr2 → (s.bus p).plat.clkEn = false → exec (.regModify p r clr set) s = .fault .portDown)

/-- The model's choices at the corners of the register primitives (log entries 15 and 16, DEDUCED): which fault is
named where several apply, and that a write to SR1 clears the error bits 8 to 15 it holds 0 in and no other bit (these bits
under every layout: log entry 16, DESIGN CHOICE). -/
def Obligations.RegisterAccessCorners : Prop :=
  ∀ (s : State) (p : Port),
    (∀ r, r ∉ theRegisters → exec (.regGet p r) s = .fault .regUnmapped ∧
      (∀ v, exec (.regPut p r v) s = .fault .regUnmapped) ∧
      ∀ clr set, exec (.regModify p r clr set) s = .fault .regUnmapped) ∧
    (∀ v, exec (.regPut p .sr2 v) s = .fault .regReadOnly) ∧
    (∀ r clr set, r ∈ theRegisters → r ≠ .cr1 → r ≠ .cr2 →
      exec (.regModify p r clr set) s = .fault .modifyNotControl) ∧
    (∀ v, (s.bus p).plat.clkEn = true → ∃ t, exec (.regPut p .sr1 v) s = .next t ∧
      ∀ k, (t.bus p).regs.sr1.getLsbD k =
        ((s.bus p).regs.sr1.getLsbD k && (decide (k < 8) || v.getLsbD k)))

/-! The address phase (42_engine_address_phase). -/

/-- R200 ENG_ADVANCE: the message `msgv` names is latched and becomes current; `msgv` moves on unless it is the last. -/
def Obligations.AdvanceLatchesTheMessage : Prop :=
  (∀ (s : State) (p : Port) (i : Nat) (m : Message), s.entry.port = p → (s.bus p).msgv = some i →
    i < (s.bus p).count → (s.bus p).msgs[i]? = some m →
    (m.length ≤ s.cfg.maxLen → ∃ t, exec .engAdvance s = .next t ∧
      (t.bus p).ptr = m.buffer ∧ (t.bus p).dcnt = m.length ∧ (t.bus p).totalMsgLen = m.length ∧
      (t.bus p).flags = m.flags ∧ (t.bus p).curAddr = m.addr ∧ (t.bus p).curBuf = m.buffer ∧
      (t.bus p).msgc = (s.bus p).msgc - 1 ∧
      (t.bus p).msgv = (if 0 < (s.bus p).msgc - 1 then some (i + 1) else some i) ∧
      (t.bus p).hist = (s.bus p).hist ++ evs s.cfg .advance m.length) ∧
    (s.cfg.maxLen < m.length → exec .engAdvance s = .refused .lengthTooLarge)) ∧
  (∀ (s : State) (p : Port), s.entry.port = p →
    ((s.bus p).msgv = none ∨ ∃ i, (s.bus p).msgv = some i ∧ (s.bus p).count ≤ i) →
    exec .engAdvance s = .fault .badMsgv)

/-- R202, R203 and 30_encoding R118 ENG_SB_ADDR: the ACK and POS policy for the read length, POS first, then the
address byte to DR; `check_addr_ACK` is set. -/
def Obligations.SbAddrSendsTheAddress : Prop :=
  ∀ (s : State) (p : Port), s.entry.port = p → (s.bus p).plat.clkEn = true →
    ∃ t, exec .engSbAddr s = .next t ∧
      (t.bus p).checkAddrAck = true ∧ (t.bus p).dcnt = (s.bus p).dcnt ∧ (t.bus p).ptr = (s.bus p).ptr ∧
      (t.bus p).msgc = (s.bus p).msgc ∧
      (t.bus p).regs.dr = addressWord (s.bus p).curAddr (s.bus p).flags ∧
      (t.bus p).hist = (s.bus p).hist
        ++ (if (s.bus p).totalMsgLen = 1 ∧ (s.bus p).flags.read = true then
            modEvs .cr1 (s.regAt 0) (bit s.cfg.layout.pos) 0 ++ modEvs .cr1 (s.regAt 1) (bit s.cfg.layout.ack) 0
          else if (s.bus p).totalMsgLen = 2 ∧ (s.bus p).flags.read = true then
            modEvs .cr1 (s.regAt 0) 0 (bit s.cfg.layout.pos) ++ modEvs .cr1 (s.regAt 1) 0 (bit s.cfg.layout.ack)
          else modEvs .cr1 (s.regAt 0) (bit s.cfg.layout.pos) 0 ++ modEvs .cr1 (s.regAt 1) 0 (bit s.cfg.layout.ack))
        ++ [.wr .dr (addressWord (s.bus p).curAddr (s.bus p).flags)]
        ++ evs s.cfg .sendaddr (addressWord (s.bus p).curAddr (s.bus p).flags).toNat

/-- R207 ENG_SB_EMPTY: `dcnt` to -1, then ITBUFEN set; no address. R212 ENG_ADDR_NACK: the transfer aborted, STOP
requested. -/
def Obligations.EmptyMessageAndAddressNack : Prop :=
  ∀ (s : State) (p : Port), s.entry.port = p → (s.bus p).plat.clkEn = true →
    (∃ t, exec .engSbEmpty s = .next t ∧
      (t.bus p).dcnt = -1 ∧ (t.bus p).regs.cr2 = (s.regAt 0 ||| bit s.cfg.layout.itbufen) ∧
      (t.bus p).cr2Written = (s.regAt 0 ||| bit s.cfg.layout.itbufen) ∧
      (t.bus p).hist = (s.bus p).hist ++ modEvs .cr2 (s.regAt 0) 0 (bit s.cfg.layout.itbufen)
        ++ evs s.cfg .empty 0) ∧
    (∃ t, exec .engAddrNack s = .next t ∧
      (t.bus p).checkAddrAck = false ∧ (t.bus p).dcnt = -1 ∧ (t.bus p).msgc = 0 ∧
      (t.bus p).regs.cr1 = (s.regAt 0 ||| bit s.cfg.layout.stop) ∧
      (t.bus p).hist = (s.bus p).hist ++ modEvs .cr1 (s.regAt 0) 0 (bit s.cfg.layout.stop)
        ++ evs s.cfg .addrNack 0)

/-- R213 to R215: ADDR cleared by the SR2 read, after ITBUFEN and before STOP for one byte, after the ACK clear for two,
alone for more; the SR2 value joins the entry's status word. -/
def Obligations.ReadAddressClearOrder : Prop :=
  ∀ (s : State) (p : Port), s.entry.port = p → (s.bus p).plat.clkEn = true →
    (∃ t, exec .engRaddr1 s = .next t ∧
      (t.bus p).dcnt = (s.bus p).dcnt - 1 ∧ (t.bus p).checkAddrAck = false ∧
      t.entry.s = s.entry.s ||| (s.regAt 1).setWidth 32 <<< 16 ∧
      (t.bus p).hist = (s.bus p).hist ++ modEvs .cr2 (s.regAt 0) 0 (bit s.cfg.layout.itbufen)
        ++ [.rd .sr2 (s.regAt 1)] ++ modEvs .cr1 (s.regAt 2) 0 (bit s.cfg.layout.stop) ++ evs s.cfg .rcvbyte1 0) ∧
    (∃ t, exec .engRaddr2 s = .next t ∧
      (t.bus p).checkAddrAck = false ∧ t.entry.s = s.entry.s ||| (s.regAt 1).setWidth 32 <<< 16 ∧
      (t.bus p).hist = (s.bus p).hist ++ modEvs .cr1 (s.regAt 0) (bit s.cfg.layout.ack) 0
        ++ [.rd .sr2 (s.regAt 1)] ++ evs s.cfg .rcvbyte2 0) ∧
    (∃ t, exec .engRaddrN s = .next t ∧
      (t.bus p).checkAddrAck = false ∧ t.entry.s = s.entry.s ||| (s.regAt 0).setWidth 32 <<< 16 ∧
      (t.bus p).hist = (s.bus p).hist ++ [.rd .sr2 (s.regAt 0)] ++ evs s.cfg .rcvbyteN (s.bus p).dcnt)

/-! The write path (43_engine_write_path). -/

/-- R230 and R231 ENG_W_BYTE: where ADDR was seen the SR2 read comes first and clears `check_addr_ACK`; then the byte
at the cursor goes to DR: what memory holds there, or, where another agent wrote it during the transfer, any of the values
written (70_reset_and_hazards R461; how a race is held is log entry 17). -/
def Obligations.WriteByteSendsTheByte : Prop :=
  ∀ (s : State) (p : Port), s.entry.port = p → (s.bus p).plat.clkEn = true → CursorHolds s.cfg (s.bus p) 1 →
    ∃ t, exec .engWByte s = .next t ∧
      (t.bus p).ptr = (s.bus p).ptr + 1 ∧ (t.bus p).dcnt = (s.bus p).dcnt - 1 ∧
      (t.bus p).checkAddrAck = s.preambleAck (s.bus p) ∧
      (t.bus p).regs.dr = (s.found (s.bus p).ptr).setWidth 16 ∧
      (s.raceOf (s.bus p).ptr = [] → s.found (s.bus p).ptr = s.mem.read (s.bus p).ptr) ∧
      s.found (s.bus p).ptr ∈ s.mem.read (s.bus p).ptr :: s.raceOf (s.bus p).ptr ∧
      t.entry.s = s.preambleStatus ∧
      (t.bus p).hist = (s.bus p).hist ++ s.preambleEvs
        ++ [.mrd (s.bus p).ptr (s.found (s.bus p).ptr), .wr .dr ((s.found (s.bus p).ptr).setWidth 16)]
        ++ evs s.cfg .sendbyte ((s.bus p).dcnt - 1)

/-- R232 to R236: how a message ends on the write path, each after the preamble of R230 (where ADDR was seen, SR2 read
into the entry's status word): STOP, a repeated START, the next message without START, a flag error that names the next
message's flags, or nothing. -/
def Obligations.WriteMessageEnds : Prop :=
  ∀ (s : State) (p : Port), s.entry.port = p → (s.bus p).plat.clkEn = true →
    (∃ t, exec .engWStop s = .next t ∧
      (t.bus p).dcnt = (s.bus p).dcnt - 1 ∧ (t.bus p).checkAddrAck = s.preambleAck (s.bus p) ∧ t.entry.s = s.preambleStatus ∧
      (t.bus p).hist = (s.bus p).hist ++ s.preambleEvs
        ++ modEvs .cr1 (s.regAt s.preambleReads) 0 (bit s.cfg.layout.stop) ++ evs s.cfg .stop 0) ∧
    (∃ t, exec .engWRestart s = .next t ∧
      (t.bus p).dcnt = (s.bus p).dcnt - 1 ∧ (t.bus p).checkAddrAck = s.preambleAck (s.bus p) ∧ t.entry.s = s.preambleStatus ∧
      (t.bus p).hist = (s.bus p).hist ++ s.preambleEvs
        ++ modEvs .cr1 (s.regAt s.preambleReads) 0 (bit s.cfg.layout.start) ++ evs s.cfg .restart 0) ∧
    (∃ t, exec .engWNorestart s = .next t ∧
      (t.bus p).dcnt = -1 ∧ (t.bus p).checkAddrAck = s.preambleAck (s.bus p) ∧ t.entry.s = s.preambleStatus ∧
      (t.bus p).hist = (s.bus p).hist ++ s.preambleEvs ++ evs s.cfg .norestart 0) ∧
    (∀ m, (s.bus p).message = some m → ∃ t, exec .engWFlagerr s = .next t ∧
      (t.bus p).checkAddrAck = s.preambleAck (s.bus p) ∧ t.entry.s = s.preambleStatus ∧
      (t.bus p).hist = (s.bus p).hist ++ s.preambleEvs ++ evs s.cfg .writeFlagError m.flags.number) ∧
    (∃ t, exec .engWNone s = .next t ∧
      (t.bus p).checkAddrAck = s.preambleAck (s.bus p) ∧ t.entry.s = s.preambleStatus ∧
      (t.bus p).hist = (s.bus p).hist ++ s.preambleEvs ++ evs s.cfg .writeIdle 0)

/-! The read data phase (44_engine_read_path); every sub-case ends with the SR2 read of R251. -/

/-- R252, R256 and R257: one byte read from DR into the buffer at the cursor; with three bytes left, ACK is cleared
before the DR read. -/
def Obligations.ReadOneByteStoresIt : Prop :=
  ∀ (s : State) (p : Port), s.entry.port = p → (s.bus p).plat.clkEn = true → CursorHolds s.cfg (s.bus p) 1 →
    s.mem.wf = true →
    (∃ t, exec .engR1Last s = .next t ∧
      (t.bus p).ptr = (s.bus p).ptr + 1 ∧ (t.bus p).dcnt = (s.bus p).dcnt - 1 ∧
      t.mem.read (s.bus p).ptr = (s.regAt 0).setWidth 8 ∧
      t.entry.s = s.entry.s ||| (s.regAt 1).setWidth 32 <<< 16 ∧
      (t.bus p).hist = (s.bus p).hist
        ++ [.rd .dr (s.regAt 0), .mwr (s.bus p).ptr ((s.regAt 0).setWidth 8)]
        ++ evs s.cfg .rcvbyteLast 0 ++ [.rd .sr2 (s.regAt 1)]) ∧
    (∃ t, exec .engRnByte s = .next t ∧
      (t.bus p).ptr = (s.bus p).ptr + 1 ∧ (t.bus p).dcnt = (s.bus p).dcnt - 1 ∧
      t.mem.read (s.bus p).ptr = (s.regAt 0).setWidth 8 ∧
      t.entry.s = s.entry.s ||| (s.regAt 1).setWidth 32 <<< 16 ∧
      (t.bus p).hist = (s.bus p).hist
        ++ [.rd .dr (s.regAt 0), .mwr (s.bus p).ptr ((s.regAt 0).setWidth 8)]
        ++ evs s.cfg .rcvbyte ((s.bus p).dcnt - 1) ++ [.rd .sr2 (s.regAt 1)]) ∧
    (∃ t, exec .engRnNackprep s = .next t ∧
      (t.bus p).ptr = (s.bus p).ptr + 1 ∧ (t.bus p).dcnt = (s.bus p).dcnt - 1 ∧
      t.mem.read (s.bus p).ptr = (s.regAt 1).setWidth 8 ∧
      t.entry.s = s.entry.s ||| (s.regAt 2).setWidth 32 <<< 16 ∧
      (t.bus p).hist = (s.bus p).hist ++ modEvs .cr1 (s.regAt 0) (bit s.cfg.layout.ack) 0
        ++ [.rd .dr (s.regAt 1), .mwr (s.bus p).ptr ((s.regAt 1).setWidth 8)]
        ++ evs s.cfg .rcvbyteNackprep 2 ++ [.rd .sr2 (s.regAt 2)])

/-- R254 and R258: STOP is requested, then the last two bytes are read into the buffer in order; `dcnt` is -1. -/
def Obligations.ReadLastTwoStoresThem : Prop :=
  ∀ (s : State) (p : Port) (c : Subcase) (e : EvName), c = .r2Final ∧ e = .read2 ∨ c = .rnFinal ∧ e = .rcvbyteFinal →
    s.entry.port = p → (s.bus p).plat.clkEn = true → CursorHolds s.cfg (s.bus p) 2 → s.mem.wf = true →
    ∃ t, exec c.instr s = .next t ∧
      (t.bus p).ptr = (s.bus p).ptr + 2 ∧ (t.bus p).dcnt = -1 ∧
      t.mem.read (s.bus p).ptr = (s.regAt 1).setWidth 8 ∧
      t.mem.read ((s.bus p).ptr + 1) = (s.regAt 2).setWidth 8 ∧
      t.entry.s = s.entry.s ||| (s.regAt 3).setWidth 32 <<< 16 ∧
      (t.bus p).hist = (s.bus p).hist ++ modEvs .cr1 (s.regAt 0) 0 (bit s.cfg.layout.stop)
        ++ [.rd .dr (s.regAt 1), .mwr (s.bus p).ptr ((s.regAt 1).setWidth 8)]
        ++ [.rd .dr (s.regAt 2), .mwr ((s.bus p).ptr + 1) ((s.regAt 2).setWidth 8)]
        ++ evs s.cfg e 0 ++ [.rd .sr2 (s.regAt 3)]

/-- R253, R255 and R262: the waits read SR2 and nothing else; an unknown read state ends the transfer with no STOP and
no DR read. -/
def Obligations.ReadWaitsAndReadError : Prop :=
  ∀ (s : State) (p : Port), s.entry.port = p → (s.bus p).plat.clkEn = true →
    (∃ t, exec .engR2Wait s = .next t ∧ t.entry.s = s.entry.s ||| (s.regAt 0).setWidth 32 <<< 16 ∧
      (t.bus p).hist = (s.bus p).hist ++ evs s.cfg .read2Wait 0 ++ [.rd .sr2 (s.regAt 0)]) ∧
    (∃ t, exec .engRnWait s = .next t ∧ t.entry.s = s.entry.s ||| (s.regAt 0).setWidth 32 <<< 16 ∧
      (t.bus p).hist = (s.bus p).hist ++ evs s.cfg .readWait (s.bus p).dcnt ++ [.rd .sr2 (s.regAt 0)]) ∧
    (∃ t, exec .engRErr s = .next t ∧ (t.bus p).dcnt = -1 ∧ (t.bus p).msgc = 0 ∧
      t.entry.s = s.entry.s ||| (s.regAt 0).setWidth 32 <<< 16 ∧
      (t.bus p).hist = (s.bus p).hist ++ evs s.cfg .readError (s.bus p).dcnt ++ [.rd .sr2 (s.regAt 0)])

/-- 20_memory R81: a byte access with the cursor outside the current message's buffer faults, the second byte of a
final pair included; an address outside the address space faults by a name of its own (log entry 7).
70_reset_and_hazards R461: a store into a buffer of a transfer under way by anyone but its engine is a race. What the byte
held stays a value of it beside the one stored, the engine finds one of these values, every one of them for some draw, and
where no transfer owns the byte any more its races end in one of them (how races are held and end is log entry 17). -/
def Obligations.BufferOverrunFaults : Prop :=
  (∀ (s : State) (writer : Option Port) (a : Nat) (v : Byte), s.mem.wf = true →
    (s.stored writer a v).mem.read a = v ∧ (∀ b, b ≠ a → (s.stored writer a v).mem.read b = s.mem.read b) ∧
    ((∃ p m, writer ≠ some p ∧ (s.bus p).owning = true ∧ m ∈ (s.bus p).msgs ∧ m.buffer ≤ a ∧ a < m.buffer + m.length) →
      (s.stored writer a v).raceOf a = s.raceOf a ++ [s.mem.read a]) ∧
    (s.ownedByOther writer a = false → s.raceOf a = [] → (s.stored writer a v).races = s.races) ∧
    (∀ b, b ≠ a → (s.stored writer a v).raceOf b = s.raceOf b)) ∧
  (∀ (s : State) (a : Nat), s.found a ∈ s.mem.read a :: s.raceOf a ∧
    ∀ v ∈ s.mem.read a :: s.raceOf a, ∃ x, (s.withDraws { s.draws with races := x }).found a = v) ∧
  (∀ (s : State) (a : Nat), s.mem.wf = true → s.decided.mem.wf = true ∧
    s.decided.mem.read a ∈ s.mem.read a :: s.raceOf a ∧
    (s.owned a = false → s.decided.raceOf a = []) ∧
    (s.owned a = true → s.decided.raceOf a = s.raceOf a ∧ s.decided.mem.read a = s.mem.read a)) ∧
  ∀ (s : State) (p : Port), s.entry.port = p → (s.bus p).plat.clkEn = true →
    (¬((s.bus p).curBuf ≤ (s.bus p).ptr ∧ (s.bus p).ptr < (s.bus p).curBuf + (s.bus p).totalMsgLen) →
      ∀ c : Subcase, c = .wByte ∨ c = .r1Last ∨ c = .r2Final ∨ c = .rnByte ∨ c = .rnNackprep ∨ c = .rnFinal →
        exec c.instr s = .fault .bufferOverrun) ∧
    ((s.bus p).curBuf ≤ (s.bus p).ptr → (s.bus p).ptr + 1 = (s.bus p).curBuf + (s.bus p).totalMsgLen →
      (s.bus p).ptr < 2 ^ s.cfg.addrWidth →
      ∀ c : Subcase, c = .r2Final ∨ c = .rnFinal → exec c.instr s = .fault .bufferOverrun) ∧
    ((s.bus p).curBuf ≤ (s.bus p).ptr → (s.bus p).ptr < (s.bus p).curBuf + (s.bus p).totalMsgLen →
      2 ^ s.cfg.addrWidth ≤ (s.bus p).ptr →
      ∀ c : Subcase, c = .wByte ∨ c = .r1Last ∨ c = .r2Final ∨ c = .rnByte ∨ c = .rnNackprep ∨ c = .rnFinal →
        exec c.instr s = .fault .noSuchAddress)

/-! Termination and fallback (45_engine_termination). -/

/-- R282, R287 and R288: nothing left to do and no event recognised only emit; in INTERRUPT mode the transfer is
aborted. No register is accessed, so the port's clock does not matter. -/
def Obligations.EmptyTerminationAndFallbacks : Prop :=
  ∀ (s : State) (p : Port), s.entry.port = p →
    (∃ t, exec .engEmptyTerm s = .next t ∧ (t.bus p).hist = (s.bus p).hist ++ evs s.cfg .shutdown 0) ∧
    (∃ t, exec .engFallbackPoll s = .next t ∧ (t.bus p).hist = (s.bus p).hist ++ evs s.cfg .notReady 0) ∧
    (∃ t, exec .engFallbackInt s = .next t ∧ (t.bus p).dcnt = -1 ∧ (t.bus p).msgc = 0 ∧
      (t.bus p).hist = (s.bus p).hist ++ evs s.cfg .stateError s.entry.sr1.toNat)

/-- R283 to R286: terminal handling captures the entry's status word and clears `msgv`; in POLLED mode it sets DONE; in
INTERRUPT mode it clears the enables of CR2, and sets DONE and posts only if a waiter waits. -/
def Obligations.TerminalHandlingCapturesStatus : Prop :=
  ∀ (s : State) (p : Port), s.entry.port = p →
    (∃ t, exec .engTermPoll s = .next t ∧ (t.bus p).status = s.entry.s ∧ (t.bus p).msgv = none ∧
      (t.bus p).intstate = .done ∧ (t.bus p).hist = (s.bus p).hist ++ evs s.cfg .done 0) ∧
    ((s.bus p).plat.clkEn = true → ∃ t, exec .engTermInt s = .next t ∧
      (t.bus p).status = s.entry.s ∧ (t.bus p).msgv = none ∧
      (t.bus p).intstate = (if (s.bus p).intstate = .waiting then .done else (s.bus p).intstate) ∧
      (t.bus p).sem = (if (s.bus p).intstate = .waiting then (s.bus p).sem + 1 else (s.bus p).sem) ∧
      (t.bus p).cr2Written = s.regAt 0 &&& ~~~(allInts s.cfg.layout) ∧
      (t.bus p).hist = (s.bus p).hist ++ modEvs .cr2 (s.regAt 0) (allInts s.cfg.layout) 0 ++ evs s.cfg .done 0)

/-- The frame of the 26 sub-cases: nothing of the port but what the sub-case's rule writes, no other port, nothing
outside the ports, and no byte of memory but those it stores to, which alone may come under a race (70_reset_and_hazards
R461, log entry 17); the entry keeps its port and its SR1 value, and its status word where the sub-case reads no SR2
(10_state R66). -/
def Obligations.SubcaseFrame : Prop :=
  ∀ (c : Subcase) (s t : State) (p : Port), s.entry.port = p → exec c.instr s = .next t →
    KeptBut s.cfg c.written c.registersWritten (s.bus p) (t.bus p) ∧
    OtherPortsKept p s t ∧ OutsideKept s t ∧
    t.entry.port = s.entry.port ∧ t.entry.sr1 = s.entry.sr1 ∧
    (c.readsSr2 s.addrSeen = false → t.entry.s = s.entry.s) ∧
    (∀ a, a ∉ c.stores (s.bus p) → t.mem.read a = s.mem.read a) ∧
    ∃ cs, t.races = s.races ++ cs ∧ ∀ x ∈ cs, x.1 ∈ c.stores (s.bus p)

/-! The engine entry (45_engine_termination R280, R281, R289). -/

/-- From a ready Bus State with the clock on an entry runs to its end, whatever the peripheral answers, and leaves a
ready Bus State: the engine never gets stuck. -/
def Obligations.EntryCompletes : Prop :=
  ∀ (s : State) (p : Port), EntryReady s.cfg (s.bus p) → (s.bus p).plat.clkEn = true →
    ∃ t, exec (.engEntry p) s = .next t ∧ EntryReady t.cfg (t.bus p) ∧ (t.bus p).plat.clkEn = true

/-- R280, R114, R281: an entry is the SR1 read, the trace sample, the prelude where its condition holds, the one branch
whose condition in words holds first, and terminal handling where its condition holds, as the instructions of those
names; its entry-local word does not survive. -/
def Obligations.EntryRunsItsStages : Prop :=
  ∀ (s : State) (p : Port), EntryReady s.cfg (s.bus p) → (s.bus p).plat.clkEn = true →
    ∃ a b c d e, exec (.regGet p .sr1) s = .next a ∧
      exec (.traceSample p ((s.regAt 0).setWidth 32))
        ((a.withRet s.ret).withEntry ⟨p, s.regAt 0, (s.regAt 0).setWidth 32⟩) = .next b ∧
      (if (b.bus p).dcnt = -1 ∧ 0 < (b.bus p).msgc then exec .engAdvance b = .next c else c = b) ∧
      exec (branchInWords s.cfg (s.regAt 0) (c.bus p)).instr c = .next d ∧
      (if (d.bus p).dcnt = -1 ∧ (d.bus p).msgc = 0 then
        exec (if s.cfg.mode = .polled then .engTermPoll else .engTermInt) d = .next e else e = d) ∧
      exec (.engEntry p) s = .next (e.withEntry ⟨p, 0, 0⟩)

/-- R280 and 40_register_access R156: an entry reads SR1 once, first, and makes at most ten accesses. -/
def Obligations.EntryReadsSr1OnceFirst : Prop :=
  ∀ (s t : State) (p : Port), exec (.engEntry p) s = .next t →
    ∃ es, (t.bus p).hist = (s.bus p).hist ++ .rd .sr1 (s.regAt 0) :: es ∧
      (∀ e ∈ es, e.readsSr1 = false) ∧ (es.filter Event.isAccess).length ≤ 9

/-- The frame of an entry: other ports, everything outside the ports, and what no sub-case writes are the same; memory
changes, and comes under a race (70_reset_and_hazards R461, log entry 17), only inside the buffer of a READ message that is
current at its end. -/
def Obligations.EntryIsolation : Prop :=
  ∀ (s t : State) (p : Port), exec (.engEntry p) s = .next t →
    OtherPortsKept p s t ∧ OutsideKept s t ∧ EngineKeeps (s.bus p) (t.bus p) ∧
    ((t.bus p).flags.read = false → MemoryKept s t) ∧
    ∀ a, a < (t.bus p).curBuf ∨ (t.bus p).curBuf + (t.bus p).totalMsgLen ≤ a →
      t.mem.read a = s.mem.read a ∧ t.raceOf a = s.raceOf a

/-! The clock programmer (41_clock_programmer). -/

/-- R180 to R188: CR1 read, PE cleared, CCR, TRISE and OAR1 written, CR1 restored, with the standard-mode words of R183
and the fast-mode words of R184; where nobody else moves. That it completes for every CCR and TRISE value its field holds
under every layout is the model's choice (log entry 4, DESIGN CHOICE: R190 and 30_encoding R121 give 0xFFF and 0x3F, the
default layout's, only). -/
def Obligations.ClockProgramWritesTheFormulas : Prop :=
  ∀ (s : State) (p : Port) (fp ft : Nat), Alone s → (s.bus p).plat.clkEn = true → ft ≠ 0 →
    (ft ≤ 100000 → max 4 (fp / (2 * ft)) < 2 ^ s.cfg.layout.ccr.width →
      fp / 1000000 + 1 < 2 ^ s.cfg.layout.trise.width →
      ∃ t, exec (.clkProgram p fp ft) s = .next t ∧
        (t.bus p).hist = (s.bus p).hist ++ clockEvs s.cfg.layout (s.regAt 0)
          (place s.cfg.layout.ccr (max 4 (fp / (2 * ft)))) (place s.cfg.layout.trise (fp / 1000000 + 1)) ∧
        (t.bus p).regs.ccr = place s.cfg.layout.ccr (max 4 (fp / (2 * ft))) ∧
        (t.bus p).regs.trise = place s.cfg.layout.trise (fp / 1000000 + 1) ∧
        (t.bus p).regs.oar1 = 0x4000 ∧ (t.bus p).regs.cr1 = s.regAt 0 ∧
        OnlyPort p [] [.cr1, .ccr, .trise, .oar1] s t ∧ OutsideKept s t) ∧
    (100000 < ft →
      max 1 (if s.cfg.duty169 = true then fp / (25 * ft) else fp / (3 * ft)) < 2 ^ s.cfg.layout.ccr.width →
      fp / 1000000 * 300 / 1000 + 1 < 2 ^ s.cfg.layout.trise.width →
      ∃ t, exec (.clkProgram p fp ft) s = .next t ∧
        (t.bus p).hist = (s.bus p).hist ++ clockEvs s.cfg.layout (s.regAt 0)
          (place s.cfg.layout.ccr (max 1 (if s.cfg.duty169 = true then fp / (25 * ft) else fp / (3 * ft)))
            ||| (if s.cfg.duty169 = true then bit s.cfg.layout.duty else 0) ||| bit s.cfg.layout.fs)
          (place s.cfg.layout.trise (fp / 1000000 * 300 / 1000 + 1)) ∧
        (t.bus p).regs.ccr =
          (place s.cfg.layout.ccr (max 1 (if s.cfg.duty169 = true then fp / (25 * ft) else fp / (3 * ft)))
            ||| (if s.cfg.duty169 = true then bit s.cfg.layout.duty else 0) ||| bit s.cfg.layout.fs) ∧
        (t.bus p).regs.trise = place s.cfg.layout.trise (fp / 1000000 * 300 / 1000 + 1) ∧
        (t.bus p).regs.oar1 = 0x4000 ∧ (t.bus p).regs.cr1 = s.regAt 0 ∧
        OnlyPort p [] [.cr1, .ccr, .trise, .oar1] s t ∧ OutsideKept s t)

/-- R190: what CLK_PROGRAM refuses, in the order the rule lists; where nobody else moves. That the bounds are what the CCR
and TRISE fields hold under every layout is the model's choice (log entry 4, DESIGN CHOICE: R190 gives 0xFFF and 0x3F, the
default layout's, only). -/
def Obligations.ClockProgramRefuses : Prop :=
  ∀ (s : State) (p : Port) (fp ft : Nat), Alone s → (s.bus p).plat.clkEn = true →
    (ft = 0 → exec (.clkProgram p fp ft) s = .refused .divByZero) ∧
    (ft ≠ 0 → 2 ^ s.cfg.layout.ccr.width ≤ (clockWords s.cfg.duty169 fp ft).ccr →
      exec (.clkProgram p fp ft) s = .refused .ccrOverflow) ∧
    (ft ≠ 0 → (clockWords s.cfg.duty169 fp ft).ccr < 2 ^ s.cfg.layout.ccr.width →
      2 ^ s.cfg.layout.trise.width ≤ (clockWords s.cfg.duty169 fp ft).trise →
      exec (.clkProgram p fp ft) s = .refused .triseOverflow)

/-- R189 OP_SETFREQUENCY where nobody else moves: the stored frequency, returned; the lock taken and released; no
register accessed. -/
def Obligations.SetFrequencyStoresIt : Prop :=
  ∀ (s : State) (d f : Nat) (x : Inst), Alone s → LockTaken s d x →
    ∃ t, exec (.opSetfrequency d f) s = .next t ∧
      t.inst d = some { x with frequency := if s.cfg.pclk < 4000000 then 100000 else f } ∧
      t.ret = ((if s.cfg.pclk < 4000000 then 100000 else f : Nat) : Int) ∧
      (∀ e, e ≠ d → t.inst e = s.inst e) ∧ (∀ q, t.bus q = s.bus q) ∧ t.mem = s.mem ∧ t.races = s.races ∧
      OutsideKept ((s.withInstances t.instances).withRet t.ret) t

/-! Calls, the lock and the dispatcher (46_dispatcher, 47_lifecycle_trace_ops). -/

/-- 47_lifecycle_trace_ops R349 OP_SETADDRESS where nobody else moves: only a width of 10 selects 10-bit addressing; the
address is not range-checked; no register is accessed; a wait on a held lock that a signal ends returns INTERRUPTED and
stores nothing (that a look at a held lock draws the signal is log entry 9, DESIGN CHOICE). -/
def Obligations.SetAddressStoresIt : Prop :=
  (∀ (s : State) (d addr nbits : Nat) (x : Inst), Alone s → LockTaken s d x →
    ∃ t, exec (.opSetaddress d addr nbits) s = .next t ∧
      t.inst d = some { x with
        address := addr
        iflags := if nbits = 10 then ⟨false, true, false⟩ else MsgFlags.empty } ∧
      t.ret = 0 ∧ (∀ e, e ≠ d → t.inst e = s.inst e) ∧ (∀ q, t.bus q = s.bus q) ∧ t.mem = s.mem ∧ t.races = s.races ∧
      OutsideKept ((s.withInstances t.instances).withRet 0) t) ∧
  (∀ (s : State) (d o addr nbits : Nat) (x : Inst), Alone s → s.inst d = some x → (s.bus x.port).lock = .held o →
    s.noSignal = false →
    ∃ t, exec (.opSetaddress d addr nbits) s = .next t ∧ t.ret = -(s.cfg.errno.interrupted : Int) ∧
      t.instances = s.instances ∧ (∀ q, t.bus q = s.bus q) ∧ t.mem = s.mem ∧ t.races = s.races)

/-- 46_dispatcher R301, 20_memory R96, 41_clock_programmer R189, where nobody else moves: a call that finds the lock held
waits, with nothing done, as a thread that has done all but the acquire; where a signal ends the wait it returns
INTERRUPTED with nothing else done, but OP_SETFREQUENCY's wait goes on; a free lock is taken whatever signal arrives. How
a waiting call is held, and that a look at a held lock draws the signal, is log entry 9 (DESIGN CHOICE). -/
def Obligations.LockWaits : Prop :=
  (∀ (s : State) (i : Instr) (d o : Nat) (x : Inst), Alone s →
    (interruptibleCall s i = some d ∧ s.noSignal = true ∨ ∃ f, i = .opSetfrequency d f) →
    s.inst d = some x → (s.bus x.port).lock = .held o →
    ∃ t, exec i s = .next t ∧ t.threads = [⟨i, some x.port, [.inst x]⟩] ∧ (∀ q, t.bus q = s.bus q) ∧
      t.mem = s.mem ∧ t.races = s.races ∧ OutsideKept (s.withThreads t.threads) t) ∧
  (∀ (s : State) (i : Instr) (d o : Nat) (x : Inst), Alone s → interruptibleCall s i = some d → s.inst d = some x →
    (s.bus x.port).lock = .held o → s.noSignal = false →
    ∃ t, exec i s = .next t ∧ t.ret = -(s.cfg.errno.interrupted : Int) ∧ (∀ q, t.bus q = s.bus q) ∧
      t.mem = s.mem ∧ t.races = s.races ∧ OutsideKept (s.withRet (-(s.cfg.errno.interrupted : Int))) t) ∧
  (∀ (s : State) (p : Port) (d : Nat), (s.bus p).lock = .free →
    tryAcquire p d s = .ok true (s.setBus p { s.bus p with lock := .held d }))

/-- 46_dispatcher R300: from a ready machine with no other call, with the lock free, a chain the model admits and a
frequency the clock programmer takes, a transfer by any of the four operations runs to its end under every answer of the
peripheral and every interleaving of entries; the lock is free again, the handshake is IDLE, the return value is R320's.
That it always ends rests on log entry 11 (DESIGN CHOICE): a wait makes a drawn, finite number of rounds, so this is no
claim that the hardware's waits end. Which frequencies the clock programmer takes under a layout of other widths is log
entry 4 (DESIGN CHOICE). -/
def Obligations.TransferCompletes : Prop :=
  ∀ (s : State) (i : Instr) (d : Nat) (msgs : List Message) (x : Inst), Ready s → Solo s →
    callOf s i = some (d, msgs) → LockTaken s d x → msgs ≠ [] → (∀ m ∈ msgs, Admissible s.cfg m) →
    ClockFits s.cfg x.frequency → (s.bus x.port).plat.clkEn = true →
    ∃ t, exec i s = .next t ∧ Ready t ∧ Solo t ∧
      (t.bus x.port).lock = .free ∧ (t.bus x.port).intstate = .idle ∧
      (t.bus x.port).msgs = msgs ∧ (t.bus x.port).count = msgs.length ∧
      t.ret = -(Errno.magnitude s.cfg.errno t.errval : Int)

/-- 45_engine_termination R289: after a transfer that returns success, with no other call beside it, the port is idle:
`dcnt` is -1, `msgc` 0 and `msgv` none. -/
def Obligations.SuccessLeavesThePortIdle : Prop :=
  ∀ (s t : State) (i : Instr) (d : Nat) (msgs : List Message) (x : Inst), Solo s → callOf s i = some (d, msgs) →
    LockTaken s d x → ErrnoPositive s.cfg.errno → (s.bus x.port).intstate ≠ .done → exec i s = .next t →
    t.ret = 0 →
    (t.bus x.port).dcnt = -1 ∧ (t.bus x.port).msgc = 0 ∧ (t.bus x.port).msgv = none

/-- 47_lifecycle_trace_ops R350 to R352, with no other call beside it: OP_WRITE, OP_READ and OP_TRANSFER are OP_PROCESS
of the chain they stand for, READ added for a read and the instance's address and flags not used by a transfer;
OP_TRANSFER is refused where it is off. -/
def Obligations.CallersAreProcess : Prop :=
  (∀ (s : State) (d buf n : Nat) (x : Inst), Solo s → s.inst d = some x →
    ((s.bus x.port).lock = .free ∨ s.noSignal = false) →
    exec (.opWrite d buf n) s = exec (.opProcess d [⟨x.address, x.iflags, buf, n⟩]) s ∧
    exec (.opRead d buf n) s = exec (.opProcess d [⟨x.address, { x.iflags with read := true }, buf, n⟩]) s ∧
    ∀ msgs, s.cfg.transferOn = true → exec (.opTransfer d msgs) s = exec (.opProcess d msgs) s) ∧
  (∀ (s : State) (d : Nat) (msgs : List Message), Alone s → s.cfg.transferOn = false →
    exec (.opTransfer d msgs) s = .refused .optionOff)

/-- 60_exceptions R404 where nobody else moves: an empty chain, a bus reset with recovery off and a transfer with its
option off are refused by name. An operation on a handle nothing opened is refused as `noInstance`, after the option's
test: that refusal is the model's own (DESIGN CHOICE, log entry 8). -/
def Obligations.CallsRefused : Prop :=
  (∀ (s : State) (d : Nat), Alone s → s.inst d = none →
    (∀ f, exec (.opSetfrequency d f) s = .refused .noInstance) ∧
    (∀ a n, exec (.opSetaddress d a n) s = .refused .noInstance) ∧
    (∀ b n, exec (.opWrite d b n) s = .refused .noInstance ∧ exec (.opRead d b n) s = .refused .noInstance) ∧
    (∀ msgs, exec (.opProcess d msgs) s = .refused .noInstance) ∧
    (s.cfg.recoveryOn = true → exec (.opReset d) s = .refused .noInstance) ∧
    (∀ msgs, s.cfg.transferOn = true → exec (.opTransfer d msgs) s = .refused .noInstance)) ∧
  (∀ (s : State) (d : Nat) (x : Inst), Alone s → s.inst d = some x →
    exec (.opProcess d []) s = .refused .emptyChain) ∧
  (∀ (s : State) (d : Nat), Alone s → s.cfg.recoveryOn = false → exec (.opReset d) s = .refused .optionOff) ∧
  (∀ (s : State) (d : Nat) (msgs : List Message), Alone s → s.cfg.transferOn = false →
    exec (.opTransfer d msgs) s = .refused .optionOff)

/-- 46_dispatcher R303 to R306, the start of a transfer after the settle wait, where nobody else moves: SR1 cleared,
START, STOP and PEC cleared, the chain installed, the clock programmed, `dcnt` -1 and `status` 0, then the one START. Which
frequencies the clock programmer takes under a layout of other widths is log entry 4 (DESIGN CHOICE). -/
def Obligations.TransferStartAccesses : Prop :=
  ∀ (s : State) (p : Port) (d : Nat) (x : Inst) (msgs : List Message), Alone s → s.inst d = some x → x.port = p →
    (s.bus p).plat.clkEn = true → ClockFits s.cfg x.frequency →
    ∃ t, drive (some p) (startTransfer s.cfg d x msgs false) s = .ok () t ∧
      (t.bus p).hist = (s.bus p).hist ++ [.wr .sr1 0]
        ++ modEvs .cr1 (s.regAt 0) (bit s.cfg.layout.start ||| bit s.cfg.layout.stop ||| bit s.cfg.layout.pec) 0
        ++ clockEvs s.cfg.layout (s.regAt 1) (ccrWord s.cfg.layout (clockWords s.cfg.duty169 s.cfg.pclk x.frequency))
          (place s.cfg.layout.trise (clockWords s.cfg.duty169 s.cfg.pclk x.frequency).trise)
        ++ modEvs .cr1 (s.regAt 2) 0 (bit s.cfg.layout.start) ∧
      (t.bus p).msgs = msgs ∧ (t.bus p).count = msgs.length ∧ (t.bus p).msgc = msgs.length ∧
      (t.bus p).msgv = some 0 ∧ (t.bus p).dcnt = -1 ∧ (t.bus p).status = 0 ∧
      (t.bus p).checkAddrAck = (s.bus p).checkAddrAck ∧ (t.bus p).flags = (s.bus p).flags ∧
      (t.bus p).totalMsgLen = (s.bus p).totalMsgLen ∧ (t.bus p).curAddr = (s.bus p).curAddr ∧
      (t.bus p).ptr = (s.bus p).ptr ∧ OtherPortsKept p s t ∧ MemoryKept s t ∧ OutsideKept s t

/-- 46_dispatcher R302 and R310, the STOP-settle wait where nobody else moves: its deadline is the one of the timeout
kind; it does nothing but read CR1 and SR1, round by round, and at most once emit an event. It ends at the first round
that reads STOP clear, or STOP set and then TIMEOUT set in SR1; where its drawn number of further rounds has passed with
STOP set and TIMEOUT clear in each, it has expired and emits EV_STOP_SETTLE_TIMEOUT with the last CR1 value (vectors D18
to D20). That it always ends, after a drawn, finite number of rounds, is log entry 11 (DESIGN CHOICE). -/
def Obligations.StopSettleOnlyReads : Prop :=
  ∀ (s : State) (p : Port) (msgs : List Message), Alone s → (s.bus p).plat.clkEn = true →
    ∃ t es, drive (some p) (stopSettle s.cfg p msgs) s = .ok () t ∧ (t.bus p).hist = (s.bus p).hist ++ es ∧
      (∀ j, j ≤ s.draws.waits.peek Config.freeWait → (∀ k, k < j → s.stillSettling k) →
        (has (s.regAt (2 * j)) s.cfg.layout.stop = false →
          es = s.settleReads j ++ [.rd .cr1 (s.regAt (2 * j))]) ∧
        (has (s.regAt (2 * j)) s.cfg.layout.stop = true →
          has (s.regAt (2 * j + 1)) s.cfg.layout.timeout = true → es = s.settleReads (j + 1))) ∧
      ((∀ k, k ≤ s.draws.waits.peek Config.freeWait → s.stillSettling k) →
        es = s.settleReads (s.draws.waits.peek Config.freeWait + 1)
          ++ evs s.cfg .stopSettleTimeout (s.regAt (2 * s.draws.waits.peek Config.freeWait)).toNat) ∧
      (∀ e ∈ es, (∃ v, e = .rd .cr1 v) ∨ (∃ v, e = .rd .sr1 v) ∨ ∃ x, e = .ev .stopSettleTimeout x) ∧
      (es.filter fun e => !e.isAccess).length ≤ 1 ∧
      (t.bus p).deadline = (match s.cfg.timeoutKind with
        | .static => s.cfg.timeoutS * 1000000 + s.cfg.timeoutMs * 1000
        | .dynamic => s.cfg.usPerByte * (msgs.map (·.length)).sum) ∧
      (∀ f, Field.Same f (s.bus p) (t.bus p)) ∧ (t.bus p).regs = (s.bus p).regs ∧
      (t.bus p).lock = (s.bus p).lock ∧ (t.bus p).msgs = (s.bus p).msgs ∧
      OtherPortsKept p s t ∧ MemoryKept s t ∧ OutsideKept s t

/-- 46_dispatcher R311 and R312, step 8 where nobody else moves: after completion the captured SR1 half is classified
with OK and no register is accessed; after a timeout the live SR1 and SR2 are classified with TIMEDOUT, START, STOP and
PEC are cleared, and only in POLLED mode STOP is requested. -/
def Obligations.TransferResultPaths : Prop :=
  ∀ (s : State) (p : Port), Alone s →
    (∃ t, drive (some p) (transferResult s.cfg p true) s =
        .ok (classify s.cfg ((s.bus p).status &&& 0x0000FFFF) .ok) t ∧
      (∀ q, t.bus q = s.bus q) ∧ MemoryKept s t ∧ OutsideKept s t) ∧
    ((s.bus p).plat.clkEn = true → ∃ t,
      drive (some p) (transferResult s.cfg p false) s =
        .ok (classify s.cfg ((s.regAt 0).setWidth 32 ||| (s.regAt 1).setWidth 32 <<< 16) .timedout) t ∧
      (t.bus p).hist = (s.bus p).hist ++ [.rd .sr1 (s.regAt 0), .rd .sr2 (s.regAt 1)]
        ++ modEvs .cr1 (s.regAt 2) (bit s.cfg.layout.start ||| bit s.cfg.layout.stop ||| bit s.cfg.layout.pec) 0
        ++ (if s.cfg.mode = .polled then modEvs .cr1 (s.regAt 3) 0 (bit s.cfg.layout.stop) else []) ∧
      OnlyPort p [] [.cr1] s t ∧ OutsideKept s t)

/-- 46_dispatcher R307, R308, R470 and 20_memory R94. A wait of either mode succeeds only where DONE is then set,
whoever moves beside it. In INTERRUPT mode, where nobody else moves, the wait opens by setting WAITING and only then
setting ITERREN and ITEVTEN in CR2; where then no agent is drawn at any point (log entry 10, DESIGN CHOICE: who moves
is drawn) and nothing was posted, the deadline passes after the drawn, finite number of rounds (log entry 11, DESIGN
CHOICE: so this is no claim that the hardware's wait ends) with no further access but the CR2 write that clears the
enables, and the wait fails. The waits make progress: where nobody else moves, a round of the POLLED wait is one engine entry,
after which the wait succeeds where that entry leaves DONE, and else goes on to the next round, or fails where none is left;
a round of the INTERRUPT wait takes a post that is there and succeeds where `intstate` is then DONE, and else ignores it, and
where no round is left the posts still there are taken, the wait succeeding where DONE backs one (how rounds are drawn and
what the deadline does with posts: log entry 11); so it does where agents drawn at that last point left a post and DONE. Each
wait starts with its deadline and its drawn number of rounds; the INTERRUPT wait is its opening, its rounds, then all
enables cleared; step 7 is the wait of the mode, then the handshake IDLE. -/
def Obligations.CompletionNeedsDone : Prop :=
  (∀ (own : Option Port) (s t : State) (p : Port) (n : Nat),
    (drive own (takeLoop p n) s = .ok true t → (t.bus p).intstate = .done) ∧
    (drive own (polledLoop p n) s = .ok true t → (t.bus p).intstate = .done)) ∧
  (∀ (s : State) (p : Port), Alone s → (s.bus p).plat.clkEn = true →
    ∃ t u, drive (some p) (openWait s.cfg p) s = .ok () t ∧
      exec (.regModify p .cr2 0 (bit s.cfg.layout.iterren ||| bit s.cfg.layout.itevten))
        (s.setBus p { s.bus p with intstate := .waiting }) = .next u ∧
      (∀ q, t.bus q = u.bus q) ∧ (t.bus p).intstate = .waiting ∧
      (t.bus p).cr2Written = (s.regAt 0 ||| (bit s.cfg.layout.iterren ||| bit s.cfg.layout.itevten)) ∧
      OtherPortsKept p s t ∧ MemoryKept s t ∧ OutsideKept s t) ∧
  (∀ (s : State) (p : Port) (msgs : List Message), Alone s → (s.bus p).plat.clkEn = true → (s.bus p).sem = 0 →
    (∀ j, j ≤ s.draws.waits.peek Config.freeWait + 1 → s.draws.turns.nth Config.freeTurns j = []) →
    ∃ t, drive (some p) (waitInterrupt s.cfg p msgs) s = .ok false t ∧
      (t.bus p).hist = (s.bus p).hist
        ++ modEvs .cr2 (s.regAt 0) 0 (bit s.cfg.layout.iterren ||| bit s.cfg.layout.itevten)
        ++ modEvs .cr2 (s.regAt 1) (allInts s.cfg.layout) 0 ∧
      (t.bus p).intstate = .waiting ∧ (t.bus p).sem = 0 ∧ OtherPortsKept p s t ∧ MemoryKept s t ∧ OutsideKept s t) ∧
  (∀ (own : Option Port) (s u : State) (p : Port) (n : Nat), Masked s → exec (.engEntry p) s = .next u →
    drive own (polledLoop p n) s =
      if (u.bus p).intstate = .done then .ok true (u.withPast (s.past ++ [.flag true]))
      else match n with
        | 0 => .ok false (u.withPast (s.past ++ [.flag false]))
        | k + 1 => drive own (polledLoop p k) (u.withPast (s.past ++ [.flag false]))) ∧
  (∀ (own : Option Port) (s : State) (p : Port) (n : Nat), Alone s →
    (0 < (s.bus p).sem → (s.bus p).intstate = .done → ∃ t, drive own (takeLoop p n) s = .ok true t ∧
      t.bus p = { s.bus p with sem := (s.bus p).sem - 1 } ∧ OtherPortsKept p s t ∧ MemoryKept s t ∧ OutsideKept s t) ∧
    (¬(0 < (s.bus p).sem ∧ (s.bus p).intstate = .done) →
      (∃ t, drive own (takeLoop p 0) s = .ok false t ∧ t.bus p = { s.bus p with sem := 0 } ∧
        OtherPortsKept p s t ∧ MemoryKept s t ∧ OutsideKept s t) ∧
      ∃ u, drive own (takeLoop p (n + 1)) s = drive own (takeLoop p n) u ∧
        u.bus p = { s.bus p with sem := (s.bus p).sem - 1 } ∧ OtherPortsKept p s u ∧ MemoryKept s u ∧
        OutsideKept s u)) ∧
  (∀ (own : Option Port) (s a : State) (p : Port), window own s = .ok () a → 0 < (a.bus p).sem →
    (a.bus p).intstate = .done → ∃ t, drive own (takeLoop p 0) s = .ok true t ∧
      t.bus p = { a.bus p with sem := (a.bus p).sem - 1 }) ∧
  (∀ (own : Option Port) (s t : State) (p : Port) (msgs : List Message) (ok : Bool),
    (drive own (waitPolled s.cfg p msgs) s = .ok ok t → ∃ n a, drive own (startWait s.cfg p msgs) s = .ok n a ∧
      drive own (polledLoop p n) a = .ok ok t) ∧
    (drive own (waitInterrupt s.cfg p msgs) s = .ok ok t → ∃ n a b u, drive own (startWait s.cfg p msgs) s = .ok n a ∧
      drive own (openWait s.cfg p) a = .ok () b ∧ drive own (takeLoop p n) b = .ok ok u ∧
      drive own (modify p .cr2 (allInts s.cfg.layout) 0) u = .ok () t) ∧
    (drive own (completionWait s.cfg p msgs) s = .ok ok t → ∃ u,
      (match s.cfg.mode with
        | .polled => drive own (waitPolled s.cfg p msgs) s
        | .interrupt => drive own (waitInterrupt s.cfg p msgs) s) = .ok ok u ∧
      drive own (write p (·.handshake .idle)) u = .ok () t ∧ (t.bus p).intstate = .idle)) ∧
  ∀ (own : Option Port) (s : State) (p : Port) (msgs : List Message), Alone s →
    ∃ t, drive own (startWait s.cfg p msgs) s = .ok (s.draws.waits.peek Config.freeWait) t ∧
      t.bus p = { s.bus p with deadline := deadlineUs s.cfg msgs } ∧ OtherPortsKept p s t ∧ MemoryKept s t ∧
      OutsideKept s t

/-- 46_dispatcher R307, R321 and 60_exceptions R410: after a transfer in INTERRUPT mode, with no other call beside it,
ITERREN and ITEVTEN are clear, so no late entry of the port can start. -/
def Obligations.LateInterruptIsNoOp : Prop :=
  ∀ (s t : State) (i : Instr) (d : Nat) (msgs : List Message) (x : Inst), Solo s → callOf s i = some (d, msgs) →
    LockTaken s d x → s.cfg.mode = .interrupt → exec i s = .next t →
    has (t.bus x.port).cr2Written s.cfg.layout.iterren = false ∧
    has (t.bus x.port).cr2Written s.cfg.layout.itevten = false ∧ canEnter t x.port = false

/-- The frame of a transfer with no other call beside it. In every mode the instances, `refs`, the platform, the FSMC
clock bit, the threads and the requests are the same, and where no other port has a transfer under way no race is left at
its end (70_reset_and_hazards R461, log entry 17). In POLLED mode, where no entry of another port starts, every other port
is the same too, and, where no race was left over at its start, every byte outside the buffers of the chain's READ
messages. -/
def Obligations.TransferFrame : Prop :=
  ∀ (s t : State) (i : Instr) (d : Nat) (msgs : List Message) (x : Inst), Solo s → callOf s i = some (d, msgs) →
    LockTaken s d x → exec i s = .next t →
    t.instances = s.instances ∧ t.fsmcEn = s.fsmcEn ∧ t.intsOff = s.intsOff ∧ Solo t ∧
    (∀ q, (t.bus q).refs = (s.bus q).refs ∧ (t.bus q).plat = (s.bus q).plat) ∧
    ((∀ q, q ≠ x.port → (s.bus q).owning = false) → t.races = []) ∧
    (s.cfg.mode = .polled →
      OtherPortsKept x.port s t ∧ (s.races = [] → ∀ a, ¬InReadBuffer msgs a → t.mem.read a = s.mem.read a))

/-- 46_dispatcher R300 and R331. OP_PROCESS with no other call beside it is the instance found, the lock taken, then the
transfer. A transfer is, in this order and with nothing else between, whoever moves beside it: the settle wait, steps 3 to 6,
the completion wait, steps 8 and 9, step 10. Where the workaround acts (on I2C1), it is instead: the FSMC clock bit saved and
cleared, steps 3 to 6, the completion wait, steps 8 and 9, the settle wait, the bit restored, step 10; the bit is false from
its clearing until it is restored, with no other call beside it. With no other call beside it, whatever an instruction did to
the bit, it is restored when it ends. -/
def Obligations.FsmcClockBitRestored : Prop :=
  (∀ (s t : State) (i : Instr), Solo s → exec i s = .next t → t.fsmcEn = s.fsmcEn) ∧
  (∀ (s t : State) (d : Nat) (x : Inst) (msgs : List Message), Solo s → s.cfg.fsmcWorkaround = true →
    x.port = .i2c1 → drive (some .i2c1) (runTransfer s.cfg d x msgs) s = .ok () t →
    ∃ (a b u v w y : State) (ok : Bool) (e : ErrVal),
      drive (some .i2c1) (openFsmc true) s = .ok s.fsmcEn a ∧
      drive (some .i2c1) (startTransfer s.cfg d x msgs false) a = .ok () b ∧
      drive (some .i2c1) (completionWait s.cfg .i2c1 msgs) b = .ok ok u ∧
      drive (some .i2c1) (transferResult s.cfg .i2c1 ok) u = .ok e v ∧
      drive (some .i2c1) (stopSettle s.cfg .i2c1 msgs) v = .ok () w ∧
      drive (some .i2c1) (act (restoreFsmc s.fsmcEn)) w = .ok () y ∧
      drive (some .i2c1) (closeTransfer s.cfg .i2c1 e) y = .ok () t ∧
      a.fsmcEn = false ∧ b.fsmcEn = false ∧ u.fsmcEn = false ∧ v.fsmcEn = false ∧ w.fsmcEn = false ∧
      y.fsmcEn = s.fsmcEn ∧ t.fsmcEn = s.fsmcEn ∧ t.errval = e) ∧
  (∀ (own : Option Port) (s t : State) (d : Nat) (x : Inst) (msgs : List Message),
    s.cfg.fsmcWorkaround = false ∨ x.port ≠ .i2c1 → drive own (runTransfer s.cfg d x msgs) s = .ok () t →
    ∃ (a b u v : State) (ok : Bool) (e : ErrVal),
      drive own (stopSettle s.cfg x.port msgs) s = .ok () a ∧
      drive own (startTransfer s.cfg d x msgs false) a = .ok () b ∧
      drive own (completionWait s.cfg x.port msgs) b = .ok ok u ∧
      drive own (transferResult s.cfg x.port ok) u = .ok e v ∧
      drive own (closeTransfer s.cfg x.port e) v = .ok () t ∧
      t.errval = e ∧ t.ret = -(Errno.magnitude s.cfg.errno e : Int) ∧ (t.bus x.port).lock = .free) ∧
  (∀ (s t : State) (d : Nat) (x : Inst) (msgs : List Message), Solo s → LockTaken s d x → msgs ≠ [] →
    exec (.opProcess d msgs) s = .next t →
    ∃ a b u : State,
      drive (some x.port) (theInst d) (s.withPast []) = .ok x a ∧
      drive (some x.port) (acquire x.port d) a = .ok true b ∧ (b.bus x.port).lock = .held d ∧
      drive (some x.port) (runTransfer s.cfg d x msgs) b = .ok () u ∧ t = u.withPast [])

/-- 46_dispatcher R318 ERR_CLASSIFY: the first set bit in the order BERR, ARLO, AF, OVR, PECERR, TIMEOUT, BUSY names the
kind; otherwise the given kind stays. That ERR_CLASSIFY itself also returns the value R320 makes of the kind, 0 for OK and
else minus the kind's magnitude, is log entry 13 (DESIGN CHOICE). -/
def Obligations.ErrClassifyFirstMatch : Prop :=
  ∀ (s : State) (x : Word32) (e : ErrVal), ∃ t, exec (.errClassify x e) s = .next t ∧
    (x.getLsbD s.cfg.layout.berr = true → t.errval = .io) ∧
    (x.getLsbD s.cfg.layout.berr = false →
      (x.getLsbD s.cfg.layout.arlo = true → t.errval = .again) ∧
      (x.getLsbD s.cfg.layout.arlo = false →
        (x.getLsbD s.cfg.layout.af = true →
          t.errval = (match s.cfg.afError with
            | .noent => .noent
            | .nxio => .nxio)) ∧
        (x.getLsbD s.cfg.layout.af = false →
          (x.getLsbD s.cfg.layout.ovr = true → t.errval = .io) ∧
          (x.getLsbD s.cfg.layout.ovr = false →
            (x.getLsbD s.cfg.layout.pecerr = true → t.errval = .proto) ∧
            (x.getLsbD s.cfg.layout.pecerr = false →
              (x.getLsbD s.cfg.layout.timeout = true → t.errval = .time) ∧
              (x.getLsbD s.cfg.layout.timeout = false →
                (x.getLsbD (s.cfg.layout.busy + 16) = true → t.errval = .busy) ∧
                (x.getLsbD (s.cfg.layout.busy + 16) = false → t.errval = e))))))) ∧
    (t.errval = .ok → t.ret = 0) ∧ t.ret = -(Errno.magnitude s.cfg.errno t.errval : Int) ∧
    (∀ q, t.bus q = s.bus q) ∧ t.mem = s.mem ∧ t.races = s.races ∧ OutsideKept ((s.withErrval t.errval).withRet t.ret) t

/-! Lifecycle and recovery (47_lifecycle_trace_ops R340 to R343). -/

/-- R340 and 70_reset_and_hazards R451 OP_INIT where nobody else moves: a port that is not present is refused; a new
handle with address 0, no flags and 100 kHz; hardware brought up on the first reference only, no register touched on a
later one. That the handle is the length of the instance list is log entry 8, and which clocks LIFE_UP takes under a layout
of other widths is log entry 4 (both DESIGN CHOICE). -/
def Obligations.InitOpensAHandle : Prop :=
  ∀ (s : State) (p : Port), Alone s →
    (p ∉ s.cfg.ports → exec (.opInit p) s = .refused .portAbsent) ∧
    (p ∈ s.cfg.ports → (s.bus p).refs = 0 → BringUpFits s.cfg → ∃ t, exec (.opInit p) s = .next t ∧
      (t.bus p).refs = 1 ∧ (t.bus p).hist = (s.bus p).hist ++ s.bringUpEvs ∧
      (t.bus p).plat.clkEn = true ∧ (t.bus p).plat.scl.mode = .afOd ∧ (t.bus p).plat.sda.mode = .afOd ∧
      (s.cfg.mode = .interrupt → (t.bus p).plat.evIrq = ⟨true, true⟩ ∧ (t.bus p).plat.erIrq = ⟨true, true⟩) ∧
      LifecycleKeeps (s.bus p) (t.bus p) ∧ OtherPortsKept p s t ∧ MemoryKept s t ∧
      t.ret = s.instances.length ∧ t.instances = s.instances ++ [some ⟨p, 0, MsgFlags.empty, 100000⟩] ∧
      t.intsOff = false) ∧
    (p ∈ s.cfg.ports → 0 < (s.bus p).refs → ∃ t, exec (.opInit p) s = .next t ∧
      t.bus p = { s.bus p with refs := (s.bus p).refs + 1 } ∧ OtherPortsKept p s t ∧ MemoryKept s t ∧
      t.ret = s.instances.length ∧ t.instances = s.instances ++ [some ⟨p, 0, MsgFlags.empty, 100000⟩] ∧
      t.intsOff = false)

/-- R341 OP_UNINIT where nobody else moves: an unmatched release and a release under a held lock are refused; the handle
is freed; hardware is torn down on the last release only. That a handle which is not open is refused as NotOpen too is log
entry 8 (DESIGN CHOICE). -/
def Obligations.UninitReleasesAHandle : Prop :=
  (∀ (s : State) (d : Nat), Alone s → s.inst d = none → exec (.opUninit d) s = .refused .notOpen) ∧
  (∀ (s : State) (d : Nat) (x : Inst), Alone s → s.inst d = some x →
    ((s.bus x.port).refs = 0 → exec (.opUninit d) s = .refused .notOpen) ∧
    (∀ o, 0 < (s.bus x.port).refs → (s.bus x.port).lock = .held o →
      exec (.opUninit d) s = .refused .uninitDuringTransfer) ∧
    (1 < (s.bus x.port).refs → (s.bus x.port).lock = .free → ∃ t, exec (.opUninit d) s = .next t ∧
      t.bus x.port = { s.bus x.port with refs := (s.bus x.port).refs - 1 } ∧ OtherPortsKept x.port s t ∧
      MemoryKept s t ∧ t.inst d = none ∧ (∀ e, e ≠ d → t.inst e = s.inst e) ∧ t.ret = 0 ∧ t.intsOff = false) ∧
    ((s.bus x.port).refs = 1 → (s.bus x.port).lock = .free → (s.bus x.port).plat.clkEn = true →
      ∃ t, exec (.opUninit d) s = .next t ∧
        (t.bus x.port).refs = 0 ∧ (t.bus x.port).hist = (s.bus x.port).hist ++ [.wr .cr1 0] ∧
        (t.bus x.port).plat.clkEn = false ∧ (t.bus x.port).plat.scl.mode = .unconf ∧
        (t.bus x.port).plat.sda.mode = .unconf ∧ (t.bus x.port).plat.evIrq = ⟨false, false⟩ ∧
        (t.bus x.port).plat.erIrq = ⟨false, false⟩ ∧ LifecycleKeeps (s.bus x.port) (t.bus x.port) ∧
        OtherPortsKept x.port s t ∧ MemoryKept s t ∧
        t.inst d = none ∧ (∀ e, e ≠ d → t.inst e = s.inst e) ∧ t.ret = 0 ∧ t.intsOff = false))

/-- R341 and R342, LIFE_UP and LIFE_DOWN on their own, where nobody else moves: the accesses in order, the register
values, the platform; a clock that does not fit FREQ is refused. That the bounds are what the FREQ, CCR and TRISE fields
hold under every layout is the model's choice (log entry 4, DESIGN CHOICE: R342 and R190 give 0x3F, 0xFFF and 0x3F, the
default layout's, only). -/
def Obligations.LifeUpAndDown : Prop :=
  ∀ (s : State) (p : Port), Masked s →
    (BringUpFits s.cfg → ∃ t, exec (.lifeUp p) s = .next t ∧
      (t.bus p).hist = (s.bus p).hist ++ s.bringUpEvs ∧
      (t.bus p).regs.cr1 = s.regAt 1 ||| bit s.cfg.layout.pe ∧
      (t.bus p).regs.cr2 = place s.cfg.layout.freq (s.cfg.pclk / 1000000) ∧ (t.bus p).regs.oar1 = 0x4000 ∧
      (t.bus p).regs.ccr = place s.cfg.layout.ccr (max 4 (s.cfg.pclk / 200000)) ∧
      (t.bus p).regs.trise = place s.cfg.layout.trise (s.cfg.pclk / 1000000 + 1) ∧
      (t.bus p).plat.clkEn = true ∧ (t.bus p).plat.scl.mode = .afOd ∧ (t.bus p).plat.sda.mode = .afOd ∧
      (t.bus p).plat.rstPulses = (s.bus p).plat.rstPulses + 1 ∧
      (t.bus p).plat.evIrq = (if s.cfg.mode = .interrupt then ⟨true, true⟩ else (s.bus p).plat.evIrq) ∧
      (t.bus p).plat.erIrq = (if s.cfg.mode = .interrupt then ⟨true, true⟩ else (s.bus p).plat.erIrq) ∧
      (t.bus p).refs = (s.bus p).refs ∧ LifecycleKeeps (s.bus p) (t.bus p) ∧ OtherPortsKept p s t ∧
      MemoryKept s t ∧ OutsideKept s t) ∧
    (2 ^ s.cfg.layout.freq.width ≤ s.cfg.pclk / 1000000 → exec (.lifeUp p) s = .refused .freqFieldOverflow) ∧
    ((s.bus p).plat.clkEn = true → ∃ t, exec (.lifeDown p) s = .next t ∧
      (t.bus p).hist = (s.bus p).hist ++ [.wr .cr1 0] ∧ (t.bus p).regs.cr1 = 0 ∧
      (t.bus p).plat.clkEn = false ∧ (t.bus p).plat.scl.mode = .unconf ∧ (t.bus p).plat.sda.mode = .unconf ∧
      (t.bus p).plat.evIrq = ⟨false, false⟩ ∧ (t.bus p).plat.erIrq = ⟨false, false⟩ ∧
      (t.bus p).refs = (s.bus p).refs ∧ LifecycleKeeps (s.bus p) (t.bus p) ∧ OtherPortsKept p s t ∧
      MemoryKept s t ∧ OutsideKept s t)

/-- R343 OP_RESET: from a ready machine with no other call it always completes and returns 0, with the lock free, the
clock on and the handles and `refs` as they were, whatever the pins read and whatever entries start in between. Which
clocks LIFE_UP takes under a layout of other widths is log entry 4 (DESIGN CHOICE). -/
def Obligations.ResetAlwaysCompletes : Prop :=
  ∀ (s : State) (d : Nat) (x : Inst), Ready s → Solo s → s.cfg.recoveryOn = true → LockTaken s d x → BringUpFits s.cfg →
    (s.bus x.port).plat.clkEn = true →
    ∃ t, exec (.opReset d) s = .next t ∧ Ready t ∧ t.ret = 0 ∧ (t.bus x.port).lock = .free ∧
      (t.bus x.port).plat.clkEn = true ∧ t.instances = s.instances ∧ Solo t ∧
      ∀ q, (t.bus q).refs = (s.bus q).refs

/-- R343, where nobody else moves: while SDA reads low each round is that look, the stretch wait and one SCL pulse; the loop
ends at the first look that finds SDA high, at once where the first does, and after ten pulses whatever the last look finds;
then the manual START and STOP; the accesses are those of the rule in order. `ws` says how many looks of each round's
stretch wait found SCL low, `b` what the last look at SDA found: every sequence of levels is one of these. With no other call
beside it, the stretch wait before a pulse looks at SCL at most eleven times, ends at the first high look, and waits at most
ten times; and over a whole recovery SCL is driven low at most eleven times (ten pulses and the manual START) and looked at
at most 110 times low and ten times high. The eleventh look at a line that stays low rests on log entry 12 (DEDUCED: the pin
is read before the bound is tested). That LIFE_UP takes every clock its fields hold, under every layout, is log entry 4
(DESIGN CHOICE). -/
def Obligations.RecoveryPulsesAreBounded : Prop :=
  (∀ (s : State) (d : Nat) (x : Inst) (ws : List Nat) (b : Bool), Masked s → s.cfg.recoveryOn = true →
    LockTaken s d x → BringUpFits s.cfg → (s.bus x.port).plat.clkEn = true →
    (∀ w ∈ ws, w ≤ 11) → (ws.length < 10 ∧ b = true ∨ ws.length = 10) →
    (∀ k v, (ws.flatMap (fun w => false :: stretchLooks w) ++ [b])[k]? = some v → s.pinAt k = v) →
    ∃ t, exec (.opReset d) s = .next t ∧
      (t.bus x.port).hist = (s.bus x.port).hist
        ++ [.wr .cr1 0, .pin .sda true] ++ ws.flatMap pulseEvs
        ++ [.pinRead .sda b, .pin .sda false, .delay 10, .pin .scl false, .delay 10,
          .pin .scl true, .delay 10, .pin .sda true, .delay 10] ++ s.bringUpEvs) ∧
  (∀ (s t : State) (p : Port), Solo s → drive (some p) (stretchLoop p 10) s = .ok () t →
    ∃ es, (t.bus p).hist = (s.bus p).hist ++ es ∧
      es.count (.pinRead .scl false) + es.count (.pinRead .scl true) ≤ 11 ∧ es.count (.pinRead .scl true) ≤ 1 ∧
      es.count (.delay 10) ≤ 10 ∧ (es.count (.pinRead .scl true) = 0 → es.count (.pinRead .scl false) = 11)) ∧
  (∀ (s t : State) (d : Nat) (x : Inst), Solo s → s.inst d = some x → exec (.opReset d) s = .next t →
    ∃ es, (t.bus x.port).hist = (s.bus x.port).hist ++ es ∧
      es.count (.pin .scl false) ≤ 11 ∧ es.count (.pinRead .scl false) ≤ 110 ∧ es.count (.pinRead .scl true) ≤ 10)

/-- 70_reset_and_hazards R455, where nobody else moves: opening and releasing a handle, bring-up, shut-down and recovery
write no transfer field of any port. -/
def Obligations.LifecycleKeepsTransferFields : Prop :=
  ∀ (s t : State) (i : Instr), exec i s = .next t →
    (Alone s ∧ ((∃ p, i = .opInit p) ∨ ∃ d, i = .opUninit d) ∨
      Masked s ∧ ((∃ p, i = .lifeUp p) ∨ (∃ p, i = .lifeDown p) ∨ ∃ d, i = .opReset d)) →
    ∀ q, TransferKept (s.bus q) (t.bus q)

/-! The Trace Recorder (47_lifecycle_trace_ops R344 to R348). -/

/-- R344 and R347 TRACE_SAMPLE: a fresh entry takes the sample; the same status raises its count; another status
starts the next entry; in the last entry the sample is dropped with a diagnostic. -/
def Obligations.TraceSampleRecords : Prop :=
  ∀ (s : State) (p : Port) (w : Word32) (e : TraceEntry), s.cfg.traceOn = true →
    (s.bus p).trace.cur < s.cfg.traceCap → (s.bus p).trace.ring.length = s.cfg.traceCap →
    (s.bus p).trace.ring[(s.bus p).trace.cur]? = some e →
    ∃ t, exec (.traceSample p w) s = .next t ∧
      (e.count = 0 → (t.bus p).trace.cur = (s.bus p).trace.cur ∧ (t.bus p).log = (s.bus p).log ∧
        (t.bus p).trace.ring = (s.bus p).trace.ring.set (s.bus p).trace.cur
          ⟨w, 1, .none, 0, s.draws.times.peek Config.freeTime⟩) ∧
      (e.count ≠ 0 → w = e.status → (t.bus p).trace.cur = (s.bus p).trace.cur ∧ (t.bus p).log = (s.bus p).log ∧
        (t.bus p).trace.ring = (s.bus p).trace.ring.set (s.bus p).trace.cur { e with count := e.count + 1 }) ∧
      (e.count ≠ 0 → w ≠ e.status → (s.bus p).trace.cur = s.cfg.traceCap - 1 →
        (t.bus p).trace = (s.bus p).trace ∧ (t.bus p).log = (s.bus p).log ++ [.traceOverflow]) ∧
      (e.count ≠ 0 → w ≠ e.status → (s.bus p).trace.cur ≠ s.cfg.traceCap - 1 →
        (t.bus p).trace.cur = (s.bus p).trace.cur + 1 ∧ (t.bus p).log = (s.bus p).log ∧
        (t.bus p).trace.ring = (s.bus p).trace.ring.set ((s.bus p).trace.cur + 1)
          ⟨w, 1, .none, 0, s.draws.times.peek Config.freeTime⟩) ∧
      (t.bus p).trace.epoch = (s.bus p).trace.epoch ∧
      { t.bus p with trace := (s.bus p).trace, log := (s.bus p).log } = s.bus p ∧
      OtherPortsKept p s t ∧ MemoryKept s t ∧ OutsideKept s t

/-- R345, R346 and R348: an event is appended to the history and annotates the current entry; TRACE_RESET makes the
first entry fresh and current, and no other; TRACE_DUMP writes the entries up to the current one to the log and changes
nothing else; with tracing off none of the four does anything. That TRACE_RESET draws the time a dump is relative to, and
that each port has a host log, is log entry 14 (DEDUCED, DESIGN CHOICE). -/
def Obligations.TraceEventResetDump : Prop :=
  (∀ (s : State) (p : Port) (ev : EvName) (x : Int) (e : TraceEntry), s.cfg.traceOn = true →
    (s.bus p).trace.ring[(s.bus p).trace.cur]? = some e →
    ∃ t, exec (.traceEvent p ev x) s = .next t ∧
      t.bus p = { s.bus p with
        hist := (s.bus p).hist ++ [.ev ev x]
        trace := { (s.bus p).trace with
          ring := (s.bus p).trace.ring.set (s.bus p).trace.cur { e with event := ev, param := x } } } ∧
      OtherPortsKept p s t ∧ MemoryKept s t ∧ OutsideKept s t) ∧
  (∀ (s : State) (p : Port), s.cfg.traceOn = true →
    (∃ t, exec (.traceReset p) s = .next t ∧
      (t.bus p).trace.cur = 0 ∧ (t.bus p).trace.ring = (s.bus p).trace.ring.set 0 ⟨0, 0, .none, 0, 0⟩ ∧
      (t.bus p).trace.epoch = s.draws.times.peek Config.freeTime ∧
      { t.bus p with trace := (s.bus p).trace } = s.bus p ∧
      OtherPortsKept p s t ∧ MemoryKept s t ∧ OutsideKept s t) ∧
    (∃ t, exec (.traceDump p) s = .next t ∧
      t.bus p = { s.bus p with
        log := (s.bus p).log ++ ((s.bus p).trace.ring.take ((s.bus p).trace.cur + 1)).map fun e =>
          .entry e.status e.count e.event e.param ((e.timestamp : Int) - (s.bus p).trace.epoch) } ∧
      OtherPortsKept p s t ∧ MemoryKept s t ∧ OutsideKept s t)) ∧
  (∀ (s : State) (p : Port), s.cfg.traceOn = false →
    (∀ w, exec (.traceSample p w) s = .next s) ∧ (∀ ev x, exec (.traceEvent p ev x) s = .next s) ∧
    exec (.traceReset p) s = .next s ∧ exec (.traceDump p) s = .next s)

/-- 47_lifecycle_trace_ops section 3: the recorder is free of side effects on the protocol: two states that differ only
in the rings, the host logs and the recorder's clock behave the same but for those. -/
def Obligations.TraceIsSideEffectFree : Prop :=
  ∀ (s t : State) (i : Instr), s.sansTrace = t.sansTrace → SameProtocol (exec i s) (exec i t)

/-! Invariants and reset (70_reset_and_hazards). -/

/-- Every step of a sound state leaves a sound state, whatever threads are under way and whoever moves (that every thread
acts on its instance's port is part of it, log entry 9); and every
instruction with no other call beside it keeps a settled state settled. -/
def Obligations.SoundKeptByStep : Prop :=
  (∀ s t : State, Sound s → step s = .next t → Sound t) ∧
  (∀ (s t : State) (i : Instr), Solo s → Settled s → exec i s = .next t → Settled t)

/-- Every operation and every entry keeps the transfer fields coherent on every port no fault stopped, whatever threads
move beside it, each on its own port (an invariant of every step: `SoundKeptByStep`; log entry 9); a sub-case run on its
own, which does not test its condition, is the exception. -/
def Obligations.CoherenceKept : Prop :=
  ∀ (s t : State) (i : Instr), i.isSubcase = false → (∀ x ∈ s.threads, x.Placed) →
    (∀ p, (s.bus p).live = true → Coherent (s.bus p)) →
    exec i s = .next t → ∀ p, (t.bus p).live = true → Coherent (t.bus p)

/-- 70_reset_and_hazards R450: the Bus State of every port at launch, and of the reset state. -/
def Obligations.LaunchValues : Prop :=
  (∃ c, State.reset = State.launch c) ∧
  ∀ (c : Config) (p : Port), let b := (State.launch c).bus p
    b.refs = 0 ∧ b.lock = .free ∧ b.sem = 0 ∧ b.intstate = .idle ∧ b.dcnt = -1 ∧ b.msgc = 0 ∧ b.msgv = none ∧
    b.totalMsgLen = 0 ∧ b.flags = MsgFlags.empty ∧ b.checkAddrAck = false ∧ b.status = 0 ∧ b.curAddr = 0 ∧
    b.msgs = [] ∧ b.count = 0 ∧ b.trace.cur = 0 ∧ (∀ e ∈ b.trace.ring, e = ⟨0, 0, .none, 0, 0⟩) ∧ b.hist = [] ∧
    b.faulted = false ∧ b.refused = false

/-- 70_reset_and_hazards R453 and R454, and the invariants at launch under every parameter: the platform's default
premise, no entry possible, no handle open, no thread; the state is sound, settled, ready and coherent. -/
def Obligations.LaunchIsSoundAndQuiet : Prop :=
  ∀ c : Config,
    Sound (State.launch c) ∧ Settled (State.launch c) ∧ Alone (State.launch c) ∧ Ready (State.launch c) ∧ (∀ p, Coherent ((State.launch c).bus p)) ∧
    (∀ p, canEnter (State.launch c) p = false) ∧ (State.launch c).instances = [] ∧
    (∀ p, ((State.launch c).bus p).plat.clkEn = false ∧ ((State.launch c).bus p).plat.scl.mode = .unconf ∧
      ((State.launch c).bus p).plat.sda.mode = .unconf ∧ ((State.launch c).bus p).plat.evIrq = ⟨false, false⟩ ∧
      ((State.launch c).bus p).plat.erIrq = ⟨false, false⟩)
end

