-- ==== Sys2Proof/Laws/Encoding.lean ====
section
/-! SUPPORT. Each operand decodes to what it was encoded from, with the bytes after it left over. -/

namespace Sys2Proof

theorem except_bind_ok {α β ε : Type} (a : α) (f : α → Except ε β) : (Except.ok a >>= f) = f a := rfl

theorem take8_byte (n : Nat) (h : n < 256) (bs : List Byte) : take8 (bytesOfNat 1 n ++ bs) = .ok (n, bs) := by
  simp [bytesOfNat, take8, Nat.mod_eq_of_lt h]

theorem take16_bytes (n : Nat) (h : n < 2 ^ 16) (bs : List Byte) : take16 (bytesOfNat 2 n ++ bs) = .ok (n, bs) := by
  simp only [bytesOfNat, List.cons_append, List.nil_append, take16, take8, except_bind_ok, BitVec.toNat_ofNat]
  change Except.ok _ = Except.ok _
  congr 2
  omega

theorem bytesOfNat_four (n : Nat) : bytesOfNat 4 n = bytesOfNat 2 n ++ bytesOfNat 2 (n / 65536) := by
  simp [bytesOfNat, Nat.div_div_eq_div_mul]

theorem take16_low (n : Nat) (bs : List Byte) : take16 (bytesOfNat 2 n ++ bs) = .ok (n % 2 ^ 16, bs) := by
  simp only [bytesOfNat, List.cons_append, List.nil_append, take16, take8, except_bind_ok, BitVec.toNat_ofNat]
  change Except.ok _ = Except.ok _
  congr 2
  omega

theorem take32_bytes (n : Nat) (h : n < 2 ^ 32) (bs : List Byte) : take32 (bytesOfNat 4 n ++ bs) = .ok (n, bs) := by
  rw [bytesOfNat_four, List.append_assoc]
  simp only [take32, take16_low, except_bind_ok]
  change Except.ok _ = Except.ok _
  congr 2
  omega

theorem takePort_byte (p : Port) (bs : List Byte) : takePort (portByte p ++ bs) = .ok (p, bs) := by
  cases p <;> rfl

theorem regOfNat_code {r : Reg} (h : r.wellFormed = true) : regOfNat r.code = r := by
  cases r with
  | unlisted n =>
    simp only [Reg.wellFormed, listedCodes, Bool.and_eq_true, decide_eq_true_eq, Bool.not_eq_true',
      List.contains_eq_mem, decide_eq_false_iff_not, List.mem_cons, not_or, List.not_mem_nil] at h
    obtain ⟨_, h1, h2, h3, h4, h5, h6, h7, h8, h9, _⟩ := h
    simp only [Reg.code, regOfNat, if_neg, *, not_false_eq_true]
  | _ => rfl

theorem code_lt {r : Reg} (h : r.wellFormed = true) : r.code < 256 := by
  cases r with
  | unlisted n =>
    simp only [Reg.wellFormed, Bool.and_eq_true, decide_eq_true_eq] at h
    exact h.1
  | _ => decide

theorem takeReg_byte {r : Reg} (h : r.wellFormed = true) (bs : List Byte) :
    takeReg (bytesOfNat 1 r.code ++ bs) = .ok (r, bs) := by
  simp only [takeReg, take8_byte _ (code_lt h), except_bind_ok, regOfNat_code h]
  rfl

theorem flagsOfNat_number (f : MsgFlags) : flagsOfNat f.number = some f := by
  obtain ⟨r, t, n⟩ := f
  cases r <;> cases t <;> cases n <;> decide

theorem flagsNumber_lt (f : MsgFlags) : f.number < 2 ^ 16 := by
  obtain ⟨r, t, n⟩ := f
  cases r <;> cases t <;> cases n <;> decide

theorem takeMessage_bytes {m : Message} (h : m.wellFormed = true) (bs : List Byte) :
    takeMessage (encodeMessage m ++ bs) = .ok (m, bs) := by
  simp only [Message.wellFormed, fits32, Bool.and_eq_true, decide_eq_true_eq] at h
  obtain ⟨⟨ha, hb⟩, hl⟩ := h
  simp only [encodeMessage, List.append_assoc, takeMessage, take32_bytes _ ha, take16_bytes _ (flagsNumber_lt _),
    flagsOfNat_number, need, take32_bytes _ hb, take32_bytes _ hl, except_bind_ok]
  rfl

theorem takeMessages_bytes {ms : List Message} (h : ms.all Message.wellFormed = true) (bs : List Byte) :
    takeMessages ms.length (ms.flatMap encodeMessage ++ bs) = .ok (ms, bs) := by
  induction ms with
  | nil => rfl
  | cons m ms ih =>
    simp only [List.all_cons, Bool.and_eq_true] at h
    simp only [List.length_cons, takeMessages, List.flatMap_cons, List.append_assoc, takeMessage_bytes h.1, ih h.2,
      except_bind_ok]
    rfl

theorem takeChain_bytes {ms : List Message} (h : chainWellFormed ms = true) (bs : List Byte) :
    takeChain (encodeChain ms ++ bs) = .ok (ms, bs) := by
  simp only [chainWellFormed, fits16, Bool.and_eq_true, decide_eq_true_eq] at h
  simp only [takeChain, encodeChain, List.append_assoc, take16_bytes _ h.1, takeMessages_bytes h.2, except_bind_ok]

theorem evNames_code (e : EvName) : evNames[e.code]? = some e := by
  cases e <;> decide

theorem evCode_lt (e : EvName) : e.code < 256 := by
  cases e <;> decide

theorem errVals_code (e : ErrVal) : errVals[e.code]? = some e := by
  cases e <;> decide

theorem errCode_lt (e : ErrVal) : e.code < 256 := by
  cases e <;> decide

theorem natOfInt32_lt (x : Int) : natOfInt32 x < 2 ^ 32 := by
  unfold natOfInt32
  omega

theorem intOfNat32_natOfInt32 {x : Int} (h : fitsInt32 x = true) : intOfNat32 (natOfInt32 x) = x := by
  simp only [fitsInt32, Bool.and_eq_true, decide_eq_true_eq] at h
  unfold intOfNat32 natOfInt32
  split <;> omega

/-- The table's row of a sub-case decodes, in its own phase, to the sub-case. -/
theorem encodeSubcase_decodes (c : Subcase) : decodeRequest (encodeSubcase c) = .ok c.instr := by
  cases c <;> rfl

/-- An operation whose operands decode is the instruction, whatever padding follows. -/
theorem decodeRequest_op {bs rest : List Byte} {i : Instr} (h : decodeOp bs = .ok (i, rest)) :
    decodeRequest (.op bs) = .ok i := by
  simp [decodeRequest, h]

end Sys2Proof
end

