-- ==== Sys2Proof/Laws/Monad.lean ====
section
/-! SUPPORT. How a piece of a meaning runs: one equation per way of building one, so that a proof never unfolds the
state monad, and the cases of an instruction's outcome. -/

namespace Sys2Proof.Machine

variable {α β : Type}

@[simp] theorem run_pure (a : α) (s : State) : (pure a : M α) s = .ok a s := rfl

theorem run_bind (m : M α) (f : α → M β) (s : State) :
    (m >>= f) s = match m s with
      | .ok a t => f a t
      | .error e t => .error e t := by
  change EStateM.bind m f s = _
  unfold EStateM.bind
  cases m s <;> rfl

theorem run_bind_ok {m : M α} {f : α → M β} {s t : State} {a : α} (h : m s = .ok a t) : (m >>= f) s = f a t := by
  rw [run_bind, h]

theorem run_bind_error {m : M α} {f : α → M β} {s t : State} {e : Stop} (h : m s = .error e t) :
    (m >>= f) s = .error e t := by
  rw [run_bind, h]

/-- A sequence that answers did so through an intermediate state. -/
theorem bind_ok_inv {m : M α} {f : α → M β} {s t : State} {b : β} (h : (m >>= f) s = .ok b t) :
    ∃ a u, m s = .ok a u ∧ f a u = .ok b t := by
  rw [run_bind] at h
  split at h
  · exact ⟨_, _, ‹_›, h⟩
  · cases h

/-- A sequence that stops did so in its first or in its second part. -/
theorem bind_error_inv {m : M α} {f : α → M β} {s t : State} {e : Stop} (h : (m >>= f) s = .error e t) :
    m s = .error e t ∨ ∃ a u, m s = .ok a u ∧ f a u = .error e t := by
  rw [run_bind] at h
  split at h
  · exact .inr ⟨_, _, ‹_›, h⟩
  · cases h; exact .inl ‹_›

@[simp] theorem bind_ok_iff (m : M α) (f : α → M β) (s t : State) (b : β) :
    (m >>= f) s = .ok b t ↔ ∃ a u, m s = .ok a u ∧ f a u = .ok b t :=
  ⟨bind_ok_inv, fun ⟨_, _, h, k⟩ => (run_bind_ok h).trans k⟩

@[simp] theorem run_map (f : α → β) (m : M α) (s : State) :
    (f <$> m) s = match m s with
      | .ok a t => .ok (f a) t
      | .error e t => .error e t := by
  change (m >>= fun a => pure (f a)) s = _
  rw [run_bind]
  cases m s <;> rfl

@[simp] theorem run_look (f : State → α) (s : State) : look f s = .ok (f s) s := rfl

@[simp] theorem run_lookBus (p : Port) (f : BusState → α) (s : State) : lookBus p f s = .ok (f (s.bus p)) s := rfl

@[simp] theorem run_upd (f : State → State) (s : State) : upd f s = .ok () (f s) := rfl

@[simp] theorem run_updBus (p : Port) (f : BusState → BusState) (s : State) :
    updBus p f s = .ok () (s.setBus p (f (s.bus p))) := rfl

@[simp] theorem run_raise (f : Fault) (s : State) :
    (raise f : M α) s = .error (.fault f) s := rfl

@[simp] theorem run_refuse (r : Refusal) (s : State) :
    (refuse r : M α) s = .error (.refusal r) s := rfl

@[simp] theorem run_keepWaiting (s : State) : (keepWaiting : M α) s = .error .lockWait s := rfl

theorem run_ensure (c : Bool) (f : Fault) (s : State) :
    ensure c f s = if c then .ok () s else .error (.fault f) s := by
  cases c <;> rfl

theorem run_require (c : Bool) (r : Refusal) (s : State) :
    require c r s = if c then .ok () s else .error (.refusal r) s := by
  cases c <;> rfl

@[simp] theorem ensure_true (f : Fault) (s : State) : ensure true f s = .ok () s := rfl

@[simp] theorem require_true (r : Refusal) (s : State) : require true r s = .ok () s := rfl

theorem ensure_ok {c : Bool} {f : Fault} {s t : State} {u : Unit} (h : ensure c f s = .ok u t) :
    c = true ∧ t = s := by
  cases c
  · cases h
  · exact ⟨rfl, by cases h; rfl⟩

theorem require_ok {c : Bool} {r : Refusal} {s t : State} {u : Unit} (h : require c r s = .ok u t) :
    c = true ∧ t = s := by
  cases c
  · cases h
  · exact ⟨rfl, by cases h; rfl⟩

@[simp] theorem ensure_ok_iff (c : Bool) (f : Fault) (s t : State) (u : Unit) :
    ensure c f s = .ok u t ↔ c = true ∧ t = s :=
  ⟨ensure_ok, fun ⟨h, k⟩ => by rw [h, k]; rfl⟩

@[simp] theorem require_ok_iff (c : Bool) (r : Refusal) (s t : State) (u : Unit) :
    require c r s = .ok u t ↔ c = true ∧ t = s :=
  ⟨require_ok, fun ⟨h, k⟩ => by rw [h, k]; rfl⟩

@[simp] theorem result_ok_iff (a b : α) (s t : State) :
    (EStateM.Result.ok a s : EStateM.Result Stop State α) = .ok b t ↔ b = a ∧ t = s := by
  constructor
  · intro h; cases h; exact ⟨rfl, rfl⟩
  · rintro ⟨rfl, rfl⟩; rfl

theorem run_onlyIf (c : Bool) (m : M Unit) (s : State) : onlyIf c m s = if c then m s else .ok () s := by
  cases c <;> rfl

@[simp] theorem run_onlyIf_true (m : M Unit) (s : State) : onlyIf true m s = m s := rfl

@[simp] theorem run_onlyIf_false (m : M Unit) (s : State) : onlyIf false m s = .ok () s := rfl

theorem run_ite (c : Prop) [Decidable c] (m k : M α) (s : State) :
    (if c then m else k) s = if c then m s else k s := by
  split <;> rfl

/-- An instruction of one piece that goes on ended; no such piece waits for a lock, and one that did would go on. -/
theorem finish_next_inv {m : M Unit} {s t : State} (h : finish m s = .next t) :
    m s = .ok () t ∨ m s = .error .lockWait t := by
  unfold finish at h
  split at h
  · cases h; exact .inl ‹_›
  · cases h
  · cases h
  · cases h; exact .inr ‹_›

theorem finish_ok {m : M Unit} {s t : State} {u : Unit} (h : m s = .ok u t) : finish m s = .next t := by
  simp [finish, h]

theorem finish_fault {m : M Unit} {s t : State} {f : Fault} (h : m s = .error (.fault f) t) :
    finish m s = .fault f := by
  simp [finish, h]

theorem finish_refused {m : M Unit} {s t : State} {r : Refusal} (h : m s = .error (.refusal r) t) :
    finish m s = .refused r := by
  simp [finish, h]

end Sys2Proof.Machine
end

