-- ==== Sys2Proof/Laws/State.lean ====
section
/-! SUPPORT. The state's fields under each update, so that no proof unfolds a record update: one lemma per field per
update, a port's Bus State after each, and updates of a port's Bus State moved inside the others. -/

namespace Sys2Proof.Machine

@[simp] theorem State.bus_setBus_same (s : State) (p : Port) (b : BusState) : (s.setBus p b).bus p = b := by
  cases p <;> rfl

@[simp] theorem State.bus_setBus_of_ne (s : State) {p q : Port} (b : BusState) (h : q ≠ p) :
    (s.setBus p b).bus q = s.bus q := by
  cases p <;> cases q <;> first | rfl | exact absurd rfl h

theorem State.bus_setBus (s : State) (p q : Port) (b : BusState) :
    (s.setBus p b).bus q = if q = p then b else s.bus q := by
  split
  · subst_vars; simp
  · simp [*]

@[simp] theorem State.setBus_setBus (s : State) (p : Port) (b c : BusState) :
    (s.setBus p b).setBus p c = s.setBus p c := by
  cases p <;> rfl

@[simp] theorem State.setBus_bus (s : State) (p : Port) : s.setBus p (s.bus p) = s := by
  cases p <;> rfl

theorem State.setBus_comm (s : State) {p q : Port} (b c : BusState) (h : q ≠ p) :
    (s.setBus p b).setBus q c = (s.setBus q c).setBus p b := by
  cases p <;> cases q <;> first | rfl | exact absurd rfl h

/-- Two states with the same Bus States and the same other fields are the same. -/
theorem State.ext_bus {s t : State} (bus : ∀ p, s.bus p = t.bus p)
    (cfg : s.cfg = t.cfg)
    (instances : s.instances = t.instances)
    (mem : s.mem = t.mem)
    (races : s.races = t.races)
    (fsmcEn : s.fsmcEn = t.fsmcEn)
    (intsOff : s.intsOff = t.intsOff)
    (entry : s.entry = t.entry)
    (draws : s.draws = t.draws)
    (requests : s.requests = t.requests)
    (stores : s.stores = t.stores)
    (threads : s.threads = t.threads)
    (past : s.past = t.past)
    (returned : s.returned = t.returned)
    (ret : s.ret = t.ret)
    (errval : s.errval = t.errval) : s = t := by
  have h1 := bus .i2c1
  have h2 := bus .i2c2
  have h3 := bus .i2c3
  cases s
  cases t
  simp only [State.bus] at *
  subst_vars
  rfl

@[simp] theorem State.setBus_cfg (s : State) (p : Port) (b : BusState) : (s.setBus p b).cfg = s.cfg := by
  cases p <;> rfl

@[simp] theorem State.setBus_instances (s : State) (p : Port) (b : BusState) : (s.setBus p b).instances = s.instances := by
  cases p <;> rfl

@[simp] theorem State.setBus_mem (s : State) (p : Port) (b : BusState) : (s.setBus p b).mem = s.mem := by
  cases p <;> rfl

@[simp] theorem State.setBus_races (s : State) (p : Port) (b : BusState) : (s.setBus p b).races = s.races := by
  cases p <;> rfl

@[simp] theorem State.setBus_fsmcEn (s : State) (p : Port) (b : BusState) : (s.setBus p b).fsmcEn = s.fsmcEn := by
  cases p <;> rfl

@[simp] theorem State.setBus_intsOff (s : State) (p : Port) (b : BusState) : (s.setBus p b).intsOff = s.intsOff := by
  cases p <;> rfl

@[simp] theorem State.setBus_entry (s : State) (p : Port) (b : BusState) : (s.setBus p b).entry = s.entry := by
  cases p <;> rfl

@[simp] theorem State.setBus_draws (s : State) (p : Port) (b : BusState) : (s.setBus p b).draws = s.draws := by
  cases p <;> rfl

@[simp] theorem State.setBus_requests (s : State) (p : Port) (b : BusState) : (s.setBus p b).requests = s.requests := by
  cases p <;> rfl

@[simp] theorem State.setBus_stores (s : State) (p : Port) (b : BusState) : (s.setBus p b).stores = s.stores := by
  cases p <;> rfl

@[simp] theorem State.setBus_threads (s : State) (p : Port) (b : BusState) : (s.setBus p b).threads = s.threads := by
  cases p <;> rfl

@[simp] theorem State.setBus_past (s : State) (p : Port) (b : BusState) : (s.setBus p b).past = s.past := by
  cases p <;> rfl

@[simp] theorem State.setBus_returned (s : State) (p : Port) (b : BusState) : (s.setBus p b).returned = s.returned := by
  cases p <;> rfl

@[simp] theorem State.setBus_ret (s : State) (p : Port) (b : BusState) : (s.setBus p b).ret = s.ret := by
  cases p <;> rfl

@[simp] theorem State.setBus_errval (s : State) (p : Port) (b : BusState) : (s.setBus p b).errval = s.errval := by
  cases p <;> rfl

@[simp] theorem State.withInstances_cfg (s : State) (x : List (Option Inst)) : (s.withInstances x).cfg = s.cfg := rfl
@[simp] theorem State.withInstances_instances (s : State) (x : List (Option Inst)) : (s.withInstances x).instances = x := rfl
@[simp] theorem State.withInstances_mem (s : State) (x : List (Option Inst)) : (s.withInstances x).mem = s.mem := rfl
@[simp] theorem State.withInstances_races (s : State) (x : List (Option Inst)) : (s.withInstances x).races = s.races := rfl
@[simp] theorem State.withInstances_fsmcEn (s : State) (x : List (Option Inst)) : (s.withInstances x).fsmcEn = s.fsmcEn := rfl
@[simp] theorem State.withInstances_intsOff (s : State) (x : List (Option Inst)) : (s.withInstances x).intsOff = s.intsOff := rfl
@[simp] theorem State.withInstances_entry (s : State) (x : List (Option Inst)) : (s.withInstances x).entry = s.entry := rfl
@[simp] theorem State.withInstances_draws (s : State) (x : List (Option Inst)) : (s.withInstances x).draws = s.draws := rfl
@[simp] theorem State.withInstances_requests (s : State) (x : List (Option Inst)) : (s.withInstances x).requests = s.requests := rfl
@[simp] theorem State.withInstances_stores (s : State) (x : List (Option Inst)) : (s.withInstances x).stores = s.stores := rfl
@[simp] theorem State.withInstances_threads (s : State) (x : List (Option Inst)) : (s.withInstances x).threads = s.threads := rfl
@[simp] theorem State.withInstances_past (s : State) (x : List (Option Inst)) : (s.withInstances x).past = s.past := rfl
@[simp] theorem State.withInstances_returned (s : State) (x : List (Option Inst)) : (s.withInstances x).returned = s.returned := rfl
@[simp] theorem State.withInstances_ret (s : State) (x : List (Option Inst)) : (s.withInstances x).ret = s.ret := rfl
@[simp] theorem State.withInstances_errval (s : State) (x : List (Option Inst)) : (s.withInstances x).errval = s.errval := rfl
@[simp] theorem State.withInstances_bus (s : State) (x : List (Option Inst)) (p : Port) : (s.withInstances x).bus p = s.bus p := by
  cases p <;> rfl

@[simp] theorem State.withInstances_setBus (s : State) (x : List (Option Inst)) (p : Port) (b : BusState) :
    (s.withInstances x).setBus p b = (s.setBus p b).withInstances x := by
  cases p <;> rfl

@[simp] theorem State.withInstances_withInstances_self (s : State) (x y : List (Option Inst)) : (s.withInstances x).withInstances y = s.withInstances y := rfl

@[simp] theorem State.withMem_cfg (s : State) (x : Memory) : (s.withMem x).cfg = s.cfg := rfl
@[simp] theorem State.withMem_instances (s : State) (x : Memory) : (s.withMem x).instances = s.instances := rfl
@[simp] theorem State.withMem_mem (s : State) (x : Memory) : (s.withMem x).mem = x := rfl
@[simp] theorem State.withMem_races (s : State) (x : Memory) : (s.withMem x).races = s.races := rfl
@[simp] theorem State.withMem_fsmcEn (s : State) (x : Memory) : (s.withMem x).fsmcEn = s.fsmcEn := rfl
@[simp] theorem State.withMem_intsOff (s : State) (x : Memory) : (s.withMem x).intsOff = s.intsOff := rfl
@[simp] theorem State.withMem_entry (s : State) (x : Memory) : (s.withMem x).entry = s.entry := rfl
@[simp] theorem State.withMem_draws (s : State) (x : Memory) : (s.withMem x).draws = s.draws := rfl
@[simp] theorem State.withMem_requests (s : State) (x : Memory) : (s.withMem x).requests = s.requests := rfl
@[simp] theorem State.withMem_stores (s : State) (x : Memory) : (s.withMem x).stores = s.stores := rfl
@[simp] theorem State.withMem_threads (s : State) (x : Memory) : (s.withMem x).threads = s.threads := rfl
@[simp] theorem State.withMem_past (s : State) (x : Memory) : (s.withMem x).past = s.past := rfl
@[simp] theorem State.withMem_returned (s : State) (x : Memory) : (s.withMem x).returned = s.returned := rfl
@[simp] theorem State.withMem_ret (s : State) (x : Memory) : (s.withMem x).ret = s.ret := rfl
@[simp] theorem State.withMem_errval (s : State) (x : Memory) : (s.withMem x).errval = s.errval := rfl
@[simp] theorem State.withMem_bus (s : State) (x : Memory) (p : Port) : (s.withMem x).bus p = s.bus p := by
  cases p <;> rfl

@[simp] theorem State.withMem_setBus (s : State) (x : Memory) (p : Port) (b : BusState) :
    (s.withMem x).setBus p b = (s.setBus p b).withMem x := by
  cases p <;> rfl

@[simp] theorem State.withMem_withMem_self (s : State) (x y : Memory) : (s.withMem x).withMem y = s.withMem y := rfl

@[simp] theorem State.withRaces_cfg (s : State) (x : List Host.Cell) : (s.withRaces x).cfg = s.cfg := rfl
@[simp] theorem State.withRaces_instances (s : State) (x : List Host.Cell) : (s.withRaces x).instances = s.instances := rfl
@[simp] theorem State.withRaces_mem (s : State) (x : List Host.Cell) : (s.withRaces x).mem = s.mem := rfl
@[simp] theorem State.withRaces_races (s : State) (x : List Host.Cell) : (s.withRaces x).races = x := rfl
@[simp] theorem State.withRaces_fsmcEn (s : State) (x : List Host.Cell) : (s.withRaces x).fsmcEn = s.fsmcEn := rfl
@[simp] theorem State.withRaces_intsOff (s : State) (x : List Host.Cell) : (s.withRaces x).intsOff = s.intsOff := rfl
@[simp] theorem State.withRaces_entry (s : State) (x : List Host.Cell) : (s.withRaces x).entry = s.entry := rfl
@[simp] theorem State.withRaces_draws (s : State) (x : List Host.Cell) : (s.withRaces x).draws = s.draws := rfl
@[simp] theorem State.withRaces_requests (s : State) (x : List Host.Cell) : (s.withRaces x).requests = s.requests := rfl
@[simp] theorem State.withRaces_stores (s : State) (x : List Host.Cell) : (s.withRaces x).stores = s.stores := rfl
@[simp] theorem State.withRaces_threads (s : State) (x : List Host.Cell) : (s.withRaces x).threads = s.threads := rfl
@[simp] theorem State.withRaces_past (s : State) (x : List Host.Cell) : (s.withRaces x).past = s.past := rfl
@[simp] theorem State.withRaces_returned (s : State) (x : List Host.Cell) : (s.withRaces x).returned = s.returned := rfl
@[simp] theorem State.withRaces_ret (s : State) (x : List Host.Cell) : (s.withRaces x).ret = s.ret := rfl
@[simp] theorem State.withRaces_errval (s : State) (x : List Host.Cell) : (s.withRaces x).errval = s.errval := rfl
@[simp] theorem State.withRaces_bus (s : State) (x : List Host.Cell) (p : Port) : (s.withRaces x).bus p = s.bus p := by
  cases p <;> rfl

@[simp] theorem State.withRaces_setBus (s : State) (x : List Host.Cell) (p : Port) (b : BusState) :
    (s.withRaces x).setBus p b = (s.setBus p b).withRaces x := by
  cases p <;> rfl

@[simp] theorem State.withRaces_withRaces_self (s : State) (x y : List Host.Cell) : (s.withRaces x).withRaces y = s.withRaces y := rfl

@[simp] theorem State.withFsmc_cfg (s : State) (x : Bool) : (s.withFsmc x).cfg = s.cfg := rfl
@[simp] theorem State.withFsmc_instances (s : State) (x : Bool) : (s.withFsmc x).instances = s.instances := rfl
@[simp] theorem State.withFsmc_mem (s : State) (x : Bool) : (s.withFsmc x).mem = s.mem := rfl
@[simp] theorem State.withFsmc_races (s : State) (x : Bool) : (s.withFsmc x).races = s.races := rfl
@[simp] theorem State.withFsmc_fsmcEn (s : State) (x : Bool) : (s.withFsmc x).fsmcEn = x := rfl
@[simp] theorem State.withFsmc_intsOff (s : State) (x : Bool) : (s.withFsmc x).intsOff = s.intsOff := rfl
@[simp] theorem State.withFsmc_entry (s : State) (x : Bool) : (s.withFsmc x).entry = s.entry := rfl
@[simp] theorem State.withFsmc_draws (s : State) (x : Bool) : (s.withFsmc x).draws = s.draws := rfl
@[simp] theorem State.withFsmc_requests (s : State) (x : Bool) : (s.withFsmc x).requests = s.requests := rfl
@[simp] theorem State.withFsmc_stores (s : State) (x : Bool) : (s.withFsmc x).stores = s.stores := rfl
@[simp] theorem State.withFsmc_threads (s : State) (x : Bool) : (s.withFsmc x).threads = s.threads := rfl
@[simp] theorem State.withFsmc_past (s : State) (x : Bool) : (s.withFsmc x).past = s.past := rfl
@[simp] theorem State.withFsmc_returned (s : State) (x : Bool) : (s.withFsmc x).returned = s.returned := rfl
@[simp] theorem State.withFsmc_ret (s : State) (x : Bool) : (s.withFsmc x).ret = s.ret := rfl
@[simp] theorem State.withFsmc_errval (s : State) (x : Bool) : (s.withFsmc x).errval = s.errval := rfl
@[simp] theorem State.withFsmc_bus (s : State) (x : Bool) (p : Port) : (s.withFsmc x).bus p = s.bus p := by
  cases p <;> rfl

@[simp] theorem State.withFsmc_setBus (s : State) (x : Bool) (p : Port) (b : BusState) :
    (s.withFsmc x).setBus p b = (s.setBus p b).withFsmc x := by
  cases p <;> rfl

@[simp] theorem State.withFsmc_withFsmc_self (s : State) (x y : Bool) : (s.withFsmc x).withFsmc y = s.withFsmc y := rfl

@[simp] theorem State.withIntsOff_cfg (s : State) (x : Bool) : (s.withIntsOff x).cfg = s.cfg := rfl
@[simp] theorem State.withIntsOff_instances (s : State) (x : Bool) : (s.withIntsOff x).instances = s.instances := rfl
@[simp] theorem State.withIntsOff_mem (s : State) (x : Bool) : (s.withIntsOff x).mem = s.mem := rfl
@[simp] theorem State.withIntsOff_races (s : State) (x : Bool) : (s.withIntsOff x).races = s.races := rfl
@[simp] theorem State.withIntsOff_fsmcEn (s : State) (x : Bool) : (s.withIntsOff x).fsmcEn = s.fsmcEn := rfl
@[simp] theorem State.withIntsOff_intsOff (s : State) (x : Bool) : (s.withIntsOff x).intsOff = x := rfl
@[simp] theorem State.withIntsOff_entry (s : State) (x : Bool) : (s.withIntsOff x).entry = s.entry := rfl
@[simp] theorem State.withIntsOff_draws (s : State) (x : Bool) : (s.withIntsOff x).draws = s.draws := rfl
@[simp] theorem State.withIntsOff_requests (s : State) (x : Bool) : (s.withIntsOff x).requests = s.requests := rfl
@[simp] theorem State.withIntsOff_stores (s : State) (x : Bool) : (s.withIntsOff x).stores = s.stores := rfl
@[simp] theorem State.withIntsOff_threads (s : State) (x : Bool) : (s.withIntsOff x).threads = s.threads := rfl
@[simp] theorem State.withIntsOff_past (s : State) (x : Bool) : (s.withIntsOff x).past = s.past := rfl
@[simp] theorem State.withIntsOff_returned (s : State) (x : Bool) : (s.withIntsOff x).returned = s.returned := rfl
@[simp] theorem State.withIntsOff_ret (s : State) (x : Bool) : (s.withIntsOff x).ret = s.ret := rfl
@[simp] theorem State.withIntsOff_errval (s : State) (x : Bool) : (s.withIntsOff x).errval = s.errval := rfl
@[simp] theorem State.withIntsOff_bus (s : State) (x : Bool) (p : Port) : (s.withIntsOff x).bus p = s.bus p := by
  cases p <;> rfl

@[simp] theorem State.withIntsOff_setBus (s : State) (x : Bool) (p : Port) (b : BusState) :
    (s.withIntsOff x).setBus p b = (s.setBus p b).withIntsOff x := by
  cases p <;> rfl

@[simp] theorem State.withIntsOff_withIntsOff_self (s : State) (x y : Bool) : (s.withIntsOff x).withIntsOff y = s.withIntsOff y := rfl

@[simp] theorem State.withEntry_cfg (s : State) (x : Entry) : (s.withEntry x).cfg = s.cfg := rfl
@[simp] theorem State.withEntry_instances (s : State) (x : Entry) : (s.withEntry x).instances = s.instances := rfl
@[simp] theorem State.withEntry_mem (s : State) (x : Entry) : (s.withEntry x).mem = s.mem := rfl
@[simp] theorem State.withEntry_races (s : State) (x : Entry) : (s.withEntry x).races = s.races := rfl
@[simp] theorem State.withEntry_fsmcEn (s : State) (x : Entry) : (s.withEntry x).fsmcEn = s.fsmcEn := rfl
@[simp] theorem State.withEntry_intsOff (s : State) (x : Entry) : (s.withEntry x).intsOff = s.intsOff := rfl
@[simp] theorem State.withEntry_entry (s : State) (x : Entry) : (s.withEntry x).entry = x := rfl
@[simp] theorem State.withEntry_draws (s : State) (x : Entry) : (s.withEntry x).draws = s.draws := rfl
@[simp] theorem State.withEntry_requests (s : State) (x : Entry) : (s.withEntry x).requests = s.requests := rfl
@[simp] theorem State.withEntry_stores (s : State) (x : Entry) : (s.withEntry x).stores = s.stores := rfl
@[simp] theorem State.withEntry_threads (s : State) (x : Entry) : (s.withEntry x).threads = s.threads := rfl
@[simp] theorem State.withEntry_past (s : State) (x : Entry) : (s.withEntry x).past = s.past := rfl
@[simp] theorem State.withEntry_returned (s : State) (x : Entry) : (s.withEntry x).returned = s.returned := rfl
@[simp] theorem State.withEntry_ret (s : State) (x : Entry) : (s.withEntry x).ret = s.ret := rfl
@[simp] theorem State.withEntry_errval (s : State) (x : Entry) : (s.withEntry x).errval = s.errval := rfl
@[simp] theorem State.withEntry_bus (s : State) (x : Entry) (p : Port) : (s.withEntry x).bus p = s.bus p := by
  cases p <;> rfl

@[simp] theorem State.withEntry_setBus (s : State) (x : Entry) (p : Port) (b : BusState) :
    (s.withEntry x).setBus p b = (s.setBus p b).withEntry x := by
  cases p <;> rfl

@[simp] theorem State.withEntry_withEntry_self (s : State) (x y : Entry) : (s.withEntry x).withEntry y = s.withEntry y := rfl

@[simp] theorem State.withDraws_cfg (s : State) (x : Draws) : (s.withDraws x).cfg = s.cfg := rfl
@[simp] theorem State.withDraws_instances (s : State) (x : Draws) : (s.withDraws x).instances = s.instances := rfl
@[simp] theorem State.withDraws_mem (s : State) (x : Draws) : (s.withDraws x).mem = s.mem := rfl
@[simp] theorem State.withDraws_races (s : State) (x : Draws) : (s.withDraws x).races = s.races := rfl
@[simp] theorem State.withDraws_fsmcEn (s : State) (x : Draws) : (s.withDraws x).fsmcEn = s.fsmcEn := rfl
@[simp] theorem State.withDraws_intsOff (s : State) (x : Draws) : (s.withDraws x).intsOff = s.intsOff := rfl
@[simp] theorem State.withDraws_entry (s : State) (x : Draws) : (s.withDraws x).entry = s.entry := rfl
@[simp] theorem State.withDraws_draws (s : State) (x : Draws) : (s.withDraws x).draws = x := rfl
@[simp] theorem State.withDraws_requests (s : State) (x : Draws) : (s.withDraws x).requests = s.requests := rfl
@[simp] theorem State.withDraws_stores (s : State) (x : Draws) : (s.withDraws x).stores = s.stores := rfl
@[simp] theorem State.withDraws_threads (s : State) (x : Draws) : (s.withDraws x).threads = s.threads := rfl
@[simp] theorem State.withDraws_past (s : State) (x : Draws) : (s.withDraws x).past = s.past := rfl
@[simp] theorem State.withDraws_returned (s : State) (x : Draws) : (s.withDraws x).returned = s.returned := rfl
@[simp] theorem State.withDraws_ret (s : State) (x : Draws) : (s.withDraws x).ret = s.ret := rfl
@[simp] theorem State.withDraws_errval (s : State) (x : Draws) : (s.withDraws x).errval = s.errval := rfl
@[simp] theorem State.withDraws_bus (s : State) (x : Draws) (p : Port) : (s.withDraws x).bus p = s.bus p := by
  cases p <;> rfl

@[simp] theorem State.withDraws_setBus (s : State) (x : Draws) (p : Port) (b : BusState) :
    (s.withDraws x).setBus p b = (s.setBus p b).withDraws x := by
  cases p <;> rfl

@[simp] theorem State.withDraws_withDraws_self (s : State) (x y : Draws) : (s.withDraws x).withDraws y = s.withDraws y := rfl

@[simp] theorem State.withRequests_cfg (s : State) (x : List Request) : (s.withRequests x).cfg = s.cfg := rfl
@[simp] theorem State.withRequests_instances (s : State) (x : List Request) : (s.withRequests x).instances = s.instances := rfl
@[simp] theorem State.withRequests_mem (s : State) (x : List Request) : (s.withRequests x).mem = s.mem := rfl
@[simp] theorem State.withRequests_races (s : State) (x : List Request) : (s.withRequests x).races = s.races := rfl
@[simp] theorem State.withRequests_fsmcEn (s : State) (x : List Request) : (s.withRequests x).fsmcEn = s.fsmcEn := rfl
@[simp] theorem State.withRequests_intsOff (s : State) (x : List Request) : (s.withRequests x).intsOff = s.intsOff := rfl
@[simp] theorem State.withRequests_entry (s : State) (x : List Request) : (s.withRequests x).entry = s.entry := rfl
@[simp] theorem State.withRequests_draws (s : State) (x : List Request) : (s.withRequests x).draws = s.draws := rfl
@[simp] theorem State.withRequests_requests (s : State) (x : List Request) : (s.withRequests x).requests = x := rfl
@[simp] theorem State.withRequests_stores (s : State) (x : List Request) : (s.withRequests x).stores = s.stores := rfl
@[simp] theorem State.withRequests_threads (s : State) (x : List Request) : (s.withRequests x).threads = s.threads := rfl
@[simp] theorem State.withRequests_past (s : State) (x : List Request) : (s.withRequests x).past = s.past := rfl
@[simp] theorem State.withRequests_returned (s : State) (x : List Request) : (s.withRequests x).returned = s.returned := rfl
@[simp] theorem State.withRequests_ret (s : State) (x : List Request) : (s.withRequests x).ret = s.ret := rfl
@[simp] theorem State.withRequests_errval (s : State) (x : List Request) : (s.withRequests x).errval = s.errval := rfl
@[simp] theorem State.withRequests_bus (s : State) (x : List Request) (p : Port) : (s.withRequests x).bus p = s.bus p := by
  cases p <;> rfl

@[simp] theorem State.withRequests_setBus (s : State) (x : List Request) (p : Port) (b : BusState) :
    (s.withRequests x).setBus p b = (s.setBus p b).withRequests x := by
  cases p <;> rfl

@[simp] theorem State.withRequests_withRequests_self (s : State) (x y : List Request) : (s.withRequests x).withRequests y = s.withRequests y := rfl

@[simp] theorem State.withStores_cfg (s : State) (x : List Host.Cell) : (s.withStores x).cfg = s.cfg := rfl
@[simp] theorem State.withStores_instances (s : State) (x : List Host.Cell) : (s.withStores x).instances = s.instances := rfl
@[simp] theorem State.withStores_mem (s : State) (x : List Host.Cell) : (s.withStores x).mem = s.mem := rfl
@[simp] theorem State.withStores_races (s : State) (x : List Host.Cell) : (s.withStores x).races = s.races := rfl
@[simp] theorem State.withStores_fsmcEn (s : State) (x : List Host.Cell) : (s.withStores x).fsmcEn = s.fsmcEn := rfl
@[simp] theorem State.withStores_intsOff (s : State) (x : List Host.Cell) : (s.withStores x).intsOff = s.intsOff := rfl
@[simp] theorem State.withStores_entry (s : State) (x : List Host.Cell) : (s.withStores x).entry = s.entry := rfl
@[simp] theorem State.withStores_draws (s : State) (x : List Host.Cell) : (s.withStores x).draws = s.draws := rfl
@[simp] theorem State.withStores_requests (s : State) (x : List Host.Cell) : (s.withStores x).requests = s.requests := rfl
@[simp] theorem State.withStores_stores (s : State) (x : List Host.Cell) : (s.withStores x).stores = x := rfl
@[simp] theorem State.withStores_threads (s : State) (x : List Host.Cell) : (s.withStores x).threads = s.threads := rfl
@[simp] theorem State.withStores_past (s : State) (x : List Host.Cell) : (s.withStores x).past = s.past := rfl
@[simp] theorem State.withStores_returned (s : State) (x : List Host.Cell) : (s.withStores x).returned = s.returned := rfl
@[simp] theorem State.withStores_ret (s : State) (x : List Host.Cell) : (s.withStores x).ret = s.ret := rfl
@[simp] theorem State.withStores_errval (s : State) (x : List Host.Cell) : (s.withStores x).errval = s.errval := rfl
@[simp] theorem State.withStores_bus (s : State) (x : List Host.Cell) (p : Port) : (s.withStores x).bus p = s.bus p := by
  cases p <;> rfl

@[simp] theorem State.withStores_setBus (s : State) (x : List Host.Cell) (p : Port) (b : BusState) :
    (s.withStores x).setBus p b = (s.setBus p b).withStores x := by
  cases p <;> rfl

@[simp] theorem State.withStores_withStores_self (s : State) (x y : List Host.Cell) : (s.withStores x).withStores y = s.withStores y := rfl

@[simp] theorem State.withThreads_cfg (s : State) (x : List Thread) : (s.withThreads x).cfg = s.cfg := rfl
@[simp] theorem State.withThreads_instances (s : State) (x : List Thread) : (s.withThreads x).instances = s.instances := rfl
@[simp] theorem State.withThreads_mem (s : State) (x : List Thread) : (s.withThreads x).mem = s.mem := rfl
@[simp] theorem State.withThreads_races (s : State) (x : List Thread) : (s.withThreads x).races = s.races := rfl
@[simp] theorem State.withThreads_fsmcEn (s : State) (x : List Thread) : (s.withThreads x).fsmcEn = s.fsmcEn := rfl
@[simp] theorem State.withThreads_intsOff (s : State) (x : List Thread) : (s.withThreads x).intsOff = s.intsOff := rfl
@[simp] theorem State.withThreads_entry (s : State) (x : List Thread) : (s.withThreads x).entry = s.entry := rfl
@[simp] theorem State.withThreads_draws (s : State) (x : List Thread) : (s.withThreads x).draws = s.draws := rfl
@[simp] theorem State.withThreads_requests (s : State) (x : List Thread) : (s.withThreads x).requests = s.requests := rfl
@[simp] theorem State.withThreads_stores (s : State) (x : List Thread) : (s.withThreads x).stores = s.stores := rfl
@[simp] theorem State.withThreads_threads (s : State) (x : List Thread) : (s.withThreads x).threads = x := rfl
@[simp] theorem State.withThreads_past (s : State) (x : List Thread) : (s.withThreads x).past = s.past := rfl
@[simp] theorem State.withThreads_returned (s : State) (x : List Thread) : (s.withThreads x).returned = s.returned := rfl
@[simp] theorem State.withThreads_ret (s : State) (x : List Thread) : (s.withThreads x).ret = s.ret := rfl
@[simp] theorem State.withThreads_errval (s : State) (x : List Thread) : (s.withThreads x).errval = s.errval := rfl
@[simp] theorem State.withThreads_bus (s : State) (x : List Thread) (p : Port) : (s.withThreads x).bus p = s.bus p := by
  cases p <;> rfl

@[simp] theorem State.withThreads_setBus (s : State) (x : List Thread) (p : Port) (b : BusState) :
    (s.withThreads x).setBus p b = (s.setBus p b).withThreads x := by
  cases p <;> rfl

@[simp] theorem State.withThreads_withThreads_self (s : State) (x y : List Thread) : (s.withThreads x).withThreads y = s.withThreads y := rfl

@[simp] theorem State.withPast_cfg (s : State) (x : List Ans) : (s.withPast x).cfg = s.cfg := rfl
@[simp] theorem State.withPast_instances (s : State) (x : List Ans) : (s.withPast x).instances = s.instances := rfl
@[simp] theorem State.withPast_mem (s : State) (x : List Ans) : (s.withPast x).mem = s.mem := rfl
@[simp] theorem State.withPast_races (s : State) (x : List Ans) : (s.withPast x).races = s.races := rfl
@[simp] theorem State.withPast_fsmcEn (s : State) (x : List Ans) : (s.withPast x).fsmcEn = s.fsmcEn := rfl
@[simp] theorem State.withPast_intsOff (s : State) (x : List Ans) : (s.withPast x).intsOff = s.intsOff := rfl
@[simp] theorem State.withPast_entry (s : State) (x : List Ans) : (s.withPast x).entry = s.entry := rfl
@[simp] theorem State.withPast_draws (s : State) (x : List Ans) : (s.withPast x).draws = s.draws := rfl
@[simp] theorem State.withPast_requests (s : State) (x : List Ans) : (s.withPast x).requests = s.requests := rfl
@[simp] theorem State.withPast_stores (s : State) (x : List Ans) : (s.withPast x).stores = s.stores := rfl
@[simp] theorem State.withPast_threads (s : State) (x : List Ans) : (s.withPast x).threads = s.threads := rfl
@[simp] theorem State.withPast_past (s : State) (x : List Ans) : (s.withPast x).past = x := rfl
@[simp] theorem State.withPast_returned (s : State) (x : List Ans) : (s.withPast x).returned = s.returned := rfl
@[simp] theorem State.withPast_ret (s : State) (x : List Ans) : (s.withPast x).ret = s.ret := rfl
@[simp] theorem State.withPast_errval (s : State) (x : List Ans) : (s.withPast x).errval = s.errval := rfl
@[simp] theorem State.withPast_bus (s : State) (x : List Ans) (p : Port) : (s.withPast x).bus p = s.bus p := by
  cases p <;> rfl

@[simp] theorem State.withPast_setBus (s : State) (x : List Ans) (p : Port) (b : BusState) :
    (s.withPast x).setBus p b = (s.setBus p b).withPast x := by
  cases p <;> rfl

@[simp] theorem State.withPast_withPast_self (s : State) (x y : List Ans) : (s.withPast x).withPast y = s.withPast y := rfl

@[simp] theorem State.withReturned_cfg (s : State) (x : List Returned) : (s.withReturned x).cfg = s.cfg := rfl
@[simp] theorem State.withReturned_instances (s : State) (x : List Returned) : (s.withReturned x).instances = s.instances := rfl
@[simp] theorem State.withReturned_mem (s : State) (x : List Returned) : (s.withReturned x).mem = s.mem := rfl
@[simp] theorem State.withReturned_races (s : State) (x : List Returned) : (s.withReturned x).races = s.races := rfl
@[simp] theorem State.withReturned_fsmcEn (s : State) (x : List Returned) : (s.withReturned x).fsmcEn = s.fsmcEn := rfl
@[simp] theorem State.withReturned_intsOff (s : State) (x : List Returned) : (s.withReturned x).intsOff = s.intsOff := rfl
@[simp] theorem State.withReturned_entry (s : State) (x : List Returned) : (s.withReturned x).entry = s.entry := rfl
@[simp] theorem State.withReturned_draws (s : State) (x : List Returned) : (s.withReturned x).draws = s.draws := rfl
@[simp] theorem State.withReturned_requests (s : State) (x : List Returned) : (s.withReturned x).requests = s.requests := rfl
@[simp] theorem State.withReturned_stores (s : State) (x : List Returned) : (s.withReturned x).stores = s.stores := rfl
@[simp] theorem State.withReturned_threads (s : State) (x : List Returned) : (s.withReturned x).threads = s.threads := rfl
@[simp] theorem State.withReturned_past (s : State) (x : List Returned) : (s.withReturned x).past = s.past := rfl
@[simp] theorem State.withReturned_returned (s : State) (x : List Returned) : (s.withReturned x).returned = x := rfl
@[simp] theorem State.withReturned_ret (s : State) (x : List Returned) : (s.withReturned x).ret = s.ret := rfl
@[simp] theorem State.withReturned_errval (s : State) (x : List Returned) : (s.withReturned x).errval = s.errval := rfl
@[simp] theorem State.withReturned_bus (s : State) (x : List Returned) (p : Port) : (s.withReturned x).bus p = s.bus p := by
  cases p <;> rfl

@[simp] theorem State.withReturned_setBus (s : State) (x : List Returned) (p : Port) (b : BusState) :
    (s.withReturned x).setBus p b = (s.setBus p b).withReturned x := by
  cases p <;> rfl

@[simp] theorem State.withReturned_withReturned_self (s : State) (x y : List Returned) : (s.withReturned x).withReturned y = s.withReturned y := rfl

@[simp] theorem State.withRet_cfg (s : State) (x : Int) : (s.withRet x).cfg = s.cfg := rfl
@[simp] theorem State.withRet_instances (s : State) (x : Int) : (s.withRet x).instances = s.instances := rfl
@[simp] theorem State.withRet_mem (s : State) (x : Int) : (s.withRet x).mem = s.mem := rfl
@[simp] theorem State.withRet_races (s : State) (x : Int) : (s.withRet x).races = s.races := rfl
@[simp] theorem State.withRet_fsmcEn (s : State) (x : Int) : (s.withRet x).fsmcEn = s.fsmcEn := rfl
@[simp] theorem State.withRet_intsOff (s : State) (x : Int) : (s.withRet x).intsOff = s.intsOff := rfl
@[simp] theorem State.withRet_entry (s : State) (x : Int) : (s.withRet x).entry = s.entry := rfl
@[simp] theorem State.withRet_draws (s : State) (x : Int) : (s.withRet x).draws = s.draws := rfl
@[simp] theorem State.withRet_requests (s : State) (x : Int) : (s.withRet x).requests = s.requests := rfl
@[simp] theorem State.withRet_stores (s : State) (x : Int) : (s.withRet x).stores = s.stores := rfl
@[simp] theorem State.withRet_threads (s : State) (x : Int) : (s.withRet x).threads = s.threads := rfl
@[simp] theorem State.withRet_past (s : State) (x : Int) : (s.withRet x).past = s.past := rfl
@[simp] theorem State.withRet_returned (s : State) (x : Int) : (s.withRet x).returned = s.returned := rfl
@[simp] theorem State.withRet_ret (s : State) (x : Int) : (s.withRet x).ret = x := rfl
@[simp] theorem State.withRet_errval (s : State) (x : Int) : (s.withRet x).errval = s.errval := rfl
@[simp] theorem State.withRet_bus (s : State) (x : Int) (p : Port) : (s.withRet x).bus p = s.bus p := by
  cases p <;> rfl

@[simp] theorem State.withRet_setBus (s : State) (x : Int) (p : Port) (b : BusState) :
    (s.withRet x).setBus p b = (s.setBus p b).withRet x := by
  cases p <;> rfl

@[simp] theorem State.withRet_withRet_self (s : State) (x y : Int) : (s.withRet x).withRet y = s.withRet y := rfl

@[simp] theorem State.withErrval_cfg (s : State) (x : ErrVal) : (s.withErrval x).cfg = s.cfg := rfl
@[simp] theorem State.withErrval_instances (s : State) (x : ErrVal) : (s.withErrval x).instances = s.instances := rfl
@[simp] theorem State.withErrval_mem (s : State) (x : ErrVal) : (s.withErrval x).mem = s.mem := rfl
@[simp] theorem State.withErrval_races (s : State) (x : ErrVal) : (s.withErrval x).races = s.races := rfl
@[simp] theorem State.withErrval_fsmcEn (s : State) (x : ErrVal) : (s.withErrval x).fsmcEn = s.fsmcEn := rfl
@[simp] theorem State.withErrval_intsOff (s : State) (x : ErrVal) : (s.withErrval x).intsOff = s.intsOff := rfl
@[simp] theorem State.withErrval_entry (s : State) (x : ErrVal) : (s.withErrval x).entry = s.entry := rfl
@[simp] theorem State.withErrval_draws (s : State) (x : ErrVal) : (s.withErrval x).draws = s.draws := rfl
@[simp] theorem State.withErrval_requests (s : State) (x : ErrVal) : (s.withErrval x).requests = s.requests := rfl
@[simp] theorem State.withErrval_stores (s : State) (x : ErrVal) : (s.withErrval x).stores = s.stores := rfl
@[simp] theorem State.withErrval_threads (s : State) (x : ErrVal) : (s.withErrval x).threads = s.threads := rfl
@[simp] theorem State.withErrval_past (s : State) (x : ErrVal) : (s.withErrval x).past = s.past := rfl
@[simp] theorem State.withErrval_returned (s : State) (x : ErrVal) : (s.withErrval x).returned = s.returned := rfl
@[simp] theorem State.withErrval_ret (s : State) (x : ErrVal) : (s.withErrval x).ret = s.ret := rfl
@[simp] theorem State.withErrval_errval (s : State) (x : ErrVal) : (s.withErrval x).errval = x := rfl
@[simp] theorem State.withErrval_bus (s : State) (x : ErrVal) (p : Port) : (s.withErrval x).bus p = s.bus p := by
  cases p <;> rfl

@[simp] theorem State.withErrval_setBus (s : State) (x : ErrVal) (p : Port) (b : BusState) :
    (s.withErrval x).setBus p b = (s.setBus p b).withErrval x := by
  cases p <;> rfl

@[simp] theorem State.withErrval_withErrval_self (s : State) (x y : ErrVal) : (s.withErrval x).withErrval y = s.withErrval y := rfl

end Sys2Proof.Machine
end

