-- ==== Sys2Proof/Laws/Ops.lean ====
section
/-! SUPPORT. The shared operations of Machine/Ops.lean, Trace.lean, Registers.lean, Address.lean, each with
one equation for when it goes on and one statement of everything it did if it went on. -/

namespace Sys2Proof.Machine

/-! Fields of a Bus State after an appended event and after a register write. -/

@[simp] theorem BusState.record_refs (b : BusState) (e : Event) : (b.record e).refs = b.refs := rfl
@[simp] theorem BusState.record_faulted (b : BusState) (e : Event) : (b.record e).faulted = b.faulted := rfl
@[simp] theorem BusState.record_refused (b : BusState) (e : Event) : (b.record e).refused = b.refused := rfl
@[simp] theorem BusState.record_lock (b : BusState) (e : Event) : (b.record e).lock = b.lock := rfl
@[simp] theorem BusState.record_sem (b : BusState) (e : Event) : (b.record e).sem = b.sem := rfl
@[simp] theorem BusState.record_intstate (b : BusState) (e : Event) : (b.record e).intstate = b.intstate := rfl
@[simp] theorem BusState.record_dcnt (b : BusState) (e : Event) : (b.record e).dcnt = b.dcnt := rfl
@[simp] theorem BusState.record_msgc (b : BusState) (e : Event) : (b.record e).msgc = b.msgc := rfl
@[simp] theorem BusState.record_msgv (b : BusState) (e : Event) : (b.record e).msgv = b.msgv := rfl
@[simp] theorem BusState.record_ptr (b : BusState) (e : Event) : (b.record e).ptr = b.ptr := rfl
@[simp] theorem BusState.record_totalMsgLen (b : BusState) (e : Event) : (b.record e).totalMsgLen = b.totalMsgLen := rfl
@[simp] theorem BusState.record_flags (b : BusState) (e : Event) : (b.record e).flags = b.flags := rfl
@[simp] theorem BusState.record_checkAddrAck (b : BusState) (e : Event) : (b.record e).checkAddrAck = b.checkAddrAck := rfl
@[simp] theorem BusState.record_status (b : BusState) (e : Event) : (b.record e).status = b.status := rfl
@[simp] theorem BusState.record_curAddr (b : BusState) (e : Event) : (b.record e).curAddr = b.curAddr := rfl
@[simp] theorem BusState.record_msgs (b : BusState) (e : Event) : (b.record e).msgs = b.msgs := rfl
@[simp] theorem BusState.record_count (b : BusState) (e : Event) : (b.record e).count = b.count := rfl
@[simp] theorem BusState.record_trace (b : BusState) (e : Event) : (b.record e).trace = b.trace := rfl
@[simp] theorem BusState.record_regs (b : BusState) (e : Event) : (b.record e).regs = b.regs := rfl
@[simp] theorem BusState.record_plat (b : BusState) (e : Event) : (b.record e).plat = b.plat := rfl
@[simp] theorem BusState.record_curBuf (b : BusState) (e : Event) : (b.record e).curBuf = b.curBuf := rfl
@[simp] theorem BusState.record_cr2Written (b : BusState) (e : Event) : (b.record e).cr2Written = b.cr2Written := rfl
@[simp] theorem BusState.record_deadline (b : BusState) (e : Event) : (b.record e).deadline = b.deadline := rfl
@[simp] theorem BusState.record_owning (b : BusState) (e : Event) : (b.record e).owning = b.owning := rfl
@[simp] theorem BusState.record_log (b : BusState) (e : Event) : (b.record e).log = b.log := rfl
@[simp] theorem BusState.record_hist (b : BusState) (e : Event) : (b.record e).hist = b.hist ++ [e] := rfl

@[simp] theorem BusState.put_refs (b : BusState) (r : Reg) (v : Half) : (b.put r v).refs = b.refs := rfl
@[simp] theorem BusState.put_faulted (b : BusState) (r : Reg) (v : Half) : (b.put r v).faulted = b.faulted := rfl
@[simp] theorem BusState.put_refused (b : BusState) (r : Reg) (v : Half) : (b.put r v).refused = b.refused := rfl
@[simp] theorem BusState.put_lock (b : BusState) (r : Reg) (v : Half) : (b.put r v).lock = b.lock := rfl
@[simp] theorem BusState.put_sem (b : BusState) (r : Reg) (v : Half) : (b.put r v).sem = b.sem := rfl
@[simp] theorem BusState.put_intstate (b : BusState) (r : Reg) (v : Half) : (b.put r v).intstate = b.intstate := rfl
@[simp] theorem BusState.put_dcnt (b : BusState) (r : Reg) (v : Half) : (b.put r v).dcnt = b.dcnt := rfl
@[simp] theorem BusState.put_msgc (b : BusState) (r : Reg) (v : Half) : (b.put r v).msgc = b.msgc := rfl
@[simp] theorem BusState.put_msgv (b : BusState) (r : Reg) (v : Half) : (b.put r v).msgv = b.msgv := rfl
@[simp] theorem BusState.put_ptr (b : BusState) (r : Reg) (v : Half) : (b.put r v).ptr = b.ptr := rfl
@[simp] theorem BusState.put_totalMsgLen (b : BusState) (r : Reg) (v : Half) : (b.put r v).totalMsgLen = b.totalMsgLen := rfl
@[simp] theorem BusState.put_flags (b : BusState) (r : Reg) (v : Half) : (b.put r v).flags = b.flags := rfl
@[simp] theorem BusState.put_checkAddrAck (b : BusState) (r : Reg) (v : Half) : (b.put r v).checkAddrAck = b.checkAddrAck := rfl
@[simp] theorem BusState.put_status (b : BusState) (r : Reg) (v : Half) : (b.put r v).status = b.status := rfl
@[simp] theorem BusState.put_curAddr (b : BusState) (r : Reg) (v : Half) : (b.put r v).curAddr = b.curAddr := rfl
@[simp] theorem BusState.put_msgs (b : BusState) (r : Reg) (v : Half) : (b.put r v).msgs = b.msgs := rfl
@[simp] theorem BusState.put_count (b : BusState) (r : Reg) (v : Half) : (b.put r v).count = b.count := rfl
@[simp] theorem BusState.put_trace (b : BusState) (r : Reg) (v : Half) : (b.put r v).trace = b.trace := rfl
@[simp] theorem BusState.put_plat (b : BusState) (r : Reg) (v : Half) : (b.put r v).plat = b.plat := rfl
@[simp] theorem BusState.put_curBuf (b : BusState) (r : Reg) (v : Half) : (b.put r v).curBuf = b.curBuf := rfl
@[simp] theorem BusState.put_deadline (b : BusState) (r : Reg) (v : Half) : (b.put r v).deadline = b.deadline := rfl
@[simp] theorem BusState.put_owning (b : BusState) (r : Reg) (v : Half) : (b.put r v).owning = b.owning := rfl
@[simp] theorem BusState.put_log (b : BusState) (r : Reg) (v : Half) : (b.put r v).log = b.log := rfl
@[simp] theorem BusState.put_hist (b : BusState) (r : Reg) (v : Half) : (b.put r v).hist = b.hist ++ [.wr r v] := rfl
@[simp] theorem BusState.put_regs (b : BusState) (r : Reg) (v : Half) : (b.put r v).regs = b.regs.written r v := rfl
@[simp] theorem BusState.put_cr2Written (b : BusState) (r : Reg) (v : Half) :
    (b.put r v).cr2Written = if r = .cr2 then v else b.cr2Written := rfl

@[simp] theorem BusState.emitted_refs (b : BusState) (ev : EvName) (x : Int) : (b.emitted ev x).refs = b.refs := rfl
@[simp] theorem BusState.emitted_faulted (b : BusState) (ev : EvName) (x : Int) : (b.emitted ev x).faulted = b.faulted := rfl
@[simp] theorem BusState.emitted_refused (b : BusState) (ev : EvName) (x : Int) : (b.emitted ev x).refused = b.refused := rfl
@[simp] theorem BusState.emitted_lock (b : BusState) (ev : EvName) (x : Int) : (b.emitted ev x).lock = b.lock := rfl
@[simp] theorem BusState.emitted_sem (b : BusState) (ev : EvName) (x : Int) : (b.emitted ev x).sem = b.sem := rfl
@[simp] theorem BusState.emitted_intstate (b : BusState) (ev : EvName) (x : Int) : (b.emitted ev x).intstate = b.intstate := rfl
@[simp] theorem BusState.emitted_dcnt (b : BusState) (ev : EvName) (x : Int) : (b.emitted ev x).dcnt = b.dcnt := rfl
@[simp] theorem BusState.emitted_msgc (b : BusState) (ev : EvName) (x : Int) : (b.emitted ev x).msgc = b.msgc := rfl
@[simp] theorem BusState.emitted_msgv (b : BusState) (ev : EvName) (x : Int) : (b.emitted ev x).msgv = b.msgv := rfl
@[simp] theorem BusState.emitted_ptr (b : BusState) (ev : EvName) (x : Int) : (b.emitted ev x).ptr = b.ptr := rfl
@[simp] theorem BusState.emitted_totalMsgLen (b : BusState) (ev : EvName) (x : Int) : (b.emitted ev x).totalMsgLen = b.totalMsgLen := rfl
@[simp] theorem BusState.emitted_flags (b : BusState) (ev : EvName) (x : Int) : (b.emitted ev x).flags = b.flags := rfl
@[simp] theorem BusState.emitted_checkAddrAck (b : BusState) (ev : EvName) (x : Int) : (b.emitted ev x).checkAddrAck = b.checkAddrAck := rfl
@[simp] theorem BusState.emitted_status (b : BusState) (ev : EvName) (x : Int) : (b.emitted ev x).status = b.status := rfl
@[simp] theorem BusState.emitted_curAddr (b : BusState) (ev : EvName) (x : Int) : (b.emitted ev x).curAddr = b.curAddr := rfl
@[simp] theorem BusState.emitted_msgs (b : BusState) (ev : EvName) (x : Int) : (b.emitted ev x).msgs = b.msgs := rfl
@[simp] theorem BusState.emitted_count (b : BusState) (ev : EvName) (x : Int) : (b.emitted ev x).count = b.count := rfl
@[simp] theorem BusState.emitted_regs (b : BusState) (ev : EvName) (x : Int) : (b.emitted ev x).regs = b.regs := rfl
@[simp] theorem BusState.emitted_plat (b : BusState) (ev : EvName) (x : Int) : (b.emitted ev x).plat = b.plat := rfl
@[simp] theorem BusState.emitted_curBuf (b : BusState) (ev : EvName) (x : Int) : (b.emitted ev x).curBuf = b.curBuf := rfl
@[simp] theorem BusState.emitted_cr2Written (b : BusState) (ev : EvName) (x : Int) : (b.emitted ev x).cr2Written = b.cr2Written := rfl
@[simp] theorem BusState.emitted_deadline (b : BusState) (ev : EvName) (x : Int) : (b.emitted ev x).deadline = b.deadline := rfl
@[simp] theorem BusState.emitted_owning (b : BusState) (ev : EvName) (x : Int) : (b.emitted ev x).owning = b.owning := rfl
@[simp] theorem BusState.emitted_log (b : BusState) (ev : EvName) (x : Int) : (b.emitted ev x).log = b.log := rfl
@[simp] theorem BusState.emitted_hist (b : BusState) (ev : EvName) (x : Int) :
    (b.emitted ev x).hist = b.hist ++ [.ev ev x] := rfl
@[simp] theorem BusState.emitted_trace (b : BusState) (ev : EvName) (x : Int) :
    (b.emitted ev x).trace = b.trace.annotate ev x := rfl

/-! A register write, register by register. -/

@[simp] theorem Regs.written_cr1 (x : Regs) (v : Half) : x.written .cr1 v = { x with cr1 := v } := rfl
@[simp] theorem Regs.written_cr2 (x : Regs) (v : Half) : x.written .cr2 v = { x with cr2 := v } := rfl
@[simp] theorem Regs.written_oar1 (x : Regs) (v : Half) : x.written .oar1 v = { x with oar1 := v } := rfl
@[simp] theorem Regs.written_dr (x : Regs) (v : Half) : x.written .dr v = { x with dr := v } := rfl
@[simp] theorem Regs.written_ccr (x : Regs) (v : Half) : x.written .ccr v = { x with ccr := v } := rfl
@[simp] theorem Regs.written_trise (x : Regs) (v : Half) : x.written .trise v = { x with trise := v } := rfl
@[simp] theorem Regs.written_sr1 (x : Regs) (v : Half) :
    x.written .sr1 v = { x with sr1 := x.sr1 &&& (v ||| 0x00FF) } := rfl
@[simp] theorem Regs.written_sr2 (x : Regs) (v : Half) : x.written .sr2 v = x := rfl

/-- A Modify that clears nothing keeps every bit it read. -/
@[simp] theorem and_ones (v : Half) : v &&& 65535#16 = v := by
  exact BitVec.and_allOnes

/-! The state after a Get, a Put, a Modify, an event. -/

/-- The state after a Get. -/
def State.gotReg (s : State) (p : Port) (r : Reg) : State :=
  (s.setBus p ((s.bus p).record (.rd r (s.regAt 0)))).withDraws { s.draws with regs := s.draws.regs.advance }

/-- The state after a Put. -/
def State.putReg (s : State) (p : Port) (r : Reg) (v : Half) : State := s.setBus p ((s.bus p).put r v)

/-- The state after a Modify. -/
def State.modReg (s : State) (p : Port) (r : Reg) (clr set : Half) : State :=
  (s.gotReg p r).putReg p r (modified (s.regAt 0) clr set)

/-- The state after an event. -/
def State.emittedEv (s : State) (p : Port) (ev : EvName) (x : Int) : State :=
  if s.cfg.traceOn then s.setBus p ((s.bus p).emitted ev x) else s

@[simp] theorem State.gotReg_cfg (s : State) (p : Port) (r : Reg) : (s.gotReg p r).cfg = s.cfg := by
  simp [State.gotReg]
@[simp] theorem State.gotReg_instances (s : State) (p : Port) (r : Reg) : (s.gotReg p r).instances = s.instances := by
  simp [State.gotReg]
@[simp] theorem State.gotReg_mem (s : State) (p : Port) (r : Reg) : (s.gotReg p r).mem = s.mem := by
  simp [State.gotReg]
@[simp] theorem State.gotReg_fsmcEn (s : State) (p : Port) (r : Reg) : (s.gotReg p r).fsmcEn = s.fsmcEn := by
  simp [State.gotReg]
@[simp] theorem State.gotReg_races (s : State) (p : Port) (r : Reg) : (s.gotReg p r).races = s.races := by
  simp [State.gotReg]
@[simp] theorem State.gotReg_intsOff (s : State) (p : Port) (r : Reg) : (s.gotReg p r).intsOff = s.intsOff := by
  simp [State.gotReg]
@[simp] theorem State.gotReg_entry (s : State) (p : Port) (r : Reg) : (s.gotReg p r).entry = s.entry := by
  simp [State.gotReg]
@[simp] theorem State.gotReg_requests (s : State) (p : Port) (r : Reg) : (s.gotReg p r).requests = s.requests := by
  simp [State.gotReg]
@[simp] theorem State.gotReg_stores (s : State) (p : Port) (r : Reg) : (s.gotReg p r).stores = s.stores := by
  simp [State.gotReg]
@[simp] theorem State.gotReg_threads (s : State) (p : Port) (r : Reg) : (s.gotReg p r).threads = s.threads := by
  simp [State.gotReg]
@[simp] theorem State.gotReg_past (s : State) (p : Port) (r : Reg) : (s.gotReg p r).past = s.past := by
  simp [State.gotReg]
@[simp] theorem State.gotReg_returned (s : State) (p : Port) (r : Reg) : (s.gotReg p r).returned = s.returned := by
  simp [State.gotReg]
@[simp] theorem State.gotReg_ret (s : State) (p : Port) (r : Reg) : (s.gotReg p r).ret = s.ret := by
  simp [State.gotReg]
@[simp] theorem State.gotReg_errval (s : State) (p : Port) (r : Reg) : (s.gotReg p r).errval = s.errval := by
  simp [State.gotReg]

@[simp] theorem State.gotReg_bus_of_ne (s : State) {p q : Port} (r : Reg) (h : q ≠ p) :
    (s.gotReg p r).bus q = s.bus q := by
  simp [State.gotReg, h]

@[simp] theorem State.putReg_cfg (s : State) (p : Port) (r : Reg) (v : Half) : (s.putReg p r v).cfg = s.cfg := by
  simp [State.putReg]
@[simp] theorem State.putReg_instances (s : State) (p : Port) (r : Reg) (v : Half) : (s.putReg p r v).instances = s.instances := by
  simp [State.putReg]
@[simp] theorem State.putReg_mem (s : State) (p : Port) (r : Reg) (v : Half) : (s.putReg p r v).mem = s.mem := by
  simp [State.putReg]
@[simp] theorem State.putReg_fsmcEn (s : State) (p : Port) (r : Reg) (v : Half) : (s.putReg p r v).fsmcEn = s.fsmcEn := by
  simp [State.putReg]
@[simp] theorem State.putReg_races (s : State) (p : Port) (r : Reg) (v : Half) : (s.putReg p r v).races = s.races := by
  simp [State.putReg]
@[simp] theorem State.putReg_intsOff (s : State) (p : Port) (r : Reg) (v : Half) : (s.putReg p r v).intsOff = s.intsOff := by
  simp [State.putReg]
@[simp] theorem State.putReg_entry (s : State) (p : Port) (r : Reg) (v : Half) : (s.putReg p r v).entry = s.entry := by
  simp [State.putReg]
@[simp] theorem State.putReg_requests (s : State) (p : Port) (r : Reg) (v : Half) : (s.putReg p r v).requests = s.requests := by
  simp [State.putReg]
@[simp] theorem State.putReg_stores (s : State) (p : Port) (r : Reg) (v : Half) : (s.putReg p r v).stores = s.stores := by
  simp [State.putReg]
@[simp] theorem State.putReg_threads (s : State) (p : Port) (r : Reg) (v : Half) : (s.putReg p r v).threads = s.threads := by
  simp [State.putReg]
@[simp] theorem State.putReg_past (s : State) (p : Port) (r : Reg) (v : Half) : (s.putReg p r v).past = s.past := by
  simp [State.putReg]
@[simp] theorem State.putReg_returned (s : State) (p : Port) (r : Reg) (v : Half) : (s.putReg p r v).returned = s.returned := by
  simp [State.putReg]
@[simp] theorem State.putReg_ret (s : State) (p : Port) (r : Reg) (v : Half) : (s.putReg p r v).ret = s.ret := by
  simp [State.putReg]
@[simp] theorem State.putReg_errval (s : State) (p : Port) (r : Reg) (v : Half) : (s.putReg p r v).errval = s.errval := by
  simp [State.putReg]

@[simp] theorem State.putReg_bus_of_ne (s : State) {p q : Port} (r : Reg) (v : Half) (h : q ≠ p) :
    (s.putReg p r v).bus q = s.bus q := by
  simp [State.putReg, h]

@[simp] theorem State.modReg_cfg (s : State) (p : Port) (r : Reg) (clr set : Half) : (s.modReg p r clr set).cfg = s.cfg := by
  simp [State.modReg]
@[simp] theorem State.modReg_instances (s : State) (p : Port) (r : Reg) (clr set : Half) : (s.modReg p r clr set).instances = s.instances := by
  simp [State.modReg]
@[simp] theorem State.modReg_mem (s : State) (p : Port) (r : Reg) (clr set : Half) : (s.modReg p r clr set).mem = s.mem := by
  simp [State.modReg]
@[simp] theorem State.modReg_fsmcEn (s : State) (p : Port) (r : Reg) (clr set : Half) : (s.modReg p r clr set).fsmcEn = s.fsmcEn := by
  simp [State.modReg]
@[simp] theorem State.modReg_races (s : State) (p : Port) (r : Reg) (clr set : Half) : (s.modReg p r clr set).races = s.races := by
  simp [State.modReg]
@[simp] theorem State.modReg_intsOff (s : State) (p : Port) (r : Reg) (clr set : Half) : (s.modReg p r clr set).intsOff = s.intsOff := by
  simp [State.modReg]
@[simp] theorem State.modReg_entry (s : State) (p : Port) (r : Reg) (clr set : Half) : (s.modReg p r clr set).entry = s.entry := by
  simp [State.modReg]
@[simp] theorem State.modReg_requests (s : State) (p : Port) (r : Reg) (clr set : Half) : (s.modReg p r clr set).requests = s.requests := by
  simp [State.modReg]
@[simp] theorem State.modReg_stores (s : State) (p : Port) (r : Reg) (clr set : Half) : (s.modReg p r clr set).stores = s.stores := by
  simp [State.modReg]
@[simp] theorem State.modReg_threads (s : State) (p : Port) (r : Reg) (clr set : Half) : (s.modReg p r clr set).threads = s.threads := by
  simp [State.modReg]
@[simp] theorem State.modReg_past (s : State) (p : Port) (r : Reg) (clr set : Half) : (s.modReg p r clr set).past = s.past := by
  simp [State.modReg]
@[simp] theorem State.modReg_returned (s : State) (p : Port) (r : Reg) (clr set : Half) : (s.modReg p r clr set).returned = s.returned := by
  simp [State.modReg]
@[simp] theorem State.modReg_ret (s : State) (p : Port) (r : Reg) (clr set : Half) : (s.modReg p r clr set).ret = s.ret := by
  simp [State.modReg]
@[simp] theorem State.modReg_errval (s : State) (p : Port) (r : Reg) (clr set : Half) : (s.modReg p r clr set).errval = s.errval := by
  simp [State.modReg]

@[simp] theorem State.modReg_bus_of_ne (s : State) {p q : Port} (r : Reg) (clr set : Half) (h : q ≠ p) :
    (s.modReg p r clr set).bus q = s.bus q := by
  simp [State.modReg, h]

@[simp] theorem State.emittedEv_cfg (s : State) (p : Port) (ev : EvName) (x : Int) : (s.emittedEv p ev x).cfg = s.cfg := by
  unfold State.emittedEv
  split <;> simp
@[simp] theorem State.emittedEv_instances (s : State) (p : Port) (ev : EvName) (x : Int) : (s.emittedEv p ev x).instances = s.instances := by
  unfold State.emittedEv
  split <;> simp
@[simp] theorem State.emittedEv_mem (s : State) (p : Port) (ev : EvName) (x : Int) : (s.emittedEv p ev x).mem = s.mem := by
  unfold State.emittedEv
  split <;> simp
@[simp] theorem State.emittedEv_fsmcEn (s : State) (p : Port) (ev : EvName) (x : Int) : (s.emittedEv p ev x).fsmcEn = s.fsmcEn := by
  unfold State.emittedEv
  split <;> simp
@[simp] theorem State.emittedEv_races (s : State) (p : Port) (ev : EvName) (x : Int) : (s.emittedEv p ev x).races = s.races := by
  unfold State.emittedEv
  split <;> simp
@[simp] theorem State.emittedEv_intsOff (s : State) (p : Port) (ev : EvName) (x : Int) : (s.emittedEv p ev x).intsOff = s.intsOff := by
  unfold State.emittedEv
  split <;> simp
@[simp] theorem State.emittedEv_entry (s : State) (p : Port) (ev : EvName) (x : Int) : (s.emittedEv p ev x).entry = s.entry := by
  unfold State.emittedEv
  split <;> simp
@[simp] theorem State.emittedEv_requests (s : State) (p : Port) (ev : EvName) (x : Int) : (s.emittedEv p ev x).requests = s.requests := by
  unfold State.emittedEv
  split <;> simp
@[simp] theorem State.emittedEv_stores (s : State) (p : Port) (ev : EvName) (x : Int) : (s.emittedEv p ev x).stores = s.stores := by
  unfold State.emittedEv
  split <;> simp
@[simp] theorem State.emittedEv_threads (s : State) (p : Port) (ev : EvName) (x : Int) : (s.emittedEv p ev x).threads = s.threads := by
  unfold State.emittedEv
  split <;> simp
@[simp] theorem State.emittedEv_past (s : State) (p : Port) (ev : EvName) (x : Int) : (s.emittedEv p ev x).past = s.past := by
  unfold State.emittedEv
  split <;> simp
@[simp] theorem State.emittedEv_returned (s : State) (p : Port) (ev : EvName) (x : Int) : (s.emittedEv p ev x).returned = s.returned := by
  unfold State.emittedEv
  split <;> simp
@[simp] theorem State.emittedEv_ret (s : State) (p : Port) (ev : EvName) (x : Int) : (s.emittedEv p ev x).ret = s.ret := by
  unfold State.emittedEv
  split <;> simp
@[simp] theorem State.emittedEv_errval (s : State) (p : Port) (ev : EvName) (x : Int) : (s.emittedEv p ev x).errval = s.errval := by
  unfold State.emittedEv
  split <;> simp

@[simp] theorem State.emittedEv_bus_of_ne (s : State) {p q : Port} (ev : EvName) (x : Int) (h : q ≠ p) :
    (s.emittedEv p ev x).bus q = s.bus q := by
  unfold State.emittedEv
  split <;> simp [h]

@[simp] theorem State.gotReg_bus (s : State) (p : Port) (r : Reg) :
    (s.gotReg p r).bus p = (s.bus p).record (.rd r (s.regAt 0)) := by
  simp [State.gotReg]

@[simp] theorem State.putReg_bus (s : State) (p : Port) (r : Reg) (v : Half) :
    (s.putReg p r v).bus p = (s.bus p).put r v := by
  simp [State.putReg]

@[simp] theorem State.modReg_bus (s : State) (p : Port) (r : Reg) (clr set : Half) :
    (s.modReg p r clr set).bus p =
      ((s.bus p).record (.rd r (s.regAt 0))).put r (modified (s.regAt 0) clr set) := by
  simp [State.modReg]

theorem State.emittedEv_bus (s : State) (p : Port) (ev : EvName) (x : Int) :
    (s.emittedEv p ev x).bus p = if s.cfg.traceOn then (s.bus p).emitted ev x else s.bus p := by
  unfold State.emittedEv
  split <;> simp [*]

/-- An event appends `evs`, whether or not tracing is on. -/
@[simp] theorem State.emittedEv_hist (s : State) (p : Port) (ev : EvName) (x : Int) :
    ((s.emittedEv p ev x).bus p).hist = (s.bus p).hist ++ evs s.cfg ev x := by
  rw [State.emittedEv_bus, evs]
  split <;> simp

@[simp] theorem State.emittedEv_bus_refs (s : State) (p : Port) (ev : EvName) (x : Int) :
    ((s.emittedEv p ev x).bus p).refs = (s.bus p).refs := by
  rw [State.emittedEv_bus]
  split <;> rfl
@[simp] theorem State.emittedEv_bus_faulted (s : State) (p : Port) (ev : EvName) (x : Int) :
    ((s.emittedEv p ev x).bus p).faulted = (s.bus p).faulted := by
  rw [State.emittedEv_bus]
  split <;> rfl
@[simp] theorem State.emittedEv_bus_refused (s : State) (p : Port) (ev : EvName) (x : Int) :
    ((s.emittedEv p ev x).bus p).refused = (s.bus p).refused := by
  rw [State.emittedEv_bus]
  split <;> rfl
@[simp] theorem State.emittedEv_bus_lock (s : State) (p : Port) (ev : EvName) (x : Int) :
    ((s.emittedEv p ev x).bus p).lock = (s.bus p).lock := by
  rw [State.emittedEv_bus]
  split <;> rfl
@[simp] theorem State.emittedEv_bus_sem (s : State) (p : Port) (ev : EvName) (x : Int) :
    ((s.emittedEv p ev x).bus p).sem = (s.bus p).sem := by
  rw [State.emittedEv_bus]
  split <;> rfl
@[simp] theorem State.emittedEv_bus_intstate (s : State) (p : Port) (ev : EvName) (x : Int) :
    ((s.emittedEv p ev x).bus p).intstate = (s.bus p).intstate := by
  rw [State.emittedEv_bus]
  split <;> rfl
@[simp] theorem State.emittedEv_bus_dcnt (s : State) (p : Port) (ev : EvName) (x : Int) :
    ((s.emittedEv p ev x).bus p).dcnt = (s.bus p).dcnt := by
  rw [State.emittedEv_bus]
  split <;> rfl
@[simp] theorem State.emittedEv_bus_msgc (s : State) (p : Port) (ev : EvName) (x : Int) :
    ((s.emittedEv p ev x).bus p).msgc = (s.bus p).msgc := by
  rw [State.emittedEv_bus]
  split <;> rfl
@[simp] theorem State.emittedEv_bus_msgv (s : State) (p : Port) (ev : EvName) (x : Int) :
    ((s.emittedEv p ev x).bus p).msgv = (s.bus p).msgv := by
  rw [State.emittedEv_bus]
  split <;> rfl
@[simp] theorem State.emittedEv_bus_ptr (s : State) (p : Port) (ev : EvName) (x : Int) :
    ((s.emittedEv p ev x).bus p).ptr = (s.bus p).ptr := by
  rw [State.emittedEv_bus]
  split <;> rfl
@[simp] theorem State.emittedEv_bus_totalMsgLen (s : State) (p : Port) (ev : EvName) (x : Int) :
    ((s.emittedEv p ev x).bus p).totalMsgLen = (s.bus p).totalMsgLen := by
  rw [State.emittedEv_bus]
  split <;> rfl
@[simp] theorem State.emittedEv_bus_flags (s : State) (p : Port) (ev : EvName) (x : Int) :
    ((s.emittedEv p ev x).bus p).flags = (s.bus p).flags := by
  rw [State.emittedEv_bus]
  split <;> rfl
@[simp] theorem State.emittedEv_bus_checkAddrAck (s : State) (p : Port) (ev : EvName) (x : Int) :
    ((s.emittedEv p ev x).bus p).checkAddrAck = (s.bus p).checkAddrAck := by
  rw [State.emittedEv_bus]
  split <;> rfl
@[simp] theorem State.emittedEv_bus_status (s : State) (p : Port) (ev : EvName) (x : Int) :
    ((s.emittedEv p ev x).bus p).status = (s.bus p).status := by
  rw [State.emittedEv_bus]
  split <;> rfl
@[simp] theorem State.emittedEv_bus_curAddr (s : State) (p : Port) (ev : EvName) (x : Int) :
    ((s.emittedEv p ev x).bus p).curAddr = (s.bus p).curAddr := by
  rw [State.emittedEv_bus]
  split <;> rfl
@[simp] theorem State.emittedEv_bus_msgs (s : State) (p : Port) (ev : EvName) (x : Int) :
    ((s.emittedEv p ev x).bus p).msgs = (s.bus p).msgs := by
  rw [State.emittedEv_bus]
  split <;> rfl
@[simp] theorem State.emittedEv_bus_count (s : State) (p : Port) (ev : EvName) (x : Int) :
    ((s.emittedEv p ev x).bus p).count = (s.bus p).count := by
  rw [State.emittedEv_bus]
  split <;> rfl
@[simp] theorem State.emittedEv_bus_regs (s : State) (p : Port) (ev : EvName) (x : Int) :
    ((s.emittedEv p ev x).bus p).regs = (s.bus p).regs := by
  rw [State.emittedEv_bus]
  split <;> rfl
@[simp] theorem State.emittedEv_bus_plat (s : State) (p : Port) (ev : EvName) (x : Int) :
    ((s.emittedEv p ev x).bus p).plat = (s.bus p).plat := by
  rw [State.emittedEv_bus]
  split <;> rfl
@[simp] theorem State.emittedEv_bus_curBuf (s : State) (p : Port) (ev : EvName) (x : Int) :
    ((s.emittedEv p ev x).bus p).curBuf = (s.bus p).curBuf := by
  rw [State.emittedEv_bus]
  split <;> rfl
@[simp] theorem State.emittedEv_bus_cr2Written (s : State) (p : Port) (ev : EvName) (x : Int) :
    ((s.emittedEv p ev x).bus p).cr2Written = (s.bus p).cr2Written := by
  rw [State.emittedEv_bus]
  split <;> rfl
@[simp] theorem State.emittedEv_bus_deadline (s : State) (p : Port) (ev : EvName) (x : Int) :
    ((s.emittedEv p ev x).bus p).deadline = (s.bus p).deadline := by
  rw [State.emittedEv_bus]
  split <;> rfl
@[simp] theorem State.emittedEv_bus_owning (s : State) (p : Port) (ev : EvName) (x : Int) :
    ((s.emittedEv p ev x).bus p).owning = (s.bus p).owning := by
  rw [State.emittedEv_bus]
  split <;> rfl
@[simp] theorem State.emittedEv_bus_log (s : State) (p : Port) (ev : EvName) (x : Int) :
    ((s.emittedEv p ev x).bus p).log = (s.bus p).log := by
  rw [State.emittedEv_bus]
  split <;> rfl

@[simp] theorem State.regAt_setBus (s : State) (p : Port) (b : BusState) (k : Nat) :
    (s.setBus p b).regAt k = s.regAt k := by
  simp [State.regAt]

@[simp] theorem State.regAt_gotReg (s : State) (p : Port) (r : Reg) (k : Nat) :
    (s.gotReg p r).regAt k = s.regAt (k + 1) := by
  simp [State.regAt, State.gotReg, Source.nth]

@[simp] theorem State.regAt_putReg (s : State) (p : Port) (r : Reg) (v : Half) (k : Nat) :
    (s.putReg p r v).regAt k = s.regAt k := by
  simp [State.putReg]

@[simp] theorem State.regAt_modReg (s : State) (p : Port) (r : Reg) (clr set : Half) (k : Nat) :
    (s.modReg p r clr set).regAt k = s.regAt (k + 1) := by
  simp [State.modReg]

@[simp] theorem State.regAt_emittedEv (s : State) (p : Port) (ev : EvName) (x : Int) (k : Nat) :
    (s.emittedEv p ev x).regAt k = s.regAt k := by
  unfold State.emittedEv
  split <;> simp

@[simp] theorem State.regAt_withInstances (s : State) (x : List (Option Inst)) (k : Nat) : (s.withInstances x).regAt k = s.regAt k := rfl
@[simp] theorem State.regAt_withMem (s : State) (x : Memory) (k : Nat) : (s.withMem x).regAt k = s.regAt k := rfl
@[simp] theorem State.regAt_withRaces (s : State) (x : List Host.Cell) (k : Nat) : (s.withRaces x).regAt k = s.regAt k := rfl
@[simp] theorem State.regAt_withStores (s : State) (x : List Host.Cell) (k : Nat) : (s.withStores x).regAt k = s.regAt k := rfl
@[simp] theorem State.regAt_withFsmc (s : State) (x : Bool) (k : Nat) : (s.withFsmc x).regAt k = s.regAt k := rfl
@[simp] theorem State.regAt_withIntsOff (s : State) (x : Bool) (k : Nat) : (s.withIntsOff x).regAt k = s.regAt k := rfl
@[simp] theorem State.regAt_withEntry (s : State) (x : Entry) (k : Nat) : (s.withEntry x).regAt k = s.regAt k := rfl
@[simp] theorem State.regAt_withRequests (s : State) (x : List Request) (k : Nat) : (s.withRequests x).regAt k = s.regAt k := rfl
@[simp] theorem State.regAt_withThreads (s : State) (x : List Thread) (k : Nat) : (s.withThreads x).regAt k = s.regAt k := rfl
@[simp] theorem State.regAt_withPast (s : State) (x : List Ans) (k : Nat) : (s.withPast x).regAt k = s.regAt k := rfl
@[simp] theorem State.regAt_withReturned (s : State) (x : List Returned) (k : Nat) : (s.withReturned x).regAt k = s.regAt k := rfl
@[simp] theorem State.regAt_withRet (s : State) (x : Int) (k : Nat) : (s.withRet x).regAt k = s.regAt k := rfl
@[simp] theorem State.regAt_withErrval (s : State) (x : ErrVal) (k : Nat) : (s.withErrval x).regAt k = s.regAt k := rfl

/-! Draws. -/

theorem run_drawReg (s : State) :
    drawReg s = .ok (s.regAt 0) (s.withDraws { s.draws with regs := s.draws.regs.advance }) := rfl

@[simp] theorem run_drawWait (s : State) :
    drawWait s = .ok (s.draws.waits.peek Config.freeWait)
      (s.withDraws { s.draws with waits := s.draws.waits.advance }) := rfl

@[simp] theorem run_drawTurns (s : State) :
    drawTurns s = .ok (s.draws.turns.peek Config.freeTurns)
      (s.withDraws { s.draws with turns := s.draws.turns.advance }) := rfl

@[simp] theorem run_drawPin (s : State) :
    drawPin s = .ok (s.draws.pins.peek Config.freePin)
      (s.withDraws { s.draws with pins := s.draws.pins.advance }) := rfl

@[simp] theorem run_drawSignal (s : State) :
    drawSignal s = .ok (s.draws.signals.peek Config.freeSignal)
      (s.withDraws { s.draws with signals := s.draws.signals.advance }) := rfl

@[simp] theorem run_drawTime (s : State) :
    drawTime s = .ok (s.draws.times.peek Config.freeTime)
      (s.withDraws { s.draws with times := s.draws.times.advance }) := rfl

/-! The register accessors. -/

/-- A Get of a mapped register with the clock on answers the next draw and appends one event. -/
theorem regGet_run {s : State} {p : Port} {r : Reg} (hm : mapped r = true) (hc : (s.bus p).plat.clkEn = true) :
    regGet p r s = .ok (s.regAt 0) (s.gotReg p r) := by
  simp [regGet, run_bind, hm, hc, run_drawReg, State.gotReg]

/-- Everything a Get that goes on did. -/
theorem regGet_inv {s t : State} {p : Port} {r : Reg} {v : Half} (h : regGet p r s = .ok v t) :
    mapped r = true ∧ (s.bus p).plat.clkEn = true ∧ v = s.regAt 0 ∧ t = s.gotReg p r := by
  simp only [regGet, bind_ok_iff, ensure_ok_iff, run_lookBus, run_drawReg, run_updBus, run_pure, result_ok_iff] at h
  obtain ⟨_, _, ⟨hm, rfl⟩, _, _, ⟨rfl, rfl⟩, _, _, ⟨hc, rfl⟩, _, _, ⟨rfl, rfl⟩, _, _, ⟨-, rfl⟩, rfl, rfl⟩ := h
  exact ⟨hm, hc, rfl, by simp [State.gotReg, State.regAt]⟩

/-- A Put of a writable mapped register with the clock on. -/
theorem regPut_run {s : State} {p : Port} {r : Reg} {v : Half} (hm : mapped r = true) (hr : r ≠ .sr2)
    (hc : (s.bus p).plat.clkEn = true) : regPut p r v s = .ok () (s.putReg p r v) := by
  have hr' : (r != .sr2) = true := by simpa using hr
  simp [regPut, run_bind, hm, hr', hc, State.putReg]

/-- Everything a Put that goes on did. -/
theorem regPut_inv {s t : State} {p : Port} {r : Reg} {v : Half} {u : Unit} (h : regPut p r v s = .ok u t) :
    mapped r = true ∧ r ≠ .sr2 ∧ (s.bus p).plat.clkEn = true ∧ t = s.putReg p r v := by
  simp only [regPut, bind_ok_iff, ensure_ok_iff, run_lookBus, run_updBus, result_ok_iff] at h
  obtain ⟨_, _, ⟨hm, rfl⟩, _, _, ⟨hr, rfl⟩, _, _, ⟨rfl, rfl⟩, _, _, ⟨hc, rfl⟩, -, rfl⟩ := h
  exact ⟨hm, by simpa using hr, hc, rfl⟩

theorem isControl_mapped {r : Reg} (h : isControl r = true) : mapped r = true ∧ r ≠ .sr2 := by
  cases r <;> simp_all [isControl, mapped]

/-- A Modify of a control register with the clock on: a Get, then a Put. -/
theorem regModify_run {s : State} {p : Port} {r : Reg} {clr set : Half} (hr : isControl r = true)
    (hc : (s.bus p).plat.clkEn = true) : regModify p r clr set s = .ok () (s.modReg p r clr set) := by
  obtain ⟨hm, hn⟩ := isControl_mapped hr
  unfold regModify
  rw [run_bind, hm, ensure_true]
  simp only []
  rw [run_bind, hr, ensure_true]
  simp only []
  rw [run_bind, regGet_run hm hc]
  simp only []
  rw [regPut_run hm hn (by simpa using hc)]
  rfl

/-- Everything a Modify that goes on did. -/
theorem regModify_inv {s t : State} {p : Port} {r : Reg} {clr set : Half} {u : Unit}
    (h : regModify p r clr set s = .ok u t) :
    isControl r = true ∧ (s.bus p).plat.clkEn = true ∧ t = s.modReg p r clr set := by
  simp only [regModify, bind_ok_iff, ensure_ok_iff] at h
  obtain ⟨_, _, ⟨_, rfl⟩, _, _, ⟨hr, rfl⟩, _, _, h1, h⟩ := h
  obtain ⟨_, hc, rfl, rfl⟩ := regGet_inv h1
  obtain ⟨_, _, _, rfl⟩ := regPut_inv h
  exact ⟨hr, hc, rfl⟩

/-- `emit` always goes on. -/
@[simp] theorem run_emit (p : Port) (ev : EvName) (x : Int) (s : State) :
    emit p ev x s = .ok () (s.emittedEv p ev x) := by
  simp only [emit, whenTracing, run_bind, run_look, run_onlyIf, State.emittedEv]
  split <;> simp

/-- ReadSR2: a Get of SR2, then the entry's status word. -/
theorem readSr2_run {s : State} {p : Port} (hc : (s.bus p).plat.clkEn = true) :
    readSr2 p s = .ok () ((s.gotReg p .sr2).withEntry { s.entry with s := s.entry.s ||| high16 (s.regAt 0) }) := by
  unfold readSr2
  rw [run_bind, regGet_run rfl hc]
  simp

/-- Everything ReadSR2 did if it went on. -/
theorem readSr2_inv {s t : State} {p : Port} {u : Unit} (h : readSr2 p s = .ok u t) :
    (s.bus p).plat.clkEn = true ∧
      t = (s.gotReg p .sr2).withEntry { s.entry with s := s.entry.s ||| high16 (s.regAt 0) } := by
  simp only [readSr2, bind_ok_iff, run_upd, result_ok_iff] at h
  obtain ⟨_, _, h1, -, rfl⟩ := h
  obtain ⟨_, hc, rfl, rfl⟩ := regGet_inv h1
  exact ⟨hc, by simp⟩

/-- EmitSTART, EmitSTOP, the ACK and POS edits are one Modify of CR1 each (R153, R154). -/
theorem setCr1_eq (p : Port) (i : BitLayout → Fin 16) (s : State) :
    setCr1 p i s = regModify p .cr1 0 (bit (i s.cfg.layout)) s := rfl

theorem clrCr1_eq (p : Port) (i : BitLayout → Fin 16) (s : State) :
    clrCr1 p i s = regModify p .cr1 (bit (i s.cfg.layout)) 0 s := rfl

theorem setItbufen_eq (p : Port) (s : State) :
    setItbufen p s = regModify p .cr2 0 (bit s.cfg.layout.itbufen) s := rfl

theorem disableAll_eq (p : Port) (s : State) :
    disableAll p s = regModify p .cr2 (allInts s.cfg.layout) 0 s := rfl

/-! Races. -/

theorem State.stored_races (s : State) (w : Option Port) (a : Nat) (v : Byte) :
    (s.stored w a v).races =
      if s.ownedByOther w a || !(s.raceOf a).isEmpty then s.races ++ [(a, s.mem.read a)] else s.races := by
  unfold State.stored
  split <;> rfl

@[simp] theorem State.stored_cfg (s : State) (w : Option Port) (a : Nat) (v : Byte) : (s.stored w a v).cfg = s.cfg := by
  unfold State.stored
  split <;> rfl
@[simp] theorem State.stored_instances (s : State) (w : Option Port) (a : Nat) (v : Byte) : (s.stored w a v).instances = s.instances := by
  unfold State.stored
  split <;> rfl
@[simp] theorem State.stored_fsmcEn (s : State) (w : Option Port) (a : Nat) (v : Byte) : (s.stored w a v).fsmcEn = s.fsmcEn := by
  unfold State.stored
  split <;> rfl
@[simp] theorem State.stored_intsOff (s : State) (w : Option Port) (a : Nat) (v : Byte) : (s.stored w a v).intsOff = s.intsOff := by
  unfold State.stored
  split <;> rfl
@[simp] theorem State.stored_entry (s : State) (w : Option Port) (a : Nat) (v : Byte) : (s.stored w a v).entry = s.entry := by
  unfold State.stored
  split <;> rfl
@[simp] theorem State.stored_requests (s : State) (w : Option Port) (a : Nat) (v : Byte) : (s.stored w a v).requests = s.requests := by
  unfold State.stored
  split <;> rfl
@[simp] theorem State.stored_stores (s : State) (w : Option Port) (a : Nat) (v : Byte) : (s.stored w a v).stores = s.stores := by
  unfold State.stored
  split <;> rfl
@[simp] theorem State.stored_threads (s : State) (w : Option Port) (a : Nat) (v : Byte) : (s.stored w a v).threads = s.threads := by
  unfold State.stored
  split <;> rfl
@[simp] theorem State.stored_past (s : State) (w : Option Port) (a : Nat) (v : Byte) : (s.stored w a v).past = s.past := by
  unfold State.stored
  split <;> rfl
@[simp] theorem State.stored_returned (s : State) (w : Option Port) (a : Nat) (v : Byte) : (s.stored w a v).returned = s.returned := by
  unfold State.stored
  split <;> rfl
@[simp] theorem State.stored_ret (s : State) (w : Option Port) (a : Nat) (v : Byte) : (s.stored w a v).ret = s.ret := by
  unfold State.stored
  split <;> rfl
@[simp] theorem State.stored_errval (s : State) (w : Option Port) (a : Nat) (v : Byte) : (s.stored w a v).errval = s.errval := by
  unfold State.stored
  split <;> rfl
@[simp] theorem State.stored_draws (s : State) (w : Option Port) (a : Nat) (v : Byte) : (s.stored w a v).draws = s.draws := by
  unfold State.stored
  split <;> rfl
@[simp] theorem State.stored_mem (s : State) (w : Option Port) (a : Nat) (v : Byte) :
    (s.stored w a v).mem = s.mem.write a v := by
  unfold State.stored
  split <;> rfl
@[simp] theorem State.stored_bus (s : State) (w : Option Port) (a : Nat) (v : Byte) (p : Port) :
    (s.stored w a v).bus p = s.bus p := by
  unfold State.stored
  split <;> simp
@[simp] theorem State.regAt_stored (s : State) (w : Option Port) (a : Nat) (v : Byte) (k : Nat) :
    (s.stored w a v).regAt k = s.regAt k := by
  simp [State.regAt]

/-- An engine's own Bus State does not matter to whose the bytes it stores are. -/
@[simp] theorem State.ownedByOther_setBus (s : State) (p : Port) (b : BusState) (a : Nat) :
    (s.setBus p b).ownedByOther (some p) a = s.ownedByOther (some p) a := by
  cases p <;> simp [State.ownedByOther, State.setBus]

@[simp] theorem State.raceOf_setBus (s : State) (p : Port) (b : BusState) (a : Nat) :
    (s.setBus p b).raceOf a = s.raceOf a := by
  simp [State.raceOf]

@[simp] theorem State.raceOf_withDraws (s : State) (x : Draws) (a : Nat) : (s.withDraws x).raceOf a = s.raceOf a := rfl

@[simp] theorem State.raceOf_withEntry (s : State) (x : Entry) (a : Nat) : (s.withEntry x).raceOf a = s.raceOf a := rfl

/-- A store and a change of the writer's own Bus State commute. -/
@[simp] theorem State.stored_setBus (s : State) (p : Port) (a : Nat) (v : Byte) (b : BusState) :
    (s.stored (some p) a v).setBus p b = (s.setBus p b).stored (some p) a v := by
  simp only [State.stored, State.ownedByOther_setBus, State.raceOf_setBus, State.setBus_mem, State.setBus_races]
  split <;> simp

/-- Every race of a state is one after a store too. -/
theorem State.races_stored (s : State) (w : Option Port) (a : Nat) (v : Byte) :
    ∃ cs, (s.stored w a v).races = s.races ++ cs ∧ ∀ c ∈ cs, c.1 = a := by
  rw [State.stored_races]
  split
  · exact ⟨_, rfl, by simp⟩
  · exact ⟨[], by simp⟩

@[simp] theorem State.afterFound_cfg (s : State) (a : Nat) : (s.afterFound a).cfg = s.cfg := rfl
@[simp] theorem State.afterFound_instances (s : State) (a : Nat) : (s.afterFound a).instances = s.instances := rfl
@[simp] theorem State.afterFound_fsmcEn (s : State) (a : Nat) : (s.afterFound a).fsmcEn = s.fsmcEn := rfl
@[simp] theorem State.afterFound_intsOff (s : State) (a : Nat) : (s.afterFound a).intsOff = s.intsOff := rfl
@[simp] theorem State.afterFound_entry (s : State) (a : Nat) : (s.afterFound a).entry = s.entry := rfl
@[simp] theorem State.afterFound_requests (s : State) (a : Nat) : (s.afterFound a).requests = s.requests := rfl
@[simp] theorem State.afterFound_stores (s : State) (a : Nat) : (s.afterFound a).stores = s.stores := rfl
@[simp] theorem State.afterFound_threads (s : State) (a : Nat) : (s.afterFound a).threads = s.threads := rfl
@[simp] theorem State.afterFound_past (s : State) (a : Nat) : (s.afterFound a).past = s.past := rfl
@[simp] theorem State.afterFound_returned (s : State) (a : Nat) : (s.afterFound a).returned = s.returned := rfl
@[simp] theorem State.afterFound_ret (s : State) (a : Nat) : (s.afterFound a).ret = s.ret := rfl
@[simp] theorem State.afterFound_errval (s : State) (a : Nat) : (s.afterFound a).errval = s.errval := rfl
@[simp] theorem State.afterFound_mem (s : State) (a : Nat) : (s.afterFound a).mem = s.mem := rfl
@[simp] theorem State.afterFound_races (s : State) (a : Nat) : (s.afterFound a).races = s.races := rfl
@[simp] theorem State.afterFound_bus (s : State) (a : Nat) (p : Port) : (s.afterFound a).bus p = s.bus p := by
  simp [State.afterFound]
@[simp] theorem State.regAt_afterFound (s : State) (a k : Nat) : (s.afterFound a).regAt k = s.regAt k := rfl

@[simp] theorem run_loadByte (a : Nat) (s : State) : loadByte a s = .ok (s.found a) (s.afterFound a) := rfl

@[simp] theorem State.afterFound_setBus (s : State) (p : Port) (a : Nat) (b : BusState) :
    (s.afterFound a).setBus p b = (s.setBus p b).afterFound a := by
  simp [State.afterFound]

/-- What is found is one of the values. -/
theorem oneOf_mem (ws : List Byte) (v : Byte) (x : Source Bool) : (oneOf ws v x).1 ∈ v :: ws := by
  induction ws generalizing v x with
  | nil => simp [oneOf]
  | cons w ws ih =>
    simp only [oneOf]
    split
    · exact .tail _ (ih w x.advance)
    · exact List.mem_cons.2 ((List.mem_cons.1 (ih v x.advance)).imp_right (.tail _))

/-- Under no race the byte of memory is found, and nothing is drawn. -/
theorem State.found_of_no_race {s : State} {a : Nat} (h : s.raceOf a = []) :
    s.found a = s.mem.read a ∧ s.afterFound a = s := by
  unfold State.found State.afterFound
  rw [h]
  exact ⟨rfl, rfl⟩

@[simp] theorem State.decided_cfg (s : State) : s.decided.cfg = s.cfg := rfl
@[simp] theorem State.decided_instances (s : State) : s.decided.instances = s.instances := rfl
@[simp] theorem State.decided_fsmcEn (s : State) : s.decided.fsmcEn = s.fsmcEn := rfl
@[simp] theorem State.decided_intsOff (s : State) : s.decided.intsOff = s.intsOff := rfl
@[simp] theorem State.decided_entry (s : State) : s.decided.entry = s.entry := rfl
@[simp] theorem State.decided_requests (s : State) : s.decided.requests = s.requests := rfl
@[simp] theorem State.decided_stores (s : State) : s.decided.stores = s.stores := rfl
@[simp] theorem State.decided_threads (s : State) : s.decided.threads = s.threads := rfl
@[simp] theorem State.decided_past (s : State) : s.decided.past = s.past := rfl
@[simp] theorem State.decided_returned (s : State) : s.decided.returned = s.returned := rfl
@[simp] theorem State.decided_ret (s : State) : s.decided.ret = s.ret := rfl
@[simp] theorem State.decided_errval (s : State) : s.decided.errval = s.errval := rfl
@[simp] theorem State.decided_races (s : State) : s.decided.races = s.races.filter fun c => s.owned c.1 := rfl
@[simp] theorem State.decided_bus (s : State) (p : Port) : s.decided.bus p = s.bus p := by
  simp [State.decided]

/-- Where every race is over a byte some transfer still owns, no race ends. -/
theorem State.decided_of_owned {s : State} (h : ∀ c ∈ s.races, s.owned c.1 = true) : s.decided = s := by
  have h1 : s.races.filter (fun c => !s.owned c.1) = [] := by simpa [List.filter_eq_nil_iff] using h
  have h2 : s.races.filter (fun c => s.owned c.1) = s.races := List.filter_eq_self.2 h
  simp only [State.decided, h1, h2, Memory.decided]
  rfl

/-- With no race open none ends. -/
theorem State.decided_of_no_race {s : State} (h : s.races = []) : s.decided = s :=
  State.decided_of_owned (by simp [h])

/-! Buffer bytes. -/

/-- The cursor may be accessed. -/
theorem bufferAccess_run {s : State} {p : Port} (hb : (s.bus p).inBuffer = true)
    (ha : s.hasAddress (s.bus p).ptr = true) : bufferAccess p s = .ok (s.bus p).ptr s := by
  simp [bufferAccess, run_bind, hb, ha]

theorem bufferAccess_inv {s t : State} {p : Port} {a : Nat} (h : bufferAccess p s = .ok a t) :
    (s.bus p).inBuffer = true ∧ s.hasAddress (s.bus p).ptr = true ∧ a = (s.bus p).ptr ∧ t = s := by
  simp only [bufferAccess, bind_ok_iff, ensure_ok_iff, run_lookBus, run_look, run_pure, result_ok_iff] at h
  obtain ⟨_, _, ⟨rfl, rfl⟩, _, _, ⟨hb, rfl⟩, _, _, ⟨rfl, rfl⟩, _, _, ⟨rfl, rfl⟩, _, _, ⟨ha, rfl⟩, rfl, rfl⟩ := h
  exact ⟨hb, ha, rfl, rfl⟩

/-- The Bus State after ReadByte stored a byte. -/
def BusState.stored (b : BusState) (v : Half) : BusState :=
  { (b.record (.rd .dr v)).record (.mwr b.ptr (v.setWidth 8)) with ptr := b.ptr + 1 }

/-- The state after ReadByte. -/
def State.readByteDone (s : State) (p : Port) : State :=
  ((s.setBus p ((s.bus p).stored (s.regAt 0))).withDraws { s.draws with regs := s.draws.regs.advance }).stored (some p)
    (s.bus p).ptr ((s.regAt 0).setWidth 8)

/-- ReadByte: DR read, its low byte stored at the cursor, the cursor moved on by one. -/
theorem readByte_run {s : State} {p : Port} (hc : (s.bus p).plat.clkEn = true) (hb : (s.bus p).inBuffer = true)
    (ha : s.hasAddress (s.bus p).ptr = true) : readByte p s = .ok () (s.readByteDone p) := by
  unfold readByte
  rw [run_bind, regGet_run rfl hc]
  simp only []
  rw [run_bind, bufferAccess_run (by simpa [BusState.inBuffer] using hb) (by simpa [State.hasAddress] using ha)]
  simp [run_bind, State.readByteDone, BusState.stored, State.gotReg]

theorem readByte_inv {s t : State} {p : Port} {u : Unit} (h : readByte p s = .ok u t) :
    (s.bus p).plat.clkEn = true ∧ (s.bus p).inBuffer = true ∧ s.hasAddress (s.bus p).ptr = true ∧
      t = s.readByteDone p := by
  have h0 := h
  simp only [readByte, bind_ok_iff] at h
  obtain ⟨_, _, h1, _, _, h2, -⟩ := h
  obtain ⟨_, hc, rfl, rfl⟩ := regGet_inv h1
  obtain ⟨hb, ha, -, -⟩ := bufferAccess_inv h2
  have hb' : (s.bus p).inBuffer = true := by simpa [BusState.inBuffer] using hb
  have ha' : s.hasAddress (s.bus p).ptr = true := by simpa [State.hasAddress] using ha
  rw [readByte_run hc hb' ha'] at h0
  cases h0
  exact ⟨hc, hb', ha', rfl⟩

/-- The state after WriteByte. -/
def State.writeByteDone (s : State) (p : Port) : State :=
  let a := (s.bus p).ptr
  (s.setBus p { ((s.bus p).record (.mrd a (s.found a))).put .dr ((s.found a).setWidth 16) with ptr := a + 1 }).afterFound a

/-- WriteByte: the byte at the cursor read and written to DR, the cursor moved on by one. -/
theorem writeByte_run {s : State} {p : Port} (hc : (s.bus p).plat.clkEn = true) (hb : (s.bus p).inBuffer = true)
    (ha : s.hasAddress (s.bus p).ptr = true) : writeByte p s = .ok () (s.writeByteDone p) := by
  unfold writeByte
  rw [run_bind, bufferAccess_run hb ha]
  simp only [run_bind, run_loadByte, run_updBus]
  rw [regPut_run rfl (by decide) (by simpa using hc)]
  simp [State.writeByteDone, State.putReg]

theorem writeByte_inv {s t : State} {p : Port} {u : Unit} (h : writeByte p s = .ok u t) :
    (s.bus p).plat.clkEn = true ∧ (s.bus p).inBuffer = true ∧ s.hasAddress (s.bus p).ptr = true ∧
      t = s.writeByteDone p := by
  have h0 := h
  simp only [writeByte, bind_ok_iff, run_loadByte, run_updBus, result_ok_iff] at h
  obtain ⟨_, _, h1, _, _, ⟨rfl, rfl⟩, _, _, ⟨-, rfl⟩, _, _, h2, -⟩ := h
  obtain ⟨hb, ha, rfl, rfl⟩ := bufferAccess_inv h1
  obtain ⟨-, -, hc, -⟩ := regPut_inv h2
  rw [writeByte_run (by simpa using hc) hb ha] at h0
  cases h0
  exact ⟨by simpa using hc, hb, ha, rfl⟩

/-! The state after ReadByte and WriteByte. -/

@[simp] theorem State.readByteDone_cfg (s : State) (p : Port) : (s.readByteDone p).cfg = s.cfg := by
  simp [State.readByteDone]
@[simp] theorem State.readByteDone_instances (s : State) (p : Port) : (s.readByteDone p).instances = s.instances := by
  simp [State.readByteDone]
@[simp] theorem State.readByteDone_fsmcEn (s : State) (p : Port) : (s.readByteDone p).fsmcEn = s.fsmcEn := by
  simp [State.readByteDone]
@[simp] theorem State.readByteDone_intsOff (s : State) (p : Port) : (s.readByteDone p).intsOff = s.intsOff := by
  simp [State.readByteDone]
@[simp] theorem State.readByteDone_entry (s : State) (p : Port) : (s.readByteDone p).entry = s.entry := by
  simp [State.readByteDone]
@[simp] theorem State.readByteDone_requests (s : State) (p : Port) : (s.readByteDone p).requests = s.requests := by
  simp [State.readByteDone]
@[simp] theorem State.readByteDone_stores (s : State) (p : Port) : (s.readByteDone p).stores = s.stores := by
  simp [State.readByteDone]
@[simp] theorem State.readByteDone_threads (s : State) (p : Port) : (s.readByteDone p).threads = s.threads := by
  simp [State.readByteDone]
@[simp] theorem State.readByteDone_past (s : State) (p : Port) : (s.readByteDone p).past = s.past := by
  simp [State.readByteDone]
@[simp] theorem State.readByteDone_returned (s : State) (p : Port) : (s.readByteDone p).returned = s.returned := by
  simp [State.readByteDone]
@[simp] theorem State.readByteDone_ret (s : State) (p : Port) : (s.readByteDone p).ret = s.ret := by
  simp [State.readByteDone]
@[simp] theorem State.readByteDone_errval (s : State) (p : Port) : (s.readByteDone p).errval = s.errval := by
  simp [State.readByteDone]
@[simp] theorem State.writeByteDone_cfg (s : State) (p : Port) : (s.writeByteDone p).cfg = s.cfg := by
  simp [State.writeByteDone]
@[simp] theorem State.writeByteDone_instances (s : State) (p : Port) : (s.writeByteDone p).instances = s.instances := by
  simp [State.writeByteDone]
@[simp] theorem State.writeByteDone_fsmcEn (s : State) (p : Port) : (s.writeByteDone p).fsmcEn = s.fsmcEn := by
  simp [State.writeByteDone]
@[simp] theorem State.writeByteDone_races (s : State) (p : Port) : (s.writeByteDone p).races = s.races := by
  simp [State.writeByteDone]
@[simp] theorem State.writeByteDone_intsOff (s : State) (p : Port) : (s.writeByteDone p).intsOff = s.intsOff := by
  simp [State.writeByteDone]
@[simp] theorem State.writeByteDone_entry (s : State) (p : Port) : (s.writeByteDone p).entry = s.entry := by
  simp [State.writeByteDone]
@[simp] theorem State.writeByteDone_requests (s : State) (p : Port) : (s.writeByteDone p).requests = s.requests := by
  simp [State.writeByteDone]
@[simp] theorem State.writeByteDone_stores (s : State) (p : Port) : (s.writeByteDone p).stores = s.stores := by
  simp [State.writeByteDone]
@[simp] theorem State.writeByteDone_threads (s : State) (p : Port) : (s.writeByteDone p).threads = s.threads := by
  simp [State.writeByteDone]
@[simp] theorem State.writeByteDone_past (s : State) (p : Port) : (s.writeByteDone p).past = s.past := by
  simp [State.writeByteDone]
@[simp] theorem State.writeByteDone_returned (s : State) (p : Port) : (s.writeByteDone p).returned = s.returned := by
  simp [State.writeByteDone]
@[simp] theorem State.writeByteDone_ret (s : State) (p : Port) : (s.writeByteDone p).ret = s.ret := by
  simp [State.writeByteDone]
@[simp] theorem State.writeByteDone_errval (s : State) (p : Port) : (s.writeByteDone p).errval = s.errval := by
  simp [State.writeByteDone]
@[simp] theorem State.writeByteDone_mem (s : State) (p : Port) : (s.writeByteDone p).mem = s.mem := by
  simp [State.writeByteDone]
@[simp] theorem State.readByteDone_mem (s : State) (p : Port) :
    (s.readByteDone p).mem = s.mem.write (s.bus p).ptr ((s.regAt 0).setWidth 8) := by
  simp [State.readByteDone]
@[simp] theorem State.readByteDone_bus (s : State) (p : Port) :
    (s.readByteDone p).bus p = (s.bus p).stored (s.regAt 0) := by
  simp [State.readByteDone]
@[simp] theorem State.readByteDone_bus_of_ne (s : State) {p q : Port} (h : q ≠ p) :
    (s.readByteDone p).bus q = s.bus q := by
  simp [State.readByteDone, h]
@[simp] theorem State.writeByteDone_bus_of_ne (s : State) {p q : Port} (h : q ≠ p) :
    (s.writeByteDone p).bus q = s.bus q := by
  simp [State.writeByteDone, h]
@[simp] theorem State.regAt_readByteDone (s : State) (p : Port) (k : Nat) :
    (s.readByteDone p).regAt k = s.regAt (k + 1) := by
  simp [State.readByteDone, State.regAt, Source.nth]
@[simp] theorem State.regAt_writeByteDone (s : State) (p : Port) (k : Nat) :
    (s.writeByteDone p).regAt k = s.regAt k := by
  simp [State.writeByteDone]
@[simp] theorem BusState.stored_refs (b : BusState) (v : Half) : (b.stored v).refs = b.refs := rfl
@[simp] theorem BusState.stored_faulted (b : BusState) (v : Half) : (b.stored v).faulted = b.faulted := rfl
@[simp] theorem BusState.stored_refused (b : BusState) (v : Half) : (b.stored v).refused = b.refused := rfl
@[simp] theorem BusState.stored_lock (b : BusState) (v : Half) : (b.stored v).lock = b.lock := rfl
@[simp] theorem BusState.stored_sem (b : BusState) (v : Half) : (b.stored v).sem = b.sem := rfl
@[simp] theorem BusState.stored_intstate (b : BusState) (v : Half) : (b.stored v).intstate = b.intstate := rfl
@[simp] theorem BusState.stored_dcnt (b : BusState) (v : Half) : (b.stored v).dcnt = b.dcnt := rfl
@[simp] theorem BusState.stored_msgc (b : BusState) (v : Half) : (b.stored v).msgc = b.msgc := rfl
@[simp] theorem BusState.stored_msgv (b : BusState) (v : Half) : (b.stored v).msgv = b.msgv := rfl
@[simp] theorem BusState.stored_totalMsgLen (b : BusState) (v : Half) : (b.stored v).totalMsgLen = b.totalMsgLen := rfl
@[simp] theorem BusState.stored_flags (b : BusState) (v : Half) : (b.stored v).flags = b.flags := rfl
@[simp] theorem BusState.stored_checkAddrAck (b : BusState) (v : Half) : (b.stored v).checkAddrAck = b.checkAddrAck := rfl
@[simp] theorem BusState.stored_status (b : BusState) (v : Half) : (b.stored v).status = b.status := rfl
@[simp] theorem BusState.stored_curAddr (b : BusState) (v : Half) : (b.stored v).curAddr = b.curAddr := rfl
@[simp] theorem BusState.stored_msgs (b : BusState) (v : Half) : (b.stored v).msgs = b.msgs := rfl
@[simp] theorem BusState.stored_count (b : BusState) (v : Half) : (b.stored v).count = b.count := rfl
@[simp] theorem BusState.stored_trace (b : BusState) (v : Half) : (b.stored v).trace = b.trace := rfl
@[simp] theorem BusState.stored_plat (b : BusState) (v : Half) : (b.stored v).plat = b.plat := rfl
@[simp] theorem BusState.stored_curBuf (b : BusState) (v : Half) : (b.stored v).curBuf = b.curBuf := rfl
@[simp] theorem BusState.stored_deadline (b : BusState) (v : Half) : (b.stored v).deadline = b.deadline := rfl
@[simp] theorem BusState.stored_owning (b : BusState) (v : Half) : (b.stored v).owning = b.owning := rfl
@[simp] theorem BusState.stored_log (b : BusState) (v : Half) : (b.stored v).log = b.log := rfl
@[simp] theorem BusState.stored_regs (b : BusState) (v : Half) : (b.stored v).regs = b.regs := rfl
@[simp] theorem BusState.stored_cr2Written (b : BusState) (v : Half) : (b.stored v).cr2Written = b.cr2Written := rfl
@[simp] theorem BusState.stored_ptr (b : BusState) (v : Half) : (b.stored v).ptr = b.ptr + 1 := rfl
@[simp] theorem BusState.stored_hist (b : BusState) (v : Half) :
    (b.stored v).hist = b.hist ++ [.rd .dr v, .mwr b.ptr (v.setWidth 8)] := by
  simp [BusState.stored]
@[simp] theorem State.writeByteDone_bus_refs (s : State) (p : Port) :
    ((s.writeByteDone p).bus p).refs = (s.bus p).refs := by
  simp [State.writeByteDone]
@[simp] theorem State.writeByteDone_bus_faulted (s : State) (p : Port) :
    ((s.writeByteDone p).bus p).faulted = (s.bus p).faulted := by
  simp [State.writeByteDone]
@[simp] theorem State.writeByteDone_bus_refused (s : State) (p : Port) :
    ((s.writeByteDone p).bus p).refused = (s.bus p).refused := by
  simp [State.writeByteDone]
@[simp] theorem State.writeByteDone_bus_lock (s : State) (p : Port) :
    ((s.writeByteDone p).bus p).lock = (s.bus p).lock := by
  simp [State.writeByteDone]
@[simp] theorem State.writeByteDone_bus_sem (s : State) (p : Port) :
    ((s.writeByteDone p).bus p).sem = (s.bus p).sem := by
  simp [State.writeByteDone]
@[simp] theorem State.writeByteDone_bus_intstate (s : State) (p : Port) :
    ((s.writeByteDone p).bus p).intstate = (s.bus p).intstate := by
  simp [State.writeByteDone]
@[simp] theorem State.writeByteDone_bus_dcnt (s : State) (p : Port) :
    ((s.writeByteDone p).bus p).dcnt = (s.bus p).dcnt := by
  simp [State.writeByteDone]
@[simp] theorem State.writeByteDone_bus_msgc (s : State) (p : Port) :
    ((s.writeByteDone p).bus p).msgc = (s.bus p).msgc := by
  simp [State.writeByteDone]
@[simp] theorem State.writeByteDone_bus_msgv (s : State) (p : Port) :
    ((s.writeByteDone p).bus p).msgv = (s.bus p).msgv := by
  simp [State.writeByteDone]
@[simp] theorem State.writeByteDone_bus_totalMsgLen (s : State) (p : Port) :
    ((s.writeByteDone p).bus p).totalMsgLen = (s.bus p).totalMsgLen := by
  simp [State.writeByteDone]
@[simp] theorem State.writeByteDone_bus_flags (s : State) (p : Port) :
    ((s.writeByteDone p).bus p).flags = (s.bus p).flags := by
  simp [State.writeByteDone]
@[simp] theorem State.writeByteDone_bus_checkAddrAck (s : State) (p : Port) :
    ((s.writeByteDone p).bus p).checkAddrAck = (s.bus p).checkAddrAck := by
  simp [State.writeByteDone]
@[simp] theorem State.writeByteDone_bus_status (s : State) (p : Port) :
    ((s.writeByteDone p).bus p).status = (s.bus p).status := by
  simp [State.writeByteDone]
@[simp] theorem State.writeByteDone_bus_curAddr (s : State) (p : Port) :
    ((s.writeByteDone p).bus p).curAddr = (s.bus p).curAddr := by
  simp [State.writeByteDone]
@[simp] theorem State.writeByteDone_bus_msgs (s : State) (p : Port) :
    ((s.writeByteDone p).bus p).msgs = (s.bus p).msgs := by
  simp [State.writeByteDone]
@[simp] theorem State.writeByteDone_bus_count (s : State) (p : Port) :
    ((s.writeByteDone p).bus p).count = (s.bus p).count := by
  simp [State.writeByteDone]
@[simp] theorem State.writeByteDone_bus_trace (s : State) (p : Port) :
    ((s.writeByteDone p).bus p).trace = (s.bus p).trace := by
  simp [State.writeByteDone]
@[simp] theorem State.writeByteDone_bus_plat (s : State) (p : Port) :
    ((s.writeByteDone p).bus p).plat = (s.bus p).plat := by
  simp [State.writeByteDone]
@[simp] theorem State.writeByteDone_bus_curBuf (s : State) (p : Port) :
    ((s.writeByteDone p).bus p).curBuf = (s.bus p).curBuf := by
  simp [State.writeByteDone]
@[simp] theorem State.writeByteDone_bus_deadline (s : State) (p : Port) :
    ((s.writeByteDone p).bus p).deadline = (s.bus p).deadline := by
  simp [State.writeByteDone]
@[simp] theorem State.writeByteDone_bus_owning (s : State) (p : Port) :
    ((s.writeByteDone p).bus p).owning = (s.bus p).owning := by
  simp [State.writeByteDone]
@[simp] theorem State.writeByteDone_bus_log (s : State) (p : Port) :
    ((s.writeByteDone p).bus p).log = (s.bus p).log := by
  simp [State.writeByteDone]
@[simp] theorem State.writeByteDone_bus_cr2Written (s : State) (p : Port) :
    ((s.writeByteDone p).bus p).cr2Written = (s.bus p).cr2Written := by
  simp [State.writeByteDone]
@[simp] theorem State.writeByteDone_bus_ptr (s : State) (p : Port) :
    ((s.writeByteDone p).bus p).ptr = (s.bus p).ptr + 1 := by
  simp [State.writeByteDone]
@[simp] theorem State.writeByteDone_bus_regs (s : State) (p : Port) :
    ((s.writeByteDone p).bus p).regs = (s.bus p).regs.written .dr ((s.found (s.bus p).ptr).setWidth 16) := by
  simp [State.writeByteDone]
@[simp] theorem State.writeByteDone_bus_hist (s : State) (p : Port) :
    ((s.writeByteDone p).bus p).hist = (s.bus p).hist
      ++ [.mrd (s.bus p).ptr (s.found (s.bus p).ptr), .wr .dr ((s.found (s.bus p).ptr).setWidth 16)] := by
  simp [State.writeByteDone]

/-! Each operation's whole behaviour where it goes on, as one equivalence. -/

theorem regGet_ok_iff {s t : State} {p : Port} {r : Reg} {v : Half} :
    regGet p r s = .ok v t ↔ mapped r = true ∧ (s.bus p).plat.clkEn = true ∧ v = s.regAt 0 ∧ t = s.gotReg p r :=
  ⟨regGet_inv, fun ⟨hm, hc, hv, ht⟩ => by rw [hv, ht]; exact regGet_run hm hc⟩

theorem regPut_ok_iff {s t : State} {p : Port} {r : Reg} {v : Half} {u : Unit} :
    regPut p r v s = .ok u t ↔
      mapped r = true ∧ r ≠ .sr2 ∧ (s.bus p).plat.clkEn = true ∧ t = s.putReg p r v :=
  ⟨regPut_inv, fun ⟨hm, hr, hc, ht⟩ => by rw [ht]; exact regPut_run hm hr hc⟩

theorem regModify_ok_iff {s t : State} {p : Port} {r : Reg} {clr set : Half} {u : Unit} :
    regModify p r clr set s = .ok u t ↔
      isControl r = true ∧ (s.bus p).plat.clkEn = true ∧ t = s.modReg p r clr set :=
  ⟨regModify_inv, fun ⟨hr, hc, ht⟩ => by rw [ht]; exact regModify_run hr hc⟩

theorem readSr2_ok_iff {s t : State} {p : Port} {u : Unit} :
    readSr2 p s = .ok u t ↔ (s.bus p).plat.clkEn = true ∧
      t = (s.gotReg p .sr2).withEntry { s.entry with s := s.entry.s ||| high16 (s.regAt 0) } :=
  ⟨readSr2_inv, fun ⟨hc, ht⟩ => by rw [ht]; exact readSr2_run hc⟩

theorem readByte_ok_iff {s t : State} {p : Port} {u : Unit} :
    readByte p s = .ok u t ↔ (s.bus p).plat.clkEn = true ∧ (s.bus p).inBuffer = true ∧
      s.hasAddress (s.bus p).ptr = true ∧ t = s.readByteDone p :=
  ⟨readByte_inv, fun ⟨hc, hb, ha, ht⟩ => by rw [ht]; exact readByte_run hc hb ha⟩

theorem writeByte_ok_iff {s t : State} {p : Port} {u : Unit} :
    writeByte p s = .ok u t ↔ (s.bus p).plat.clkEn = true ∧ (s.bus p).inBuffer = true ∧
      s.hasAddress (s.bus p).ptr = true ∧ t = s.writeByteDone p :=
  ⟨writeByte_inv, fun ⟨hc, hb, ha, ht⟩ => by rw [ht]; exact writeByte_run hc hb ha⟩

theorem emit_ok_iff {s t : State} {p : Port} {ev : EvName} {x : Int} {u : Unit} :
    emit p ev x s = .ok u t ↔ t = s.emittedEv p ev x := by
  rw [run_emit, result_ok_iff]
  simp

theorem onlyIf_ok_iff {s t : State} {c : Bool} {m : M Unit} {u : Unit} :
    onlyIf c m s = .ok u t ↔ if c then m s = .ok u t else t = s := by
  cases c
  · rw [run_onlyIf_false, result_ok_iff]
    simp
  · simp

/-- An instruction whose meaning goes on to a state with a property answers such a state. -/
theorem finish_next_of_ok {m : M Unit} {s : State} {P : State → Prop} (h : ∃ t, m s = .ok () t ∧ P t) :
    ∃ t, finish m s = .next t ∧ P t := by
  obtain ⟨t, h, k⟩ := h
  exact ⟨t, finish_ok h, k⟩

end Sys2Proof.Machine
end

