-- ==== Sys2Proof/Laws/Schedule.lean ====
section
/-! SUPPORT. How a call runs: its parts in sequence, each action after the point before it, nothing at that point where
nobody else moves; and what a step does around an instruction. -/

namespace Sys2Proof.Machine

variable {α β γ : Type}

/-! Parts of a call. -/

@[simp] theorem Prog.ret_andThen (a : α) (f : α → Prog β) : (Prog.ret a).andThen f = f a := rfl

@[simp] theorem Prog.act_andThen (m : M Ans) (k : Ans → Prog α) (f : α → Prog β) :
    (Prog.act m k).andThen f = .act m fun x => (k x).andThen f := rfl

theorem Prog.andThen_assoc (x : Prog α) (f : α → Prog β) (g : β → Prog γ) :
    (x.andThen f).andThen g = x.andThen fun a => (f a).andThen g := by
  induction x with
  | ret a => rfl
  | act m k ih => simp [ih]

@[simp] theorem Prog.after_nil (x : Prog α) : x.after [] = x := by
  cases x <;> rfl

@[simp] theorem Prog.after_act (m : M Ans) (k : Ans → Prog α) (x : Ans) (xs : List Ans) :
    (Prog.act m k).after (x :: xs) = (k x).after xs := rfl

/-! A call in its steps. -/

@[simp] theorem drive_ret (own : Option Port) (a : α) : drive own (.ret a) = pure a := rfl

theorem drive_act (own : Option Port) (m : M Ans) (k : Ans → Prog α) :
    drive own (.act m k) = (do
      window own
      let x ← m
      remember x
      drive own (k x)) := rfl

/-- A call runs its parts one after the other. -/
theorem drive_andThen (own : Option Port) (x : Prog α) (f : α → Prog β) :
    drive own (x.andThen f) = (drive own x >>= fun a => drive own (f a)) := by
  induction x with
  | ret a => rfl
  | act m k ih => simp [drive_act, ih]

theorem drive_andThen_run (own : Option Port) (x : Prog α) (f : α → Prog β) (s : State) :
    drive own (x.andThen f) s = match drive own x s with
      | .ok a t => drive own (f a) t
      | .error e t => .error e t := by
  rw [drive_andThen]
  cases h : drive own x s <;> simp [run_bind, h]

/-- Where nobody else may move, the point before an action is nothing. -/
theorem window_quiet {s : State} (own : Option Port) (h : othersCanMove s = false) : window own s = .ok () s := by
  simp [window, run_bind, h]

/-- An action where nobody else may move. -/
theorem drive_act_quiet {s : State} (own : Option Port) (m : M Ans) (k : Ans → Prog α) (h : othersCanMove s = false) :
    drive own (.act m k) s = match m s with
      | .ok x t => drive own (k x) (t.withPast (t.past ++ [x]))
      | .error e t => .error e t := by
  rw [drive_act, run_bind, window_quiet own h]
  simp only
  rw [run_bind]
  cases m s <;> rfl

/-- An action that answers nothing, where nobody else may move. -/
theorem drive_do_quiet {s t : State} {m : M Unit} (own : Option Port) (h : othersCanMove s = false)
    (hm : m s = .ok () t) : drive own (act m) s = .ok () (t.withPast (t.past ++ [.unit])) := by
  unfold act
  rw [drive_act_quiet own _ _ h, run_bind, hm]
  rfl

/-- A Get of a thread where nobody else may move. -/
theorem drive_get_quiet {s : State} {p : Port} {r : Reg} (own : Option Port) (h : othersCanMove s = false)
    (hm : mapped r = true) (hc : (s.bus p).plat.clkEn = true) :
    drive own (get p r) s =
      .ok (s.regAt 0) ((s.gotReg p r).withPast ((s.gotReg p r).past ++ [.half (s.regAt 0)])) := by
  unfold get askHalf
  rw [drive_act_quiet own _ _ h, run_bind, regGet_run hm hc]
  rfl

/-- A Put of a thread where nobody else may move. -/
theorem drive_put_quiet {s : State} {p : Port} {r : Reg} {v : Half} (own : Option Port) (h : othersCanMove s = false)
    (hm : mapped r = true) (hr : r ≠ .sr2) (hc : (s.bus p).plat.clkEn = true) :
    drive own (put p r v) s = .ok () ((s.putReg p r v).withPast ((s.putReg p r v).past ++ [.unit])) :=
  drive_do_quiet own h (regPut_run hm hr hc)

/-- A Modify of a thread where nobody else may move. -/
theorem drive_modify_quiet {s : State} {p : Port} {r : Reg} {clr set : Half} (own : Option Port)
    (h : othersCanMove s = false) (hr : isControl r = true) (hc : (s.bus p).plat.clkEn = true) :
    drive own (modify p r clr set) s =
      .ok () ((s.modReg p r clr set).withPast ((s.modReg p r clr set).past ++ [.unit])) :=
  drive_do_quiet own h (regModify_run hr hc)

/-- A change of a port's Bus State by a thread where nobody else may move. -/
theorem drive_write_quiet {s : State} {p : Port} {f : BusState → BusState} (own : Option Port)
    (h : othersCanMove s = false) :
    drive own (write p f) s = .ok () ((s.setBus p (f (s.bus p))).withPast (s.past ++ [.unit])) := by
  rw [show s.past = (s.setBus p (f (s.bus p))).past by simp]
  exact drive_do_quiet own h rfl

/-! Where nobody else moves. -/

@[simp] theorem canEnter_withPast (s : State) (x : List Ans) (p : Port) : canEnter (s.withPast x) p = canEnter s p := by
  simp [canEnter]

@[simp] theorem canEnter_withDraws (s : State) (x : Draws) (p : Port) : canEnter (s.withDraws x) p = canEnter s p := by
  simp [canEnter]

/-- An entry that may start may start with the `interrupts_off` region left. -/
theorem canEnter_withIntsOff_of {s : State} {p : Port} (h : canEnter s p = true) :
    canEnter (s.withIntsOff false) p = true := by
  simp only [canEnter, Bool.and_eq_true, State.withIntsOff_cfg, State.withIntsOff_intsOff, State.withIntsOff_bus,
    Bool.not_false, and_true] at h ⊢
  exact ⟨⟨⟨⟨h.1.1.1.1.1, h.1.1.1.2⟩, h.1.1.2⟩, h.1.2⟩, h.2⟩

theorem Alone.canEnter {s : State} (h : Alone s) (p : Port) : canEnter s p = false := by
  cases k : Sys2Proof.Machine.canEnter s p with
  | false => rfl
  | true => exact absurd (canEnter_withIntsOff_of k) (by simp [h.entries p])

theorem Alone.quiet {s : State} (h : Alone s) : othersCanMove s = false := by
  simp [othersCanMove, anyCanEnter, h.canEnter, h.threads, h.requests, h.stores]

theorem Masked.quiet {s : State} (h : Masked s) : othersCanMove s = false := by
  obtain h | ⟨h, k⟩ := h
  · simp [othersCanMove, h]
  · simp [othersCanMove, anyCanEnter, Sys2Proof.Machine.canEnter, h, k.threads, k.requests, k.stores]

/-! The outcome of a call. -/

/-- A call on an open handle, or on a port. -/
theorem driveCall_of_port {i : Instr} {s : State} {p : Port} (h : s.portOf i = some p) (x : Prog Unit) :
    driveCall i x s = drive (some p) x s := by
  simp [driveCall, run_bind, h]

/-- A call where nobody else may move before its first action. -/
theorem driveCall_quiet {i : Instr} {s : State} (h : othersCanMove s = false) (x : Prog Unit) :
    driveCall i x s = drive (s.portOf i) x s := by
  cases hp : s.portOf i with
  | some p => exact driveCall_of_port hp x
  | none =>
    simp only [driveCall, run_bind, run_look, hp]
    cases x with
    | ret a => rfl
    | act m k =>
      simp only [driveUnopened, run_bind, window_quiet none h, run_look, hp, State.portLive, ensure, if_true, run_pure]
      rw [drive_act_quiet none m k h]
      cases m s <;> rfl

theorem call_ok {i : Instr} {f : Config → Prog Unit} {s t : State} {u : Unit}
    (h : driveCall i (f s.cfg) (s.withPast []) = .ok u t) : call i f s = .next (t.withPast []) := by
  simp [call, h]

theorem call_fault {i : Instr} {f : Config → Prog Unit} {s t : State} {x : Fault}
    (h : driveCall i (f s.cfg) (s.withPast []) = .error (.fault x) t) : call i f s = .fault x := by
  simp [call, h]

theorem call_refused {i : Instr} {f : Config → Prog Unit} {s t : State} {x : Refusal}
    (h : driveCall i (f s.cfg) (s.withPast []) = .error (.refusal x) t) : call i f s = .refused x := by
  simp [call, h]

theorem call_wait {i : Instr} {f : Config → Prog Unit} {s t : State}
    (h : driveCall i (f s.cfg) (s.withPast []) = .error .lockWait t) :
    call i f s = .next ((t.withThreads (t.threads ++ [⟨i, portFound t.past, t.past⟩])).withPast []) := by
  simp [call, h]

/-- A call that goes on ended, or waits for its lock as a thread. -/
theorem call_next_inv {i : Instr} {f : Config → Prog Unit} {s t : State} (h : call i f s = .next t) :
    ∃ u, driveCall i (f s.cfg) (s.withPast []) = .ok () u ∧ t = u.withPast [] ∨
      driveCall i (f s.cfg) (s.withPast []) = .error .lockWait u ∧
        t = (u.withThreads (u.threads ++ [⟨i, portFound u.past, u.past⟩])).withPast [] := by
  unfold call at h
  split at h
  · cases h; exact ⟨_, .inl ⟨‹_›, rfl⟩⟩
  · cases h
  · cases h
  · cases h; exact ⟨_, .inr ⟨‹_›, rfl⟩⟩

/-! Agents beside no instruction never stop it. -/

theorem beside_none (q : Option Port) (m : M Unit) (s : State) : ∃ t, beside none q m s = .ok () t := by
  unfold beside
  split
  · exact ⟨_, rfl⟩
  · cases q <;> simp
  · exact ⟨_, rfl⟩

/-- Only a fault on its own port stops an instruction from beside. -/
theorem beside_error_inv {own q : Option Port} {m : M Unit} {s t : State} {e : Stop} (h : beside own q m s = .error e t) :
    q = own ∧ q.isSome = true ∧ ∃ f, e = .fault f ∧ m s = .error e t := by
  unfold beside at h
  split at h
  · cases h
  · rename_i f u hm
    split at h
    · rename_i hq
      cases h
      simp only [Bool.and_eq_true, beq_iff_eq] at hq
      exact ⟨hq.2, hq.1, f, rfl, hm⟩
    · cases h
  · cases h

theorem moveThread_none (k : Nat) (s : State) : ∃ t, moveThread none k s = .ok () t := by
  simp only [moveThread, run_bind, run_look]
  cases s.threads[k]? with
  | none => exact ⟨_, rfl⟩
  | some x =>
    simp only [run_bind, run_look]
    cases x.next s.cfg with
    | none => exact ⟨_, rfl⟩
    | some n =>
      simp only [run_bind, run_look, run_onlyIf]
      split
      · exact beside_none _ _ _
      · exact ⟨_, rfl⟩

theorem beginCall_ok (s : State) : ∃ t, beginCall s = .ok () t := by
  simp only [beginCall, run_bind, run_look]
  cases s.nextCall <;> exact ⟨_, rfl⟩

/-- A store from outside the block always ends. -/
theorem outsideStore_ok (s : State) : ∃ t, outsideStore s = .ok () t := by
  simp only [outsideStore, run_bind, run_look]
  cases s.stores with
  | nil => exact ⟨_, rfl⟩
  | cons c cs =>
    simp only [run_bind, run_upd, run_look, run_onlyIf]
    split <;> exact ⟨_, rfl⟩

theorem runAgent_none (a : Agent) (s : State) : ∃ t, runAgent none a s = .ok () t := by
  cases a with
  | entry p =>
    simp only [runAgent, run_bind, run_look, run_onlyIf]
    split
    · exact beside_none _ _ _
    · exact ⟨_, rfl⟩
  | thread k => exact moveThread_none k s
  | caller => exact beginCall_ok s
  | store => exact outsideStore_ok s

theorem runAgents_none (as : List Agent) (s : State) : ∃ t, runAgents none as s = .ok () t := by
  induction as generalizing s with
  | nil => exact ⟨s, rfl⟩
  | cons a as ih =>
    obtain ⟨t, ht⟩ := runAgent_none a s
    obtain ⟨u, hu⟩ := ih t
    exact ⟨u, (run_bind_ok ht).trans hu⟩

/-- The point between two requests always ends, in `State.settled`. -/
theorem betweenRequests_ok (s : State) : betweenRequests s = .ok () s.settled := by
  have h : ∃ t, betweenRequests s = .ok () t := by
    simp only [betweenRequests, run_bind, run_look]
    split
    · rw [run_bind]
      exact runAgents_none _ _
    · exact ⟨s, rfl⟩
  obtain ⟨t, h⟩ := h
  simp [State.settled, h]

/-- Everything a step can do: it ends where no request is pending, or it runs, or stops on, the next request. -/
theorem step_next_inv {s t : State} (h : step s = .next t) :
    s.settled.requests = [] ∧ t = s.settled ∨
      ∃ q qs i, s.settled.requests = q :: qs ∧ decodeRequest q = .ok i ∧
        (∀ p, s.settled.portOf i = some p → (s.settled.bus p).live = true) ∧
        exec i (s.settled.withRequests qs) = .next t := by
  unfold step runRequest at h
  split at h
  · cases h; exact .inl ⟨‹_›, rfl⟩
  · rename_i q qs hq
    split at h
    · rename_i i hi
      have hp : (s.settled.withRequests qs).portOf i = s.settled.portOf i := by
        cases i <;> rfl
      unfold execLive at h
      rw [hp] at h
      refine .inr ⟨q, qs, i, hq, hi, ?_⟩
      split at h
      · exact ⟨by simp [*], h⟩
      · rename_i p hp
        simp only [State.withRequests_bus] at h
        split at h
        · refine ⟨fun p' hp' => ?_, h⟩
          rw [hp] at hp'
          cases hp'
          assumption
        · cases h
    · exact absurd h (by unfold rejected; split <;> nofun)

end Sys2Proof.Machine
end

