-- ==== Sys2Proof/Laws/Keeps.lean ====
section
/-! SUPPORT. What any instruction can do, said once. `Keeps R m`: however `m` ends, its start and end states are related by
`R`. `Completes P m`: from a state with `P`, `m` goes on to a state with `P`. Both go through sequences; `exec_keeps` and
`step_keeps` carry a relation that every primitive update respects through every instruction and every step, whoever
moves beside it, and `drive_solo` and `driveCall_solo` do so where no other call is beside a program. -/

namespace Sys2Proof.Machine

variable {α β : Type} {R : State → State → Prop}

/-- The start and end states of a piece are related, however it ends. -/
structure Keeps (R : State → State → Prop) (m : M α) : Prop where
  ok : ∀ {s t a}, m s = .ok a t → R s t
  error : ∀ {s t e}, m s = .error e t → R s t

/-- A reflexive and transitive relation. -/
structure Chain (R : State → State → Prop) : Prop where
  refl : ∀ s, R s s
  trans : ∀ {s t u}, R s t → R t u → R s u

theorem Keeps.pure (h : Chain R) (a : α) : Keeps R (pure a : M α) where
  ok := fun e => by cases e; exact h.refl _
  error := fun e => by cases e

theorem Keeps.bind (h : Chain R) {m : M α} {f : α → M β} (hm : Keeps R m) (hf : ∀ a, Keeps R (f a)) :
    Keeps R (m >>= f) where
  ok := fun e => by
    obtain ⟨a, u, h1, h2⟩ := bind_ok_inv e
    exact h.trans (hm.ok h1) ((hf a).ok h2)
  error := fun e => by
    obtain h1 | ⟨a, u, h1, h2⟩ := bind_error_inv e
    · exact hm.error h1
    · exact h.trans (hm.ok h1) ((hf a).error h2)

theorem Keeps.look (h : Chain R) (f : State → α) : Keeps R (look f) where
  ok := fun e => by cases e; exact h.refl _
  error := fun e => by cases e

/-- A look at the state before a piece: the piece need only be right for what some state shows. -/
theorem Keeps.lookThen {f : State → α} {g : α → M β} (hg : ∀ s, Keeps R (g (f s))) : Keeps R (Machine.look f >>= g) where
  ok := fun {s _ _} e => (hg s).ok e
  error := fun {s _ _} e => (hg s).error e

theorem Keeps.lookBus (h : Chain R) (p : Port) (f : BusState → α) : Keeps R (lookBus p f) := Keeps.look h _

theorem Keeps.upd {f : State → State} (hf : ∀ s, R s (f s)) : Keeps R (upd f) where
  ok := fun e => by cases e; exact hf _
  error := fun e => by cases e

theorem Keeps.updBus {p : Port} {f : BusState → BusState} (hf : ∀ s, R s (s.setBus p (f (s.bus p)))) :
    Keeps R (updBus p f) := Keeps.upd hf

theorem Keeps.raise (h : Chain R) (f : Fault) : Keeps R (raise f : M α) where
  ok := fun e => by cases e
  error := fun e => by cases e; exact h.refl _

theorem Keeps.refuse (h : Chain R) (r : Refusal) : Keeps R (refuse r : M α) where
  ok := fun e => by cases e
  error := fun e => by cases e; exact h.refl _

theorem Keeps.keepWaiting (h : Chain R) : Keeps R (keepWaiting : M α) where
  ok := fun e => by cases e
  error := fun e => by cases e; exact h.refl _

theorem Keeps.ite {c : Prop} [Decidable c] {m k : M α} (hm : Keeps R m) (hk : Keeps R k) :
    Keeps R (if c then m else k) := by
  split <;> assumption

theorem Keeps.onlyIf (h : Chain R) {m : M Unit} (c : Bool) (hm : Keeps R m) : Keeps R (onlyIf c m) :=
  Keeps.ite hm (Keeps.pure h ())

theorem Keeps.ensure (h : Chain R) (c : Bool) (f : Fault) : Keeps R (ensure c f) :=
  Keeps.ite (Keeps.pure h ()) (Keeps.raise h f)

theorem Keeps.require (h : Chain R) (c : Bool) (r : Refusal) : Keeps R (require c r) :=
  Keeps.ite (Keeps.pure h ()) (Keeps.refuse h r)

/-- A relation every update of an action respects: a Bus State may change as long as its history only gets longer and
its `refs` and marks stay; a stop beside an instruction may set a mark. -/
structure Closed (R : State → State → Prop) : Prop extends Chain R where
  draws : ∀ s x, R s (s.withDraws x)
  entry : ∀ s x, R s (s.withEntry x)
  mem : ∀ s a v, R s (s.withMem (s.mem.write a v))
  races : ∀ s x, R s (s.withRaces x)
  fsmc : ∀ s x, R s (s.withFsmc x)
  intsOff : ∀ s x, R s (s.withIntsOff x)
  instances : ∀ s x, R s (s.withInstances x)
  past : ∀ s x, R s (s.withPast x)
  ret : ∀ s x, R s (s.withRet x)
  errval : ∀ s x, R s (s.withErrval x)
  bus : ∀ s p b, (s.bus p).hist <+: b.hist → b.refs = (s.bus p).refs → b.faulted = (s.bus p).faulted →
    b.refused = (s.bus p).refused → R s (s.setBus p b)
  stopped : ∀ s e p, R s (s.stopped e p)

/-- A closed relation that also respects what agents beside an instruction change: the threads, the pending calls and
stores, what calls returned, and `refs`. -/
structure Scheduled (R : State → State → Prop) : Prop extends Closed R where
  threads : ∀ s x, R s (s.withThreads x)
  requests : ∀ s x, R s (s.withRequests x)
  stores : ∀ s x, R s (s.withStores x)
  returned : ∀ s x, R s (s.withReturned x)
  refs : ∀ s p n, R s (s.setBus p { s.bus p with refs := n })

namespace Closed

variable (h : Closed R)
include h

theorem updBus {p : Port} {f : BusState → BusState} (hh : ∀ b, b.hist <+: (f b).hist) (hr : ∀ b, (f b).refs = b.refs)
    (hf : ∀ b, (f b).faulted = b.faulted) (hq : ∀ b, (f b).refused = b.refused) : Keeps R (updBus p f) :=
  Keeps.updBus fun s => h.bus s p _ (hh _) (hr _) (hf _) (hq _)

/-- An update that leaves the history, `refs` and the marks as they are. -/
theorem updBusSame {p : Port} {f : BusState → BusState}
    (hs : ∀ b, (f b).hist = b.hist ∧ (f b).refs = b.refs ∧ (f b).faulted = b.faulted ∧ (f b).refused = b.refused) :
    Keeps R (Sys2Proof.Machine.updBus p f) :=
  h.updBus (fun b => by rw [(hs b).1]) (fun b => (hs b).2.1) (fun b => (hs b).2.2.1) fun b => (hs b).2.2.2

theorem record (p : Port) (e : Event) : Keeps R (Sys2Proof.Machine.updBus p (·.record e)) :=
  h.updBus (fun b => by simp) (fun _ => rfl) (fun _ => rfl) fun _ => rfl

/-- A store, race or not. -/
theorem stored (s : State) (w : Option Port) (a : Nat) (v : Byte) : R s (s.stored w a v) := by
  unfold State.stored
  split
  · exact h.trans (h.races _ _) (h.mem _ _ _)
  · exact h.mem _ _ _

theorem decidedMem (s : State) (cs : List Host.Cell) (x : Source Bool) : R s (s.withMem (s.mem.decided cs x).1) := by
  induction cs generalizing s x with
  | nil => exact h.refl s
  | cons c cs ih =>
    simp only [Memory.decided]
    split
    · exact h.trans (h.mem s c.1 c.2) (ih (s.withMem (s.mem.write c.1 c.2)) _)
    · exact ih s _

/-- The end of races. -/
theorem decided (s : State) : R s s.decided :=
  h.trans (h.decidedMem s _ _) (h.trans (h.draws _ _) (h.races _ _))

theorem loadByte (a : Nat) : Keeps R (loadByte a) where
  ok := fun e => by cases e; exact h.draws _ _
  error := fun e => by cases e

theorem drawReg : Keeps R drawReg where
  ok := fun e => by cases e; exact h.draws _ _
  error := fun e => by cases e

theorem drawPin : Keeps R drawPin where
  ok := fun e => by cases e; exact h.draws _ _
  error := fun e => by cases e

theorem drawWait : Keeps R drawWait where
  ok := fun e => by cases e; exact h.draws _ _
  error := fun e => by cases e

theorem drawTurns : Keeps R drawTurns where
  ok := fun e => by cases e; exact h.draws _ _
  error := fun e => by cases e

theorem drawSignal : Keeps R drawSignal where
  ok := fun e => by cases e; exact h.draws _ _
  error := fun e => by cases e

theorem drawTime : Keeps R drawTime where
  ok := fun e => by cases e; exact h.draws _ _
  error := fun e => by cases e

theorem look (f : State → α) : Keeps R (Sys2Proof.Machine.look f) := Keeps.look h.toChain f

theorem lookBus (p : Port) (f : BusState → α) : Keeps R (Sys2Proof.Machine.lookBus p f) := Keeps.lookBus h.toChain p f

theorem pure (a : α) : Keeps R (pure a : M α) := Keeps.pure h.toChain a

theorem bind {m : M α} {f : α → M β} (hm : Keeps R m) (hf : ∀ a, Keeps R (f a)) : Keeps R (m >>= f) :=
  Keeps.bind h.toChain hm hf

theorem ensure (c : Bool) (f : Fault) : Keeps R (Sys2Proof.Machine.ensure c f) := Keeps.ensure h.toChain c f

theorem require (c : Bool) (r : Refusal) : Keeps R (Sys2Proof.Machine.require c r) := Keeps.require h.toChain c r

theorem onlyIf {m : M Unit} (c : Bool) (hm : Keeps R m) : Keeps R (Sys2Proof.Machine.onlyIf c m) :=
  Keeps.onlyIf h.toChain c hm

theorem regGet (p : Port) (r : Reg) : Keeps R (regGet p r) :=
  h.bind (h.ensure _ _) fun _ => h.bind (h.lookBus _ _) fun _ => h.bind (h.ensure _ _) fun _ =>
    h.bind h.drawReg fun _ => h.bind (h.record _ _) fun _ => h.pure _

theorem regPut (p : Port) (r : Reg) (v : Half) : Keeps R (regPut p r v) :=
  h.bind (h.ensure _ _) fun _ => h.bind (h.ensure _ _) fun _ => h.bind (h.lookBus _ _) fun _ =>
    h.bind (h.ensure _ _) fun _ => h.updBus (fun b => by simp) (fun _ => rfl) (fun _ => rfl) fun _ => rfl

theorem regModify (p : Port) (r : Reg) (clr set : Half) : Keeps R (regModify p r clr set) :=
  h.bind (h.ensure _ _) fun _ => h.bind (h.ensure _ _) fun _ => h.bind (h.regGet _ _) fun _ => h.regPut _ _ _

theorem setCr1 (p : Port) (i : BitLayout → Fin 16) : Keeps R (setCr1 p i) :=
  h.bind (h.look _) fun _ => h.regModify _ _ _ _

theorem clrCr1 (p : Port) (i : BitLayout → Fin 16) : Keeps R (clrCr1 p i) :=
  h.bind (h.look _) fun _ => h.regModify _ _ _ _

theorem setItbufen (p : Port) : Keeps R (setItbufen p) := h.bind (h.look _) fun _ => h.regModify _ _ _ _

theorem disableAll (p : Port) : Keeps R (disableAll p) := h.bind (h.look _) fun _ => h.regModify _ _ _ _

theorem whenTracing {m : M Unit} (hm : Keeps R m) : Keeps R (whenTracing m) :=
  h.bind (h.look _) fun _ => h.onlyIf _ hm

theorem emit (p : Port) (ev : EvName) (x : Int) : Keeps R (emit p ev x) :=
  h.whenTracing (h.updBus (fun b => by simp) (fun _ => rfl) (fun _ => rfl) fun _ => rfl)

theorem sample (p : Port) (w : Word32) : Keeps R (sample p w) := by
  refine h.bind (h.lookBus _ _) fun t => h.bind (h.look _) fun cap => Keeps.ite ?_ (Keeps.ite ?_ (Keeps.ite ?_ ?_))
  · exact h.bind h.drawTime fun _ => h.updBusSame fun _ => ⟨rfl, rfl, rfl, rfl⟩
  · exact h.updBusSame fun _ => ⟨rfl, rfl, rfl, rfl⟩
  · exact h.updBusSame fun _ => ⟨rfl, rfl, rfl, rfl⟩
  · exact h.bind h.drawTime fun _ => h.updBusSame fun _ => ⟨rfl, rfl, rfl, rfl⟩

theorem traceSample (p : Port) (w : Word32) : Keeps R (traceSample p w) := h.whenTracing (h.sample p w)

theorem traceReset (p : Port) : Keeps R (traceReset p) :=
  h.whenTracing (h.bind h.drawTime fun _ => h.updBusSame fun _ => ⟨rfl, rfl, rfl, rfl⟩)

theorem traceDump (p : Port) : Keeps R (traceDump p) := h.whenTracing (h.updBusSame fun _ => ⟨rfl, rfl, rfl, rfl⟩)

theorem readSr2 (p : Port) : Keeps R (readSr2 p) := h.bind (h.regGet _ _) fun _ => Keeps.upd fun _ => h.entry _ _

theorem nextMessage (p : Port) : Keeps R (nextMessage p) := by
  refine h.bind (h.lookBus _ _) fun o => ?_
  cases o
  · exact Keeps.raise h.toChain _
  · exact h.pure _

theorem bufferAccess (p : Port) : Keeps R (bufferAccess p) :=
  h.bind (h.lookBus _ _) fun _ => h.bind (h.ensure _ _) fun _ => h.bind (h.lookBus _ _) fun _ =>
    h.bind (h.look _) fun _ => h.bind (h.ensure _ _) fun _ => h.pure _

theorem readByte (p : Port) : Keeps R (readByte p) :=
  h.bind (h.regGet _ _) fun _ => h.bind (h.bufferAccess _) fun _ => h.bind (Keeps.upd fun _ => h.stored _ _ _ _) fun _ =>
    h.bind (h.record _ _) fun _ => h.updBusSame fun _ => ⟨rfl, rfl, rfl, rfl⟩

theorem writeByte (p : Port) : Keeps R (writeByte p) :=
  h.bind (h.bufferAccess _) fun _ => h.bind (h.loadByte _) fun _ => h.bind (h.record _ _) fun _ =>
    h.bind (h.regPut _ _ _) fun _ => h.updBusSame fun _ => ⟨rfl, rfl, rfl, rfl⟩

/-- Every engine sub-case. -/
theorem runSubcase (c : Subcase) : Keeps R (runSubcase c) := by
  have fields {p : Port} {f : BusState → BusState}
      (hs : ∀ b, (f b).hist = b.hist ∧ (f b).refs = b.refs ∧ (f b).faulted = b.faulted ∧ (f b).refused = b.refused) :
      Keeps R (Sys2Proof.Machine.updBus p f) := h.updBusSame hs
  have port : Keeps R entryPort := h.look _
  have policy (p : Port) (n : Nat) (read : Bool) : Keeps R (ackPosPolicy p n read) :=
    Keeps.ite (h.bind (h.clrCr1 _ _) fun _ => h.clrCr1 _ _)
      (Keeps.ite (h.bind (h.setCr1 _ _) fun _ => h.setCr1 _ _) (h.bind (h.clrCr1 _ _) fun _ => h.setCr1 _ _))
  have preamble (p : Port) : Keeps R (writePreamble p) :=
    h.bind (h.look _) fun _ => h.bind (h.look _) fun _ =>
      Keeps.ite (h.bind (h.readSr2 _) fun _ => fields fun _ => ⟨rfl, rfl, rfl, rfl⟩) (h.pure _)
  have final (p : Port) : Keeps R (finalPair p) :=
    h.bind (h.setCr1 _ _) fun _ => h.bind (h.readByte _) fun _ => h.bind (h.readByte _) fun _ =>
      fields fun _ => ⟨rfl, rfl, rfl, rfl⟩
  have cap (p : Port) : Keeps R (capture p) := h.bind (h.look _) fun _ => fields fun _ => ⟨rfl, rfl, rfl, rfl⟩
  cases c
  · exact h.bind port fun _ => h.bind (h.nextMessage _) fun _ => h.bind (h.look _) fun _ => h.bind (h.require _ _) fun _ =>
      h.bind (fields fun _ => ⟨rfl, rfl, rfl, rfl⟩) fun _ => h.emit _ _ _
  · exact h.bind port fun _ => h.bind (h.lookBus _ _) fun _ => h.bind (policy _ _ _) fun _ => h.bind (h.regPut _ _ _) fun _ =>
      h.bind (fields fun _ => ⟨rfl, rfl, rfl, rfl⟩) fun _ => h.emit _ _ _
  · exact h.bind port fun _ => h.bind (fields fun _ => ⟨rfl, rfl, rfl, rfl⟩) fun _ => h.bind (h.setItbufen _) fun _ => h.emit _ _ _
  · exact h.bind port fun _ => h.bind (fields fun _ => ⟨rfl, rfl, rfl, rfl⟩) fun _ => h.bind (h.setCr1 _ _) fun _ => h.emit _ _ _
  · exact h.bind port fun _ => h.bind (h.setItbufen _) fun _ => h.bind (h.readSr2 _) fun _ => h.bind (h.setCr1 _ _) fun _ =>
      h.bind (fields fun _ => ⟨rfl, rfl, rfl, rfl⟩) fun _ => h.emit _ _ _
  · exact h.bind port fun _ => h.bind (h.clrCr1 _ _) fun _ => h.bind (h.readSr2 _) fun _ =>
      h.bind (fields fun _ => ⟨rfl, rfl, rfl, rfl⟩) fun _ => h.emit _ _ _
  · exact h.bind port fun _ => h.bind (h.readSr2 _) fun _ => h.bind (fields fun _ => ⟨rfl, rfl, rfl, rfl⟩) fun _ =>
      h.bind (h.lookBus _ _) fun _ => h.emit _ _ _
  · exact h.bind port fun _ => h.bind (preamble _) fun _ => h.bind (h.writeByte _) fun _ =>
      h.bind (fields fun _ => ⟨rfl, rfl, rfl, rfl⟩) fun _ => h.bind (h.lookBus _ _) fun _ => h.emit _ _ _
  · exact h.bind port fun _ => h.bind (preamble _) fun _ => h.bind (h.setCr1 _ _) fun _ =>
      h.bind (fields fun _ => ⟨rfl, rfl, rfl, rfl⟩) fun _ => h.emit _ _ _
  · exact h.bind port fun _ => h.bind (preamble _) fun _ => h.bind (h.setCr1 _ _) fun _ =>
      h.bind (fields fun _ => ⟨rfl, rfl, rfl, rfl⟩) fun _ => h.emit _ _ _
  · exact h.bind port fun _ => h.bind (preamble _) fun _ => h.bind (fields fun _ => ⟨rfl, rfl, rfl, rfl⟩) fun _ => h.emit _ _ _
  · exact h.bind port fun _ => h.bind (preamble _) fun _ => h.bind (h.nextMessage _) fun _ => h.emit _ _ _
  · exact h.bind port fun _ => h.bind (preamble _) fun _ => h.emit _ _ _
  · exact h.bind port fun _ => h.bind (h.readByte _) fun _ => h.bind (fields fun _ => ⟨rfl, rfl, rfl, rfl⟩) fun _ =>
      h.bind (h.emit _ _ _) fun _ => h.readSr2 _
  · exact h.bind port fun _ => h.bind (h.emit _ _ _) fun _ => h.readSr2 _
  · exact h.bind port fun _ => h.bind (final _) fun _ => h.bind (h.emit _ _ _) fun _ => h.readSr2 _
  · exact h.bind port fun _ => h.bind (h.lookBus _ _) fun _ => h.bind (h.emit _ _ _) fun _ => h.readSr2 _
  · exact h.bind port fun _ => h.bind (h.readByte _) fun _ => h.bind (fields fun _ => ⟨rfl, rfl, rfl, rfl⟩) fun _ =>
      h.bind (h.lookBus _ _) fun _ => h.bind (h.emit _ _ _) fun _ => h.readSr2 _
  · exact h.bind port fun _ => h.bind (h.clrCr1 _ _) fun _ => h.bind (h.readByte _) fun _ =>
      h.bind (fields fun _ => ⟨rfl, rfl, rfl, rfl⟩) fun _ => h.bind (h.emit _ _ _) fun _ => h.readSr2 _
  · exact h.bind port fun _ => h.bind (final _) fun _ => h.bind (h.emit _ _ _) fun _ => h.readSr2 _
  · exact h.bind port fun _ => h.bind (h.lookBus _ _) fun _ => h.bind (h.emit _ _ _) fun _ =>
      h.bind (fields fun _ => ⟨rfl, rfl, rfl, rfl⟩) fun _ => h.readSr2 _
  · exact h.bind port fun _ => h.emit _ _ _
  · exact h.bind port fun _ => h.emit _ _ _
  · exact h.bind port fun _ => h.bind (h.look _) fun _ => h.bind (h.emit _ _ _) fun _ => fields fun _ => ⟨rfl, rfl, rfl, rfl⟩
  · exact h.bind port fun _ => h.bind (cap _) fun _ => h.bind (fields fun _ => ⟨rfl, rfl, rfl, rfl⟩) fun _ => h.emit _ _ _
  · refine h.bind port fun _ => h.bind (cap _) fun _ => h.bind (h.disableAll _) fun _ => h.bind (fields ?_) fun _ => h.emit _ _ _
    intro b; unfold BusState.signalled; split <;> exact ⟨rfl, rfl, rfl, rfl⟩

theorem currentSelector (p : Port) (sr1 : Half) : Keeps R (currentSelector p sr1) := by
  refine h.bind (h.look _) fun c => h.bind (h.lookBus _ _) fun o => ?_
  cases o
  · exact Keeps.raise h.toChain _
  · exact h.bind (h.ensure _ _) fun _ => h.pure _

theorem branchOf (w : Selector) : Keeps R (branchOf w) := by
  unfold Sys2Proof.Machine.branchOf
  split
  · exact h.pure _
  · exact Keeps.raise h.toChain _

theorem prelude (p : Port) (sr1 : Half) : Keeps R (prelude p sr1) :=
  h.bind (h.currentSelector _ _) fun _ => h.onlyIf _ (h.runSubcase .advance)

theorem terminal (p : Port) (sr1 : Half) : Keeps R (terminal p sr1) := by
  refine h.bind (h.currentSelector _ _) fun w => ?_
  split
  · exact h.runSubcase _
  · exact h.pure _

/-- A whole engine entry. -/
theorem engineEntry (p : Port) : Keeps R (engineEntry p) :=
  h.bind (h.regGet _ _) fun _ => h.bind (Keeps.upd fun _ => h.entry _ _) fun _ => h.bind (h.traceSample _ _) fun _ =>
    h.bind (h.prelude _ _) fun _ => h.bind (h.currentSelector _ _) fun _ => h.bind (h.branchOf _) fun _ =>
    h.bind (h.runSubcase _) fun _ => h.bind (h.onlyIf _ (h.terminal _ _)) fun _ => Keeps.upd fun _ => h.entry _ _

/-! The single pieces of calls. -/

theorem tryAcquire (p : Port) (d : Nat) : Keeps R (tryAcquire p d) :=
  h.bind (h.lookBus _ _) fun _ =>
    Keeps.ite (h.bind (h.updBusSame fun _ => ⟨rfl, rfl, rfl, rfl⟩) fun _ => h.pure _)
      (h.bind h.drawSignal fun _ => Keeps.ite (h.pure _) (Keeps.keepWaiting h.toChain))

theorem tryAcquireRestart (p : Port) (d : Nat) : Keeps R (tryAcquireRestart p d) :=
  h.bind (h.lookBus _ _) fun _ =>
    Keeps.ite (h.updBusSame fun _ => ⟨rfl, rfl, rfl, rfl⟩) (Keeps.keepWaiting h.toChain)

theorem getInst (d : Nat) : Keeps R (getInst d) := by
  refine h.bind (h.look _) fun o => ?_
  cases o
  · exact Keeps.refuse h.toChain _
  · exact h.pure _

theorem updInst (d : Nat) (f : Inst → Inst) : Keeps R (updInst d f) := Keeps.upd fun _ => h.instances _ _

theorem freeInst (d : Nat) : Keeps R (freeInst d) := Keeps.upd fun _ => h.instances _ _

theorem answer (x : Int) : Keeps R (answer x) := Keeps.upd fun _ => h.ret _ _

theorem conclude (c : Config) (e : ErrVal) : Keeps R (conclude c e) :=
  h.bind (Keeps.upd fun _ => h.errval _ _) fun _ => h.answer _

theorem polledRound (p : Port) : Keeps R (polledRound p) :=
  h.bind (h.engineEntry _) fun _ => h.bind (h.lookBus _ _) fun _ => h.pure _

theorem takeOrSignal (p : Port) : Keeps R (takeOrSignal p) :=
  h.bind (h.lookBus _ _) fun _ =>
    Keeps.ite (h.bind (h.updBusSame fun _ => ⟨rfl, rfl, rfl, rfl⟩) fun _ => h.pure _) (h.pure _)

theorem expire (p : Port) : Keeps R (expire p) :=
  h.bind (h.lookBus _ _) fun _ =>
    Keeps.ite (h.bind (h.updBusSame fun _ => ⟨rfl, rfl, rfl, rfl⟩) fun _ => h.pure _)
      (h.bind (h.updBusSame fun _ => ⟨rfl, rfl, rfl, rfl⟩) fun _ => h.pure _)

theorem saveFsmc : Keeps R saveFsmc :=
  h.bind (h.look _) fun _ => h.bind (Keeps.upd fun _ => h.fsmc _ _) fun _ => h.pure _

theorem setIntsOff (x : Bool) : Keeps R (setIntsOff x) := Keeps.upd fun _ => h.intsOff _ _

theorem openInst (p : Port) : Keeps R (openInst p) where
  ok := fun e => by cases e; exact h.instances _ _
  error := fun e => by cases e

theorem uninitTests (d : Nat) : Keeps R (uninitTests d) := by
  refine h.bind (h.look _) fun o => ?_
  cases o
  · exact Keeps.refuse h.toChain _
  · exact h.bind (h.lookBus _ _) fun _ => h.bind (h.require _ _) fun _ => h.bind (h.require _ _) fun _ => h.pure _

theorem readPin (p : Port) (l : Line) : Keeps R (readPin p l) :=
  h.bind h.drawPin fun _ => h.bind (h.record _ _) fun _ => h.pure _

end Closed

/-! Programs of which every action keeps a relation. -/

/-- Every action of a program, whatever the ones before it were answered, has a property. -/
inductive Prog.All (P : M Ans → Prop) : Prog α → Prop where
  | ret (a : α) : Prog.All P (.ret a)
  | act {m : M Ans} {k : Ans → Prog α} (hm : P m) (hk : ∀ x, Prog.All P (k x)) : Prog.All P (.act m k)

theorem Prog.All.andThen {P : M Ans → Prop} {x : Prog α} {f : α → Prog β} (hx : x.All P) (hf : ∀ a, (f a).All P) :
    (x.andThen f).All P := by
  induction hx with
  | ret a => exact hf a
  | act hm _ ih => exact .act hm ih

theorem Prog.All.after {P : M Ans → Prop} {x : Prog α} (hx : x.All P) (xs : List Ans) : (x.after xs).All P := by
  induction xs generalizing x with
  | nil => simpa using hx
  | cons y ys ih =>
    cases hx with
    | ret a => exact .ret a
    | act _ hk => exact ih (hk y)

theorem Prog.All.ite {P : M Ans → Prop} {c : Prop} [Decidable c] {x y : Prog α} (hx : x.All P) (hy : y.All P) :
    (if c then x else y).All P := by
  split <;> assumption

theorem Prog.All.onlyIf {P : M Ans → Prop} {x : Prog Unit} (c : Bool) (hx : x.All P) : (Prog.onlyIf c x).All P :=
  .ite hx (.ret ())

/-- A program with no other agent between its actions keeps what each action keeps. -/
theorem Prog.All.direct (h : Chain R) {x : Prog α} (hx : x.All (Keeps R)) : Keeps R x.direct := by
  induction hx with
  | ret a => exact Keeps.pure h a
  | act hm _ ih => exact Keeps.bind h hm ih

namespace Closed

variable (h : Closed R)
include h

theorem act {m : M Unit} (hm : Keeps R m) : (Sys2Proof.Machine.act m).All (Keeps R) :=
  .act (h.bind hm fun _ => h.pure _) fun _ => .ret _

theorem askHalf {m : M Half} (hm : Keeps R m) : (Sys2Proof.Machine.askHalf m).All (Keeps R) :=
  .act (h.bind hm fun _ => h.pure _) fun _ => .ret _

theorem askFlag {m : M Bool} (hm : Keeps R m) : (Sys2Proof.Machine.askFlag m).All (Keeps R) :=
  .act (h.bind hm fun _ => h.pure _) fun _ => .ret _

theorem askNum {m : M Nat} (hm : Keeps R m) : (Sys2Proof.Machine.askNum m).All (Keeps R) :=
  .act (h.bind hm fun _ => h.pure _) fun _ => .ret _

theorem askWord {m : M Word32} (hm : Keeps R m) : (Sys2Proof.Machine.askWord m).All (Keeps R) :=
  .act (h.bind hm fun _ => h.pure _) fun _ => .ret _

theorem askInst {m : M Inst} (hm : Keeps R m) : (Sys2Proof.Machine.askInst m).All (Keeps R) :=
  .act (h.bind hm fun _ => h.pure _) fun _ => .ret _

theorem get (p : Port) (r : Reg) : (get p r).All (Keeps R) := h.askHalf (h.regGet _ _)

theorem put (p : Port) (r : Reg) (v : Half) : (put p r v).All (Keeps R) := h.act (h.regPut _ _ _)

theorem modify (p : Port) (r : Reg) (clr set : Half) : (modify p r clr set).All (Keeps R) :=
  h.act (h.regModify _ _ _ _)

/-- A change of a Bus State that leaves the history, `refs` and the marks as they are. -/
theorem write (p : Port) (f : BusState → BusState)
    (hs : ∀ b, (f b).hist = b.hist ∧ (f b).refs = b.refs ∧ (f b).faulted = b.faulted ∧ (f b).refused = b.refused
      := by exact fun _ => ⟨rfl, rfl, rfl, rfl⟩) :
    (write p f).All (Keeps R) := h.act (h.updBusSame hs)

theorem offered (c : Bool) (r : Refusal) {x : Prog Unit} (hx : x.All (Keeps R)) : (Sys2Proof.Machine.offered c r x).All (Keeps R) :=
  .ite hx (h.act (Keeps.refuse h.toChain _))

theorem demand (c : Bool) (r : Refusal) : (demand c r).All (Keeps R) := .ite (.ret _) (h.act (Keeps.refuse h.toChain _))

theorem theInst (d : Nat) : (theInst d).All (Keeps R) := h.askInst (h.getInst d)

theorem acquire (p : Port) (d : Nat) : (acquire p d).All (Keeps R) := h.askFlag (h.tryAcquire p d)

theorem acquireRestart (p : Port) (d : Nat) : (acquireRestart p d).All (Keeps R) := h.act (h.tryAcquireRestart p d)

theorem releaseAndReturn (p : Port) (x : Int) : (releaseAndReturn p x).All (Keeps R) :=
  h.act (h.bind (h.updBusSame fun _ => ⟨rfl, rfl, rfl, rfl⟩) fun _ => h.answer _)

theorem returnInterrupted (c : Config) : (returnInterrupted c).All (Keeps R) := h.act (h.answer _)

theorem clkProgram (c : Config) (p : Port) (fp ft : Nat) : (clkProgram c p fp ft).All (Keeps R) := by
  refine (h.get _ _).andThen fun v => (h.put _ _ _).andThen fun _ => ?_
  split
  · exact h.act (Keeps.refuse h.toChain _)
  · exact (h.put _ _ _).andThen fun _ => (h.put _ _ _).andThen fun _ => (h.put _ _ _).andThen fun _ => h.put _ _ _

theorem setFrequency (c : Config) (d f : Nat) : (setFrequency c d f).All (Keeps R) :=
  (h.theInst _).andThen fun _ => (h.acquireRestart _ _).andThen fun _ => (h.act (h.updInst _ _)).andThen fun _ =>
    h.releaseAndReturn _ _

theorem startWait (c : Config) (p : Port) (msgs : List Message) : (startWait c p msgs).All (Keeps R) :=
  h.askNum (h.bind (h.updBusSame fun _ => ⟨rfl, rfl, rfl, rfl⟩) fun _ => h.drawWait)

theorem settleLoop (c : Config) (p : Port) (n : Nat) : (settleLoop c p n).All (Keeps R) := by
  induction n with
  | zero =>
    exact (h.get _ _).andThen fun _ => .ite ((h.get _ _).andThen fun _ => .ite (.ret _) (h.act (h.emit _ _ _))) (.ret _)
  | succ n ih => exact (h.get _ _).andThen fun _ => .ite ((h.get _ _).andThen fun _ => .ite (.ret _) ih) (.ret _)

theorem stopSettle (c : Config) (p : Port) (msgs : List Message) : (stopSettle c p msgs).All (Keeps R) :=
  (h.startWait _ _ _).andThen fun _ => h.settleLoop _ _ _

theorem clrStartStopPec (c : Config) (p : Port) : (clrStartStopPec c p).All (Keeps R) := h.modify _ _ _ _

theorem polledLoop (p : Port) (n : Nat) : (polledLoop p n).All (Keeps R) := by
  induction n with
  | zero => exact h.askFlag (h.polledRound p)
  | succ n ih => exact (h.askFlag (h.polledRound p)).andThen fun _ => .ite (.ret _) ih

theorem takeLoop (p : Port) (n : Nat) : (takeLoop p n).All (Keeps R) := by
  induction n with
  | zero => exact h.askFlag (h.expire p)
  | succ n ih =>
    exact (h.askFlag (h.takeOrSignal p)).andThen fun _ =>
      .ite ((h.askFlag (h.lookBus _ _)).andThen fun _ => .ite (.ret _) ih) ih

theorem openWait (c : Config) (p : Port) : (openWait c p).All (Keeps R) :=
  (h.write _ _).andThen fun _ => h.modify _ _ _ _

theorem waitInterrupt (c : Config) (p : Port) (msgs : List Message) : (waitInterrupt c p msgs).All (Keeps R) :=
  (h.startWait _ _ _).andThen fun _ => (h.openWait _ _).andThen fun _ => (h.takeLoop _ _).andThen fun _ =>
    (h.modify _ _ _ _).andThen fun _ => .ret _

theorem waitPolled (c : Config) (p : Port) (msgs : List Message) : (waitPolled c p msgs).All (Keeps R) :=
  (h.startWait _ _ _).andThen fun _ => h.polledLoop _ _

theorem completionWait (c : Config) (p : Port) (msgs : List Message) : (completionWait c p msgs).All (Keeps R) := by
  have hw : (modeWait c p msgs).All (Keeps R) := by
    unfold modeWait
    cases c.mode
    · exact h.waitPolled _ _ _
    · exact h.waitInterrupt _ _ _
  exact hw.andThen fun _ => (h.write _ _).andThen fun _ => .ret _

theorem timeoutStatus (c : Config) (p : Port) : (timeoutStatus c p).All (Keeps R) :=
  (h.get _ _).andThen fun _ => (h.get _ _).andThen fun _ => (h.clrStartStopPec _ _).andThen fun _ =>
    (Prog.All.onlyIf _ (h.modify _ _ _ _)).andThen fun _ => .ret _

theorem transferResult (c : Config) (p : Port) (ok : Bool) : (transferResult c p ok).All (Keeps R) :=
  .ite ((h.askWord (h.lookBus _ _)).andThen fun _ => .ret _) ((h.timeoutStatus _ _).andThen fun _ => .ret _)

theorem startTransfer (c : Config) (d : Nat) (x : Inst) (msgs : List Message) (settle : Bool) :
    (startTransfer c d x msgs settle).All (Keeps R) :=
  (Prog.All.onlyIf _ (h.stopSettle _ _ _)).andThen fun _ => (h.put _ _ _).andThen fun _ =>
    (h.clrStartStopPec _ _).andThen fun _ => (h.write _ _).andThen fun _ =>
    (h.act (h.traceReset _)).andThen fun _ => (h.askNum (h.look _)).andThen fun _ =>
    (h.clkProgram _ _ _ _).andThen fun _ => (h.write _ _).andThen fun _ => h.modify _ _ _ _

theorem openFsmc (active : Bool) : (openFsmc active).All (Keeps R) := .ite (h.askFlag h.saveFsmc) (.ret _)

theorem closeFsmc (c : Config) (p : Port) (msgs : List Message) (active saved : Bool) :
    (closeFsmc c p msgs active saved).All (Keeps R) :=
  .onlyIf _ ((h.stopSettle _ _ _).andThen fun _ => h.act (Keeps.upd fun _ => h.fsmc _ _))

theorem closeTransfer (c : Config) (p : Port) (e : ErrVal) : (closeTransfer c p e).All (Keeps R) :=
  (h.act (h.traceDump _)).andThen fun _ =>
    h.act (h.bind (h.updBusSame fun _ => ⟨rfl, rfl, rfl, rfl⟩) fun _ => h.bind (Keeps.upd fun _ => h.decided _) fun _ =>
      h.conclude _ _)

theorem runTransfer (c : Config) (d : Nat) (x : Inst) (msgs : List Message) :
    (runTransfer c d x msgs).All (Keeps R) :=
  (h.openFsmc _).andThen fun _ => (h.startTransfer _ _ _ _ _).andThen fun _ => (h.completionWait _ _ _).andThen fun _ =>
    (h.transferResult _ _ _).andThen fun _ => (h.closeFsmc _ _ _ _ _).andThen fun _ => h.closeTransfer _ _ _

theorem process (c : Config) (d : Nat) (x : Inst) (msgs : List Message) : (process c d x msgs).All (Keeps R) :=
  h.offered _ _ <| (h.acquire _ _).andThen fun _ =>
    .ite (h.runTransfer _ _ _ _) (h.returnInterrupted _)

theorem opProcess (c : Config) (d : Nat) (msgs : List Message) : (opProcess c d msgs).All (Keeps R) :=
  (h.theInst _).andThen fun _ => h.process _ _ _ _

theorem setAddress (c : Config) (d a n : Nat) : (setAddress c d a n).All (Keeps R) :=
  (h.theInst _).andThen fun _ => (h.acquire _ _).andThen fun _ =>
    .ite ((h.act (h.updInst _ _)).andThen fun _ => h.releaseAndReturn _ _) (h.returnInterrupted _)

theorem lifeUp (c : Config) (p : Port) : (lifeUp c p).All (Keeps R) :=
  (h.write _ _).andThen fun _ => (h.write _ _).andThen fun _ =>
    (h.write _ _).andThen fun _ =>
    (Prog.All.onlyIf _ (h.write _ _)).andThen fun _ => (h.demand _ _).andThen fun _ =>
    (h.put _ _ _).andThen fun _ => (h.clkProgram _ _ _ _).andThen fun _ => h.modify _ _ _ _

theorem lifeDown (p : Port) : (lifeDown p).All (Keeps R) :=
  (h.put _ _ _).andThen fun _ => (h.write _ _).andThen fun _ =>
    (h.write _ _).andThen fun _ => h.write _ _

theorem drivePin (p : Port) (l : Line) (v : Bool) : (drivePin p l v).All (Keeps R) := by
  refine h.act (h.updBus (fun b => ?_) (fun b => ?_) (fun b => ?_) fun b => ?_) <;> cases l <;> simp [BusState.driven]

theorem delay (p : Port) : (delay p).All (Keeps R) := h.act (h.record _ _)

theorem driveHalf (p : Port) (l : Line) (v : Bool) : (driveHalf p l v).All (Keeps R) :=
  (h.drivePin _ _ _).andThen fun _ => h.delay _

theorem stretchLoop (p : Port) (n : Nat) : (stretchLoop p n).All (Keeps R) := by
  induction n with
  | zero => exact (h.askFlag (h.readPin _ _)).andThen fun _ => .ret _
  | succ n ih =>
    exact (h.askFlag (h.readPin _ _)).andThen fun _ => .ite (.ret _) ((h.delay _).andThen fun _ => ih)

theorem sclPulse (p : Port) : (sclPulse p).All (Keeps R) :=
  (h.stretchLoop _ _).andThen fun _ => (h.driveHalf _ _ _).andThen fun _ => h.driveHalf _ _ _

theorem pulseLoop (p : Port) (n : Nat) : (pulseLoop p n).All (Keeps R) := by
  induction n with
  | zero => exact (h.askFlag (h.readPin _ _)).andThen fun _ => .ret _
  | succ n ih =>
    exact (h.askFlag (h.readPin _ _)).andThen fun _ => .ite (.ret _) ((h.sclPulse _).andThen fun _ => ih)

theorem manualStartStop (p : Port) : (manualStartStop p).All (Keeps R) :=
  (h.driveHalf _ _ _).andThen fun _ => (h.driveHalf _ _ _).andThen fun _ => (h.driveHalf _ _ _).andThen fun _ =>
    h.driveHalf _ _ _

theorem recoverBus (c : Config) (p : Port) : (recoverBus c p).All (Keeps R) :=
  (h.lifeDown _).andThen fun _ => (h.write _ _).andThen fun _ =>
    (h.drivePin _ _ _).andThen fun _ => (h.pulseLoop _ _).andThen fun _ => (h.manualStartStop _).andThen fun _ =>
    (h.write _ _).andThen fun _ => h.lifeUp _ _

theorem opReset (c : Config) (d : Nat) : (opReset c d).All (Keeps R) :=
  h.offered _ _ <| (h.theInst _).andThen fun _ => (h.acquire _ _).andThen fun _ =>
    .ite ((h.recoverBus _ _).andThen fun _ => h.releaseAndReturn _ _) (h.returnInterrupted _)

theorem opWrite (c : Config) (d b n : Nat) : (opWrite c d b n).All (Keeps R) :=
  (h.theInst _).andThen fun _ => h.process _ _ _ _

theorem opRead (c : Config) (d b n : Nat) : (opRead c d b n).All (Keeps R) :=
  (h.theInst _).andThen fun _ => h.process _ _ _ _

/-- Every program of a host operation but those that count references. -/
theorem programOf {c : Config} {i : Instr} {x : Prog Unit} (hi : ∀ p, i ≠ .opInit p) (hu : ∀ d, i ≠ .opUninit d)
    (e : programOf c i = some x) : x.All (Keeps R) := by
  cases i <;> simp only [Sys2Proof.Machine.programOf, Option.some.injEq, reduceCtorEq] at e <;> subst e
  case opInit p => exact absurd rfl (hi p)
  case opUninit d => exact absurd rfl (hu d)
  case opReset => exact h.opReset _ _
  case opSetfrequency => exact h.setFrequency _ _ _
  case opSetaddress => exact h.setAddress _ _ _ _
  case opWrite => exact h.opWrite _ _ _ _
  case opRead => exact h.opRead _ _ _ _
  case opTransfer => exact h.offered _ _ (h.opProcess _ _ _)
  case opProcess => exact h.opProcess _ _ _

/-! Where no other call is beside a program. -/

theorem beside (own q : Option Port) {m : M Unit} (hm : Keeps R m) : Keeps R (beside own q m) where
  ok := fun {s t a} e => by
    unfold Sys2Proof.Machine.beside at e
    split at e
    · cases e; exact hm.ok ‹_›
    · split at e
      · cases e
      · cases e; exact h.trans (hm.error ‹_›) (h.stopped _ _ _)
    · cases e; exact h.trans (hm.error ‹_›) (h.stopped _ _ _)
  error := fun {s t x} e => by
    unfold Sys2Proof.Machine.beside at e
    split at e
    · cases e
    · split at e
      · cases e; exact hm.error ‹_›
      · cases e
    · cases e

theorem remember (x : Ans) : Keeps R (remember x) := Keeps.upd fun _ => h.past _ _

/-- An IRQ's move. -/
theorem entryMove (own : Option Port) (p : Port) : Keeps R (runAgent own (.entry p)) :=
  h.bind (h.look _) fun _ => h.onlyIf _ (h.beside _ _ (h.engineEntry _))

end Closed

/-- The threads and the pending calls and stores are the same: a closed relation, because no action of a call changes them. -/
def SameCalls (s t : State) : Prop := t.threads = s.threads ∧ t.requests = s.requests ∧ t.stores = s.stores

theorem closed_sameCalls : Closed SameCalls where
  refl := fun _ => ⟨rfl, rfl, rfl⟩
  trans := fun h k => ⟨k.1.trans h.1, k.2.1.trans h.2.1, k.2.2.trans h.2.2⟩
  draws := fun _ _ => ⟨rfl, rfl, rfl⟩
  entry := fun _ _ => ⟨rfl, rfl, rfl⟩
  mem := fun _ _ _ => ⟨rfl, rfl, rfl⟩
  races := fun _ _ => ⟨rfl, rfl, rfl⟩
  fsmc := fun _ _ => ⟨rfl, rfl, rfl⟩
  intsOff := fun _ _ => ⟨rfl, rfl, rfl⟩
  instances := fun _ _ => ⟨rfl, rfl, rfl⟩
  past := fun _ _ => ⟨rfl, rfl, rfl⟩
  ret := fun _ _ => ⟨rfl, rfl, rfl⟩
  errval := fun _ _ => ⟨rfl, rfl, rfl⟩
  bus := fun _ _ _ _ _ _ _ => ⟨by simp, by simp, by simp⟩
  stopped := fun _ _ p => by cases p <;> exact ⟨by simp [State.stopped], by simp [State.stopped], by simp [State.stopped]⟩

theorem Closed.and {Q : State → State → Prop} (h : Closed R) (k : Closed Q) : Closed fun s t => R s t ∧ Q s t where
  refl := fun s => ⟨h.refl s, k.refl s⟩
  trans := fun x y => ⟨h.trans x.1 y.1, k.trans x.2 y.2⟩
  draws := fun s x => ⟨h.draws s x, k.draws s x⟩
  entry := fun s x => ⟨h.entry s x, k.entry s x⟩
  mem := fun s a v => ⟨h.mem s a v, k.mem s a v⟩
  races := fun s x => ⟨h.races s x, k.races s x⟩
  fsmc := fun s x => ⟨h.fsmc s x, k.fsmc s x⟩
  intsOff := fun s x => ⟨h.intsOff s x, k.intsOff s x⟩
  instances := fun s x => ⟨h.instances s x, k.instances s x⟩
  past := fun s x => ⟨h.past s x, k.past s x⟩
  ret := fun s x => ⟨h.ret s x, k.ret s x⟩
  errval := fun s x => ⟨h.errval s x, k.errval s x⟩
  bus := fun s p b x y z w => ⟨h.bus s p b x y z w, k.bus s p b x y z w⟩
  stopped := fun s e p => ⟨h.stopped s e p, k.stopped s e p⟩

/-- Where no other call is beside it, a move of an agent is an entry's, or nothing. -/
theorem runAgent_solo (h : Closed R) {own : Option Port} {a : Agent} {s : State} (hs : Solo s) :
    (∀ {t u}, runAgent own a s = .ok u t → R s t ∧ Solo t) ∧ ∀ {t e}, runAgent own a s = .error e t → R s t := by
  have hk := h.and closed_sameCalls
  have solo {t : State} (k : SameCalls s t) : Solo t := ⟨k.1.trans hs.threads, k.2.1.trans hs.requests, k.2.2.trans hs.stores⟩
  cases a with
  | entry p =>
    refine ⟨fun e => ?_, fun e => ((hk.entryMove own p).error e).1⟩
    exact ⟨((hk.entryMove own p).ok e).1, solo ((hk.entryMove own p).ok e).2⟩
  | thread k =>
    have e0 : runAgent own (.thread k) s = .ok () s := by
      simp [runAgent, moveThread, run_bind, hs.threads]
    rw [e0]
    exact ⟨fun e => by cases e; exact ⟨h.refl _, hs⟩, fun e => by cases e⟩
  | caller =>
    have e0 : runAgent own .caller s = .ok () s := by
      simp [runAgent, beginCall, run_bind, State.nextCall, hs.requests]
    rw [e0]
    exact ⟨fun e => by cases e; exact ⟨h.refl _, hs⟩, fun e => by cases e⟩
  | store =>
    have e0 : runAgent own .store s = .ok () s := by
      simp [runAgent, outsideStore, run_bind, hs.stores]
    rw [e0]
    exact ⟨fun e => by cases e; exact ⟨h.refl _, hs⟩, fun e => by cases e⟩

theorem runAgents_solo (h : Closed R) {own : Option Port} {as : List Agent} {s : State} (hs : Solo s) :
    (∀ {t u}, runAgents own as s = .ok u t → R s t ∧ Solo t) ∧ ∀ {t e}, runAgents own as s = .error e t → R s t := by
  induction as generalizing s with
  | nil => exact ⟨fun e => by cases e; exact ⟨h.refl _, hs⟩, fun e => by cases e⟩
  | cons a as ih =>
    refine ⟨fun e => ?_, fun e => ?_⟩
    · obtain ⟨_, u, h1, h2⟩ := bind_ok_inv e
      obtain ⟨r1, s1⟩ := (runAgent_solo h hs).1 h1
      obtain ⟨r2, s2⟩ := (ih s1).1 h2
      exact ⟨h.trans r1 r2, s2⟩
    · obtain h1 | ⟨_, u, h1, h2⟩ := bind_error_inv e
      · exact (runAgent_solo h hs).2 h1
      · obtain ⟨r1, s1⟩ := (runAgent_solo h hs).1 h1
        exact h.trans r1 ((ih s1).2 h2)

theorem window_solo (h : Closed R) {own : Option Port} {s : State} (hs : Solo s) :
    (∀ {t u}, window own s = .ok u t → R s t ∧ Solo t) ∧ ∀ {t e}, window own s = .error e t → R s t := by
  simp only [window, run_bind, run_look]
  split
  · simp only [run_bind, run_drawTurns]
    have s1 : Solo (s.withDraws { s.draws with turns := s.draws.turns.advance }) := ⟨hs.threads, hs.requests, hs.stores⟩
    refine ⟨fun e => ?_, fun e => h.trans (h.draws _ _) ((runAgents_solo h s1).2 e)⟩
    obtain ⟨r, k⟩ := (runAgents_solo h s1).1 e
    exact ⟨h.trans (h.draws _ _) r, k⟩
  · exact ⟨fun e => by cases e; exact ⟨h.refl _, hs⟩, fun e => by cases e⟩

/-- A program whose actions keep every closed relation keeps it through a whole run with no other call beside it. -/
theorem drive_solo (h : Closed R) {own : Option Port} {x : Prog α} (hx : ∀ {Q}, Closed Q → x.All (Keeps Q))
    {s : State} (hs : Solo s) :
    (∀ {t a}, drive own x s = .ok a t → R s t ∧ Solo t) ∧
      ∀ {t e}, drive own x s = .error e t → R s t := by
  have hk := h.and closed_sameCalls
  have all := hx hk
  clear hx
  induction x generalizing s with
  | ret a => exact ⟨fun e => by cases e; exact ⟨h.refl _, hs⟩, fun e => by cases e⟩
  | act m k ih =>
    cases all with
    | act hm hr =>
      have solo {t u : State} (i : Solo t) (j : SameCalls t u) : Solo u :=
        ⟨j.1.trans i.threads, j.2.1.trans i.requests, j.2.2.trans i.stores⟩
      rw [drive_act]
      refine ⟨fun e => ?_, fun e => ?_⟩
      · obtain ⟨_, u, h1, e⟩ := bind_ok_inv e
        obtain ⟨y, v, h2, e⟩ := bind_ok_inv e
        obtain ⟨_, w, h3, e⟩ := bind_ok_inv e
        obtain ⟨r1, s1⟩ := (window_solo h hs).1 h1
        obtain ⟨r2, k2⟩ := hm.ok h2
        obtain ⟨r3, k3⟩ := (hk.remember y).ok h3
        obtain ⟨r4, s4⟩ := (ih y (solo (solo s1 k2) k3) (hr y)).1 e
        exact ⟨h.trans r1 (h.trans r2 (h.trans r3 r4)), s4⟩
      · obtain h1 | ⟨_, u, h1, e⟩ := bind_error_inv e
        · exact (window_solo h hs).2 h1
        · obtain ⟨r1, s1⟩ := (window_solo h hs).1 h1
          obtain h2 | ⟨y, v, h2, e⟩ := bind_error_inv e
          · exact h.trans r1 (hm.error h2).1
          · obtain ⟨r2, k2⟩ := hm.ok h2
            obtain h3 | ⟨_, w, h3, e⟩ := bind_error_inv e
            · cases h3
            · obtain ⟨r3, k3⟩ := (hk.remember y).ok h3
              exact h.trans r1 (h.trans r2 (h.trans r3 ((ih y (solo (solo s1 k2) k3) (hr y)).2 e)))

/-- The same for a call, whether or not its handle is open. -/
theorem driveCall_solo (h : Closed R) {i : Instr} {x : Prog Unit} (hx : ∀ {Q}, Closed Q → x.All (Keeps Q)) {s : State}
    (hs : Solo s) :
    (∀ {t a}, driveCall i x s = .ok a t → R s t ∧ Solo t) ∧ ∀ {t e}, driveCall i x s = .error e t → R s t := by
  cases hp : s.portOf i with
  | some p => rw [driveCall_of_port hp]; exact drive_solo h hx hs
  | none =>
    simp only [driveCall, run_bind, run_look, hp]
    cases x with
    | ret a => exact ⟨fun e => by cases e; exact ⟨h.refl _, hs⟩, fun e => by cases e⟩
    | act m k =>
      have first {Q : State → State → Prop} (hq : Closed Q) : Keeps Q m := by
        cases hx hq
        assumption
      have rest {Q : State → State → Prop} (hq : Closed Q) (y : Ans) : (k y).All (Keeps Q) := by
        cases hx hq
        rename_i _ hr
        exact hr y
      have hk := h.and closed_sameCalls
      have solo {t u : State} (i : Solo t) (j : SameCalls t u) : Solo u :=
        ⟨j.1.trans i.threads, j.2.1.trans i.requests, j.2.2.trans i.stores⟩
      unfold driveUnopened
      refine ⟨fun e => ?_, fun e => ?_⟩
      · obtain ⟨_, u, h1, e⟩ := bind_ok_inv e
        obtain ⟨r1, s1⟩ := (window_solo h hs).1 h1
        obtain ⟨_, v, h2, e⟩ := bind_ok_inv e
        cases h2
        obtain ⟨_, v, h2, e⟩ := bind_ok_inv e
        cases h2
        obtain ⟨_, v, h2, e⟩ := bind_ok_inv e
        obtain ⟨r2, k2⟩ := (hk.ensure _ _).ok h2
        obtain ⟨y, w, h3, e⟩ := bind_ok_inv e
        obtain ⟨r3, k3⟩ := (first hk).ok h3
        obtain ⟨_, w', h4, e⟩ := bind_ok_inv e
        obtain ⟨r4, k4⟩ := (hk.remember y).ok h4
        obtain ⟨r5, s5⟩ := (drive_solo h (fun hq => rest hq y) (solo (solo (solo s1 k2) k3) k4)).1 e
        exact ⟨h.trans r1 (h.trans r2 (h.trans r3 (h.trans r4 r5))), s5⟩
      · obtain h1 | ⟨_, u, h1, e⟩ := bind_error_inv e
        · exact (window_solo h hs).2 h1
        obtain ⟨r1, s1⟩ := (window_solo h hs).1 h1
        refine h.trans r1 ?_
        obtain h2 | ⟨_, v, h2, e⟩ := bind_error_inv e
        · cases h2
        cases h2
        obtain h2 | ⟨_, v, h2, e⟩ := bind_error_inv e
        · cases h2
        cases h2
        obtain h2 | ⟨_, v, h2, e⟩ := bind_error_inv e
        · exact ((hk.ensure _ _).error h2).1
        obtain ⟨r2, k2⟩ := (hk.ensure _ _).ok h2
        obtain h3 | ⟨y, w, h3, e⟩ := bind_error_inv e
        · exact h.trans r2 ((first hk).error h3).1
        obtain ⟨r3, k3⟩ := (first hk).ok h3
        obtain h4 | ⟨_, w', h4, e⟩ := bind_error_inv e
        · cases h4
        obtain ⟨r4, k4⟩ := (hk.remember y).ok h4
        exact h.trans r2 (h.trans r3 (h.trans r4
          ((drive_solo h (fun hq => rest hq y) (solo (solo (solo s1 k2) k3) k4)).2 e)))

/-- A piece that keeps the relation keeps it as an instruction. -/
theorem Keeps.finish {m : M Unit} (hm : Keeps R m) {s t : State} (e : finish m s = .next t) : R s t := by
  obtain k | k := finish_next_inv e
  · exact hm.ok k
  · exact hm.error k

/-! Whoever moves. -/

namespace Scheduled

variable (h : Scheduled R)
include h

theorem openPort (c : Config) (p : Port) : Keeps R (openPort c p) :=
  h.bind (h.setIntsOff _) fun _ => h.bind (h.lookBus _ _) fun _ =>
    h.bind (h.onlyIf _ (Prog.All.direct h.toChain (h.lifeUp _ _))) fun _ =>
    h.bind (Keeps.updBus fun _ => h.refs _ _ _) fun _ => h.bind (h.setIntsOff _) fun _ =>
    h.bind (h.openInst _) fun _ => h.answer _

theorem closePort (p : Port) : Keeps R (closePort p) :=
  h.bind (h.lookBus _ _) fun _ => h.bind (h.require _ _) fun _ => h.bind (h.setIntsOff _) fun _ =>
    h.bind (Keeps.updBus fun _ => h.refs _ _ _) fun _ => h.bind (h.lookBus _ _) fun _ =>
    h.bind (h.onlyIf _ (Prog.All.direct h.toChain (h.lifeDown _))) fun _ => h.setIntsOff _

theorem opInit (c : Config) (p : Port) : (opInit c p).All (Keeps R) :=
  h.offered _ _ (h.act (h.openPort _ _))

theorem opUninit (d : Nat) : (opUninit d).All (Keeps R) :=
  (h.askInst (h.uninitTests _)).andThen fun _ => (h.act (h.closePort _)).andThen fun _ =>
    h.act (h.bind (h.freeInst _) fun _ => h.answer _)

/-- Every program of a host operation. -/
theorem programOf {c : Config} {i : Instr} {x : Prog Unit} (e : programOf c i = some x) : x.All (Keeps R) := by
  by_cases hi : ∃ p, i = .opInit p
  · obtain ⟨p, rfl⟩ := hi
    cases e
    exact h.opInit c p
  · by_cases hu : ∃ d, i = .opUninit d
    · obtain ⟨d, rfl⟩ := hu
      cases e
      exact h.opUninit d
    · exact h.toClosed.programOf (fun p k => hi ⟨p, k⟩) (fun d k => hu ⟨d, k⟩) e

/-- What a refused call gives back. -/
theorem givenBack (s : State) (x : Thread) : R s (s.givenBack x) := by
  have hb : ∀ p, R s (s.setBus p (s.bus p).released).decided := fun p =>
    h.trans (h.bus s p (s.bus p).released (List.prefix_refl _) rfl rfl rfl) (h.decided _)
  unfold State.givenBack
  split
  · exact h.trans (hb _) (h.fsmc _ _)
  · exact hb _
  · exact h.refl s

theorem threadAction (k : Nat) (x : Thread) {m : M Ans} (rest : Ans → Prog Unit) (hm : Keeps R m) :
    Keeps R (threadAction k x m rest) where
  ok := fun {s t a} e => by
    unfold Sys2Proof.Machine.threadAction at e
    split at e
    · cases e
      refine h.trans (hm.ok ‹_›) ?_
      unfold State.answered
      split
      · exact h.trans (h.threads _ _) (h.returned _ _)
      · exact h.threads _ _
    · cases e; exact hm.error ‹_›
    · cases e
    · cases e
  error := fun {s t a} e => by
    unfold Sys2Proof.Machine.threadAction at e
    split at e
    · cases e
    · cases e
    · cases e; exact h.trans (hm.error ‹_›) (h.threads _ _)
    · cases e; exact h.trans (hm.error ‹_›) (h.trans (h.givenBack _ x) (h.trans (h.threads _ _) (h.returned _ _)))

/-- A thread's next action is one of its call's program. -/
theorem threadNext {c : Config} {x : Thread} {m : M Ans} {k : Ans → Prog Unit} (e : x.next c = some (m, k)) :
    Keeps R m := by
  unfold Thread.next at e
  split at e
  · cases e
  · rename_i f hf
    have ha := (h.programOf hf).after x.past
    split at e
    · cases e
      rename_i hm
      rw [hm] at ha
      cases ha
      assumption
    · cases e

theorem moveThread (own : Option Port) (k : Nat) : Keeps R (moveThread own k) := by
  refine h.bind (h.look _) fun o => ?_
  cases o with
  | none => exact h.pure _
  | some x =>
    refine Keeps.lookThen fun s => ?_
    cases hn : x.next s.cfg with
    | none => exact h.pure _
    | some n =>
      exact h.bind (h.look _) fun p => h.bind (h.look _) fun _ =>
        h.onlyIf _ (h.beside own p (h.threadAction k x n.2 (h.threadNext hn)))

theorem beginCall : Keeps R beginCall := by
  refine h.bind (h.look _) fun o => ?_
  cases o with
  | none => exact h.pure _
  | some n => exact Keeps.upd fun _ => h.trans (h.requests _ _) (h.threads _ _)

theorem outsideStore : Keeps R outsideStore := by
  refine h.bind (h.look _) fun o => ?_
  cases o with
  | nil => exact h.pure _
  | cons c cs =>
    exact h.bind (Keeps.upd fun _ => h.stores _ _) fun _ => h.bind (h.look _) fun _ =>
      h.onlyIf _ (Keeps.upd fun _ => h.stored _ _ _ _)

theorem runAgent (own : Option Port) (a : Agent) : Keeps R (runAgent own a) := by
  cases a with
  | entry p => exact h.entryMove own p
  | thread k => exact h.moveThread own k
  | caller => exact h.beginCall
  | store => exact h.outsideStore

theorem runAgents (own : Option Port) (as : List Agent) : Keeps R (runAgents own as) := by
  induction as with
  | nil => exact h.pure _
  | cons a as ih => exact h.bind (h.runAgent own a) fun _ => ih

theorem window (own : Option Port) : Keeps R (window own) :=
  h.bind (h.look _) fun _ => Keeps.ite (h.bind h.drawTurns fun _ => h.runAgents own _) (h.pure _)

/-- A program, whoever moves between its actions. -/
theorem drive (own : Option Port) {x : Prog α} (hx : x.All (Keeps R)) : Keeps R (drive own x) := by
  induction hx with
  | ret a => exact h.pure a
  | act hm _ ih =>
    exact h.bind (h.window own) fun _ => h.bind hm fun y => h.bind (h.remember y) fun _ => ih y

theorem driveUnopened (i : Instr) {x : Prog Unit} (hx : x.All (Keeps R)) : Keeps R (driveUnopened i x) := by
  cases hx with
  | ret a => exact h.pure a
  | act hm hk =>
    exact h.bind (h.window none) fun _ => h.bind (h.look _) fun _ => h.bind (h.look _) fun _ =>
      h.bind (h.ensure _ _) fun _ => h.bind hm fun y => h.bind (h.remember y) fun _ => h.drive _ (hk y)

theorem driveCall (i : Instr) {x : Prog Unit} (hx : x.All (Keeps R)) : Keeps R (driveCall i x) := by
  refine h.bind (h.look _) fun o => ?_
  cases o with
  | none => exact h.driveUnopened i hx
  | some p => exact h.drive _ hx

theorem call {i : Instr} {f : Config → Prog Unit} (hx : ∀ c, (f c).All (Keeps R)) {s t : State}
    (e : call i f s = .next t) : R s t := by
  obtain ⟨u, ⟨k, rfl⟩ | ⟨k, rfl⟩⟩ := call_next_inv e
  · exact h.trans (h.past _ _) (h.trans ((h.driveCall _ (hx _)).ok k) (h.past _ _))
  · exact h.trans (h.past _ _) (h.trans ((h.driveCall _ (hx _)).error k) (h.trans (h.threads _ _) (h.past _ _)))

/-- Every instruction keeps the relation. -/
theorem exec_keeps {i : Instr} {s t : State} (e : exec i s = .next t) : R s t := by
  cases i with
  | engAdvance => exact Keeps.finish (h.runSubcase .advance) e
  | engSbAddr => exact Keeps.finish (h.runSubcase .sbAddr) e
  | engSbEmpty => exact Keeps.finish (h.runSubcase .sbEmpty) e
  | engAddrNack => exact Keeps.finish (h.runSubcase .addrNack) e
  | engRaddr1 => exact Keeps.finish (h.runSubcase .raddr1) e
  | engRaddr2 => exact Keeps.finish (h.runSubcase .raddr2) e
  | engRaddrN => exact Keeps.finish (h.runSubcase .raddrN) e
  | engWByte => exact Keeps.finish (h.runSubcase .wByte) e
  | engWStop => exact Keeps.finish (h.runSubcase .wStop) e
  | engWRestart => exact Keeps.finish (h.runSubcase .wRestart) e
  | engWNorestart => exact Keeps.finish (h.runSubcase .wNorestart) e
  | engWFlagerr => exact Keeps.finish (h.runSubcase .wFlagerr) e
  | engWNone => exact Keeps.finish (h.runSubcase .wNone) e
  | engR1Last => exact Keeps.finish (h.runSubcase .r1Last) e
  | engR2Wait => exact Keeps.finish (h.runSubcase .r2Wait) e
  | engR2Final => exact Keeps.finish (h.runSubcase .r2Final) e
  | engRnWait => exact Keeps.finish (h.runSubcase .rnWait) e
  | engRnByte => exact Keeps.finish (h.runSubcase .rnByte) e
  | engRnNackprep => exact Keeps.finish (h.runSubcase .rnNackprep) e
  | engRnFinal => exact Keeps.finish (h.runSubcase .rnFinal) e
  | engRErr => exact Keeps.finish (h.runSubcase .rErr) e
  | engEmptyTerm => exact Keeps.finish (h.runSubcase .emptyTerm) e
  | engFallbackPoll => exact Keeps.finish (h.runSubcase .fallbackPoll) e
  | engFallbackInt => exact Keeps.finish (h.runSubcase .fallbackInt) e
  | engTermPoll => exact Keeps.finish (h.runSubcase .termPoll) e
  | engTermInt => exact Keeps.finish (h.runSubcase .termInt) e
  | regGet p r => exact Keeps.finish (h.bind (h.regGet p r) fun _ => h.answer _) e
  | regPut p r v => exact Keeps.finish (h.regPut p r v) e
  | regModify p r c v => exact Keeps.finish (h.regModify p r c v) e
  | traceSample p w => exact Keeps.finish (h.traceSample p w) e
  | traceEvent p ev x => exact Keeps.finish (h.emit p ev x) e
  | traceReset p => exact Keeps.finish (h.traceReset p) e
  | traceDump p => exact Keeps.finish (h.traceDump p) e
  | engEntry p => exact Keeps.finish (h.engineEntry p) e
  | opInit p => exact h.call (fun _ => h.opInit _ _) e
  | opUninit d => exact h.call (fun _ => h.opUninit _) e
  | opReset d => exact h.call (fun _ => h.opReset _ _) e
  | opSetfrequency d f => exact h.call (fun _ => h.setFrequency _ _ _) e
  | opSetaddress d a n => exact h.call (fun _ => h.setAddress _ _ _ _) e
  | opWrite d b n => exact h.call (fun _ => h.opWrite _ _ _ _) e
  | opRead d b n => exact h.call (fun _ => h.opRead _ _ _ _) e
  | opTransfer d ms => exact h.call (fun _ => h.offered _ _ (h.opProcess _ _ _)) e
  | opProcess d ms => exact h.call (fun _ => h.opProcess _ _ _) e
  | clkProgram p fp ft => exact h.call (fun _ => h.clkProgram _ _ _ _) e
  | errClassify x k => exact Keeps.finish (h.bind (h.look _) fun _ => h.conclude _ _ : Keeps R (errClassify x k)) e
  | lifeUp p => exact h.call (fun _ => h.lifeUp _ _) e
  | lifeDown p => exact h.call (fun _ => h.lifeDown _) e

theorem settled_keeps (s : State) : R s s.settled :=
  (h.bind (h.look _) fun _ => Keeps.ite (h.bind h.drawTurns fun _ => h.runAgents _ _) (h.pure _) :
    Keeps R betweenRequests).ok (betweenRequests_ok s)

/-- Every step keeps the relation. -/
theorem step_keeps {s t : State} (e : step s = .next t) : R s t := by
  obtain ⟨-, rfl⟩ | ⟨_, _, _, -, -, -, k⟩ := step_next_inv e
  · exact h.settled_keeps s
  · exact h.trans (h.settled_keeps s) (h.trans (h.requests _ _) (h.exec_keeps k))

end Scheduled

/-! Completion. -/

/-- From a state with `P`, a piece goes on to a state with `P`. -/
def Completes (P : State → Prop) (m : M α) : Prop := ∀ s, P s → ∃ a t, m s = .ok a t ∧ P t

theorem Completes.pure {P : State → Prop} (a : α) : Completes P (pure a : M α) := fun s hs => ⟨a, s, rfl, hs⟩

theorem Completes.bind {P : State → Prop} {m : M α} {f : α → M β} (hm : Completes P m)
    (hf : ∀ a, Completes P (f a)) : Completes P (m >>= f) := fun s hs => by
  obtain ⟨a, t, h1, ht⟩ := hm s hs
  obtain ⟨b, u, h2, hu⟩ := hf a t ht
  exact ⟨b, u, (run_bind_ok h1).trans h2, hu⟩

theorem Completes.look {P : State → Prop} (f : State → α) : Completes P (look f) := fun s hs => ⟨_, s, rfl, hs⟩

theorem Completes.upd {P : State → Prop} {f : State → State} (hf : ∀ s, P s → P (f s)) : Completes P (upd f) :=
  fun s hs => ⟨(), f s, rfl, hf s hs⟩

theorem Completes.onlyIf {P : State → Prop} {m : M Unit} (c : Bool) (hm : Completes P m) :
    Completes P (onlyIf c m) := by
  cases c
  · exact Completes.pure ()
  · exact hm

theorem Completes.ite {P : State → Prop} {c : Prop} [Decidable c] {m k : M α} (hm : Completes P m)
    (hk : Completes P k) : Completes P (if c then m else k) := by
  split <;> assumption

end Sys2Proof.Machine
end

