-- ==== Sys2Proof/Laws/Memory.lean ====
section
/-! SUPPORT. Host memory: a write keeps the canonical form, the byte written reads back, every other byte is as it was,
and two canonical memories that read the same everywhere are the same list. -/

namespace Sys2Proof.Machine

theorem Memory.wfFrom_mono {lo lo' : Nat} {m : Memory} (h : lo' ≤ lo) (hm : Memory.wfFrom lo m = true) :
    Memory.wfFrom lo' m = true := by
  cases m with
  | nil => rfl
  | cons c m =>
    simp only [Memory.wfFrom, Bool.and_eq_true, decide_eq_true_eq] at hm ⊢
    exact ⟨⟨Nat.le_trans h hm.1.1, hm.1.2⟩, hm.2⟩

/-- Below the bound of a canonical memory nothing is listed. -/
theorem Memory.read_below {lo a : Nat} {m : Memory} (hm : Memory.wfFrom lo m = true) (h : a < lo) :
    m.read a = Memory.unlisted := by
  induction m generalizing lo with
  | nil => rfl
  | cons c m ih =>
    simp only [Memory.wfFrom, Bool.and_eq_true, decide_eq_true_eq] at hm
    have hne : a ≠ c.1 := by omega
    simp only [Memory.read, if_neg hne]
    exact ih hm.2 (by omega)

theorem Memory.cell_wf {lo a : Nat} {v : Byte} {m : Memory} (h : lo ≤ a) (hm : Memory.wfFrom (a + 1) m = true) :
    Memory.wfFrom lo (Memory.cell a v m) = true := by
  unfold Memory.cell
  split
  · exact Memory.wfFrom_mono (by omega) hm
  · simp [Memory.wfFrom, *]

theorem Memory.write_wfFrom {lo a : Nat} {v : Byte} {m : Memory} (h : lo ≤ a) (hm : Memory.wfFrom lo m = true) :
    Memory.wfFrom lo (m.write a v) = true := by
  induction m generalizing lo with
  | nil => exact Memory.cell_wf h rfl
  | cons c m ih =>
    have hc := hm
    simp only [Memory.wfFrom, Bool.and_eq_true, decide_eq_true_eq] at hc
    simp only [Memory.write]
    split
    · refine Memory.cell_wf h ?_
      simp only [Memory.wfFrom, Bool.and_eq_true, decide_eq_true_eq]
      exact ⟨⟨by omega, hc.1.2⟩, hc.2⟩
    · split
      · next he => exact Memory.cell_wf h (he ▸ hc.2)
      · simp only [Memory.wfFrom, Bool.and_eq_true, decide_eq_true_eq]
        exact ⟨⟨hc.1.1, hc.1.2⟩, ih (by omega) hc.2⟩

/-- A write keeps the canonical form. -/
theorem Memory.write_wf {m : Memory} (a : Nat) (v : Byte) (hm : m.wf = true) : (m.write a v).wf = true :=
  Memory.write_wfFrom (Nat.zero_le a) hm

theorem Memory.read_cell_same {a : Nat} {v : Byte} {m : Memory} (hm : Memory.wfFrom (a + 1) m = true) :
    (Memory.cell a v m).read a = v := by
  unfold Memory.cell
  split
  · next hv => rw [Memory.read_below hm (by omega), hv]
  · simp [Memory.read]

theorem Memory.read_cell_ne {a b : Nat} {v : Byte} {m : Memory} (h : b ≠ a) :
    (Memory.cell a v m).read b = m.read b := by
  unfold Memory.cell
  split
  · rfl
  · simp [Memory.read, h]

/-- The byte written reads back. -/
theorem Memory.read_write_same {lo a : Nat} {v : Byte} {m : Memory} (hm : Memory.wfFrom lo m = true) :
    (m.write a v).read a = v := by
  induction m generalizing lo with
  | nil => exact Memory.read_cell_same rfl
  | cons c m ih =>
    simp only [Memory.wfFrom, Bool.and_eq_true, decide_eq_true_eq] at hm
    simp only [Memory.write]
    split
    · refine Memory.read_cell_same ?_
      simp only [Memory.wfFrom, Bool.and_eq_true, decide_eq_true_eq]
      exact ⟨⟨by omega, hm.1.2⟩, hm.2⟩
    · split
      · next he => exact Memory.read_cell_same (he ▸ hm.2)
      · next he =>
        simp only [Memory.read, if_neg he]
        exact ih hm.2

/-- Every other byte is as it was, whatever form the memory has. -/
theorem Memory.read_write_ne {a b : Nat} {v : Byte} {m : Memory} (h : b ≠ a) : (m.write a v).read b = m.read b := by
  induction m with
  | nil => exact Memory.read_cell_ne h
  | cons c m ih =>
    simp only [Memory.write]
    split
    · exact Memory.read_cell_ne h
    · split
      · next he =>
        rw [Memory.read_cell_ne h]
        simp [Memory.read, he ▸ h]
      · simp only [Memory.read]
        rw [ih]

/-- The end of races keeps the canonical form. -/
theorem Memory.decided_wf {m : Memory} (cs : List Host.Cell) (x : Source Bool) (hm : m.wf = true) :
    (m.decided cs x).1.wf = true := by
  induction cs generalizing m x with
  | nil => exact hm
  | cons c cs ih =>
    refine ih _ ?_
    split
    · exact Memory.write_wf _ _ hm
    · exact hm

/-- A byte that is in none of the races that end is as it was. -/
theorem Memory.read_decided_ne {m : Memory} {a : Nat} {cs : List Host.Cell} (x : Source Bool) (h : ∀ c ∈ cs, c.1 ≠ a) :
    (m.decided cs x).1.read a = m.read a := by
  induction cs generalizing m x with
  | nil => rfl
  | cons c cs ih =>
    rw [Memory.decided, ih _ fun d hd => h d (.tail _ hd)]
    split
    · exact Memory.read_write_ne (h c (.head _)).symm
    · rfl

/-- Equal memories are equal data. -/
theorem Memory.ext_read {lo : Nat} {m k : Memory} (hm : Memory.wfFrom lo m = true) (hk : Memory.wfFrom lo k = true)
    (h : ∀ a, m.read a = k.read a) : m = k := by
  induction m generalizing lo k with
  | nil =>
    cases k with
    | nil => rfl
    | cons d k =>
      simp only [Memory.wfFrom, Bool.and_eq_true, decide_eq_true_eq, bne_iff_ne] at hk
      have := h d.1
      simp only [Memory.read, if_true] at this
      exact absurd this.symm hk.1.2
  | cons c m ih =>
    simp only [Memory.wfFrom, Bool.and_eq_true, decide_eq_true_eq, bne_iff_ne] at hm
    cases k with
    | nil =>
      have := h c.1
      simp only [Memory.read, if_true] at this
      exact absurd this hm.1.2
    | cons d k =>
      simp only [Memory.wfFrom, Bool.and_eq_true, decide_eq_true_eq, bne_iff_ne] at hk
      have hcd : c.1 = d.1 := by
        rcases Nat.lt_trichotomy c.1 d.1 with hlt | heq | hgt
        · have h1 := h c.1
          simp only [Memory.read, if_true, if_neg (Nat.ne_of_lt hlt)] at h1
          rw [Memory.read_below hk.2 (by omega)] at h1
          exact absurd h1 hm.1.2
        · exact heq
        · have h1 := h d.1
          simp only [Memory.read, if_true, if_neg (Nat.ne_of_lt hgt)] at h1
          rw [Memory.read_below hm.2 (by omega)] at h1
          exact absurd h1.symm hk.1.2
      have hv : c.2 = d.2 := by
        have h1 := h c.1
        simpa [Memory.read, hcd] using h1
      have htail : m = k := by
        refine ih hm.2 (hcd ▸ hk.2) fun a => ?_
        by_cases ha : a = c.1
        · rw [ha, Memory.read_below hm.2 (by omega), hcd, Memory.read_below hk.2 (by omega)]
        · have h1 := h a
          simpa [Memory.read, ha, hcd ▸ ha] using h1
      rw [htail, Prod.ext hcd hv]

end Sys2Proof.Machine
end

