-- ==== Sys2Proof/Laws/PerInstr.lean ====
section
/-! SUPPORT. What holds of every instruction, one lemma per constructor. RoundTrip: decoding the request of a well-formed
instruction gives it back. -/

namespace Sys2Proof.Laws.RoundTrip

/-- Decoding the request of a well-formed instruction gives it back. -/
def Statement (i : Instr) : Prop := i.wellFormed = true → decodeRequest (encode i) = .ok i

/-- What an operation's operands decode to. -/
theorem of_operands {code : Nat} {b : Byte} {bs : List Byte} {i : Instr} (hb : b.toNat = code)
    (h : decodeOperands code (bs ++ []) = .ok (i, [])) : decodeRequest (.op ([b] ++ bs)) = .ok i := by
  refine decodeRequest_op (rest := []) ?_
  rw [List.append_nil] at h
  simp only [decodeOp, List.cons_append, List.nil_append, take8, except_bind_ok, hb, h]

theorem engAdvance : Statement .engAdvance := fun _ => encodeSubcase_decodes .advance

theorem engSbAddr : Statement .engSbAddr := fun _ => encodeSubcase_decodes .sbAddr

theorem engSbEmpty : Statement .engSbEmpty := fun _ => encodeSubcase_decodes .sbEmpty

theorem engAddrNack : Statement .engAddrNack := fun _ => encodeSubcase_decodes .addrNack

theorem engRaddr1 : Statement .engRaddr1 := fun _ => encodeSubcase_decodes .raddr1

theorem engRaddr2 : Statement .engRaddr2 := fun _ => encodeSubcase_decodes .raddr2

theorem engRaddrN : Statement .engRaddrN := fun _ => encodeSubcase_decodes .raddrN

theorem engWByte : Statement .engWByte := fun _ => encodeSubcase_decodes .wByte

theorem engWStop : Statement .engWStop := fun _ => encodeSubcase_decodes .wStop

theorem engWRestart : Statement .engWRestart := fun _ => encodeSubcase_decodes .wRestart

theorem engWNorestart : Statement .engWNorestart := fun _ => encodeSubcase_decodes .wNorestart

theorem engWFlagerr : Statement .engWFlagerr := fun _ => encodeSubcase_decodes .wFlagerr

theorem engWNone : Statement .engWNone := fun _ => encodeSubcase_decodes .wNone

theorem engR1Last : Statement .engR1Last := fun _ => encodeSubcase_decodes .r1Last

theorem engR2Wait : Statement .engR2Wait := fun _ => encodeSubcase_decodes .r2Wait

theorem engR2Final : Statement .engR2Final := fun _ => encodeSubcase_decodes .r2Final

theorem engRnWait : Statement .engRnWait := fun _ => encodeSubcase_decodes .rnWait

theorem engRnByte : Statement .engRnByte := fun _ => encodeSubcase_decodes .rnByte

theorem engRnNackprep : Statement .engRnNackprep := fun _ => encodeSubcase_decodes .rnNackprep

theorem engRnFinal : Statement .engRnFinal := fun _ => encodeSubcase_decodes .rnFinal

theorem engRErr : Statement .engRErr := fun _ => encodeSubcase_decodes .rErr

theorem engEmptyTerm : Statement .engEmptyTerm := fun _ => encodeSubcase_decodes .emptyTerm

theorem engFallbackPoll : Statement .engFallbackPoll := fun _ => encodeSubcase_decodes .fallbackPoll

theorem engFallbackInt : Statement .engFallbackInt := fun _ => encodeSubcase_decodes .fallbackInt

theorem engTermPoll : Statement .engTermPoll := fun _ => encodeSubcase_decodes .termPoll

theorem engTermInt : Statement .engTermInt := fun _ => encodeSubcase_decodes .termInt

theorem regGet (p : Port) (r : Reg) : Statement (.regGet p r) := by
  intro h
  simp only [encode, List.append_assoc]
  refine of_operands rfl ?_
  simp only [decodeOperands, List.append_assoc, takePort_byte, takeReg_byte h, except_bind_ok]
  rfl

theorem regPut (p : Port) (r : Reg) (v : Half) : Statement (.regPut p r v) := by
  intro h
  simp only [encode, List.append_assoc]
  refine of_operands rfl ?_
  simp only [decodeOperands, List.append_assoc, takePort_byte, takeReg_byte h, take16_bytes _ v.isLt, BitVec.ofNat_toNat, BitVec.setWidth_eq, except_bind_ok]
  rfl

theorem regModify (p : Port) (r : Reg) (clr set : Half) : Statement (.regModify p r clr set) := by
  intro h
  simp only [encode, List.append_assoc]
  refine of_operands rfl ?_
  simp only [decodeOperands, List.append_assoc, takePort_byte, takeReg_byte h, take16_bytes _ clr.isLt, take16_bytes _ set.isLt, BitVec.ofNat_toNat, BitVec.setWidth_eq, except_bind_ok]
  rfl

theorem opInit (p : Port) : Statement (.opInit p) := by
  intro _
  rw [encode]
  refine of_operands rfl ?_
  simp only [decodeOperands, takePort_byte, except_bind_ok]
  rfl

theorem opUninit (d : Nat) : Statement (.opUninit d) := by
  intro h
  simp only [Instr.wellFormed, fits16, decide_eq_true_eq] at h
  rw [encode]
  refine of_operands rfl ?_
  simp only [decodeOperands, take16_bytes _ h, except_bind_ok]
  rfl

theorem opReset (d : Nat) : Statement (.opReset d) := by
  intro h
  simp only [Instr.wellFormed, fits16, decide_eq_true_eq] at h
  rw [encode]
  refine of_operands rfl ?_
  simp only [decodeOperands, take16_bytes _ h, except_bind_ok]
  rfl

theorem opSetfrequency (d f : Nat) : Statement (.opSetfrequency d f) := by
  intro h
  simp only [Instr.wellFormed, Bool.and_eq_true, fits16, fits32, decide_eq_true_eq] at h
  simp only [encode, List.append_assoc]
  refine of_operands rfl ?_
  simp only [decodeOperands, List.append_assoc, take16_bytes _ h.1, take32_bytes _ h.2, except_bind_ok]
  rfl

theorem opSetaddress (d addr nbits : Nat) : Statement (.opSetaddress d addr nbits) := by
  intro h
  simp only [Instr.wellFormed, Bool.and_eq_true, fits16, fits32, decide_eq_true_eq] at h
  simp only [encode, List.append_assoc]
  refine of_operands rfl ?_
  simp only [decodeOperands, List.append_assoc, take16_bytes _ h.1.1, take32_bytes _ h.1.2, take32_bytes _ h.2, except_bind_ok]
  rfl

theorem opWrite (d buf n : Nat) : Statement (.opWrite d buf n) := by
  intro h
  simp only [Instr.wellFormed, Bool.and_eq_true, fits16, fits32, decide_eq_true_eq] at h
  simp only [encode, List.append_assoc]
  refine of_operands rfl ?_
  simp only [decodeOperands, List.append_assoc, take16_bytes _ h.1.1, take32_bytes _ h.1.2, take32_bytes _ h.2, except_bind_ok]
  rfl

theorem opRead (d buf n : Nat) : Statement (.opRead d buf n) := by
  intro h
  simp only [Instr.wellFormed, Bool.and_eq_true, fits16, fits32, decide_eq_true_eq] at h
  simp only [encode, List.append_assoc]
  refine of_operands rfl ?_
  simp only [decodeOperands, List.append_assoc, take16_bytes _ h.1.1, take32_bytes _ h.1.2, take32_bytes _ h.2, except_bind_ok]
  rfl

theorem opTransfer (d : Nat) (msgs : List Message) : Statement (.opTransfer d msgs) := by
  intro h
  simp only [Instr.wellFormed, Bool.and_eq_true, fits16, decide_eq_true_eq] at h
  simp only [encode, List.append_assoc]
  refine of_operands rfl ?_
  simp only [decodeOperands, List.append_assoc, take16_bytes _ h.1, takeChain_bytes h.2, except_bind_ok]
  rfl

theorem opProcess (d : Nat) (msgs : List Message) : Statement (.opProcess d msgs) := by
  intro h
  simp only [Instr.wellFormed, Bool.and_eq_true, fits16, decide_eq_true_eq] at h
  simp only [encode, List.append_assoc]
  refine of_operands rfl ?_
  simp only [decodeOperands, List.append_assoc, take16_bytes _ h.1, takeChain_bytes h.2, except_bind_ok]
  rfl

theorem clkProgram (p : Port) (fp ft : Nat) : Statement (.clkProgram p fp ft) := by
  intro h
  simp only [Instr.wellFormed, Bool.and_eq_true, fits32, decide_eq_true_eq] at h
  simp only [encode, List.append_assoc]
  refine of_operands rfl ?_
  simp only [decodeOperands, List.append_assoc, takePort_byte, take32_bytes _ h.1, take32_bytes _ h.2, except_bind_ok]
  rfl

theorem traceSample (p : Port) (w : Word32) : Statement (.traceSample p w) := by
  intro _
  simp only [encode, List.append_assoc]
  refine of_operands rfl ?_
  simp only [decodeOperands, List.append_assoc, takePort_byte, take32_bytes _ w.isLt, BitVec.ofNat_toNat, BitVec.setWidth_eq, except_bind_ok]
  rfl

theorem traceEvent (p : Port) (ev : EvName) (param : Int) : Statement (.traceEvent p ev param) := by
  intro h
  simp only [encode, List.append_assoc]
  refine of_operands rfl ?_
  simp only [decodeOperands, List.append_assoc, takePort_byte, take8_byte _ (evCode_lt ev), evNames_code, need, take32_bytes _ (natOfInt32_lt param), intOfNat32_natOfInt32 h, except_bind_ok]
  rfl

theorem traceReset (p : Port) : Statement (.traceReset p) := by
  intro _
  rw [encode]
  refine of_operands rfl ?_
  simp only [decodeOperands, takePort_byte, except_bind_ok]
  rfl

theorem traceDump (p : Port) : Statement (.traceDump p) := by
  intro _
  rw [encode]
  refine of_operands rfl ?_
  simp only [decodeOperands, takePort_byte, except_bind_ok]
  rfl

theorem engEntry (p : Port) : Statement (.engEntry p) := by
  intro _
  rw [encode]
  refine of_operands rfl ?_
  simp only [decodeOperands, takePort_byte, except_bind_ok]
  rfl

theorem errClassify (x : Word32) (e : ErrVal) : Statement (.errClassify x e) := by
  intro _
  simp only [encode, List.append_assoc]
  refine of_operands rfl ?_
  simp only [decodeOperands, List.append_assoc, take32_bytes _ x.isLt, take8_byte _ (errCode_lt e), errVals_code, need, BitVec.ofNat_toNat, BitVec.setWidth_eq, except_bind_ok]
  rfl

theorem lifeUp (p : Port) : Statement (.lifeUp p) := by
  intro _
  rw [encode]
  refine of_operands rfl ?_
  simp only [decodeOperands, takePort_byte, except_bind_ok]
  rfl

theorem lifeDown (p : Port) : Statement (.lifeDown p) := by
  intro _
  rw [encode]
  refine of_operands rfl ?_
  simp only [decodeOperands, takePort_byte, except_bind_ok]
  rfl

end Sys2Proof.Laws.RoundTrip
end

