-- ==== Sys2Proof/Tests/Slice0.lean ====
section
/-! SUPPORT. The model's own tests. Expected values are hand-computed from the spec's tables or taken from
95_test_vectors (named in each docstring); the words of the decode tests are written out from 30_encoding R110 to R117.
The `witness` theorems show concrete states and operands that meet the hypotheses of each statement. -/

namespace Sys2Proof.Tests

open Sys2Proof.Machine

set_option maxRecDepth 100000

/-! Well-formedness: an ill-formed instruction for each check. -/

theorem test_wellformed_register_code : (Instr.regGet .i2c1 (.unlisted 256)).wellFormed = false ∧
    (Instr.regPut .i2c1 (.unlisted 0x14) 0).wellFormed = false ∧
    (Instr.regModify .i2c1 (.unlisted 0x20) 0 0).wellFormed = false := by decide

theorem test_wellformed_handle : (Instr.opUninit 65536).wellFormed = false ∧
    (Instr.opReset 65536).wellFormed = false ∧ (Instr.opSetfrequency 65536 0).wellFormed = false ∧
    (Instr.opSetaddress 65536 0 7).wellFormed = false ∧ (Instr.opWrite 65536 0 0).wellFormed = false ∧
    (Instr.opRead 65536 0 0).wellFormed = false ∧ (Instr.opTransfer 65536 []).wellFormed = false ∧
    (Instr.opProcess 65536 []).wellFormed = false := by decide

theorem test_wellformed_numbers : (Instr.opSetfrequency 0 (2 ^ 32)).wellFormed = false ∧
    (Instr.opSetaddress 0 (2 ^ 32) 7).wellFormed = false ∧ (Instr.opSetaddress 0 0 (2 ^ 32)).wellFormed = false ∧
    (Instr.opWrite 0 (2 ^ 32) 0).wellFormed = false ∧ (Instr.opWrite 0 0 (2 ^ 32)).wellFormed = false ∧
    (Instr.opRead 0 (2 ^ 32) 0).wellFormed = false ∧ (Instr.opRead 0 0 (2 ^ 32)).wellFormed = false ∧
    (Instr.clkProgram .i2c1 (2 ^ 32) 1).wellFormed = false ∧
    (Instr.clkProgram .i2c1 1 (2 ^ 32)).wellFormed = false := by decide

theorem test_wellformed_message : (Instr.opTransfer 0 [⟨2 ^ 32, MsgFlags.empty, 0, 0⟩]).wellFormed = false ∧
    (Instr.opTransfer 0 [⟨0, MsgFlags.empty, 2 ^ 32, 0⟩]).wellFormed = false ∧
    (Instr.opProcess 0 [⟨0, MsgFlags.empty, 0, 2 ^ 32⟩]).wellFormed = false := by decide

theorem test_wellformed_chain_length (m : Message) :
    (Instr.opTransfer 0 (List.replicate 65536 m)).wellFormed = false := by
  have h : fits16 (List.replicate 65536 m).length = false := by
    rw [List.length_replicate]
    decide
  rw [Instr.wellFormed, chainWellFormed, h]
  rfl

theorem test_wellformed_parameter : (Instr.traceEvent .i2c1 .stop (2 ^ 31)).wellFormed = false ∧
    (Instr.traceEvent .i2c1 .stop (-2 ^ 31 - 1)).wellFormed = false := by decide

/-! Decoding: a word for every constructor. Selector words: SB 0x1, ADDR 0x2, BTF 0x4, RXNE 0x8, TXE 0x10, RD 0x20,
CA 0x40, IM 0x80, DC from 0x100, LC from 0x800, MZ 0x2000, NX from 0x4000, AT 0x10000; the phase above (log entry 1). -/

theorem test_decode_address_phase : decodeRequest (.selector 0x100001) = .ok .engAdvance ∧
    decodeRequest (.selector 0x002C01) = .ok .engSbAddr ∧ decodeRequest (.selector 0x000181) = .ok .engSbEmpty ∧
    decodeRequest (.selector 0x002CE0) = .ok .engAddrNack ∧ decodeRequest (.selector 0x012CE2) = .ok .engRaddr1 ∧
    decodeRequest (.selector 0x013562) = .ok .engRaddr2 ∧ decodeRequest (.selector 0x013FE2) = .ok .engRaddrN := by
  decide

theorem test_decode_write_path : decodeRequest (.selector 0x012CD2) = .ok .engWByte ∧
    decodeRequest (.selector 0x012994) = .ok .engWStop ∧ decodeRequest (.selector 0x010914) = .ok .engWRestart ∧
    decodeRequest (.selector 0x014994) = .ok .engWNorestart ∧
    decodeRequest (.selector 0x018994) = .ok .engWFlagerr ∧ decodeRequest (.selector 0x012890) = .ok .engWNone := by
  decide

theorem test_decode_read_path : decodeRequest (.selector 0x0029A8) = .ok .engR1Last ∧
    decodeRequest (.selector 0x003528) = .ok .engR2Wait ∧ decodeRequest (.selector 0x00352C) = .ok .engR2Final ∧
    decodeRequest (.selector 0x003EA8) = .ok .engRnWait ∧ decodeRequest (.selector 0x003FAC) = .ok .engRnByte ∧
    decodeRequest (.selector 0x003EAC) = .ok .engRnNackprep ∧
    decodeRequest (.selector 0x003DAC) = .ok .engRnFinal ∧ decodeRequest (.selector 0x002CA8) = .ok .engRErr := by
  decide

theorem test_decode_termination : decodeRequest (.selector 0x002880) = .ok .engEmptyTerm ∧
    decodeRequest (.selector 0x002C00) = .ok .engFallbackPoll ∧
    decodeRequest (.selector 0x002C80) = .ok .engFallbackInt ∧
    decodeRequest (.selector 0x202800) = .ok .engTermPoll ∧
    decodeRequest (.selector 0x202880) = .ok .engTermInt := by decide

theorem test_decode_registers : decodeRequest (.op [0x01, 0x00, 0x14]) = .ok (.regGet .i2c1 .sr1) ∧
    decodeRequest (.op [0x02, 0x01, 0x1C, 0x28, 0x00]) = .ok (.regPut .i2c2 .ccr 0x0028) ∧
    decodeRequest (.op [0x03, 0x02, 0x00, 0x00, 0x04, 0x01, 0x02]) =
      .ok (.regModify .i2c3 .cr1 0x0400 0x0201) := by decide

theorem test_decode_host_operations : decodeRequest (.op [0x10, 0x00]) = .ok (.opInit .i2c1) ∧
    decodeRequest (.op [0x11, 0x02, 0x01]) = .ok (.opUninit 0x0102) ∧
    decodeRequest (.op [0x12, 0x02, 0x01]) = .ok (.opReset 0x0102) ∧
    decodeRequest (.op [0x13, 0x01, 0x00, 0xA0, 0x86, 0x01, 0x00]) = .ok (.opSetfrequency 1 100000) ∧
    decodeRequest (.op [0x14, 0x01, 0x00, 0x50, 0x00, 0x00, 0x00, 0x07, 0x00, 0x00, 0x00]) =
      .ok (.opSetaddress 1 0x50 7) ∧
    decodeRequest (.op [0x15, 0x01, 0x00, 0x00, 0x10, 0x00, 0x00, 0x02, 0x00, 0x00, 0x00]) =
      .ok (.opWrite 1 0x1000 2) ∧
    decodeRequest (.op [0x16, 0x01, 0x00, 0x00, 0x10, 0x00, 0x00, 0x02, 0x00, 0x00, 0x00]) =
      .ok (.opRead 1 0x1000 2) := by decide

theorem test_decode_chains :
    decodeRequest (.op [0x17, 0x01, 0x00, 0x01, 0x00, 0x50, 0x00, 0x00, 0x00, 0x81, 0x00, 0x00, 0x10, 0x00, 0x00,
      0x03, 0x00, 0x00, 0x00]) = .ok (.opTransfer 1 [⟨0x50, ⟨true, false, true⟩, 0x1000, 3⟩]) ∧
    decodeRequest (.op [0x18, 0x01, 0x00, 0x01, 0x00, 0x23, 0x01, 0x00, 0x00, 0x02, 0x00, 0x00, 0x10, 0x00, 0x00,
      0x03, 0x00, 0x00, 0x00]) = .ok (.opProcess 1 [⟨0x123, ⟨false, true, false⟩, 0x1000, 3⟩]) := by decide

theorem test_decode_internal :
    decodeRequest (.op [0x20, 0x00, 0x00, 0x12, 0x7A, 0x00, 0xA0, 0x86, 0x01, 0x00]) =
      .ok (.clkProgram .i2c1 8000000 100000) ∧
    decodeRequest (.op [0x21, 0x00, 0x82, 0x00, 0x03, 0x00]) = .ok (.traceSample .i2c1 0x00030082) ∧
    decodeRequest (.op [0x22, 0x00, 0x01, 0xFF, 0xFF, 0xFF, 0xFF]) = .ok (.traceEvent .i2c1 .advance (-1)) ∧
    decodeRequest (.op [0x23, 0x00]) = .ok (.traceReset .i2c1) ∧
    decodeRequest (.op [0x24, 0x00]) = .ok (.traceDump .i2c1) ∧
    decodeRequest (.op [0x25, 0x01]) = .ok (.engEntry .i2c2) ∧
    decodeRequest (.op [0x26, 0x00, 0x04, 0x00, 0x00, 0x01]) = .ok (.errClassify 0x400 .timedout) ∧
    decodeRequest (.op [0x27, 0x00]) = .ok (.lifeUp .i2c1) ∧
    decodeRequest (.op [0x28, 0x00]) = .ok (.lifeDown .i2c1) := by decide

/-- X4 and R116: a reserved code, a reserved selector; an operand cut short, a port that is none. -/
theorem test_decode_rejects : decodeRequest (.op [0x30]) = .error .unknownOp ∧
    decodeRequest (.selector 0x000200) = .error .badSelector ∧
    decodeRequest (.selector 0x020001) = .error .badSelector ∧
    decodeRequest (.selector 0x00C001) = .error .badSelector ∧
    decodeRequest (.op [0x01, 0x00]) = .error .truncated ∧
    decodeRequest (.op [0x10, 0x03]) = .error .badOperand := by decide

/-- The table's numbering: an engine row in 24 bits, an operation row in 8; X4's reserved code is refused there too. -/
theorem test_decode_table_words : decodeTableWord 24 0x00401 = some .engSbAddr ∧
    decodeTableWord 24 0x18100 = some .engWFlagerr ∧ decodeTableWord 24 0x02080 = some .engTermInt ∧
    decodeTableWord 8 0x03 = some (.regModify .i2c1 .cr1 0 0) ∧
    decodeTableWord 8 0x28 = some (.lifeDown .i2c1) ∧ decodeTableWord 8 0x30 = none := by decide

/-! States the tests start from. -/

/-- A Bus State's parameters. -/
def cfgOf (m : Mode) : Config := { Config.standard with mode := m }

/-- Scripted draws: register values, the agents that move at each point, wait rounds; pins high, no signal. -/
def draws (regs : List Half) (turns : List (List Agent)) (waits : List Nat) : Draws where
  regs := ⟨regs, 0⟩
  pins := ⟨[true], 0⟩
  waits := ⟨waits, 0⟩
  turns := ⟨turns, 0⟩
  signals := ⟨[false, false], 0⟩
  races := ⟨[], 0⟩
  times := ⟨[7, 8], 0⟩

/-- Port I2C1 brought up, one handle on it; register reads answer the list. -/
def ready (m : Mode) (regs : List Half) (f : BusState → BusState) : State :=
  let s := State.launch (cfgOf m)
  let line : IrqLine := ⟨m == .interrupt, m == .interrupt⟩
  { s with
    i2c1 := f { s.i2c1 with refs := 1, plat := { s.i2c1.plat with clkEn := true, evIrq := line, erIrq := line } }
    instances := [some ⟨.i2c1, 0x50, MsgFlags.empty, 100000⟩]
    draws := draws regs [[], [], []] [0, 0, 0] }

/-- A field of the state an instruction leaves, if it goes on. -/
def after {α : Type} (o : Host.Outcome State Fault Refusal) (f : State → α) : Option α :=
  match o with
  | .next t => some (f t)
  | .fault _ => none
  | .refused _ => none

/-- The fault an instruction stops with. -/
def faultOf (o : Host.Outcome State Fault Refusal) : Option Fault :=
  match o with
  | .fault f => some f
  | .next _ => none
  | .refused _ => none

/-- The refusal an instruction stops with. -/
def refusalOf (o : Host.Outcome State Fault Refusal) : Option Refusal :=
  match o with
  | .refused r => some r
  | .next _ => none
  | .fault _ => none

/-- A read of `n` bytes at 0x1000 under way: its message is current, `k` bytes are left. -/
def reading (n : Nat) (k : Int) (b : BusState) : BusState :=
  { b with
    msgs := [⟨0x50, ⟨true, false, false⟩, 0x1000, n⟩]
    count := 1
    msgv := some 0
    ptr := 0x1000
    curBuf := 0x1000
    totalMsgLen := n
    dcnt := k
    flags := ⟨true, false, false⟩
    curAddr := 0x50 }

/-- A write of `n` bytes at 0x1000 under way, `k` bytes left, with a next message of given flags. -/
def writing (n : Nat) (k : Int) (next : MsgFlags) (b : BusState) : BusState :=
  { b with
    msgs := [⟨0x50, MsgFlags.empty, 0x1000, n⟩, ⟨0x50, next, 0x2000, 1⟩]
    count := 2
    msgc := 1
    msgv := some 1
    ptr := 0x1000
    curBuf := 0x1000
    totalMsgLen := n
    dcnt := k
    curAddr := 0x50 }

/-- The history of I2C1. -/
def hist1 (s : State) : List Event := s.i2c1.hist

/-! Selectors: rows of 95_test_vectors 2.4 (E5, E8, E13, E17, E18, E19, E21, E24, E32, E38, E42), as R110 builds them. -/

theorem test_selector_rows :
    selector (cfgOf .interrupt) 0x0400 { reading 1 1 (BusState.launch (cfgOf .interrupt)) with
      checkAddrAck := true } = some 0x02CE0 ∧
    selector (cfgOf .interrupt) 0x0002 { reading 1 1 (BusState.launch (cfgOf .interrupt)) with
      checkAddrAck := true } = some 0x12CE2 ∧
    selector (cfgOf .interrupt) 0x0084 (writing 1 0 MsgFlags.empty (BusState.launch (cfgOf .interrupt))) =
      some 0x10994 ∧
    selector (cfgOf .polled) 0x0084 (writing 1 0 ⟨true, false, true⟩ (BusState.launch (cfgOf .polled))) =
      some 0x10914 ∧
    selector (cfgOf .interrupt) 0x0084 (writing 1 0 ⟨false, true, false⟩ (BusState.launch (cfgOf .interrupt))) =
      some 0x18994 ∧
    selector (cfgOf .interrupt) 0x0044 (reading 5 3 (BusState.launch (cfgOf .interrupt))) = some 0x03EAC ∧
    selector (cfgOf .polled) 0x0040 (reading 1 (-1) (BusState.launch (cfgOf .polled))) = some 0x02828 := by decide

/-! Register access: V3, V4, V9 and the faults V5 to V8. -/

theorem test_modify_v3_v4 :
    after (exec (.regModify .i2c1 .cr1 0x0400 0) (ready .polled [0x0C01] id)) hist1 =
      some [.rd .cr1 0x0C01, .wr .cr1 0x0801] ∧
    after (exec (.regModify .i2c1 .cr1 0 0x0100) (ready .polled [0x0401] id)) hist1 =
      some [.rd .cr1 0x0401, .wr .cr1 0x0501] := by decide

theorem test_register_faults :
    faultOf (exec (.regPut .i2c1 .sr2 0) (ready .polled [] id)) = some .regReadOnly ∧
    faultOf (exec (.regModify .i2c1 .sr1 0x0400 0) (ready .polled [] id)) = some .modifyNotControl ∧
    faultOf (exec (.regGet .i2c1 .oar2) (ready .polled [] id)) = some .regUnmapped ∧
    faultOf (exec (.regGet .i2c1 .cr1) State.reset) = some .portDown := by decide

/-! The clock programmer: C1, C2, C3, C12 (the CCR and TRISE words) and the refusals C14 to C16. -/

theorem test_clock_words :
    ccrWord .standard (clockWords false 8000000 100000) = 0x0028 ∧ (clockWords false 8000000 100000).trise = 9 ∧
    ccrWord .standard (clockWords false 36000000 400000) = 0x801E ∧ (clockWords false 36000000 400000).trise = 11 ∧
    ccrWord .standard (clockWords true 36000000 400000) = 0xC003 ∧
    ccrWord .standard (clockWords false 2000000 400000) = 0x8001 ∧
    (clockWords false 2000000 400000).trise = 1 := by decide

theorem test_clock_program_s1 :
    after (exec (.clkProgram .i2c1 8000000 100000) (ready .polled [0x0001] id)) hist1 =
      some [.rd .cr1 0x0001, .wr .cr1 0x0000, .wr .ccr 0x0028, .wr .trise 0x0009, .wr .oar1 0x4000,
        .wr .cr1 0x0001] ∧
    refusalOf (exec (.clkProgram .i2c1 8000000 0) (ready .polled [0] id)) = some .divByZero ∧
    refusalOf (exec (.clkProgram .i2c1 8000000 1) (ready .polled [0] id)) = some .ccrOverflow ∧
    refusalOf (exec (.clkProgram .i2c1 64000000 100000) (ready .polled [0] id)) = some .triseOverflow := by decide

/-! The address byte: A2, A3, A5, A6, A8. -/

theorem test_address_byte : addressByte 0x50 ⟨true, false, false⟩ = 0xA1 ∧
    addressByte 0x7F ⟨true, false, false⟩ = 0xFF ∧ addressByte 0x80 MsgFlags.empty = 0x00 ∧
    addressByte 0xC5 ⟨true, false, false⟩ = 0x8B ∧ addressByte 0x3FF ⟨true, true, false⟩ = 0x00 := by decide

/-! Engine entries: S3 to S5 entry by entry, with tracing off for short histories. -/

/-- The state with tracing off. -/
def quietly (s : State) : State := { s with cfg := { s.cfg with traceOn := false } }

/-- R203's example: the first entry of a one-byte read. -/
theorem test_entry_sb_addr :
    after (exec (.engEntry .i2c1) (quietly (ready .interrupt [0x0001, 0x0001, 0x0401] (reading 1 1)))) hist1 =
      some [.rd .sr1 0x0001, .rd .cr1 0x0001, .wr .cr1 0x0001, .rd .cr1 0x0401, .wr .cr1 0x0001,
        .wr .dr 0x00A1] := by decide

/-- R214's example: the ACK clear comes before the SR2 read (conflict C2). -/
theorem test_entry_raddr2 :
    after (exec (.engEntry .i2c1) (quietly (ready .interrupt [0x0002, 0x0C01, 0x0003] fun b =>
      { reading 2 2 b with checkAddrAck := true }))) hist1 =
      some [.rd .sr1 0x0002, .rd .cr1 0x0C01, .wr .cr1 0x0801, .rd .sr2 0x0003] := by decide

/-- R231's example: ADDR and TXE; the SR2 read precedes the data byte. -/
theorem test_entry_write_byte :
    after (exec (.engEntry .i2c1) { quietly (ready .interrupt [0x0082, 0x0007] (writing 1 1 MsgFlags.empty)) with
      mem := [(0x1000, 0xAA)] }) hist1 =
      some [.rd .sr1 0x0082, .rd .sr2 0x0007, .mrd 0x1000 0xAA, .wr .dr 0x00AA] := by decide

/-- R254's example in POLLED mode: STOP, two bytes in order, then terminal handling. -/
theorem test_entry_read_final :
    after (exec (.engEntry .i2c1) (quietly (ready .polled [0x0044, 0x0801, 0x0011, 0x0022, 0x0003] (reading 2 2))))
      (fun t => (hist1 t, t.mem, t.i2c1.intstate, t.i2c1.status)) =
      some ([.rd .sr1 0x0044, .rd .cr1 0x0801, .wr .cr1 0x0A01, .rd .dr 0x0011, .mwr 0x1000 0x11,
        .rd .dr 0x0022, .mwr 0x1001 0x22, .rd .sr2 0x0003], [(0x1000, 0x11), (0x1001, 0x22)], .done,
        0x00030044) := by decide

/-- R257: ACK cleared before the DR read of byte N-2. -/
theorem test_entry_nackprep :
    after (exec (.engEntry .i2c1) (quietly (ready .polled [0x0044, 0x0401, 0x0133, 0x0003] (reading 5 3))))
      (fun t => (hist1 t, t.i2c1.dcnt)) =
      some ([.rd .sr1 0x0044, .rd .cr1 0x0401, .wr .cr1 0x0001, .rd .dr 0x0133, .mwr 0x1000 0x33,
        .rd .sr2 0x0003], 2) := by decide

/-- X1 and X3: the cursor at the buffer's end; a message needed and `msgv` none. -/
theorem test_entry_faults :
    faultOf (exec .engWByte (ready .polled [] fun b => { writing 1 1 MsgFlags.empty b with ptr := 0x1001 })) =
      some .bufferOverrun ∧
    faultOf (exec .engAdvance (ready .polled [] fun b => { b with msgc := 1 })) = some .badMsgv := by decide

/-- E48 and E49: DONE and a post only for a waiter. -/
theorem test_terminal_interrupt :
    after (exec .engTermInt (ready .interrupt [0x0308] fun b => { b with intstate := .waiting }))
      (fun t => (t.i2c1.intstate, t.i2c1.sem, t.i2c1.cr2Written)) = some (.done, 1, 0x0008) ∧
    after (exec .engTermInt (ready .interrupt [0x0308] id))
      (fun t => (t.i2c1.intstate, t.i2c1.sem, t.i2c1.cr2Written)) = some (.idle, 0, 0x0008) := by decide

/-! The dispatcher: D1 to D12, D14, D18, D20, a whole polled write. -/

theorem test_classify : classify .standard 0x00000400 .timedout = .noent ∧
    classify .standard 0x00000300 .ok = .io ∧ classify .standard 0x00000600 .ok = .again ∧
    classify .standard 0x00001000 .ok = .proto ∧ classify .standard 0x00004000 .timedout = .time ∧
    classify .standard 0x00020000 .timedout = .busy ∧ classify .standard 0x00024000 .timedout = .time ∧
    classify .standard 0x00000084 .ok = .ok ∧ classify .standard 0 .timedout = .timedout := by decide

theorem test_settle_d18_d20 :
    (match drive (some .i2c1) (stopSettle (cfgOf .polled) .i2c1 []) { ready .polled [] id with
        draws := draws [0x0201, 0x0000, 0x0001] [] [5] } with
      | .ok _ t => some (hist1 t)
      | .error _ _ => none) = some [.rd .cr1 0x0201, .rd .sr1 0x0000, .rd .cr1 0x0001] ∧
    (match drive (some .i2c1) (stopSettle (cfgOf .polled) .i2c1 []) (ready .polled [0x0201, 0x0000] id) with
      | .ok _ t => some (hist1 t)
      | .error _ _ => none) = some [.rd .cr1 0x0201, .rd .sr1 0x0000, .ev .stopSettleTimeout 0x0201] := by decide

/-- A polled transfer of one written byte: SR1 answers 0x0001, 0x0082, 0x0084 (R308's example). -/
def polledWrite : State :=
  { ready .polled
      [0x0001, 0x0001, 0x0001, 0x0001, 0x0001, 0x0001, 0x0001, 0x0082, 0x0003, 0x0084, 0x0401] id with
    mem := [(0x1000, 0xAA)]
    draws := draws
      [0x0001, 0x0001, 0x0001, 0x0001, 0x0001, 0x0001, 0x0001, 0x0082, 0x0003, 0x0084, 0x0401] [] [0, 5] }

theorem test_polled_write :
    after (exec (.opWrite 0 0x1000 1) polledWrite)
      (fun t => (t.ret, t.i2c1.dcnt, t.i2c1.msgc, t.i2c1.msgv, t.i2c1.lock)) = some (0, -1, 0, none, .free) ∧
    after (exec (.opWrite 0 0x1000 1) polledWrite) (fun t => (t.i2c1.status, t.mem)) =
      some (0x00000084, [(0x1000, 0xAA)]) := by decide +kernel

theorem test_empty_chain : refusalOf (exec (.opProcess 0 []) (ready .polled [] id)) = some .emptyChain := by decide

/-! Lifecycle: L1v, L4v, L6v, L9v and the recovery of a free bus. -/

theorem test_init_l1v :
    after (exec (.opInit .i2c1) { State.launch (cfgOf .polled) with draws := draws [0, 0] [] [] })
      (fun t => (hist1 t, t.i2c1.refs, t.i2c1.plat.evIrq.attached)) =
      some ([.wr .cr2 0x0008, .rd .cr1 0x0000, .wr .cr1 0x0000, .wr .ccr 0x0028, .wr .trise 0x0009,
        .wr .oar1 0x4000, .wr .cr1 0x0000, .rd .cr1 0x0000, .wr .cr1 0x0001], 1, false) := by decide

theorem test_uninit_l4v :
    after (exec (.opUninit 0) (ready .interrupt [] id))
      (fun t => (hist1 t, t.i2c1.refs, t.i2c1.plat.clkEn, t.inst 0)) =
      some ([.wr .cr1 0x0000], 0, false, none) ∧
    refusalOf (exec (.opInit .i2c3) { State.reset with cfg := { Config.standard with ports := [.i2c1] } }) =
      some .portAbsent := by decide

theorem test_setaddress_l9v :
    after (exec (.opSetaddress 0 0x123 10) (ready .polled [] id)) (·.inst 0) =
      some (some ⟨.i2c1, 0x123, ⟨false, true, false⟩, 100000⟩) ∧
    after (exec (.opSetaddress 0 0x50 8) (ready .polled [] id)) (·.inst 0) =
      some (some ⟨.i2c1, 0x50, MsgFlags.empty, 100000⟩) := by decide

/-- C17 to C19. -/
theorem test_setfrequency :
    after (exec (.opSetfrequency 0 400000) (ready .polled [] id)) (·.ret) = some 400000 ∧
    after (exec (.opSetfrequency 0 10000) { ready .polled [] id with
      cfg := { cfgOf .polled with pclk := 2000000 } }) (·.ret) = some 100000 := by decide

/-- L14v and L15v: samples 0x0001, 0x0001, 0x0082; an overflow. -/
theorem test_trace_samples :
    after (exec (.traceSample .i2c1 0x82) (ready .polled [] fun b =>
      { b with trace := ⟨[⟨1, 2, .none, 0, 0⟩, TraceEntry.fresh], 0, 0⟩ }))
      (fun t => (t.i2c1.trace.ring, t.i2c1.trace.cur)) =
      some ([⟨1, 2, .none, 0, 0⟩, ⟨0x82, 1, .none, 0, 7⟩], 1) ∧
    after (exec (.traceSample .i2c1 0x82) { ready .polled [] (fun b =>
        { b with trace := ⟨[⟨1, 2, .none, 0, 0⟩], 0, 0⟩ }) with cfg := { cfgOf .polled with traceCap := 1 } })
      (fun t => (t.i2c1.trace.cur, t.i2c1.log)) = some (0, [.traceOverflow]) := by decide

/-- A trace event with a parameter, a dump relative to the reset time, a reset. -/
theorem test_trace_event_dump_reset :
    after (exec (.traceEvent .i2c1 .stop 3) (ready .polled [] id))
      (fun t => (hist1 t, t.i2c1.trace.ring[0]?)) = some ([.ev .stop 3], some ⟨0, 0, .stop, 3, 0⟩) ∧
    after (exec (.traceDump .i2c1) (ready .polled [] fun b =>
      { b with trace := ⟨[⟨1, 2, .stop, 0, 9⟩, TraceEntry.fresh], 0, 4⟩ })) (·.i2c1.log) =
      some [.entry 1 2 .stop 0 5] ∧
    after (exec (.traceReset .i2c1) (ready .polled [] fun b =>
      { b with trace := ⟨[⟨1, 2, .stop, 0, 9⟩, ⟨2, 1, .stop, 0, 9⟩], 1, 4⟩ }))
      (fun t => (t.i2c1.trace.ring, t.i2c1.trace.cur)) = some ([TraceEntry.fresh, ⟨2, 1, .stop, 0, 9⟩], 0) := by
  decide

/-- A step fetches and runs the word `withFetchWord` places. -/
theorem test_step_fetches :
    after (step (State.reset.withFetchWord 8 0x26)) (fun t => (t.ret, t.errval, t.requests)) = some (0, .ok, []) ∧
    faultOf (step (State.reset.withFetchWord 24 0x00401)) = some .portDown ∧
    refusalOf (step (State.reset.withFetchWord 8 0x30)) = some .unknownOp := by decide

/-! Several calls at once (20_memory R93, R96): a handle on I2C1 and one on I2C2, both brought up. -/

/-- Two ports brought up in POLLED mode, handles 0 and 1, with calls pending. -/
def twoPorts (turns : List (List Agent)) (requests : List Request) : State :=
  let s := ready .polled [] id
  { s with
    i2c2 := { s.i2c1 with refs := 1 }
    instances := s.instances ++ [some ⟨.i2c2, 0x51, MsgFlags.empty, 100000⟩]
    draws := draws (List.replicate 40 0) turns [0, 0, 0, 0]
    requests := requests }

/-- R93: while a recovery of I2C1 runs, a call on I2C2 begins and makes its first two moves; it stays a thread in the
middle of its call, with I2C2's lock. -/
theorem test_calls_interleave :
    after (exec (.opReset 0) (twoPorts ([[], [.caller], [.thread 0], [.thread 0]] ++ List.replicate 40 [])
      [encode (.opSetaddress 1 0x22 7)])) (fun t => (t.ret, t.i2c1.lock, t.i2c2.lock, t.requests)) =
      some (0, .free, .held 1, []) ∧
    after (exec (.opReset 0) (twoPorts ([[], [.caller], [.thread 0], [.thread 0]] ++ List.replicate 40 [])
      [encode (.opSetaddress 1 0x22 7)])) (·.threads) =
      some [⟨.opSetaddress 1 0x22 7, some .i2c2, [.inst ⟨.i2c2, 0x51, MsgFlags.empty, 100000⟩, .flag true]⟩] := by
  decide +kernel

/-- R96: a call that finds its lock held waits as a thread and does not keep another port's call from running; when the
lock is free again it goes on and returns. -/
theorem test_waiting_call_goes_on :
    let waiting : Thread := ⟨.opSetaddress 0 0x22 7, some .i2c1, [.inst ⟨.i2c1, 0x50, MsgFlags.empty, 100000⟩]⟩
    let s := { twoPorts [[.thread 0], [.thread 0], [], [], []] [encode (.opSetaddress 1 0x33 7)] with
      i2c1 := { (ready .polled [] id).i2c1 with lock := .held 9 }
      threads := [waiting] }
    after (step s) (fun t => (t.threads, t.returned)) = some ([waiting], []) ∧
    after (step s) (fun t => ((t.inst 1).map (·.address), t.i2c1.lock)) = some (some 0x33, .held 9) ∧
    after (step { s with
        i2c1 := (ready .polled [] id).i2c1
        requests := []
        draws := draws [] [[.thread 0, .thread 0, .thread 0]] [] })
      (fun t => (t.threads, t.returned, (t.inst 0).map (·.address))) =
      some ([], [⟨.opSetaddress 0 0x22 7, .value 0⟩], some 0x22) := by decide +kernel

/-- One byte written in INTERRUPT mode: three entries in the wait (R307, S1). -/
def interruptWrite : State :=
  { ready .interrupt [] id with
    mem := [(0x1000, 0xAA)]
    draws := draws [0x0001, 0x0001, 0x0001, 0x0001, 0x0000, 0x0001, 0x0001, 0x0001, 0x0082, 0x0003, 0x0084, 0x0001,
      0x0300, 0x0000] [[.entry .i2c1, .entry .i2c1, .entry .i2c1]] [0, 1] }

/-- Handle 0, which another thread's OP_INIT of I2C2 is about to open; I2C2's lock is held already. -/
def openingI2c2 (turns : List (List Agent)) (threads : List Thread) : State :=
  let s := State.launch (cfgOf .polled)
  { s with
    i2c2 := { s.i2c2 with refs := 1, lock := .held 7 }
    threads := threads
    draws := draws [] turns [0] }

/-- 00_scope R23, 60_exceptions R403, log entry 9: a call on a handle that another thread opens after the call began acts
on that handle's port: a thread from its first action on, and the instruction of a step, here one that then waits. -/
theorem test_call_on_a_handle_opened_meanwhile :
    let found : Thread := ⟨.opSetaddress 0 0x22 7, some .i2c2, [.inst (Inst.fresh .i2c2)]⟩
    after (step (openingI2c2 [[.thread 0, .thread 0]]
        [⟨.opInit .i2c2, some .i2c2, []⟩, ⟨.opSetaddress 0 0x22 7, none, []⟩])) (·.threads) = some [found] ∧
    after (exec (.opSetaddress 0 0x22 7) (openingI2c2 [[.thread 0]] [⟨.opInit .i2c2, some .i2c2, []⟩])) (·.threads) =
      some [found] := by decide +kernel

/-- The release of a handle opened after its thread began is refused under a held lock, and marks that handle's port. -/
theorem test_refusal_on_a_handle_opened_meanwhile :
    after (step (openingI2c2 [[.thread 0, .thread 0]] [⟨.opInit .i2c2, some .i2c2, []⟩, ⟨.opUninit 0, none, []⟩]))
      (fun t => (t.i2c1.refused, t.i2c2.refused, t.threads.isEmpty)) = some (false, true, true) := by decide +kernel

/-- R49, log entry 18: an entry of I2C2 that faults beside a call on I2C1 marks I2C2 only, and the call goes on; a request
on I2C2 then stops, but a mark left by a refusal stops none. -/
theorem test_marks_are_per_port :
    let s := { ready .interrupt [] id with
      i2c2 := { (ready .interrupt [] id).i2c1 with cr2Written := 0x0300, msgc := 1, lock := .held 7 }
      draws := draws [0] [[.entry .i2c2]] [] }
    after (exec (.opSetaddress 0 0x22 7) s)
      (fun t => (t.i2c1.faulted, t.i2c2.faulted, t.i2c2.refused, t.i2c3.faulted, (t.inst 0).map (·.address))) =
      some (false, true, false, false, some 0x22) ∧
    faultOf (step { s with i2c2 := { s.i2c2 with faulted := true }, requests := [encode (.traceDump .i2c2)] }) =
      some .markedFaulted ∧
    after (step { s with i2c2 := { s.i2c2 with faulted := true }, requests := [encode (.traceDump .i2c1)] })
      (·.i2c2.faulted) = some true ∧
    after (step { s with
        i2c2 := { s.i2c2 with refused := true }
        draws := draws [] [[]] []
        requests := [encode (.traceDump .i2c2)] })
      (·.i2c2.refused) = some true := by decide +kernel

/-- A caller releases I2C1's handle in the middle of a transfer of I2C1. -/
def releaseBeside : State :=
  { interruptWrite with
    requests := [encode (.opUninit 0)]
    draws := { interruptWrite.draws with
      turns := ⟨[[], [], [], [], [.caller, .thread 0], [.entry .i2c1, .entry .i2c1, .entry .i2c1]], 0⟩ } }

/-- 93 line 5, R341: that OP_UNINIT is refused; the refusal is returned to its caller, the port's mark is set, and the
transfer and its entries go on to their end. -/
theorem test_refused_release_stops_no_transfer :
    after (exec (.opWrite 0 0x1000 1) releaseBeside)
      (fun t => (t.ret, t.i2c1.refused, t.i2c1.dcnt, t.i2c1.msgv, t.i2c1.lock)) =
      some (0, true, -1, none, .free) ∧
    after (exec (.opWrite 0 0x1000 1) releaseBeside) (·.returned) =
      some [⟨.opUninit 0, .refused .uninitDuringTransfer⟩] := by decide +kernel

/-- 93 line 5, log entry 18: a transfer refused under its lock gives back the lock, its buffers and the FSMC clock bit; a
refused release of the same handle gives back nothing of that transfer's. -/
theorem test_refused_call_gives_back :
    let s := ready .polled [] fun b => { b with lock := .held 0, owning := true }
    let x : Inst := ⟨.i2c1, 0x50, MsgFlags.empty, 0⟩
    let a := s.givenBack ⟨.opWrite 0 0x1000 1, some .i2c1, [.inst x, .flag true, .flag true, .unit]⟩
    let b := s.givenBack ⟨.opUninit 0, some .i2c1, [.inst x]⟩
    (a.i2c1.lock, a.i2c1.owning, a.fsmcEn) = (.free, false, true) ∧
    (b.i2c1.lock, b.i2c1.owning, b.fsmcEn) = (.held 0, true, false) := by decide

/-- A transfer of the byte 0xAA at 0x1000 beside which an agent outside the block stores 0x55 there at the `n`-th point:
whether 0x55 was sent, what the byte holds in the end, whether no race is left. -/
def storeBeside (n : Nat) (races : List Bool) : Option (Bool × Byte × Bool) :=
  after (exec (.opWrite 0 0x1000 1) { polledWrite with
    stores := [(0x1000, 0x55)]
    draws := { polledWrite.draws with turns := ⟨List.replicate n [] ++ [[.store]], 0⟩, races := ⟨races, 0⟩ } })
    fun t => ((hist1 t).contains (.mrd 0x1000 0x55), t.mem.read 0x1000, t.races.isEmpty)

/-- R461, U6, D45: a store to the byte a transfer writes next; the engine sends either of the values written, and what the
byte holds in the end is either. Before the chain is installed a store is no race. -/
theorem test_race_over_a_written_byte :
    storeBeside 12 [false, false] = some (true, 0x55, true) ∧ storeBeside 12 [true, false] = some (false, 0x55, true) ∧
    storeBeside 12 [false, true] = some (true, 0xAA, true) ∧ storeBeside 0 [] = some (true, 0x55, true) := by
  decide +kernel

/-! Witnesses: concrete states and operands that meet the hypotheses of each statement that has any, clause by clause. -/

/-- An instruction goes on, and leaves this value. -/
theorem next_of_after {α : Type} {o : Host.Outcome State Fault Refusal} {f : State → α} {v : α}
    (h : after o f = some v) : ∃ t, o = .next t ∧ f t = v := by
  cases o with
  | next t => exact ⟨t, rfl, Option.some.inj h⟩
  | fault _ => cases h
  | refused _ => cases h

/-- The value a piece of a meaning answers. -/
def answerOf {α : Type} (r : EStateM.Result Stop State α) : Option α :=
  match r with
  | .ok a _ => some a
  | .error _ _ => none

theorem ok_of_answer {α : Type} {r : EStateM.Result Stop State α} {a : α} (h : answerOf r = some a) :
    ∃ t, r = .ok a t := by
  cases r with
  | ok b t => exact ⟨t, congrArg (EStateM.Result.ok · t) (Option.some.inj h)⟩
  | error _ _ => cases h

/-- How a piece of a meaning stops. -/
def stopOf {α : Type} (r : EStateM.Result Stop State α) : Option Stop :=
  match r with
  | .ok _ _ => none
  | .error e _ => some e

theorem error_of_stop {α : Type} {r : EStateM.Result Stop State α} {e : Stop} (h : stopOf r = some e) :
    ∃ t, r = .error e t := by
  cases r with
  | ok _ _ => cases h
  | error x t => exact ⟨t, congrArg (EStateM.Result.error · t) (Option.some.inj h)⟩

/-- The fault marks of I2C1 and I2C2 after a piece that went on. -/
def faultMarks (r : EStateM.Result Stop State Unit) : Option (Bool × Bool) :=
  match r with
  | .ok _ t => some (t.i2c1.faulted, t.i2c2.faulted)
  | .error _ _ => none

theorem coherent_idle {b : BusState} (hd : b.dcnt = -1) (hm : b.msgc = 0) (hc : b.count = b.msgs.length) :
    Coherent b where
  dcnt := by omega
  next := by omega
  count := hc
  cursor := by omega
  single := by omega

/-- Port I2C1 brought up and idle, in each mode. -/
def idle (m : Mode) : State := ready m (List.replicate 20 0) id

theorem coherent_of_idle (m : Mode) (p : Port) : Coherent ((idle m).bus p) := by
  cases p <;> exact coherent_idle rfl rfl rfl

theorem entryReady_of_idle (m : Mode) (p : Port) : EntryReady (idle m).cfg ((idle m).bus p) where
  coherent := coherent_of_idle m p
  chain := by cases p <;> exact fun _ h => absurd h (List.not_mem_nil)
  buffer := by cases p <;> exact Nat.zero_le _

theorem ready_of_idle (m : Mode) : Ready (idle m) where
  entry := entryReady_of_idle m
  clock := by cases m <;> intro p <;> cases p <;> decide

/-- A state of a read whose first byte of three is due, and one of a write whose only byte is due. -/
theorem entryReady_reading : EntryReady (cfgOf .polled) (reading 3 3 (BusState.launch (cfgOf .polled))) where
  coherent := ⟨by decide, fun h => absurd h (by decide), rfl, fun _ => by decide, fun _ h => absurd h (by decide)⟩
  chain := by
    intro m h
    cases List.mem_singleton.1 h
    exact ⟨by decide, by decide⟩
  buffer := by decide

theorem lockTaken_of_idle (m : Mode) : LockTaken (idle m) 0 ⟨.i2c1, 0x50, MsgFlags.empty, 100000⟩ where
  inst := by cases m <;> decide
  lock := by cases m <;> decide

theorem alone_of_idle (m : Mode) : Alone (idle m) where
  threads := by cases m <;> rfl
  requests := by cases m <;> rfl
  stores := by cases m <;> rfl
  entries := by cases m <;> intro p <;> cases p <;> decide

theorem solo_of_idle (m : Mode) : Solo (idle m) := (alone_of_idle m).toSolo

theorem witness_EncodedInstructionDecodes :
    (Instr.opTransfer 65535 [⟨2 ^ 32 - 1, ⟨true, true, true⟩, 2 ^ 32 - 1, 2 ^ 32 - 1⟩]).wellFormed = true ∧
    (Instr.traceEvent .i2c3 .done (-2 ^ 31)).wellFormed = true ∧
    (Instr.regGet .i2c1 (.unlisted 255)).wellFormed = true := by decide

theorem witness_DecodedInstructionIsWellFormed :
    decodeRequest (.op [0x01, 0x00, 0xFF]) = .ok (.regGet .i2c1 (.unlisted 255)) := by decide

theorem witness_OperationCodesAreTheTable :
    decodeRequest (.op (0x28 :: [0x02])) = .ok (.lifeDown .i2c3) ∧
    (∀ code ∈ ([0x00, 0x04, 0x0F, 0x19, 0x1F, 0x29, 0xFF] : List Byte), ∀ i : Instr, i.opCode ≠ some code) ∧
    (State.reset.withRequests [.op (0x04 :: [])]).settled.requests = [.op (0x04 :: [])] := by
  refine ⟨by decide, ?_, by decide⟩
  intro code h i
  simp only [List.mem_cons, List.not_mem_nil, or_false] at h
  rcases h with rfl | rfl | rfl | rfl | rfl | rfl | rfl <;> cases i <;> simp only [Instr.opCode] <;> decide

theorem witness_SelectorRowsAreTheirConditions : ∃ w w' : Selector,
    selector (cfgOf .polled) 0 (BusState.launch (cfgOf .polled)) = some w ∧
    selector (cfgOf .interrupt) 0x0044 (reading 5 3 (BusState.launch (cfgOf .interrupt))) = some w' ∧
    -1 ≤ (BusState.launch (cfgOf .polled)).dcnt ∧
    -1 ≤ (reading 5 3 (BusState.launch (cfgOf .interrupt))).dcnt :=
  ⟨0x02000, 0x03EAC, by decide, by decide, by decide, by decide⟩

/-- Clause 1 as the statement before it; clause 2 with each kind of reserved word; clause 3 at -2. -/
theorem witness_ReservedSelectorsFault :
    (0x20000 : Selector).extractLsb' 17 3 ≠ 0 ∧ (0x00200 : Selector).extractLsb' 8 3 = 2 ∧
    (0x00300 : Selector).extractLsb' 8 3 = 3 ∧ (0x0C000 : Selector).extractLsb' 14 2 = 3 ∧
    (State.reset.withRequests [.selector (Phase.branch.code ++ (0x20000 : Selector))]).settled.requests =
      [.selector (Phase.branch.code ++ (0x20000 : Selector))] ∧
    ((ready .polled [] fun b => { b with dcnt := -2 }).bus .i2c1).plat.clkEn = true ∧
    ((ready .polled [] fun b => { b with dcnt := -2 }).bus .i2c1).dcnt < -1 ∧
    ((ready .polled [] fun b => { b with dcnt := -2 }).bus .i2c1).msgc = 0 := by decide

/-- I2C1 stopped by a fault, and by a refusal only. -/
def marked (f r : Bool) : State :=
  let s := State.reset.withRequests [.op [0x24, 0x00]]
  { s with i2c1 := { s.i2c1 with faulted := f, refused := r } }

/-- Each clause: a request that decodes, nobody who may move, a request of each rejected kind, the marks, a table word. -/
theorem witness_StepRunsDecodedInstruction :
    (marked false false).settled.requests = [.op [0x24, 0x00]] ∧
    decodeRequest (.op [0x24, 0x00]) = .ok (.traceDump .i2c1) ∧
    (marked false false).settled.portOf (.traceDump .i2c1) = some .i2c1 ∧
    ((marked false false).settled.bus .i2c1).faulted = false ∧
    ((∀ p, canEnter State.reset p = false) ∧ State.reset.threads = [] ∧ State.reset.stores = []) ∧
    decodeRequest (.op [0x30]) = .error .unknownOp ∧ decodeRequest (.selector 0x200) = .error .badSelector ∧
    decodeRequest (.op []) = .error .truncated ∧ decodeRequest (.op [0x24, 0x03]) = .error .badOperand ∧
    ((marked true true).settled.bus .i2c1).faulted = true ∧ ((marked false true).settled.bus .i2c1).faulted = false ∧
    ((marked false true).settled.bus .i2c1).refused = true ∧
    decodeTableWord 8 0x28 = some (.lifeDown .i2c1) ∧ (State.reset.bus .i2c1).faulted = false := by
  refine ⟨by decide, by decide, by decide, by decide, ⟨?_, rfl, rfl⟩, by decide⟩
  intro p
  cases p <;> decide

/-- I2C1 with its interrupts enabled, an entry of it drawn. -/
def enterable : State :=
  { ready .interrupt [0x0001, 0x0001, 0x0401, 0x0000] (fun b => { reading 1 1 b with cr2Written := 0x0300 }) with
    draws := draws [0x0001, 0x0001, 0x0401, 0x0000] [[.entry .i2c1]] [0] }

/-- The same with a message missing and with one too long: its entry faults, and is refused. -/
def enterableFaulty (msgs : List Message) : State :=
  { enterable with i2c1 := { enterable.i2c1 with
      dcnt := -1, msgc := 1, msgv := some 0, msgs := msgs, count := msgs.length } }

/-- I2C1 in the middle of a read of four bytes at 0x1000, whose buffer another agent stores to: 0x55 at an offset. -/
def racing (offset : Nat) : State :=
  { ready .polled (List.replicate 8 0) (fun b => { reading 4 4 b with owning := true }) with
    mem := [(0x1002, 0x11)]
    stores := [(0x1000 + offset, 0x55)] }

/-- An OP_SETADDRESS of I2C2 that has found its instance. -/
def setaddressThread : Thread := ⟨.opSetaddress 1 0x22 7, some .i2c2, [.inst ⟨.i2c2, 0x51, MsgFlags.empty, 100000⟩]⟩

theorem placed_setaddressThread : setaddressThread.Placed :=
  .inr ⟨.i2c2, rfl, fun _ h => (nomatch h), fun _ _ => ⟨_, _, rfl, rfl⟩⟩

/-- A transfer of I2C1 that is at its first write, and that port's clock gated: a thread whose next action faults. -/
def gatedThread : State :=
  { State.launch (cfgOf .polled) with
    draws := draws [] [] [0]
    threads := [⟨.opProcess 0 [⟨0x50, MsgFlags.empty, 0x1000, 1⟩], some .i2c1,
      [.inst (Inst.fresh .i2c1), .flag true, .num 0]⟩] }

/-- An idle step; an entry that ends, one that faults, one that is refused; two agents; a thread of I2C2 in the middle of
its call and one that has made no move; a fault of an entry and of a thread, on the running instruction's port and on
another; a store into a transfer's buffer. -/
theorem witness_IdleStepRunsTheDrawnEntry :
    ((∀ p, canEnter State.reset p = false) ∧ State.reset.requests = [] ∧ State.reset.threads = [] ∧
      State.reset.stores = []) ∧
    (enterable.requests = [] ∧ canEnter enterable .i2c1 = true ∧
      enterable.draws.turns.peek Config.freeTurns = [.entry .i2c1]) ∧
    (∃ t, exec (.engEntry .i2c1) (enterable.withDraws { enterable.draws with
      turns := enterable.draws.turns.advance }) = .next t ∧ t.i2c1.faulted = false) ∧
    faultOf (exec (.engEntry .i2c1) (enterableFaulty [])) = some .badMsgv ∧
    refusalOf (exec (.engEntry .i2c1) (enterableFaulty [⟨0x50, MsgFlags.empty, 0x1000, 65536⟩])) =
      some .lengthTooLarge ∧
    (∃ t, runAgents none [.entry .i2c1] enterable = .ok () t) ∧
    (setaddressThread.Placed ∧ ∃ t, runAgent none (.thread 0) { twoPorts [] [] with threads := [setaddressThread] } =
      .ok () t) ∧
    (({ setaddressThread with port := none, past := [] } : Thread).Placed ∧
      ∃ t, runAgent none (.thread 0) { twoPorts [] [] with
        threads := [{ setaddressThread with port := none, past := [] }] } = .ok () t) ∧
    (∃ t, runAgent (some .i2c1) (.entry .i2c1) (enterableFaulty []) = .error (.fault .badMsgv) t) ∧
    (∃ t, runAgent (some .i2c1) (.thread 0) gatedThread = .error (.fault .portDown) t) ∧
    ((enterableFaulty []).i2c1.faulted = false ∧
      faultMarks (runAgent (some .i2c2) (.entry .i2c1) (enterableFaulty [])) = some (true, false)) ∧
    (gatedThread.i2c1.faulted = false ∧
      faultMarks (runAgent (some .i2c2) (.thread 0) gatedThread) = some (true, false)) ∧
    ((racing 3).stores = [(0x1003, 0x55)] ∧ (racing 3).mem.wf = true ∧ 0x1003 < 2 ^ (racing 3).cfg.addrWidth ∧
      ((racing 3).bus .i2c1).owning = true ∧ (racing 3).owned 0x1003 = true ∧ (racing 4).owned 0x1004 = false) := by
  refine ⟨⟨?_, rfl, rfl, rfl⟩, by decide, next_of_after (by decide +kernel), by decide, by decide,
    ok_of_answer (by decide +kernel), ⟨placed_setaddressThread, ok_of_answer (by decide +kernel)⟩,
    ⟨.inl rfl, ok_of_answer (by decide +kernel)⟩, error_of_stop (by decide +kernel), error_of_stop (by decide +kernel),
    by decide +kernel, by decide +kernel, by decide⟩
  intro p
  cases p <;> decide

theorem witness_HistoryOnlyGrows :
    (∃ t, step (State.reset.withFetchWord 8 0x26) = .next t) ∧ (∃ t, step enterable = .next t ∧ hist1 t ≠ []) ∧
    ∃ t, step (enterableFaulty []) = .next t ∧ t.i2c1.faulted = true := by
  refine ⟨?_, ?_, next_of_after (by decide +kernel)⟩
  · obtain ⟨t, h, -⟩ := next_of_after (o := step (State.reset.withFetchWord 8 0x26)) (f := fun _ => ()) (v := ())
      (by decide)
    exact ⟨t, h⟩
  · obtain ⟨t, h, ht⟩ := next_of_after (o := step enterable) (f := fun t => decide (hist1 t ≠ [])) (v := true)
      (by decide +kernel)
    exact ⟨t, h, of_decide_eq_true ht⟩

theorem witness_RegGetReads :
    (Reg.cr1 ∈ theRegisters ∧ Reg.trise ∈ theRegisters ∧ ((idle .polled).bus .i2c1).plat.clkEn = true) ∧
    (Reg.oar2 ∉ theRegisters ∧ Reg.unlisted 255 ∉ theRegisters) ∧ (State.reset.bus .i2c1).plat.clkEn = false := by
  decide

theorem witness_RegPutWrites :
    (Reg.cr1 ∈ theRegisters ∧ Reg.cr1 ≠ .sr2 ∧ Reg.sr1 ∈ theRegisters ∧ Reg.sr1 ≠ .sr2 ∧
      ((idle .polled).bus .i2c1).plat.clkEn = true) ∧
    Reg.oar2 ∉ theRegisters ∧ (State.reset.bus .i2c1).plat.clkEn = false := by decide

theorem witness_RegModifyReadsThenWrites :
    ((Reg.cr1 = .cr1 ∨ Reg.cr1 = .cr2) ∧ (Reg.cr2 = .cr1 ∨ Reg.cr2 = .cr2) ∧
      ((idle .polled).bus .i2c1).plat.clkEn = true) ∧
    Reg.oar2 ∉ theRegisters ∧ (Reg.dr ∈ theRegisters ∧ Reg.dr ≠ .cr1 ∧ Reg.dr ≠ .cr2) ∧
    (State.reset.bus .i2c1).plat.clkEn = false := by decide

theorem witness_RegisterAccessCorners :
    Reg.oar2 ∉ theRegisters ∧ (Reg.sr1 ∈ theRegisters ∧ Reg.sr1 ≠ .cr1 ∧ Reg.sr1 ≠ .cr2) ∧
    ((idle .polled).bus .i2c1).plat.clkEn = true := by decide

/-- A chain of two messages of which the `i`-th is next; the second is as long as admitted, or one byte longer. -/
def chained (i n : Nat) : State := ready .polled [] fun b =>
  { b with
    msgs := [⟨0x50, MsgFlags.empty, 0x1000, 1⟩, ⟨0x50, MsgFlags.empty, 0x2000, n⟩]
    count := 2
    msgc := 2 - i
    msgv := some i }

theorem witness_AdvanceLatchesTheMessage :
    (chained 1 65535).entry.port = .i2c1 ∧ ((chained 1 65535).bus .i2c1).msgv = some 1 ∧
    1 < ((chained 1 65535).bus .i2c1).count ∧
    ((chained 1 65535).bus .i2c1).msgs[1]? = some ⟨0x50, MsgFlags.empty, 0x2000, 65535⟩ ∧
    65535 ≤ (chained 1 65535).cfg.maxLen ∧ (chained 1 65536).cfg.maxLen < 65536 ∧
    ((chained 2 1).bus .i2c1).msgv = some 2 ∧ ((chained 2 1).bus .i2c1).count ≤ 2 ∧
    ((idle .polled).bus .i2c1).msgv = none := by decide

theorem witness_SbAddrSendsTheAddress :
    (idle .polled).entry.port = .i2c1 ∧ ((idle .polled).bus .i2c1).plat.clkEn = true := by decide

theorem witness_EmptyMessageAndAddressNack :
    (idle .interrupt).entry.port = .i2c1 ∧ ((idle .interrupt).bus .i2c1).plat.clkEn = true := by decide

theorem witness_ReadAddressClearOrder :
    (idle .polled).entry.port = .i2c1 ∧ ((idle .polled).bus .i2c1).plat.clkEn = true := by decide

/-- A read or write under way, its entry's SR1 value as given. -/
def inEntry (sr1 : Half) (f : BusState → BusState) : State :=
  { ready .polled (List.replicate 8 0) f with entry := ⟨.i2c1, sr1, sr1.setWidth 32⟩ }

/-- The last byte of the buffer, with ADDR seen and without. -/
theorem witness_WriteByteSendsTheByte :
    (inEntry 0x0082 (writing 1 1 MsgFlags.empty)).entry.port = .i2c1 ∧
    (inEntry 0x0082 (writing 1 1 MsgFlags.empty)).addrSeen = true ∧
    (inEntry 0x0080 (writing 1 1 MsgFlags.empty)).addrSeen = false ∧
    ((inEntry 0x0082 (writing 1 1 MsgFlags.empty)).bus .i2c1).plat.clkEn = true ∧
    CursorHolds (cfgOf .polled) ((inEntry 0x0082 (writing 1 1 MsgFlags.empty)).bus .i2c1) 1 :=
  ⟨by decide, by decide, by decide, by decide, by unfold CursorHolds; decide⟩

theorem witness_WriteMessageEnds :
    (inEntry 0x0084 (writing 1 0 ⟨false, true, false⟩)).entry.port = .i2c1 ∧
    ((inEntry 0x0084 (writing 1 0 ⟨false, true, false⟩)).bus .i2c1).plat.clkEn = true ∧
    ((inEntry 0x0084 (writing 1 0 ⟨false, true, false⟩)).bus .i2c1).message =
      some ⟨0x50, ⟨false, true, false⟩, 0x2000, 1⟩ := by decide

theorem witness_ReadOneByteStoresIt :
    (inEntry 0x0044 (reading 1 0)).entry.port = .i2c1 ∧
    ((inEntry 0x0044 (reading 1 0)).bus .i2c1).plat.clkEn = true ∧
    CursorHolds (cfgOf .polled) ((inEntry 0x0044 (reading 1 0)).bus .i2c1) 1 ∧
    (inEntry 0x0044 (reading 1 0)).mem.wf = true :=
  ⟨by decide, by decide, by unfold CursorHolds; decide, by decide⟩

theorem witness_ReadLastTwoStoresThem :
    (inEntry 0x0044 (reading 2 2)).entry.port = .i2c1 ∧
    ((inEntry 0x0044 (reading 2 2)).bus .i2c1).plat.clkEn = true ∧
    CursorHolds (cfgOf .polled) ((inEntry 0x0044 (reading 2 2)).bus .i2c1) 2 ∧
    (inEntry 0x0044 (reading 2 2)).mem.wf = true :=
  ⟨by decide, by decide, by unfold CursorHolds; decide, by decide⟩

theorem witness_ReadWaitsAndReadError :
    (inEntry 0x0040 (reading 2 2)).entry.port = .i2c1 ∧
    ((inEntry 0x0040 (reading 2 2)).bus .i2c1).plat.clkEn = true := by decide

/-- A byte another port's engine, or nobody's, may store without a race and with one, first and last of the buffer; a
byte under a race that some transfer owns and one that none does; cursors one past the buffer, on its last byte, and in an
address space of four bits at its end. -/
theorem witness_BufferOverrunFaults :
    let a := inEntry 0x0084 fun b => { writing 1 1 MsgFlags.empty b with ptr := 0x1001 }
    let c := inEntry 0x0044 fun b => { reading 2 2 b with ptr := 0x1001 }
    let e := { inEntry 0x0044 fun b => { reading 2 2 b with ptr := 16, curBuf := 15 } with
      cfg := { cfgOf .polled with addrWidth := 4 } }
    (a.entry.port = .i2c1 ∧ (a.bus .i2c1).plat.clkEn = true ∧
      ¬((a.bus .i2c1).curBuf ≤ (a.bus .i2c1).ptr ∧
        (a.bus .i2c1).ptr < (a.bus .i2c1).curBuf + (a.bus .i2c1).totalMsgLen)) ∧
    (c.entry.port = .i2c1 ∧ (c.bus .i2c1).plat.clkEn = true ∧ (c.bus .i2c1).curBuf ≤ (c.bus .i2c1).ptr ∧
      (c.bus .i2c1).ptr + 1 = (c.bus .i2c1).curBuf + (c.bus .i2c1).totalMsgLen ∧
      (c.bus .i2c1).ptr < 2 ^ c.cfg.addrWidth) ∧
    (e.entry.port = .i2c1 ∧ (e.bus .i2c1).plat.clkEn = true ∧ (e.bus .i2c1).curBuf ≤ (e.bus .i2c1).ptr ∧
      (e.bus .i2c1).ptr < (e.bus .i2c1).curBuf + (e.bus .i2c1).totalMsgLen ∧
      2 ^ e.cfg.addrWidth ≤ (e.bus .i2c1).ptr) ∧
    ((racing 0).mem.wf = true ∧ (racing 0).ownedByOther none 0x1000 = true ∧
      (racing 0).ownedByOther (some .i2c2) 0x1003 = true ∧ (racing 0).ownedByOther (some .i2c1) 0x1000 = false ∧
      (racing 0).ownedByOther none 0x1004 = false ∧ (racing 0).raceOf 0x1004 = []) ∧
    (((racing 0).withRaces [(0x1000, 7)]).owned 0x1000 = true ∧ ((racing 0).withRaces [(0x1004, 7)]).owned 0x1004 = false ∧
      ((racing 0).withRaces [(0x1004, 7)]).raceOf 0x1004 = [7]) := by decide

theorem witness_EmptyTerminationAndFallbacks : State.reset.entry.port = .i2c1 := rfl

/-- A waiter waits, and none does. -/
theorem witness_TerminalHandlingCapturesStatus :
    (idle .interrupt).entry.port = .i2c1 ∧ ((idle .interrupt).bus .i2c1).plat.clkEn = true ∧
    ((idle .interrupt).bus .i2c1).intstate ≠ .waiting ∧
    ((ready .interrupt [] fun b => { b with intstate := .waiting }).bus .i2c1).intstate = .waiting := by decide

/-- A sub-case that reads SR2, and one that does not. -/
theorem witness_SubcaseFrame :
    (inEntry 0x0044 (reading 2 2)).entry.port = .i2c1 ∧
    (∃ t, exec Subcase.rnFinal.instr (inEntry 0x0044 (reading 2 2)) = .next t ∧ t.i2c1.ptr = 0x1002) ∧
    Subcase.addrNack.readsSr2 (inEntry 0x0400 (reading 1 1)).addrSeen = false ∧
    Subcase.wStop.readsSr2 (inEntry 0x0084 (writing 1 0 MsgFlags.empty)).addrSeen = false ∧
    ∃ t, exec Subcase.addrNack.instr (inEntry 0x0400 (reading 1 1)) = .next t ∧ t.i2c1.dcnt = -1 :=
  ⟨rfl, next_of_after (by decide +kernel), by decide, by decide, next_of_after (by decide +kernel)⟩

/-- An idle port, and a read under way. -/
theorem witness_EntryCompletes :
    EntryReady (idle .polled).cfg ((idle .polled).bus .i2c1) ∧ ((idle .polled).bus .i2c1).plat.clkEn = true ∧
    EntryReady (cfgOf .polled) (reading 3 3 (BusState.launch (cfgOf .polled))) :=
  ⟨entryReady_of_idle .polled .i2c1, by decide, entryReady_reading⟩

theorem witness_EntryRunsItsStages :
    EntryReady (idle .interrupt).cfg ((idle .interrupt).bus .i2c1) ∧
    ((idle .interrupt).bus .i2c1).plat.clkEn = true :=
  ⟨entryReady_of_idle .interrupt .i2c1, by decide⟩

/-- A two-byte read's final entry. -/
theorem final_entry : ∃ t, exec (.engEntry .i2c1) (ready .polled [0x0044, 0x0801, 0x0011, 0x0022, 0x0003]
    (reading 2 2)) = .next t ∧ t.mem = [(0x1000, 0x11), (0x1001, 0x22)] :=
  next_of_after (by decide +kernel)

theorem witness_EntryReadsSr1OnceFirst : ∃ s t p, exec (.engEntry p) s = .next t :=
  ⟨_, _, _, final_entry.choose_spec.1⟩

theorem witness_EntryIsolation : ∃ s t p, exec (.engEntry p) s = .next t ∧ t.mem ≠ s.mem :=
  ⟨_, _, _, final_entry.choose_spec.1, by rw [final_entry.choose_spec.2]; decide⟩

/-- 100 kHz, the most of standard mode, and 100001 Hz, the least of fast mode. -/
theorem witness_ClockProgramWritesTheFormulas :
    Alone (idle .polled) ∧ ((idle .polled).bus .i2c1).plat.clkEn = true ∧ (100000 : Nat) ≠ 0 ∧
    max 4 (8000000 / (2 * 100000)) < 2 ^ (idle .polled).cfg.layout.ccr.width ∧
    8000000 / 1000000 + 1 < 2 ^ (idle .polled).cfg.layout.trise.width ∧
    max 1 (if (idle .polled).cfg.duty169 = true then 8000000 / (25 * 100001) else 8000000 / (3 * 100001))
      < 2 ^ (idle .polled).cfg.layout.ccr.width ∧
    8000000 / 1000000 * 300 / 1000 + 1 < 2 ^ (idle .polled).cfg.layout.trise.width :=
  ⟨alone_of_idle .polled, by decide⟩

/-- 8 MHz over 2 · 976 Hz is 4098; 63 MHz is the first clock whose rise time does not fit. -/
theorem witness_ClockProgramRefuses :
    Alone (idle .polled) ∧ ((idle .polled).bus .i2c1).plat.clkEn = true ∧
    2 ^ (idle .polled).cfg.layout.ccr.width ≤ (clockWords (idle .polled).cfg.duty169 8000000 976).ccr ∧
    (clockWords (idle .polled).cfg.duty169 63000000 100000).ccr < 2 ^ (idle .polled).cfg.layout.ccr.width ∧
    2 ^ (idle .polled).cfg.layout.trise.width ≤ (clockWords (idle .polled).cfg.duty169 63000000 100000).trise :=
  ⟨alone_of_idle .polled, by decide⟩

theorem witness_SetFrequencyStoresIt :
    Alone (idle .polled) ∧ LockTaken (idle .polled) 0 ⟨.i2c1, 0x50, MsgFlags.empty, 100000⟩ :=
  ⟨alone_of_idle .polled, lockTaken_of_idle .polled⟩

/-- A signal ends the next lock wait. -/
def signalled (s : State) : State := s.withDraws { s.draws with signals := ⟨[true], 0⟩ }

/-- I2C1's lock held by another handle. -/
def heldBy (o : Nat) : State := ready .polled [] fun b => { b with lock := .held o }

theorem alone_heldBy : Alone (heldBy 7) := ⟨⟨rfl, rfl, rfl⟩, by intro p; cases p <;> decide⟩

theorem alone_signalled : Alone (signalled (heldBy 7)) := ⟨⟨rfl, rfl, rfl⟩, by intro p; cases p <;> decide⟩

theorem witness_SetAddressStoresIt :
    (Alone (idle .polled) ∧ LockTaken (idle .polled) 0 ⟨.i2c1, 0x50, MsgFlags.empty, 100000⟩) ∧
    Alone (signalled (heldBy 7)) ∧
    (signalled (heldBy 7)).inst 0 = some ⟨.i2c1, 0x50, MsgFlags.empty, 100000⟩ ∧
    ((signalled (heldBy 7)).bus .i2c1).lock = .held 7 ∧ (signalled (heldBy 7)).noSignal = false :=
  ⟨⟨alone_of_idle .polled, lockTaken_of_idle .polled⟩, alone_signalled, by decide, by decide, by decide⟩

/-- A transfer and a frequency change that wait, a wait that a signal ends, a free lock. -/
theorem witness_LockWaits :
    Alone (heldBy 7) ∧
    (interruptibleCall (heldBy 7) (.opWrite 0 0x1000 1) = some 0 ∧ (heldBy 7).noSignal = true) ∧
    (∃ f, Instr.opSetfrequency 0 400000 = .opSetfrequency 0 f) ∧
    ((heldBy 7).inst 0 = some ⟨.i2c1, 0x50, MsgFlags.empty, 100000⟩ ∧ ((heldBy 7).bus .i2c1).lock = .held 7) ∧
    (Alone (signalled (heldBy 7)) ∧ interruptibleCall (signalled (heldBy 7)) (.opReset 0) = some 0 ∧
      (signalled (heldBy 7)).noSignal = false) ∧
    ((idle .polled).bus .i2c1).lock = .free :=
  ⟨alone_heldBy, by decide, ⟨_, rfl⟩, by decide, ⟨alone_signalled, by decide, by decide⟩, by decide⟩

/-- A chain at the bounds: the longest message, and one that ends at the last address. -/
theorem witness_TransferCompletes :
    Ready (idle .interrupt) ∧ Solo (idle .interrupt) ∧
    callOf (idle .interrupt) (.opTransfer 0 [⟨0x50, MsgFlags.empty, 0, 65535⟩, ⟨0x50, MsgFlags.empty, 2 ^ 32 - 1, 1⟩]) =
      some (0, [⟨0x50, MsgFlags.empty, 0, 65535⟩, ⟨0x50, MsgFlags.empty, 2 ^ 32 - 1, 1⟩]) ∧
    LockTaken (idle .interrupt) 0 ⟨.i2c1, 0x50, MsgFlags.empty, 100000⟩ ∧
    (∀ m ∈ [Message.mk 0x50 MsgFlags.empty 0 65535, ⟨0x50, MsgFlags.empty, 2 ^ 32 - 1, 1⟩],
      Admissible (idle .interrupt).cfg m) ∧
    ClockFits (idle .interrupt).cfg 100000 ∧ ((idle .interrupt).bus .i2c1).plat.clkEn = true := by
  refine ⟨ready_of_idle .interrupt, solo_of_idle .interrupt, by decide, lockTaken_of_idle .interrupt, ?_, ?_, by decide⟩
  · unfold Admissible
    decide
  · unfold ClockFits
    decide

theorem errnoPositive_standard : ErrnoPositive Errno.standard := by
  intro k h
  cases k <;> first | exact absurd rfl h | decide

theorem witness_SuccessLeavesThePortIdle :
    callOf polledWrite (.opWrite 0 0x1000 1) = some (0, [⟨0x50, MsgFlags.empty, 0x1000, 1⟩]) ∧
    Solo polledWrite ∧ LockTaken polledWrite 0 ⟨.i2c1, 0x50, MsgFlags.empty, 100000⟩ ∧ ErrnoPositive polledWrite.cfg.errno ∧
    (polledWrite.bus .i2c1).intstate ≠ .done ∧
    ∃ t, exec (.opWrite 0 0x1000 1) polledWrite = .next t ∧ t.ret = 0 :=
  ⟨by decide, ⟨rfl, rfl, rfl⟩, ⟨by decide, by decide⟩, errnoPositive_standard, by decide,
    next_of_after (by decide +kernel)⟩

theorem witness_CallersAreProcess :
    (Solo (idle .polled) ∧ (idle .polled).inst 0 = some ⟨.i2c1, 0x50, MsgFlags.empty, 100000⟩ ∧
      ((idle .polled).bus .i2c1).lock = .free ∧ (idle .polled).cfg.transferOn = true) ∧
    (Solo (signalled (heldBy 7)) ∧ (signalled (heldBy 7)).noSignal = false) ∧
    Alone (State.launch { Config.standard with transferOn := false }) ∧
    (State.launch { Config.standard with transferOn := false }).cfg.transferOn = false :=
  ⟨⟨solo_of_idle .polled, by decide, by decide, by decide⟩, ⟨alone_signalled.toSolo, by decide⟩,
    ⟨⟨rfl, rfl, rfl⟩, by intro p; cases p <;> decide⟩, by decide⟩

theorem witness_CallsRefused :
    (Alone State.reset ∧ State.reset.inst 0 = none ∧ State.reset.cfg.recoveryOn = true ∧
      State.reset.cfg.transferOn = true) ∧
    (Alone (idle .polled) ∧ (idle .polled).inst 0 = some ⟨.i2c1, 0x50, MsgFlags.empty, 100000⟩) ∧
    Alone (State.launch { Config.standard with recoveryOn := false, transferOn := false }) ∧
    (State.launch { Config.standard with recoveryOn := false }).cfg.recoveryOn = false :=
  ⟨⟨⟨⟨rfl, rfl, rfl⟩, by intro p; cases p <;> decide⟩, by decide⟩, ⟨alone_of_idle .polled, by decide⟩,
    ⟨⟨rfl, rfl, rfl⟩, by intro p; cases p <;> decide⟩, by decide⟩

theorem witness_TransferStartAccesses :
    Alone (idle .interrupt) ∧ (idle .interrupt).inst 0 = some ⟨.i2c1, 0x50, MsgFlags.empty, 100000⟩ ∧
    ((idle .interrupt).bus .i2c1).plat.clkEn = true ∧ ClockFits (idle .interrupt).cfg 100000 :=
  ⟨alone_of_idle .interrupt, by decide, by decide, by unfold ClockFits; decide⟩

/-- STOP clear at once; STOP set and TIMEOUT set; STOP set and TIMEOUT clear in the one round there is: it expires. -/
theorem witness_StopSettleOnlyReads :
    (Alone (idle .polled) ∧ ((idle .polled).bus .i2c1).plat.clkEn = true) ∧
    has ((idle .polled).regAt 0) (idle .polled).cfg.layout.stop = false ∧
    (has ((ready .polled [0x0200, 0x4000] id).regAt 0) (cfgOf .polled).layout.stop = true ∧
      has ((ready .polled [0x0200, 0x4000] id).regAt 1) (cfgOf .polled).layout.timeout = true) ∧
    ((ready .polled [0x0200, 0x0000] id).draws.waits.peek Config.freeWait = 0 ∧
      (ready .polled [0x0200, 0x0000] id).stillSettling 0) :=
  ⟨⟨alone_of_idle .polled, by decide⟩, by decide, by decide, ⟨by decide, by unfold State.stillSettling; decide⟩⟩

theorem witness_TransferResultPaths :
    Alone (idle .interrupt) ∧ ((idle .interrupt).bus .i2c1).plat.clkEn = true :=
  ⟨alone_of_idle .interrupt, by decide⟩

/-- A port in the middle of an INTERRUPT wait, its transfer over: the entry drawn next sets DONE and posts. -/
def waitingPort : State :=
  { ready .interrupt [] (fun b => { b with intstate := .waiting, cr2Written := 0x0300 }) with
    draws := draws (List.replicate 8 0) [[.entry .i2c1]] [0] }

/-- What a point leaves in I2C1's semaphore and handshake. -/
def postLeft (r : EStateM.Result Stop State Unit) : Option (Nat × IntState) :=
  match r with
  | .ok _ t => some (t.i2c1.sem, t.i2c1.intstate)
  | .error _ _ => none

/-- I2C1 with a number of posts and a handshake. -/
def posted (n : Nat) (x : IntState) : State := ready .polled (List.replicate 8 0) fun b => { b with sem := n, intstate := x }

/-- Each loop succeeds somewhere; the wait opens; a wait with no further round and nobody drawn expires; an entry that
leaves DONE and one that does not; posts with and without DONE, and none; an entry that posts at the last point; each wait
ends somewhere. -/
theorem witness_CompletionNeedsDone :
    (∃ t, drive none (takeLoop .i2c1 0) (posted 1 .done) = .ok true t) ∧
    (∃ t, drive none (polledLoop .i2c1 0) (idle .polled) = .ok true t) ∧
    (Alone (idle .interrupt) ∧ ((idle .interrupt).bus .i2c1).plat.clkEn = true ∧
      ((idle .interrupt).bus .i2c1).sem = 0) ∧
    (∀ j, j ≤ (idle .interrupt).draws.waits.peek Config.freeWait + 1 →
      (idle .interrupt).draws.turns.nth Config.freeTurns j = []) ∧
    (Masked (idle .polled) ∧ (∃ u, exec (.engEntry .i2c1) (idle .polled) = .next u ∧ u.i2c1.intstate = .done) ∧
      ∃ u, exec (.engEntry .i2c1) (ready .polled (List.replicate 8 0) (reading 3 3)) = .next u ∧
        u.i2c1.intstate = .idle) ∧
    (Alone (posted 1 .done) ∧ Alone (posted 1 .waiting) ∧ Alone (posted 0 .done)) ∧
    postLeft (window none waitingPort) = some (1, .done) ∧
    (∃ t, drive none (completionWait (cfgOf .polled) .i2c1 []) (idle .polled) = .ok true t) ∧
    (∃ t, drive none (waitPolled (cfgOf .polled) .i2c1 []) (idle .polled) = .ok true t) ∧
    ∃ t, drive none (waitInterrupt (cfgOf .interrupt) .i2c1 []) (idle .interrupt) = .ok false t := by
  refine ⟨ok_of_answer (by decide +kernel), ok_of_answer (by decide +kernel),
    ⟨alone_of_idle .interrupt, by decide, by decide⟩, ?_,
    ⟨.inr ⟨rfl, solo_of_idle .polled⟩, next_of_after (by decide +kernel), next_of_after (by decide +kernel)⟩,
    ⟨⟨⟨rfl, rfl, rfl⟩, by intro p; cases p <;> decide⟩, ⟨⟨rfl, rfl, rfl⟩, by intro p; cases p <;> decide⟩,
      ⟨rfl, rfl, rfl⟩, by intro p; cases p <;> decide⟩,
    by decide +kernel, ok_of_answer (by decide +kernel), ok_of_answer (by decide +kernel),
    ok_of_answer (by decide +kernel)⟩
  have h : ∀ j, j < 2 → (idle .interrupt).draws.turns.nth Config.freeTurns j = [] := by decide
  exact fun j hj => h j (Nat.lt_succ_of_le hj)

theorem witness_LateInterruptIsNoOp :
    callOf interruptWrite (.opWrite 0 0x1000 1) = some (0, [⟨0x50, MsgFlags.empty, 0x1000, 1⟩]) ∧
    Solo interruptWrite ∧ LockTaken interruptWrite 0 ⟨.i2c1, 0x50, MsgFlags.empty, 100000⟩ ∧ interruptWrite.cfg.mode = .interrupt ∧
    ∃ t, exec (.opWrite 0 0x1000 1) interruptWrite = .next t ∧
      (t.ret, t.i2c1.dcnt, t.i2c1.sem, t.i2c1.intstate, t.i2c1.cr2Written) = (0, -1, 0, .idle, 0) :=
  ⟨by decide, ⟨rfl, rfl, rfl⟩, ⟨by decide, by decide⟩, by decide, next_of_after (by decide +kernel)⟩

/-- Nobody's transfer but I2C1's is under way and no race is left over; the chain reads into no buffer. -/
theorem witness_TransferFrame :
    callOf polledWrite (.opWrite 0 0x1000 1) = some (0, [⟨0x50, MsgFlags.empty, 0x1000, 1⟩]) ∧
    Solo polledWrite ∧ LockTaken polledWrite 0 ⟨.i2c1, 0x50, MsgFlags.empty, 100000⟩ ∧ polledWrite.cfg.mode = .polled ∧
    (∀ q, q ≠ .i2c1 → (polledWrite.bus q).owning = false) ∧ polledWrite.races = [] ∧
    ¬InReadBuffer [⟨0x50, MsgFlags.empty, 0x1000, 1⟩] 0x1000 ∧
    ∃ t, exec (.opWrite 0 0x1000 1) polledWrite = .next t ∧ t.ret = 0 :=
  ⟨by decide, ⟨rfl, rfl, rfl⟩, ⟨by decide, by decide⟩, by decide,
    by intro q h; cases q <;> first | exact absurd rfl h | rfl, rfl, by unfold InReadBuffer; decide,
    next_of_after (by decide +kernel)⟩

/-- A transfer of I2C1 under the FSMC workaround, the bit set before it. -/
def fsmcWrite : State := { polledWrite with
  cfg := { cfgOf .polled with fsmcWorkaround := true }
  fsmcEn := true
  draws := draws [0x0001, 0x0001, 0x0001, 0x0001, 0x0001, 0x0001, 0x0082, 0x0003, 0x0084, 0x0401, 0x0001] [] [5, 0] }

/-- A transfer with the workaround and one without, as a program and as OP_PROCESS. -/
theorem witness_FsmcClockBitRestored :
    Solo fsmcWrite ∧ fsmcWrite.cfg.fsmcWorkaround = true ∧
    (∃ t, exec (.opWrite 0 0x1000 1) fsmcWrite = .next t ∧ (t.ret, t.fsmcEn) = (0, true)) ∧
    (∃ t, drive (some .i2c1) (runTransfer fsmcWrite.cfg 0 ⟨.i2c1, 0x50, MsgFlags.empty, 100000⟩
      [⟨0x50, MsgFlags.empty, 0x1000, 1⟩]) fsmcWrite = .ok () t) ∧
    (polledWrite.cfg.fsmcWorkaround = false ∧
      ∃ t, drive (some .i2c1) (runTransfer polledWrite.cfg 0 ⟨.i2c1, 0x50, MsgFlags.empty, 100000⟩
        [⟨0x50, MsgFlags.empty, 0x1000, 1⟩]) polledWrite = .ok () t) ∧
    Solo polledWrite ∧ LockTaken polledWrite 0 ⟨.i2c1, 0x50, MsgFlags.empty, 100000⟩ ∧
    ∃ t, exec (.opProcess 0 [⟨0x50, MsgFlags.empty, 0x1000, 1⟩]) polledWrite = .next t ∧ t.ret = 0 :=
  ⟨⟨rfl, rfl, rfl⟩, rfl, next_of_after (by decide +kernel), ok_of_answer (by decide +kernel),
    ⟨rfl, ok_of_answer (by decide +kernel)⟩, ⟨rfl, rfl, rfl⟩, ⟨by decide, by decide⟩, next_of_after (by decide +kernel)⟩

theorem witness_InitOpensAHandle :
    (Alone (State.launch { Config.standard with ports := [.i2c1] }) ∧ Alone State.reset ∧ Alone (idle .polled)) ∧
    Port.i2c3 ∉ (State.launch { Config.standard with ports := [.i2c1] }).cfg.ports ∧
    (Port.i2c1 ∈ State.reset.cfg.ports ∧ (State.reset.bus .i2c1).refs = 0 ∧ BringUpFits State.reset.cfg) ∧
    (Port.i2c1 ∈ (idle .polled).cfg.ports ∧ 0 < ((idle .polled).bus .i2c1).refs) := by
  refine ⟨⟨⟨⟨rfl, rfl, rfl⟩, by intro p; cases p <;> decide⟩, ⟨⟨rfl, rfl, rfl⟩, by intro p; cases p <;> decide⟩,
    alone_of_idle .polled⟩, by decide, ⟨by decide, by decide, ?_⟩, by decide⟩
  unfold BringUpFits ClockFits
  decide

/-- I2C1 up with a number of references. -/
def shared (n : Nat) : State := ready .interrupt [] fun b => { b with refs := n }

theorem alone_shared : Alone (shared 0) ∧ Alone (shared 1) ∧ Alone (shared 2) := by
  refine ⟨⟨⟨rfl, rfl, rfl⟩, ?_⟩, ⟨⟨rfl, rfl, rfl⟩, ?_⟩, ⟨⟨rfl, rfl, rfl⟩, ?_⟩⟩ <;> intro p <;> cases p <;> decide

theorem witness_UninitReleasesAHandle :
    (Alone State.reset ∧ State.reset.inst 0 = none) ∧ (Alone (shared 0) ∧ Alone (shared 1) ∧ Alone (shared 2)) ∧ Alone (heldBy 7) ∧
    (shared 0).inst 0 = some ⟨.i2c1, 0x50, MsgFlags.empty, 100000⟩ ∧
    ((shared 0).bus .i2c1).refs = 0 ∧
    (0 < ((heldBy 7).bus .i2c1).refs ∧ ((heldBy 7).bus .i2c1).lock = .held 7) ∧
    (1 < ((shared 2).bus .i2c1).refs ∧ ((shared 2).bus .i2c1).lock = .free) ∧
    (((shared 1).bus .i2c1).refs = 1 ∧ ((shared 1).bus .i2c1).lock = .free ∧
      ((shared 1).bus .i2c1).plat.clkEn = true) :=
  ⟨⟨⟨⟨rfl, rfl, rfl⟩, by intro p; cases p <;> decide⟩, by decide⟩, alone_shared, alone_heldBy, by decide⟩

/-- At 64 MHz the clock does not fit CR2.FREQ. -/
theorem witness_LifeUpAndDown :
    Masked (idle .polled) ∧ Masked (State.reset.withIntsOff true) ∧ BringUpFits (idle .polled).cfg ∧
    2 ^ { Config.standard with pclk := 64000000 }.layout.freq.width ≤
      { Config.standard with pclk := 64000000 }.pclk / 1000000 ∧
    ((idle .polled).bus .i2c1).plat.clkEn = true := by
  refine ⟨.inr ⟨rfl, solo_of_idle .polled⟩, .inl rfl, ?_, by decide, by decide⟩
  unfold BringUpFits ClockFits
  decide

theorem witness_ResetAlwaysCompletes :
    Ready (idle .interrupt) ∧ Solo (idle .interrupt) ∧ (idle .interrupt).cfg.recoveryOn = true ∧
    LockTaken (idle .interrupt) 0 ⟨.i2c1, 0x50, MsgFlags.empty, 100000⟩ ∧ BringUpFits (idle .interrupt).cfg ∧
    ((idle .interrupt).bus .i2c1).plat.clkEn = true := by
  refine ⟨ready_of_idle .interrupt, solo_of_idle .interrupt, by decide, lockTaken_of_idle .interrupt, ?_, by decide⟩
  unfold BringUpFits ClockFits
  decide

/-- Port I2C1 idle, its pins' reads answering a list. -/
def pinsRead (levels : List Bool) : State :=
  (idle .polled).withDraws { (idle .polled).draws with pins := ⟨levels, 0⟩ }

/-- The levels a recovery's looks see: a list of rounds, each with its low looks at SCL, and the last look at SDA. -/
def levels (ws : List Nat) (b : Bool) : List Bool := ws.flatMap (fun w => false :: stretchLooks w) ++ [b]

theorem pinAt_of_looks {s : State} {l : List Bool} (h : ∀ k, k < l.length → l[k]? = some (s.pinAt k)) (k : Nat)
    (v : Bool) (e : l[k]? = some v) : s.pinAt k = v := by
  have hk := (List.getElem?_eq_some_iff.1 e).1
  exact Option.some.inj ((h k hk).symm.trans e)

/-- R343: SDA low once, SCL low twice before the pulse; the accesses in order. -/
theorem test_recovery_round :
    after (exec (.opReset 0) (pinsRead [false, false, false, true, true])) (fun t => (hist1 t).take 16) =
      some [.wr .cr1 0, .pin .sda true, .pinRead .sda false, .pinRead .scl false, .delay 10, .pinRead .scl false,
        .delay 10, .pinRead .scl true, .pin .scl false, .delay 10, .pin .scl true, .delay 10, .pinRead .sda true,
        .pin .sda false, .delay 10, .pin .scl false] := by decide +kernel

/-- SDA high at once; three rounds, with no low look, all low and ten low looks; ten rounds with SDA low to the last look;
a stretch wait that sees SCL low eleven times, and one that ends at the eleventh look; one pulse before SDA reads high. -/
theorem witness_RecoveryPulsesAreBounded :
    (Masked (pinsRead []) ∧ (pinsRead []).cfg.recoveryOn = true ∧
      LockTaken (pinsRead []) 0 ⟨.i2c1, 0x50, MsgFlags.empty, 100000⟩ ∧ BringUpFits (pinsRead []).cfg ∧
      ((pinsRead []).bus .i2c1).plat.clkEn = true) ∧
    (∀ k v, (levels [] true)[k]? = some v → (pinsRead (levels [] true)).pinAt k = v) ∧
    (∀ k v, (levels [0, 11, 10] true)[k]? = some v → (pinsRead (levels [0, 11, 10] true)).pinAt k = v) ∧
    (∀ k v, (levels (List.replicate 10 1) false)[k]? = some v →
      (pinsRead (levels (List.replicate 10 1) false)).pinAt k = v) ∧
    (∃ t, drive (some .i2c1) (stretchLoop .i2c1 10) (pinsRead (List.replicate 11 false)) = .ok () t) ∧
    (∃ t, drive (some .i2c1) (stretchLoop .i2c1 10) (pinsRead (List.replicate 10 false ++ [true])) =
      .ok () t) ∧
    Solo (idle .polled) ∧ ∃ t, exec (.opReset 0) (pinsRead [false, true, true]) = .next t ∧
      (t.i2c1.hist.count (.pin .scl false), t.i2c1.hist.count (.pinRead .scl true)) = (2, 1) := by
  refine ⟨⟨.inr ⟨rfl, rfl, rfl, rfl⟩, by decide, ⟨by decide, by decide⟩, ?_, by decide⟩,
    pinAt_of_looks (by decide +kernel), pinAt_of_looks (by decide +kernel), pinAt_of_looks (by decide +kernel),
    ok_of_answer (by decide +kernel), ok_of_answer (by decide +kernel), solo_of_idle .polled,
    next_of_after (by decide +kernel)⟩
  unfold BringUpFits ClockFits
  decide

theorem witness_LifecycleKeepsTransferFields :
    Masked (idle .polled) ∧ Alone (idle .polled) ∧ (∃ t, exec (.opReset 0) (idle .polled) = .next t ∧ t.ret = 0) ∧
    ∃ t, exec (.opUninit 0) (idle .polled) = .next t ∧ t.ret = 0 :=
  ⟨.inr ⟨rfl, solo_of_idle .polled⟩, alone_of_idle .polled, next_of_after (by decide +kernel),
    next_of_after (by decide +kernel)⟩

/-- A ring of two entries: the current one fresh, counted with one entry after it, counted and last. -/
theorem witness_TraceSampleRecords :
    let ring := fun (k : Nat) (e : TraceEntry) => { ready .polled [] fun b =>
      { b with trace := ⟨[⟨1, 2, .none, 0, 0⟩, TraceEntry.fresh].set k e, k, 0⟩ } with
        cfg := { cfgOf .polled with traceCap := 2 } }
    (ring 1 TraceEntry.fresh).cfg.traceOn = true ∧
    ((ring 1 TraceEntry.fresh).bus .i2c1).trace.cur < (ring 1 TraceEntry.fresh).cfg.traceCap ∧
    ((ring 1 TraceEntry.fresh).bus .i2c1).trace.ring.length = (ring 1 TraceEntry.fresh).cfg.traceCap ∧
    ((ring 1 TraceEntry.fresh).bus .i2c1).trace.ring[1]? = some TraceEntry.fresh ∧ TraceEntry.fresh.count = 0 ∧
    ((ring 0 ⟨1, 2, .none, 0, 0⟩).bus .i2c1).trace.ring[0]? = some ⟨1, 2, .none, 0, 0⟩ ∧
    ((ring 0 ⟨1, 2, .none, 0, 0⟩).bus .i2c1).trace.cur ≠ 2 - 1 ∧
    ((ring 1 ⟨1, 2, .none, 0, 0⟩).bus .i2c1).trace.ring[1]? = some ⟨1, 2, .none, 0, 0⟩ ∧
    ((ring 1 ⟨1, 2, .none, 0, 0⟩).bus .i2c1).trace.cur = 2 - 1 := by decide

theorem witness_TraceEventResetDump :
    (idle .polled).cfg.traceOn = true ∧
    ((idle .polled).bus .i2c1).trace.ring[((idle .polled).bus .i2c1).trace.cur]? = some TraceEntry.fresh ∧
    (quietly (idle .polled)).cfg.traceOn = false := by decide

theorem witness_TraceIsSideEffectFree :
    (ready .polled [] fun b => { b with trace := ⟨[], 3, 9⟩, log := [.traceOverflow] }).sansTrace =
      (ready .polled [] id).sansTrace ∧
    (ready .polled [] fun b => { b with trace := ⟨[], 3, 9⟩, log := [.traceOverflow] }) ≠ ready .polled [] id := by
  decide

theorem sound_reset : Sound State.reset where
  memory := rfl
  region := rfl
  count := by intro p; cases p <;> rfl
  ring := by intro p; cases p <;> exact ⟨rfl, .inr rfl⟩
  lines := by intro p; cases p <;> rfl
  mode := by intro p h; cases p <;> exact absurd h (by decide)
  threads := fun _ h => absurd h List.not_mem_nil

theorem settled_reset : Settled State.reset where
  sound := sound_reset
  ports := fun p _ =>
    { lock := by cases p <;> rfl
      refs := by cases p <;> rfl
      clock := by intro h; cases p <;> exact absurd h (by decide) }

theorem sound_withRequests {s : State} (h : Sound s) (qs : List Request) : Sound (s.withRequests qs) :=
  ⟨h.memory, h.region, h.count, h.ring, h.lines, h.mode, h.threads⟩

theorem witness_SoundKeptByStep :
    (∃ s t, Sound s ∧ step s = .next t ∧ t.i2c1.refs = 1) ∧
    ∃ t, Solo State.reset ∧ Settled State.reset ∧ exec (.opInit .i2c1) State.reset = .next t ∧ t.i2c1.refs = 1 := by
  obtain ⟨t, h, ht⟩ := next_of_after (o := step (State.reset.withRequests [.op [0x10, 0x00]]))
    (f := (·.i2c1.refs)) (v := 1) (by decide +kernel)
  obtain ⟨u, k, hu⟩ := next_of_after (o := exec (.opInit .i2c1) State.reset)
    (f := (·.i2c1.refs)) (v := 1) (by decide +kernel)
  exact ⟨⟨_, t, sound_withRequests sound_reset _, h, ht⟩, u, ⟨rfl, rfl, rfl⟩, settled_reset, k, hu⟩

theorem witness_CoherenceKept :
    (Instr.opWrite 0 0x1000 1).isSubcase = false ∧ (∀ x ∈ (idle .polled).threads, x.Placed) ∧
    (∀ p, ((idle .polled).bus p).live = true → Coherent ((idle .polled).bus p)) ∧
    ∃ t, exec (.traceDump .i2c1) (idle .polled) = .next t ∧ t.i2c1.dcnt = -1 :=
  ⟨rfl, fun _ h => absurd h List.not_mem_nil, fun p _ => coherent_of_idle .polled p, next_of_after (by decide)⟩

end Sys2Proof.Tests
end

section
/-! Operation codes (30_encoding R117): what a request that begins with a code decodes to, and how a code of no
operation is refused. -/

namespace Sys2Proof.Machine

/-- Whatever instruction `r` answers has the operation code `code`. -/
def AnswersCode (code : Byte) (r : Except Reject (Instr × List Byte)) : Prop :=
  ∀ i rest, r = .ok (i, rest) → i.opCode = some code

/-- Reading an operand does not change which operation is read. -/
theorem AnswersCode.bind {α : Type} {code : Byte} {x : Except Reject α} {f : α → Except Reject (Instr × List Byte)}
    (h : ∀ a, AnswersCode code (f a)) : AnswersCode code (x >>= f) := by
  cases x with
  | error e => exact fun _ _ he => nomatch he
  | ok a => exact h a

theorem AnswersCode.pure {code : Byte} {i : Instr} {bs : List Byte} (h : i.opCode = some code) :
    AnswersCode code (pure (i, bs)) := by
  rintro _ _ ⟨⟩
  exact h

theorem AnswersCode.error {code : Byte} {e : Reject} : AnswersCode code (.error e) := fun _ _ h => nomatch h

/-- R117, one case per row: the operands of a code are read into the operation of that code. -/
theorem decodeOperands_answersCode (code : Nat) (bs : List Byte) :
    AnswersCode (BitVec.ofNat 8 code) (decodeOperands code bs) := by
  unfold decodeOperands
  split
  case h_22 => exact .error
  all_goals
    repeat refine .bind fun _ => ?_
    exact .pure rfl

theorem opCode_of_decodeOperands {code : Byte} {bs : List Byte} {r : Instr × List Byte}
    (h : decodeOperands code.toNat bs = .ok r) : r.1.opCode = some code := by
  have hc := decodeOperands_answersCode code.toNat bs r.1 r.2 h
  rwa [BitVec.ofNat_toNat, BitVec.setWidth_eq] at hc

/-- Operand bytes that every operation of the table can be read from. -/
def zeroOperands : List Byte := List.replicate longestOp 0

/-- A code of no instruction is none of the table's codes: at each of those, `zeroOperands` would be read into an
instruction that has it. -/
theorem decodeOperands_unknownOp {code : Byte} (h : ∀ i : Instr, i.opCode ≠ some code) (bs : List Byte) :
    decodeOperands code.toNat bs = .error .unknownOp := by
  have hz : (decodeOperands code.toNat zeroOperands).isOk = false := by
    cases hd : decodeOperands code.toNat zeroOperands with
    | error e => rfl
    | ok r => exact absurd (opCode_of_decodeOperands hd) (h r.1)
  unfold decodeOperands
  split
  case h_22 => rfl
  all_goals
    rename_i hcode
    rw [hcode] at hz
    exact absurd hz (by decide)

/-- A request of an operation code is the operation its operands are read into. -/
theorem decodeRequest_op_cons (code : Byte) (bs : List Byte) :
    decodeRequest (.op (code :: bs)) = (decodeOperands code.toNat bs).map Prod.fst := by
  simp only [decodeRequest, decodeOp, take8, except_bind_ok]
  cases decodeOperands code.toNat bs <;> rfl

theorem opCode_of_decodeRequest_op {code : Byte} {bs : List Byte} {i : Instr}
    (h : decodeRequest (.op (code :: bs)) = .ok i) : i.opCode = some code := by
  rw [decodeRequest_op_cons] at h
  cases hd : decodeOperands code.toNat bs with
  | error e =>
    rw [hd] at h
    nomatch h
  | ok r =>
    rw [hd] at h
    cases h
    exact opCode_of_decodeOperands hd

theorem decodeRequest_op_unknownOp {code : Byte} (h : ∀ i : Instr, i.opCode ≠ some code) (bs : List Byte) :
    decodeRequest (.op (code :: bs)) = .error .unknownOp := by
  rw [decodeRequest_op_cons, decodeOperands_unknownOp h]
  rfl

/-- A table word of eight bits is the request of that code, zero operands after it. -/
theorem tableRequest_code (code : Byte) : ∃ bs, tableRequest 8 code.toNat = .op (code :: bs) :=
  ⟨bytesOfNat 10 (code.toNat / 256), by simp [tableRequest, longestOp, bytesOfNat]⟩

theorem decodeTableWord_unknownOp {code : Byte} (h : ∀ i : Instr, i.opCode ≠ some code) :
    decodeTableWord 8 code.toNat = none := by
  obtain ⟨bs, hw⟩ := tableRequest_code code
  rw [decodeTableWord, hw, decodeRequest_op_unknownOp h]
  rfl

/-- A step on a request that decodes to nothing stops as the decoder's reason says. -/
theorem step_of_decode_error {s : State} {q : Request} {qs : List Request} {e : Reject}
    (hq : s.settled.requests = q :: qs) (hd : decodeRequest q = .error e) : step s = rejected e := by
  simp only [step, runRequest, hq, hd]

/-- Settles O4: an operation decodes to an instruction of its code, and a code of no instruction is an unknown operation
both as a request and as a table word. -/
theorem operationCodesAreTheTable : Obligations.OperationCodesAreTheTable := by
  refine ⟨fun _ _ _ => opCode_of_decodeRequest_op, ?_, fun _ => decodeTableWord_unknownOp⟩
  intro s code bs qs h hq
  exact step_of_decode_error hq (decodeRequest_op_unknownOp h bs)

end Sys2Proof.Machine
end

section
/-! Register access (40_register_access R150 to R152): when an accessor stops and with which fault, and the frames of
the states a Get, a Put and a Modify leave. -/

namespace Sys2Proof.Machine

/-! The registers by kind. -/

/-- The accessors' own check is the spec's list of the eight registers. -/
theorem mapped_iff {r : Reg} : mapped r = true ↔ r ∈ theRegisters := by
  cases r <;> simp [mapped, theRegisters]

theorem isControl_iff {r : Reg} : isControl r = true ↔ r = .cr1 ∨ r = .cr2 := by
  cases r <;> simp [isControl]

theorem isControl_eq_false {r : Reg} (h₁ : r ≠ .cr1) (h₂ : r ≠ .cr2) : isControl r = false :=
  Bool.eq_false_iff.2 fun h => (isControl_iff.1 h).elim h₁ h₂

theorem ensure_false (f : Fault) (s : State) : ensure false f s = .error (.fault f) s := rfl

/-! Where an accessor stops. -/

theorem regGet_unmapped {s : State} {p : Port} {r : Reg} (hm : mapped r = false) :
    regGet p r s = .error (.fault .regUnmapped) s := by
  rw [regGet, hm]
  exact run_bind_error (ensure_false _ _)

theorem regGet_portDown {s : State} {p : Port} {r : Reg} (hm : mapped r = true)
    (hc : (s.bus p).plat.clkEn = false) : regGet p r s = .error (.fault .portDown) s := by
  rw [regGet, hm, run_bind_ok (ensure_true _ _), run_bind_ok (run_lookBus _ _ _), hc]
  exact run_bind_error (ensure_false _ _)

theorem regModify_unmapped {s : State} {p : Port} {r : Reg} {clr set : Half} (hm : mapped r = false) :
    regModify p r clr set s = .error (.fault .regUnmapped) s := by
  rw [regModify, hm]
  exact run_bind_error (ensure_false _ _)

theorem regModify_notControl {s : State} {p : Port} {r : Reg} {clr set : Half} (hm : mapped r = true)
    (hr : isControl r = false) : regModify p r clr set s = .error (.fault .modifyNotControl) s := by
  rw [regModify, hm, run_bind_ok (ensure_true _ _), hr]
  exact run_bind_error (ensure_false _ _)

/-- A Modify with the clock off stops at its read, so nothing is written. -/
theorem regModify_portDown {s : State} {p : Port} {r : Reg} {clr set : Half} (hr : isControl r = true)
    (hc : (s.bus p).plat.clkEn = false) : regModify p r clr set s = .error (.fault .portDown) s := by
  obtain ⟨hm, -⟩ := isControl_mapped hr
  rw [regModify, hm, run_bind_ok (ensure_true _ _), hr, run_bind_ok (ensure_true _ _)]
  exact run_bind_error (regGet_portDown hm hc)

/-! The register file after a write. -/

/-- R151: one register's write is seen in no other. -/
theorem Regs.at_written_of_ne (x : Regs) {q r : Reg} (v : Half) (h : q ≠ r) : (x.written r v).at q = x.at q := by
  cases r <;> cases q <;> trivial

theorem Regs.at_written_control (x : Regs) {r : Reg} (v : Half) (h : isControl r = true) :
    (x.written r v).at r = v := by
  obtain rfl | rfl := isControl_iff.1 h <;> rfl

/-! Frames: each lists what may change and says that the rest did not. -/

theorem EngineKeeps.trans {b c d : BusState} (h : EngineKeeps b c) (k : EngineKeeps c d) : EngineKeeps b d where
  refs := k.refs.trans h.refs
  faulted := k.faulted.trans h.faulted
  refused := k.refused.trans h.refused
  lock := k.lock.trans h.lock
  msgs := k.msgs.trans h.msgs
  count := k.count.trans h.count
  plat := k.plat.trans h.plat
  deadline := k.deadline.trans h.deadline
  owning := k.owning.trans h.owning

/-- A rule that touches no trace: it suffices that the history only got longer. -/
theorem RecorderKept.of_trace_eq {c : Config} {b b' : BusState} (hist : b.hist <+: b'.hist)
    (trace : b'.trace = b.trace) (log : b'.log = b.log) : RecorderKept c b b' where
  hist := hist
  length := by rw [trace]
  cur := by rw [trace]
  epoch := by rw [trace]
  others := fun _ _ => by rw [trace]
  off := fun _ => trace
  log := log

/-- The current entry stays the current one, so what the second rule leaves of the ring, the first did too. -/
theorem RecorderKept.trans {c : Config} {b b' b'' : BusState} (h : RecorderKept c b b')
    (k : RecorderKept c b' b'') : RecorderKept c b b'' where
  hist := h.hist.trans k.hist
  length := k.length.trans h.length
  cur := k.cur.trans h.cur
  epoch := k.epoch.trans h.epoch
  others := fun i hi => (k.others i (by rwa [h.cur])).trans (h.others i hi)
  off := fun hc => (k.off hc).trans (h.off hc)
  log := k.log.trans h.log

theorem Field.Same.trans {f : Field} {b c d : BusState} (h : f.Same b c) (k : f.Same c d) : f.Same b d := by
  cases f <;> exact Eq.trans k h

/-- Two rules in sequence change at most what either may. -/
theorem KeptBut.trans {c : Config} {fs fs' : List Field} {rs rs' : List Reg} {b b' b'' : BusState}
    (h : KeptBut c fs rs b b') (k : KeptBut c fs' rs' b' b'') : KeptBut c (fs ++ fs') (rs ++ rs') b b'' where
  engine := h.engine.trans k.engine
  recorder := h.recorder.trans k.recorder
  fields := fun f hf =>
    (h.fields f fun m => hf (List.mem_append_left _ m)).trans (k.fields f fun m => hf (List.mem_append_right _ m))
  regs := fun r hr =>
    (k.regs r fun m => hr (List.mem_append_right _ m)).trans (h.regs r fun m => hr (List.mem_append_left _ m))

theorem MemoryKept.trans {s t u : State} (h : MemoryKept s t) (k : MemoryKept t u) : MemoryKept s u where
  bytes := fun a => (k.bytes a).trans (h.bytes a)
  races := k.races.trans h.races

theorem OnlyPort.trans {p : Port} {fs fs' : List Field} {rs rs' : List Reg} {s t u : State}
    (h : OnlyPort p fs rs s t) (hcfg : t.cfg = s.cfg) (k : OnlyPort p fs' rs' t u) :
    OnlyPort p (fs ++ fs') (rs ++ rs') s u where
  port := h.port.trans (hcfg ▸ k.port)
  others := fun q hq => (k.others q hq).trans (h.others q hq)
  memory := h.memory.trans k.memory

/-- The answer kept in the state lies outside the ports and memory. -/
theorem OnlyPort.withRet {p : Port} {fs : List Field} {rs : List Reg} {s t : State} (h : OnlyPort p fs rs s t)
    (x : Int) : OnlyPort p fs rs s (t.withRet x) where
  port := by simpa using h.port
  others := fun q hq => by simpa using h.others q hq
  memory := ⟨h.memory.bytes, h.memory.races⟩

theorem OutsideKept.withRet {s t : State} (h : OutsideKept s t) (x : Int) :
    OutsideKept (s.withRet x) (t.withRet x) :=
  { h with ret := rfl }

/-! Frames of a Get, a Put and a Modify. -/

/-- An event appended to the history changes nothing else. -/
theorem KeptBut.record (c : Config) (b : BusState) (e : Event) : KeptBut c [] [] b (b.record e) where
  engine := by constructor <;> rfl
  recorder := .of_trace_eq (List.prefix_append _ _) rfl rfl
  fields := fun f _ => by cases f <;> rfl
  regs := fun _ _ => rfl

/-- R151: a write changes its register and, where that is CR2, the last value written to it. -/
theorem KeptBut.put (c : Config) (b : BusState) (r : Reg) (v : Half) :
    KeptBut c (if r = .cr2 then [.cr2Written] else []) [r] b (b.put r v) where
  engine := by constructor <;> rfl
  recorder := .of_trace_eq (List.prefix_append _ _) rfl rfl
  fields := fun f hf => by
    cases f with
    | cr2Written =>
      have hr : r ≠ .cr2 := fun hr => hf (by simp [hr])
      exact if_neg hr
    | _ => rfl
  regs := fun _ hq => Regs.at_written_of_ne _ _ (mt List.mem_singleton.2 hq)

theorem OnlyPort.gotReg (s : State) (p : Port) (r : Reg) : OnlyPort p [] [] s (s.gotReg p r) where
  port := by
    rw [State.gotReg_bus]
    exact .record _ _ _
  others := fun _ hq => State.gotReg_bus_of_ne s r hq
  memory := ⟨fun _ => by rw [State.gotReg_mem], State.gotReg_races s p r⟩

theorem OnlyPort.putReg (s : State) (p : Port) (r : Reg) (v : Half) :
    OnlyPort p (if r = .cr2 then [.cr2Written] else []) [r] s (s.putReg p r v) where
  port := by
    rw [State.putReg_bus]
    exact .put _ _ _ _
  others := fun _ hq => State.putReg_bus_of_ne s r v hq
  memory := ⟨fun _ => by rw [State.putReg_mem], State.putReg_races s p r v⟩

/-- R152: what a Modify may change is what its write may, for its read changes nothing but the history. -/
theorem OnlyPort.modReg (s : State) (p : Port) (r : Reg) (clr set : Half) :
    OnlyPort p (if r = .cr2 then [.cr2Written] else []) [r] s (s.modReg p r clr set) :=
  (OnlyPort.gotReg s p r).trans (State.gotReg_cfg s p r) (.putReg _ p r _)

theorem OutsideKept.gotReg (s : State) (p : Port) (r : Reg) : OutsideKept s (s.gotReg p r) := by
  constructor <;> simp

theorem OutsideKept.modReg (s : State) (p : Port) (r : Reg) (clr set : Half) :
    OutsideKept s (s.modReg p r clr set) := by
  constructor <;> simp

/-! The instructions. -/

theorem exec_regGet (p : Port) (r : Reg) (s : State) :
    exec (.regGet p r) s = finish (regGet p r >>= fun v => answer v.toNat) s := rfl

theorem exec_regModify (p : Port) (r : Reg) (clr set : Half) (s : State) :
    exec (.regModify p r clr set) s = finish (regModify p r clr set) s := rfl

/-- Settles O10: REG_GET answers the next draw and only appends its read to the history, or stops at the first check
that fails. -/
theorem regGetReads : Obligations.RegGetReads := by
  intro s p r
  simp only [exec_regGet, ← mapped_iff, Bool.not_eq_true]
  refine ⟨fun hm hc => ?_, fun hm _ => ?_, fun hm hc => ?_⟩
  · have hrun : (regGet p r >>= fun v => answer v.toNat) s =
        .ok () ((s.gotReg p r).withRet (s.regAt 0).toNat) :=
      run_bind_ok (regGet_run hm hc)
    exact ⟨_, finish_ok hrun, rfl, by simp, by simp, (OnlyPort.gotReg s p r).withRet _,
      (OutsideKept.gotReg s p r).withRet _⟩
  · exact finish_fault (run_bind_error (regGet_unmapped hm))
  · exact finish_fault (run_bind_error (regGet_portDown hm hc))

/-- Settles O12: REG_MODIFY of a control register is a Get, then a Put of the value read with the bits of `clr` cleared
and then those of `set` set, or it stops at the first check that fails. -/
theorem regModifyReadsThenWrites : Obligations.RegModifyReadsThenWrites := by
  intro s p r clr set
  simp only [exec_regModify, ← mapped_iff, ← isControl_iff, Bool.not_eq_true]
  refine ⟨fun hr hc => ?_, fun hm _ => ?_, fun hm h₁ h₂ _ => ?_, fun hr hc => ?_⟩
  · exact ⟨_, finish_ok (regModify_run hr hc), by simp [modified],
      by simpa [modified] using Regs.at_written_control _ _ hr, fun h => by simp [h, modified],
      .modReg s p r clr set, .modReg s p r clr set⟩
  · exact finish_fault (regModify_unmapped hm)
  · exact finish_fault (regModify_notControl hm (isControl_eq_false h₁ h₂))
  · exact finish_fault (regModify_portDown hr hc)

end Sys2Proof.Machine
end

section
/-! OP_SETFREQUENCY (41_clock_programmer R189): a call's actions on its handle and its lock where nobody else moves, and
the state the call leaves. -/

namespace Sys2Proof.Machine

/-! An open handle's entry after the updates of a call. -/

@[simp] theorem State.inst_withPast (s : State) (xs : List Ans) (d : Nat) : (s.withPast xs).inst d = s.inst d := rfl

@[simp] theorem State.inst_withRet (s : State) (x : Int) (d : Nat) : (s.withRet x).inst d = s.inst d := rfl

/-- The state with a handle's entry changed; a handle that is not open stays so. -/
def State.updatedInst (s : State) (d : Nat) (f : Inst → Inst) : State :=
  s.withInstances (s.instances.modify d (·.map f))

@[simp] theorem State.updatedInst_past (s : State) (d : Nat) (f : Inst → Inst) : (s.updatedInst d f).past = s.past := rfl

@[simp] theorem State.updatedInst_bus (s : State) (d : Nat) (f : Inst → Inst) (p : Port) :
    (s.updatedInst d f).bus p = s.bus p := by
  simp [State.updatedInst]

@[simp] theorem State.updatedInst_setBus (s : State) (d : Nat) (f : Inst → Inst) (p : Port) (b : BusState) :
    (s.updatedInst d f).setBus p b = (s.setBus p b).updatedInst d f := by
  simp [State.updatedInst]

@[simp] theorem State.withPast_updatedInst (s : State) (xs : List Ans) (d : Nat) (f : Inst → Inst) :
    (s.withPast xs).updatedInst d f = (s.updatedInst d f).withPast xs := rfl

@[simp] theorem State.withPast_withRet (s : State) (xs : List Ans) (x : Int) :
    (s.withPast xs).withRet x = (s.withRet x).withPast xs := rfl

theorem run_updInst (d : Nat) (f : Inst → Inst) (s : State) : updInst d f s = .ok () (s.updatedInst d f) := rfl

theorem State.inst_updatedInst (s : State) (d e : Nat) (f : Inst → Inst) :
    (s.updatedInst d f).inst e = if d = e then (s.inst e).map f else s.inst e := by
  simp only [State.inst, State.updatedInst, State.withInstances_instances, List.getElem?_modify]
  cases s.instances[e]? <;> split <;> rfl

theorem State.inst_updatedInst_of_ne (s : State) {d e : Nat} (f : Inst → Inst) (h : e ≠ d) :
    (s.updatedInst d f).inst e = s.inst e := by
  rw [State.inst_updatedInst, if_neg h.symm]

/-! Updates that let nobody else move. -/

/-- Whether an entry may start does not depend on the lock (60_exceptions R406). -/
@[simp] theorem canEnter_setBus_locked (s : State) (p q : Port) (d : Nat) :
    canEnter (s.setBus p ((s.bus p).locked d)) q = canEnter s q := by
  have hbus : (s.setBus p ((s.bus p).locked d)).bus q = if q = p then (s.bus q).locked d else s.bus q := by
    rw [State.bus_setBus]
    split
    · subst_vars; rfl
    · rfl
  simp only [canEnter, hbus, State.setBus_cfg, State.setBus_intsOff]
  split <;> rfl

@[simp] theorem canEnter_updatedInst (s : State) (d : Nat) (f : Inst → Inst) (q : Port) :
    canEnter (s.updatedInst d f) q = canEnter s q := by
  simp only [canEnter, State.updatedInst_bus]
  rfl

@[simp] theorem othersCanMove_withPast (s : State) (xs : List Ans) :
    othersCanMove (s.withPast xs) = othersCanMove s := by
  simp [othersCanMove, anyCanEnter]

@[simp] theorem othersCanMove_setBus_locked (s : State) (p : Port) (d : Nat) :
    othersCanMove (s.setBus p ((s.bus p).locked d)) = othersCanMove s := by
  simp [othersCanMove, anyCanEnter]

@[simp] theorem othersCanMove_updatedInst (s : State) (d : Nat) (f : Inst → Inst) :
    othersCanMove (s.updatedInst d f) = othersCanMove s := by
  simp only [othersCanMove, anyCanEnter, canEnter_updatedInst]
  rfl

/-! A call's actions on its handle and its lock, where nobody else may move. -/

theorem drive_theInst_quiet {s : State} {d : Nat} {x : Inst} (own : Option Port) (h : othersCanMove s = false)
    (hx : s.inst d = some x) : drive own (theInst d) s = .ok x (s.withPast (s.past ++ [.inst x])) := by
  have hget : getInst d s = .ok x s := by simp [getInst, run_bind, hx]
  rw [theInst, askInst, drive_act_quiet own _ _ h, run_bind_ok hget]
  rfl

/-- A free lock is taken at once (20_memory R96). -/
theorem drive_acquireRestart_quiet {s : State} {p : Port} (d : Nat) (own : Option Port) (h : othersCanMove s = false)
    (hl : (s.bus p).lock = .free) :
    drive own (acquireRestart p d) s =
      .ok () ((s.setBus p ((s.bus p).locked d)).withPast ((s.setBus p ((s.bus p).locked d)).past ++ [.unit])) :=
  drive_do_quiet own h (by simp [tryAcquireRestart, run_bind, hl])

theorem drive_updInst_quiet {s : State} (d : Nat) (f : Inst → Inst) (own : Option Port)
    (h : othersCanMove s = false) :
    drive own (act (updInst d f)) s =
      .ok () ((s.updatedInst d f).withPast ((s.updatedInst d f).past ++ [.unit])) :=
  drive_do_quiet own h (run_updInst d f s)

theorem drive_releaseAndReturn_quiet {s : State} (p : Port) (x : Int) (own : Option Port)
    (h : othersCanMove s = false) :
    drive own (releaseAndReturn p x) s =
      .ok () (((s.setBus p (s.bus p).unlocked).withRet x).withPast (s.past ++ [.unit])) := by
  rw [show s.past = ((s.setBus p (s.bus p).unlocked).withRet x).past by simp]
  exact drive_do_quiet own h rfl

/-- A free lock taken and released is the lock as it was. -/
theorem BusState.unlocked_locked {b : BusState} (d : Nat) (h : b.lock = .free) : (b.locked d).unlocked = b := by
  cases b
  cases h
  rfl

/-! The call. -/

/-- The state OP_SETFREQUENCY leaves: a frequency stored in the handle's entry, and returned. -/
def State.frequencySet (s : State) (d F : Nat) : State :=
  (s.updatedInst d fun y => { y with frequency := F }).withRet F

/-- Where nobody else moves and the lock is free, the call changes the handle's entry and the answer, and nothing else. -/
theorem drive_setFrequency_quiet {s : State} {d : Nat} {x : Inst} (c : Config) (f : Nat) (own : Option Port)
    (h : othersCanMove s = false) (hs : LockTaken s d x) :
    ∃ xs, drive own (setFrequency c d f) s = .ok () ((s.frequencySet d (storedFrequency c.pclk f)).withPast xs) := by
  refine ⟨s.past ++ [.inst x] ++ [.unit] ++ [.unit] ++ [.unit], ?_⟩
  simp only [setFrequency, drive_andThen]
  rw [run_bind_ok (drive_theInst_quiet own h hs.inst),
    run_bind_ok (drive_acquireRestart_quiet d own (by simpa using h) (by simpa using hs.lock)),
    run_bind_ok (drive_updInst_quiet d _ own (by simpa using h)),
    drive_releaseAndReturn_quiet _ _ own (by simpa using h)]
  simp [State.frequencySet, BusState.unlocked_locked d hs.lock]

theorem exec_opSetfrequency_quiet {s : State} {d : Nat} {x : Inst} (f : Nat) (h : othersCanMove s = false)
    (hs : LockTaken s d x) :
    exec (.opSetfrequency d f) s = .next ((s.frequencySet d (storedFrequency s.cfg.pclk f)).withPast []) := by
  obtain ⟨xs, hrun⟩ := drive_setFrequency_quiet (s := s.withPast []) s.cfg f (s.portOf (.opSetfrequency d f))
    (by simpa using h) ⟨hs.inst, by simpa using hs.lock⟩
  have hcall : driveCall (.opSetfrequency d f) (setFrequency s.cfg d f) (s.withPast []) = _ :=
    (driveCall_quiet (by simpa using h) _).trans hrun
  exact (call_ok (f := (setFrequency · d f)) hcall).trans rfl

/-- Settles O33: where nobody else moves and the lock is free, OP_SETFREQUENCY stores its frequency in its handle's
entry and returns it; the lock is as it was, no port saw an access, nothing else changed. -/
theorem setFrequencyStoresIt : Obligations.SetFrequencyStoresIt := by
  intro s d f x ha hs
  refine ⟨_, exec_opSetfrequency_quiet f ha.quiet hs, ?_, rfl, fun e he => ?_, fun q => ?_, rfl, rfl, ?_⟩
  · simp [State.frequencySet, State.inst_updatedInst, hs.inst, storedFrequency]
  · exact State.inst_updatedInst_of_ne s _ he
  · simp [State.frequencySet]
  · constructor <;> rfl

end Sys2Proof.Machine
end

section
/-! The message advance and the address phase (42_engine_address_phase R200 to R203): the message `msgv` names, where
ENG_ADVANCE ends, and ENG_SB_ADDR as its ACK and POS policy, its write of DR and its mark. -/

namespace Sys2Proof.Machine

/-! The message `msgv` names. -/

theorem BusState.message_of_lt {b : BusState} {i : Nat} (hv : b.msgv = some i) (hi : i < b.count) :
    b.message = b.msgs[i]? := by
  rw [BusState.message, hv]
  exact if_pos hi

/-- R200: `msgv` is none, or stands past the end of the chain. -/
theorem BusState.message_eq_none {b : BusState} (h : b.msgv = none ∨ ∃ i, b.msgv = some i ∧ b.count ≤ i) :
    b.message = none := by
  rw [BusState.message]
  obtain hv | ⟨i, hv, hi⟩ := h
  · rw [hv]
  · rw [hv]
    exact if_neg (by omega)

theorem nextMessage_run {s : State} {p : Port} {m : Message} (h : (s.bus p).message = some m) :
    nextMessage p s = .ok m s := by
  rw [nextMessage, run_bind_ok (run_lookBus _ _ _), h]
  rfl

theorem nextMessage_badMsgv {s : State} {p : Port} (h : (s.bus p).message = none) :
    nextMessage p s = .error (.fault .badMsgv) s := by
  rw [nextMessage, run_bind_ok (run_lookBus _ _ _), h]
  rfl

/-! ENG_ADVANCE: where it ends. -/

theorem exec_engAdvance (s : State) : exec .engAdvance s = finish subAdvance s := rfl

theorem require_false (r : Refusal) (s : State) : require false r s = .error (.refusal r) s := rfl

/-- The state ENG_ADVANCE leaves: the message latched, and its event. -/
def State.advanced (s : State) (p : Port) (m : Message) : State :=
  (s.setBus p ((s.bus p).latch m)).emittedEv p .advance m.length

theorem subAdvance_run {s : State} {m : Message} (h : (s.bus s.entry.port).message = some m)
    (hl : m.length ≤ s.cfg.maxLen) : subAdvance s = .ok () (s.advanced s.entry.port m) := by
  rw [subAdvance, entryPort, run_bind_ok (run_look _ _), run_bind_ok (nextMessage_run h), run_bind_ok (run_look _ _),
    decide_eq_true hl, run_bind_ok (require_true _ _), run_bind_ok (run_updBus _ _ _)]
  exact run_emit _ _ _ _

theorem subAdvance_lengthTooLarge {s : State} {m : Message} (h : (s.bus s.entry.port).message = some m)
    (hl : s.cfg.maxLen < m.length) : subAdvance s = .error (.refusal .lengthTooLarge) s := by
  rw [subAdvance, entryPort, run_bind_ok (run_look _ _), run_bind_ok (nextMessage_run h), run_bind_ok (run_look _ _),
    decide_eq_false (by omega)]
  exact run_bind_error (require_false _ _)

theorem subAdvance_badMsgv {s : State} (h : (s.bus s.entry.port).message = none) :
    subAdvance s = .error (.fault .badMsgv) s := by
  rw [subAdvance, entryPort, run_bind_ok (run_look _ _)]
  exact run_bind_error (nextMessage_badMsgv h)

/-- Settles O14: ENG_ADVANCE latches the message `msgv` names where it names one of an admitted length, is refused where
that message is too long, and faults where `msgv` names none. -/
theorem advanceLatchesTheMessage : Obligations.AdvanceLatchesTheMessage := by
  simp only [Obligations.AdvanceLatchesTheMessage, exec_engAdvance]
  refine ⟨?_, ?_⟩
  · rintro s _ i m rfl hv hi hm
    have hmsg : (s.bus s.entry.port).message = some m := (BusState.message_of_lt hv hi).trans hm
    refine ⟨fun hl => ⟨_, finish_ok (subAdvance_run hmsg hl), ?_⟩,
      fun hl => finish_refused (subAdvance_lengthTooLarge hmsg hl)⟩
    simp [State.advanced, BusState.latch, hv]
  · rintro s _ rfl hn
    exact finish_fault (subAdvance_badMsgv (BusState.message_eq_none hn))

/-! ENG_SB_ADDR: the ACK and POS policy (R202). -/

/-- What the policy clears and sets for POS: set for a read of two bytes only. -/
def posMasks (l : BitLayout) (n : Nat) (read : Bool) : Half × Half :=
  if n = 2 ∧ read = true then (0, bit l.pos) else (bit l.pos, 0)

/-- What the policy clears and sets for ACK: cleared for a read of one byte only. -/
def ackMasks (l : BitLayout) (n : Nat) (read : Bool) : Half × Half :=
  if n = 1 ∧ read = true then (bit l.ack, 0) else (0, bit l.ack)

/-- The state the policy leaves: a Modify of CR1 for POS, then one for ACK. -/
def State.policyDone (s : State) (p : Port) (n : Nat) (read : Bool) : State :=
  (s.modReg p .cr1 (posMasks s.cfg.layout n read).1 (posMasks s.cfg.layout n read).2).modReg p .cr1
    (ackMasks s.cfg.layout n read).1 (ackMasks s.cfg.layout n read).2

theorem setCr1_run {s : State} {p : Port} (i : BitLayout → Fin 16) (hc : (s.bus p).plat.clkEn = true) :
    setCr1 p i s = .ok () (s.modReg p .cr1 0 (bit (i s.cfg.layout))) :=
  (setCr1_eq p i s).trans (regModify_run rfl hc)

theorem clrCr1_run {s : State} {p : Port} (i : BitLayout → Fin 16) (hc : (s.bus p).plat.clkEn = true) :
    clrCr1 p i s = .ok () (s.modReg p .cr1 (bit (i s.cfg.layout)) 0) :=
  (clrCr1_eq p i s).trans (regModify_run rfl hc)

theorem ackPosPolicy_run {s : State} {p : Port} (n : Nat) (read : Bool) (hc : (s.bus p).plat.clkEn = true) :
    ackPosPolicy p n read s = .ok () (s.policyDone p n read) := by
  have hc' (clr set : Half) : ((s.modReg p .cr1 clr set).bus p).plat.clkEn = true := by simpa using hc
  unfold ackPosPolicy
  split
  case isTrue h =>
    rw [clrPos, run_bind_ok (clrCr1_run _ hc), clrAck, clrCr1_run _ (hc' _ _)]
    simp [State.policyDone, posMasks, ackMasks, h]
  case isFalse h₁ =>
    split
    case isTrue h =>
      rw [setPos, run_bind_ok (setCr1_run _ hc), setAck, setCr1_run _ (hc' _ _)]
      simp [State.policyDone, posMasks, ackMasks, h]
    case isFalse h₂ =>
      rw [clrPos, run_bind_ok (clrCr1_run _ hc), setAck, setCr1_run _ (hc' _ _)]
      simp [State.policyDone, posMasks, ackMasks, h₁, h₂]

@[simp] theorem State.policyDone_cfg (s : State) (p : Port) (n : Nat) (read : Bool) :
    (s.policyDone p n read).cfg = s.cfg := by
  simp [State.policyDone]

/-- The policy changes the registers and the history of its port's Bus State, and nothing else of it. -/
@[simp] theorem State.policyDone_bus (s : State) (p : Port) (n : Nat) (read : Bool) :
    (s.policyDone p n read).bus p =
      ((((s.bus p).record (.rd .cr1 (s.regAt 0))).put .cr1
          (modified (s.regAt 0) (posMasks s.cfg.layout n read).1 (posMasks s.cfg.layout n read).2)).record
        (.rd .cr1 (s.regAt 1))).put .cr1
          (modified (s.regAt 1) (ackMasks s.cfg.layout n read).1 (ackMasks s.cfg.layout n read).2) := by
  simp [State.policyDone]

/-- R202 in the three classes of length: a read of one byte, a read of two, and any other message. -/
theorem policyEvs_eq (l : BitLayout) (v w : Half) (n : Nat) (read : Bool) :
    modEvs .cr1 v (posMasks l n read).1 (posMasks l n read).2 ++
        modEvs .cr1 w (ackMasks l n read).1 (ackMasks l n read).2 =
      if n = 1 ∧ read = true then modEvs .cr1 v (bit l.pos) 0 ++ modEvs .cr1 w (bit l.ack) 0
      else if n = 2 ∧ read = true then modEvs .cr1 v 0 (bit l.pos) ++ modEvs .cr1 w 0 (bit l.ack)
      else modEvs .cr1 v (bit l.pos) 0 ++ modEvs .cr1 w 0 (bit l.ack) := by
  by_cases h₁ : n = 1 ∧ read = true
  · simp [posMasks, ackMasks, h₁]
  · by_cases h₂ : n = 2 ∧ read = true
    · simp [posMasks, ackMasks, h₂]
    · simp [posMasks, ackMasks, h₁, h₂]

/-! ENG_SB_ADDR: the address byte (R203) and the whole. -/

theorem exec_engSbAddr (s : State) : exec .engSbAddr s = finish subSbAddr s := rfl

/-- 30_encoding R118: the byte the model sends, widened to DR, is the address word. -/
theorem addressByte_setWidth (addr : Nat) (f : MsgFlags) : (addressByte addr f).setWidth 16 = addressWord addr f := by
  unfold addressByte addressWord
  split
  · rfl
  · refine BitVec.eq_of_toNat_eq ?_
    rw [BitVec.toNat_setWidth_of_le (by omega), BitVec.toNat_ofNat, BitVec.toNat_ofNat]
    omega

theorem addressByte_toNat (addr : Nat) (f : MsgFlags) : (addressByte addr f).toNat = (addressWord addr f).toNat := by
  rw [← addressByte_setWidth, BitVec.toNat_setWidth_of_le (by omega)]

/-- ENG_SB_ADDR up to its last access: the policy applied for the current message, its address byte in DR. -/
def State.addressWritten (s : State) (p : Port) : State :=
  (s.policyDone p (s.bus p).totalMsgLen (s.bus p).flags.read).putReg p .dr
    (addressWord (s.bus p).curAddr (s.bus p).flags)

/-- The state ENG_SB_ADDR leaves: the address written, the mark that its acknowledge is due, and the event. -/
def State.addressSent (s : State) (p : Port) : State :=
  ((s.addressWritten p).setBus p { (s.addressWritten p).bus p with checkAddrAck := true }).emittedEv p .sendaddr
    (addressWord (s.bus p).curAddr (s.bus p).flags).toNat

theorem subSbAddr_run {s : State} (hc : (s.bus s.entry.port).plat.clkEn = true) :
    subSbAddr s = .ok () (s.addressSent s.entry.port) := by
  rw [subSbAddr, entryPort, run_bind_ok (run_look _ _), run_bind_ok (run_lookBus _ _ _),
    run_bind_ok (ackPosPolicy_run _ _ hc)]
  simp only [addressByte_setWidth, addressByte_toNat, id]
  rw [run_bind_ok (regPut_run rfl (by decide) (by simpa using hc)), run_bind_ok (run_updBus _ _ _)]
  exact run_emit _ _ _ _

/-- Settles O15: with the clock on ENG_SB_ADDR applies its policy, sends the address and marks that an acknowledge is
due, and moves no cursor. -/
theorem sbAddrSendsTheAddress : Obligations.SbAddrSendsTheAddress := by
  rintro s _ rfl hc
  rw [exec_engSbAddr, ← policyEvs_eq]
  refine ⟨_, finish_ok (subSbAddr_run hc), ?_⟩
  simp [State.addressSent, State.addressWritten, modEvs, modified]

end Sys2Proof.Machine
end

section
/-! TRACE_SAMPLE (47_lifecycle_trace_ops R344, R347): the four things a sample does, each as the ring and the host log it
leaves, and the frame they share. -/

namespace Sys2Proof.Machine

theorem Trace.current_eq {t : Trace} {e : TraceEntry} (h : t.ring[t.cur]? = some e) : t.current = e := by
  rw [Trace.current, h]
  rfl

/-- R13: with tracing on, an action of the recorder is done. -/
theorem whenTracing_run {s : State} (m : M Unit) (h : s.cfg.traceOn = true) : whenTracing m s = m s := by
  rw [whenTracing, run_bind_ok (run_look _ _), h, run_onlyIf_true]

/-! The state a sample leaves. -/

/-- The state with a port's ring and host log replaced, after draws that left `d`. -/
def State.recorded (s : State) (p : Port) (d : Draws) (t : Trace) (log : List LogItem) : State :=
  (s.setBus p { s.bus p with trace := t, log := log }).withDraws d

@[simp] theorem State.recorded_bus (s : State) (p : Port) (d : Draws) (t : Trace) (log : List LogItem) :
    (s.recorded p d t log).bus p = { s.bus p with trace := t, log := log } := by
  simp [State.recorded]

theorem State.recorded_draws (s : State) (p : Port) (t : Trace) (log : List LogItem) :
    s.recorded p s.draws t log = s.setBus p { s.bus p with trace := t, log := log } := by
  cases p <;> rfl

/-- The recorder of one port and the draws are all that such a state may differ in. -/
theorem State.recorded_frame (s : State) (p : Port) (d : Draws) (t : Trace) (log : List LogItem) :
    { (s.recorded p d t log).bus p with trace := (s.bus p).trace, log := (s.bus p).log } = s.bus p ∧
      OtherPortsKept p s (s.recorded p d t log) ∧ MemoryKept s (s.recorded p d t log) ∧
      OutsideKept s (s.recorded p d t log) := by
  refine ⟨by rw [State.recorded_bus], fun q hq => by simp [State.recorded, hq], ?_, ?_⟩
  · constructor <;> simp [State.recorded]
  · constructor <;> simp [State.recorded]

/-- An entry that has taken its first sample. -/
def TraceEntry.first (w : Word32) (now : Nat) : TraceEntry := ⟨w, 1, .none, 0, now⟩

/-- The time `now()` gives. -/
def State.now (s : State) : Nat := s.draws.times.peek Config.freeTime

/-- The draws after `now()`. -/
def State.nowDrawn (s : State) : Draws := { s.draws with times := s.draws.times.advance }

theorem drawTime_run (s : State) : drawTime s = .ok s.now (s.withDraws s.nowDrawn) := rfl

/-! The four cases. -/

section
variable {s : State} {p : Port} {w : Word32} {e : TraceEntry} (he : (s.bus p).trace.current = e)
include he

/-- R344: a fresh entry takes the sample, at the time drawn. -/
theorem sample_fresh (h₀ : e.count = 0) :
    sample p w s = .ok () (s.recorded p s.nowDrawn ((s.bus p).trace.setCurrent (.first w s.now)) (s.bus p).log) := by
  rw [sample, run_bind_ok (run_lookBus _ _ _), run_bind_ok (run_look _ _), he, if_pos h₀,
    run_bind_ok (drawTime_run _), run_updBus, State.withDraws_setBus, State.withDraws_bus]
  rfl

/-- R344: the status of the current entry again raises its count, and draws no time. -/
theorem sample_repeated (h₀ : e.count ≠ 0) (hw : w = e.status) :
    sample p w s = .ok () (s.recorded p s.draws (s.bus p).trace.bump (s.bus p).log) := by
  rw [sample, run_bind_ok (run_lookBus _ _ _), run_bind_ok (run_look _ _), he, if_neg h₀, if_pos hw, run_updBus,
    State.recorded_draws]

/-- R347: with the last entry the current one, another status is dropped with a diagnostic. -/
theorem sample_overflow (h₀ : e.count ≠ 0) (hw : w ≠ e.status) (hlast : s.cfg.traceCap ≤ (s.bus p).trace.cur + 1) :
    sample p w s = .ok () (s.recorded p s.draws (s.bus p).trace ((s.bus p).log ++ [.traceOverflow])) := by
  rw [sample, run_bind_ok (run_lookBus _ _ _), run_bind_ok (run_look _ _), he, if_neg h₀, if_neg hw, if_pos hlast,
    run_updBus, State.recorded_draws]

/-- R344: another status starts the next entry, at the time drawn. -/
theorem sample_next (h₀ : e.count ≠ 0) (hw : w ≠ e.status) (hlast : ¬ s.cfg.traceCap ≤ (s.bus p).trace.cur + 1) :
    sample p w s = .ok () (s.recorded p s.nowDrawn
      ({ (s.bus p).trace with cur := (s.bus p).trace.cur + 1 }.setCurrent (.first w s.now)) (s.bus p).log) := by
  rw [sample, run_bind_ok (run_lookBus _ _ _), run_bind_ok (run_look _ _), he, if_neg h₀, if_neg hw, if_neg hlast,
    run_bind_ok (drawTime_run _), run_updBus, State.withDraws_setBus, State.withDraws_bus]
  rfl

end

theorem exec_traceSample_on {s t : State} {p : Port} {w : Word32} (hon : s.cfg.traceOn = true)
    (h : sample p w s = .ok () t) : exec (.traceSample p w) s = .next t :=
  finish_ok ((whenTracing_run _ hon).trans h)

/-- Settles O54: by the case of the current entry, fresh, of the sample's status, the last, or any other; each changes
the recorder of its port as said, and nothing but that and the draws. -/
theorem traceSampleRecords : Obligations.TraceSampleRecords := by
  intro s p w e hon hcur _ hget
  have he := Trace.current_eq hget
  by_cases h₀ : e.count = 0
  · refine ⟨_, exec_traceSample_on hon (sample_fresh he h₀), ?_⟩
    simp [h₀, Trace.setCurrent, TraceEntry.first, State.now, State.recorded_frame]
  · by_cases hw : w = e.status
    · refine ⟨_, exec_traceSample_on hon (sample_repeated he h₀ hw), ?_⟩
      simp [h₀, hw, he, Trace.bump, Trace.setCurrent, State.recorded_frame]
    · by_cases hlast : (s.bus p).trace.cur = s.cfg.traceCap - 1
      · refine ⟨_, exec_traceSample_on hon (sample_overflow he h₀ hw (by omega)), ?_⟩
        simp [h₀, hw, hlast, State.recorded_frame]
      · refine ⟨_, exec_traceSample_on hon (sample_next he h₀ hw (by omega)), ?_⟩
        simp [h₀, hw, hlast, Trace.setCurrent, TraceEntry.first, State.now, State.recorded_frame]

end Sys2Proof.Machine
end

section
/-! Launch (70_reset_and_hazards R450): the Bus State of every port, and of the reset state. -/

namespace Sys2Proof.Machine

/-- R450: all three ports launch alike. -/
@[simp] theorem State.launch_bus (c : Config) (p : Port) : (State.launch c).bus p = BusState.launch c := by
  cases p <;> rfl

/-- R450: whatever the ring's capacity, every entry launches fresh. -/
theorem Trace.launch_ring_fresh (c : Config) : ∀ e ∈ (Trace.launch c).ring, e = TraceEntry.fresh :=
  fun _ => List.eq_of_mem_replicate

/-- Settles O59: every port launches with the one Bus State of the model, whose fields are the values of R450 and whose
trace ring holds fresh entries only; the reset state is a launch state. -/
theorem launchValues : Obligations.LaunchValues := by
  refine ⟨⟨Config.standard, rfl⟩, fun c p => ?_⟩
  simp only [State.launch_bus]
  exact ⟨rfl, rfl, rfl, rfl, rfl, rfl, rfl, rfl, rfl, rfl, rfl, rfl, rfl, rfl, rfl, Trace.launch_ring_fresh c,
    rfl, rfl, rfl⟩

end Sys2Proof.Machine
end
section
/-! The encoding (30_encoding R110 to R117): round trip, the range of the decoder, and words of the table. -/

namespace Sys2Proof.Machine

open Sys2Proof.Laws

/-- Settles O1: one case per instruction, each by the round trip of its operands. -/
theorem encodedInstructionDecodes : Obligations.EncodedInstructionDecodes := by
  intro i
  cases i with
  | engAdvance => exact RoundTrip.engAdvance
  | engSbAddr => exact RoundTrip.engSbAddr
  | engSbEmpty => exact RoundTrip.engSbEmpty
  | engAddrNack => exact RoundTrip.engAddrNack
  | engRaddr1 => exact RoundTrip.engRaddr1
  | engRaddr2 => exact RoundTrip.engRaddr2
  | engRaddrN => exact RoundTrip.engRaddrN
  | engWByte => exact RoundTrip.engWByte
  | engWStop => exact RoundTrip.engWStop
  | engWRestart => exact RoundTrip.engWRestart
  | engWNorestart => exact RoundTrip.engWNorestart
  | engWFlagerr => exact RoundTrip.engWFlagerr
  | engWNone => exact RoundTrip.engWNone
  | engR1Last => exact RoundTrip.engR1Last
  | engR2Wait => exact RoundTrip.engR2Wait
  | engR2Final => exact RoundTrip.engR2Final
  | engRnWait => exact RoundTrip.engRnWait
  | engRnByte => exact RoundTrip.engRnByte
  | engRnNackprep => exact RoundTrip.engRnNackprep
  | engRnFinal => exact RoundTrip.engRnFinal
  | engRErr => exact RoundTrip.engRErr
  | engEmptyTerm => exact RoundTrip.engEmptyTerm
  | engFallbackPoll => exact RoundTrip.engFallbackPoll
  | engFallbackInt => exact RoundTrip.engFallbackInt
  | engTermPoll => exact RoundTrip.engTermPoll
  | engTermInt => exact RoundTrip.engTermInt
  | regGet p r => exact RoundTrip.regGet p r
  | regPut p r v => exact RoundTrip.regPut p r v
  | regModify p r c v => exact RoundTrip.regModify p r c v
  | opInit p => exact RoundTrip.opInit p
  | opUninit d => exact RoundTrip.opUninit d
  | opReset d => exact RoundTrip.opReset d
  | opSetfrequency d f => exact RoundTrip.opSetfrequency d f
  | opSetaddress d a n => exact RoundTrip.opSetaddress d a n
  | opWrite d b n => exact RoundTrip.opWrite d b n
  | opRead d b n => exact RoundTrip.opRead d b n
  | opTransfer d ms => exact RoundTrip.opTransfer d ms
  | opProcess d ms => exact RoundTrip.opProcess d ms
  | clkProgram p fp ft => exact RoundTrip.clkProgram p fp ft
  | traceSample p w => exact RoundTrip.traceSample p w
  | traceEvent p ev x => exact RoundTrip.traceEvent p ev x
  | traceReset p => exact RoundTrip.traceReset p
  | traceDump p => exact RoundTrip.traceDump p
  | engEntry p => exact RoundTrip.engEntry p
  | errClassify x e => exact RoundTrip.errClassify x e
  | lifeUp p => exact RoundTrip.lifeUp p
  | lifeDown p => exact RoundTrip.lifeDown p

/-! The range of the decoder: what each operand reader answers, then one case per operation. -/

/-- Whatever a reader answers has the property. -/
def Answers {α : Type} (P : α → Prop) (x : Except Reject α) : Prop := ∀ a, x = .ok a → P a

section
variable {α β : Type} {P : α → Prop} {Q : β → Prop}

theorem Answers.bind {x : Except Reject α} {f : α → Except Reject β} (h : Answers P x)
    (k : ∀ a, P a → Answers Q (f a)) : Answers Q (x >>= f) := by
  cases x with
  | error e => exact fun _ he => nomatch he
  | ok a => exact k a (h a rfl)

theorem Answers.pure {a : α} (h : P a) : Answers P (pure a) := by
  rintro _ ⟨⟩
  exact h

theorem Answers.error {e : Reject} : Answers P (.error e) := fun _ h => nomatch h

end

theorem take8_answers (bs : List Byte) : Answers (·.1 < 256) (take8 bs) := by
  cases bs with
  | nil => exact .error
  | cons b bs => exact .pure b.isLt

theorem take16_answers (bs : List Byte) : Answers (·.1 < 2 ^ 16) (take16 bs) :=
  .bind (take8_answers bs) fun (lo, _) hlo => .bind (take8_answers _) fun (hi, _) hhi => .pure (by
    simp only at hlo hhi ⊢
    omega)

theorem take32_answers (bs : List Byte) : Answers (·.1 < 2 ^ 32) (take32 bs) :=
  .bind (take16_answers bs) fun (lo, _) hlo => .bind (take16_answers _) fun (hi, _) hhi => .pure (by
    simp only at hlo hhi ⊢
    omega)

theorem need_answers {α : Type} (o : Option α) : Answers (fun _ => True) (need o) := fun _ _ => trivial

theorem takePort_answers (bs : List Byte) : Answers (fun _ => True) (takePort bs) := fun _ _ => trivial

/-- A code of none of the nine listed registers is read as an unlisted register of that code. -/
theorem regOfNat_wellFormed {n : Nat} (h : n < 256) : (regOfNat n).wellFormed = true := by
  unfold regOfNat
  split_ifs with h1 h2 h3 h4 h5 h6 h7 h8 h9
  case neg => simp [Reg.wellFormed, listedCodes, *]
  all_goals rfl

theorem takeReg_answers (bs : List Byte) : Answers (·.1.wellFormed = true) (takeReg bs) :=
  .bind (take8_answers bs) fun (_, _) hn => .pure (regOfNat_wellFormed hn)

theorem takeMessage_answers (bs : List Byte) : Answers (·.1.wellFormed = true) (takeMessage bs) :=
  .bind (take32_answers bs) fun (_, _) ha => .bind (take16_answers _) fun (_, _) _ =>
    .bind (need_answers _) fun _ _ => .bind (take32_answers _) fun (_, _) hb =>
    .bind (take32_answers _) fun (_, _) hl => .pure (by
      simp only at ha hb hl
      simp only [Message.wellFormed, fits32, ha, hb, hl, decide_true, Bool.and_self])

theorem takeMessages_answers (k : Nat) (bs : List Byte) :
    Answers (fun r => r.1.length = k ∧ r.1.all Message.wellFormed = true) (takeMessages k bs) := by
  induction k generalizing bs with
  | zero => exact .pure ⟨rfl, rfl⟩
  | succ k ih =>
    exact .bind (takeMessage_answers bs) fun (_, _) hm => .bind (ih _) fun (_, _) ⟨hl, hw⟩ => .pure ⟨by simpa using hl, by
      simp only at hm hw
      simp only [List.all_cons, hm, hw, Bool.and_self]⟩

theorem takeChain_answers (bs : List Byte) : Answers (fun r => chainWellFormed r.1 = true) (takeChain bs) :=
  .bind (take16_answers bs) fun (k, _) hk => fun r hr => by
    obtain ⟨hl, hw⟩ := takeMessages_answers k _ r hr
    simp only at hk
    simp only [chainWellFormed, fits16, hl, hw, hk, decide_true, Bool.and_self]

theorem intOfNat32_fits {n : Nat} (h : n < 2 ^ 32) : fitsInt32 (intOfNat32 n) = true := by
  unfold intOfNat32 fitsInt32
  split <;> simp only [Bool.and_eq_true, decide_eq_true_eq] <;> omega

/-- R117, one case per row of the table: every operand is read into its field's range. -/
theorem decodeOperands_answers (code : Nat) (bs : List Byte) :
    Answers (·.1.wellFormed = true) (decodeOperands code bs) := by
  have fit16 {n : Nat} (h : n < 2 ^ 16) : fits16 n = true := decide_eq_true h
  have fit32 {n : Nat} (h : n < 2 ^ 32) : fits32 n = true := decide_eq_true h
  have and {a b : Bool} (ha : a = true) (hb : b = true) : (a && b) = true := by rw [ha, hb]; rfl
  have port (i : Port → Instr) (hi : ∀ p, (i p).wellFormed = true) (bs : List Byte) :
      Answers (·.1.wellFormed = true) (do let (p, bs) ← takePort bs; return (i p, bs)) :=
    .bind (takePort_answers bs) fun (p, _) _ => .pure (hi p)
  have handle (i : Nat → Instr) (hi : ∀ d, d < 2 ^ 16 → (i d).wellFormed = true) (bs : List Byte) :
      Answers (·.1.wellFormed = true) (do let (d, bs) ← take16 bs; return (i d, bs)) :=
    .bind (take16_answers bs) fun (d, _) h => .pure (hi d h)
  have three (i : Nat → Nat → Nat → Instr)
      (hi : ∀ d a b, (i d a b).wellFormed = (fits16 d && fits32 a && fits32 b)) (bs : List Byte) :
      Answers (·.1.wellFormed = true)
        (do let (d, bs) ← take16 bs; let (a, bs) ← take32 bs; let (b, bs) ← take32 bs; return (i d a b, bs)) :=
    .bind (take16_answers bs) fun (_, _) hd => .bind (take32_answers _) fun (_, _) ha =>
      .bind (take32_answers _) fun (_, _) hb => .pure ((hi _ _ _).trans (and (and (fit16 hd) (fit32 ha)) (fit32 hb)))
  have chain (i : Nat → List Message → Instr)
      (hi : ∀ d ms, (i d ms).wellFormed = (fits16 d && chainWellFormed ms)) (bs : List Byte) :
      Answers (·.1.wellFormed = true) (do let (d, bs) ← take16 bs; let (ms, bs) ← takeChain bs; return (i d ms, bs)) :=
    .bind (take16_answers bs) fun (_, _) hd => .bind (takeChain_answers _) fun (_, _) hm =>
      .pure ((hi _ _).trans (and (fit16 hd) hm))
  unfold decodeOperands
  split
  · exact .bind (takePort_answers _) fun (_, _) _ => .bind (takeReg_answers _) fun (_, _) hr => .pure hr
  · exact .bind (takePort_answers _) fun (_, _) _ => .bind (takeReg_answers _) fun (_, _) hr =>
      .bind (take16_answers _) fun (_, _) _ => .pure hr
  · exact .bind (takePort_answers _) fun (_, _) _ => .bind (takeReg_answers _) fun (_, _) hr =>
      .bind (take16_answers _) fun (_, _) _ => .bind (take16_answers _) fun (_, _) _ => .pure hr
  · exact port .opInit (fun _ => rfl) _
  · exact handle .opUninit (fun _ => fit16) _
  · exact handle .opReset (fun _ => fit16) _
  · exact .bind (take16_answers _) fun (_, _) hd => .bind (take32_answers _) fun (_, _) hf =>
      .pure (and (fit16 hd) (fit32 hf))
  · exact three .opSetaddress (fun _ _ _ => rfl) _
  · exact three .opWrite (fun _ _ _ => rfl) _
  · exact three .opRead (fun _ _ _ => rfl) _
  · exact chain .opTransfer (fun _ _ => rfl) _
  · exact chain .opProcess (fun _ _ => rfl) _
  · exact .bind (takePort_answers _) fun (_, _) _ => .bind (take32_answers _) fun (_, _) ha =>
      .bind (take32_answers _) fun (_, _) hb => .pure (and (fit32 ha) (fit32 hb))
  · exact .bind (takePort_answers _) fun (_, _) _ => .bind (take32_answers _) fun (_, _) _ => .pure rfl
  · exact .bind (takePort_answers _) fun (_, _) _ => .bind (take8_answers _) fun (_, _) _ =>
      .bind (need_answers _) fun _ _ => .bind (take32_answers _) fun (_, _) hx => .pure (intOfNat32_fits hx)
  · exact port .traceReset (fun _ => rfl) _
  · exact port .traceDump (fun _ => rfl) _
  · exact port .engEntry (fun _ => rfl) _
  · exact .bind (take32_answers _) fun (_, _) _ => .bind (take8_answers _) fun (_, _) _ =>
      .bind (need_answers _) fun _ _ => .pure rfl
  · exact port .lifeUp (fun _ => rfl) _
  · exact port .lifeDown (fun _ => rfl) _
  · exact .error

theorem decodeSelectorWord_answers (w : BitVec 24) : Answers (·.wellFormed = true) (decodeSelectorWord w) := by
  unfold decodeSelectorWord
  split
  · exact .error
  · split
    · exact .error
    · rename_i c _
      exact .pure (by cases c <;> rfl)

/-- Settles O2: a selector word decodes to a sub-case, which has no operand, and every operand of an operation is read
into its field's range. -/
theorem decodedInstructionIsWellFormed : Obligations.DecodedInstructionIsWellFormed := by
  intro q i h
  cases q with
  | selector w => exact decodeSelectorWord_answers w i h
  | op bs =>
    have ho : Answers (·.1.wellFormed = true) (decodeOp bs) :=
      .bind (take8_answers bs) fun (code, _) _ => decodeOperands_answers code _
    simp only [decodeRequest] at h
    split at h
    · rename_i j rest hj
      cases h
      exact ho _ hj
    · cases h

/-- Settles O3: each word is looked up in the tables. -/
theorem tableWordsDecode : Obligations.TableWordsDecode := by
  unfold Obligations.TableWordsDecode
  decide

end Sys2Proof.Machine
end
section
/-! The engine selector (30_encoding R110 to R116): its bits as the Bus State gives them, its rows as their conditions. -/

namespace Sys2Proof.Machine

/-! The classes. -/

/-- R111: bit by bit, the class of a `dcnt` in its range. -/
theorem dcClass_bits {d : Int} (h : -1 ≤ d) :
    ((dcClass d).getLsbD 2 = decide (1 ≤ d)) ∧
      ((dcClass d).getLsbD 1 = decide (3 ≤ d)) ∧ ((dcClass d).getLsbD 0 = decide (d = 0 ∨ d = 2 ∨ 4 ≤ d)) := by
  unfold dcClass
  split_ifs <;> simp (disch := omega) <;> omega

/-- R112: bit by bit, the class of a length. -/
theorem lcClass_bits (n : Nat) :
    ((lcClass n).getLsbD 1 = decide (2 ≤ n)) ∧ ((lcClass n).getLsbD 0 = decide (n = 1 ∨ 3 ≤ n)) := by
  unfold lcClass
  split_ifs <;> simp <;> omega

/-- A row matches where every bit its mask selects is the match value's. -/
theorem hits_iff (r : SelRow) (w : Selector) :
    r.hits w = true ↔ ∀ i : Fin 20, (w.getLsbD i && r.mask.getLsbD i) = r.hit.getLsbD i := by
  rw [SelRow.hits, beq_iff_eq]
  constructor
  · intro h i
    rw [← h, BitVec.getLsbD_and]
  · intro h
    exact BitVec.eq_of_getLsbD_eq fun i hi => by simpa using h ⟨i, hi⟩

/-- The flags of the next message, as R115's conditions read them. -/
def BusState.nextFlags (b : BusState) : MsgFlags := (b.message.map (·.flags)).getD MsgFlags.empty

/-- R113: bit by bit, the class of the next message. -/
theorem nxClass_bits {b : BusState} {nx : BitVec 2} (h : nxClass b = some nx) :
    nx.getLsbD 0 = decide (b.msgc ≠ 0 ∧ ¬(b.nextFlags = MsgFlags.empty ∨ b.nextFlags.read = true) ∧
      b.nextFlags.norestart = true) ∧
    nx.getLsbD 1 = decide (b.msgc ≠ 0 ∧ ¬(b.nextFlags = MsgFlags.empty ∨ b.nextFlags.read = true) ∧
      ¬b.nextFlags.norestart = true) := by
  unfold nxClass at h
  split at h
  case isTrue h0 => cases h; simp [h0]
  case isFalse h0 =>
    obtain ⟨m, hm, rfl⟩ := Option.map_eq_some_iff.mp h
    have hf : b.nextFlags = m.flags := by simp [BusState.nextFlags, hm]
    rw [hf]
    unfold flagsClass
    split_ifs with h1 h2 <;> simp_all

/-- R110: the selector's bits in words, from the lowest. -/
def selectorBit (c : Config) (sr1 : Half) (b : BusState) : Fin 20 → Bool
  | 0 => has sr1 c.layout.sb
  | 1 => has sr1 c.layout.addr
  | 2 => has sr1 c.layout.btf
  | 3 => has sr1 c.layout.rxne
  | 4 => has sr1 c.layout.txe
  | 5 => b.flags.read
  | 6 => b.checkAddrAck
  | 7 => c.mode == .interrupt
  | 8 => decide (b.dcnt = 0 ∨ b.dcnt = 2 ∨ 4 ≤ b.dcnt)
  | 9 => decide (3 ≤ b.dcnt)
  | 10 => decide (1 ≤ b.dcnt)
  | 11 => decide (b.totalMsgLen = 1 ∨ 3 ≤ b.totalMsgLen)
  | 12 => decide (2 ≤ b.totalMsgLen)
  | 13 => b.msgc == 0
  | 14 => decide (b.msgc ≠ 0 ∧ ¬(b.nextFlags = MsgFlags.empty ∨ b.nextFlags.read = true) ∧ b.nextFlags.norestart = true)
  | 15 => decide (b.msgc ≠ 0 ∧ ¬(b.nextFlags = MsgFlags.empty ∨ b.nextFlags.read = true) ∧ ¬b.nextFlags.norestart = true)
  | 16 => has sr1 c.layout.addr || has sr1 c.layout.txe
  | _ => false

section
variable {c : Config} {sr1 : Half} {b : BusState} {w : Selector} (hd : -1 ≤ b.dcnt) (hw : selector c sr1 b = some w)
include hd hw

theorem selector_getLsbD (i : Fin 20) : w.getLsbD i = selectorBit c sr1 b i := by
  obtain ⟨nx, hnx, rfl⟩ := Option.map_eq_some_iff.mp hw
  obtain ⟨h2, h1, h0⟩ := dcClass_bits hd
  obtain ⟨l1, l0⟩ := lcClass_bits b.totalMsgLen
  obtain ⟨n0, n1⟩ := nxClass_bits hnx
  change @BitVec.getLsbD (3 + 1 + 2 + 1 + 2 + 3 + 1 + 1 + 1 + 1 + 1 + 1 + 1 + 1) (selectorBits c sr1 b nx) _ = _
  unfold selectorBits
  revert i
  simp only [BitVec.getLsbD_append, BitVec.getLsbD_ofBool, Fin.forall_fin_succ]
  simp only [selectorBit, ← h0, ← h1, ← h2, ← l0, ← l1, ← n0, ← n1]
  simp

/-- Where the selector is that of a Bus State, a row matches where the bits its mask selects are its match value's. -/
theorem hits_selector_iff (r : SelRow) :
    r.hits w = true ↔ ∀ i : Fin 20, (selectorBit c sr1 b i && r.mask.getLsbD i) = r.hit.getLsbD i := by
  simp only [hits_iff, selector_getLsbD hd hw]

end

theorem ite_congr_branch {α : Type} {p q : Prop} [Decidable p] [Decidable q] {a x y : α} (h : p ↔ q) (k : ¬q → x = y) :
    (if p then a else x) = if q then a else y := by
  by_cases hq : q
  · rw [if_pos hq, if_pos (h.mpr hq)]
  · rw [if_neg hq, if_neg (mt h.mp hq), k hq]

theorem find_hits_cons (r : SelRow) (rs : List SelRow) (w : Selector) :
    ((r :: rs).find? (·.hits w)).map (·.sub) =
      if r.hits w = true then some r.sub else (rs.find? (·.hits w)).map (·.sub) := by
  rw [List.find?_cons]
  cases r.hits w <;> rfl


section
variable {c : Config} {sr1 : Half} {b : BusState} {w : Selector} (hd : -1 ≤ b.dcnt) (hw : selector c sr1 b = some w)
include hd hw

/-- (b) and (c): the rows of a START generated and of an address not acknowledged. -/
theorem rowsStart_find (rs : List SelRow) :
    ((rowsStart ++ rs).find? (·.hits w)).map (·.sub) =
      if has sr1 c.layout.sb = true ∧ 1 ≤ b.dcnt then some .sbAddr
      else if has sr1 c.layout.sb = true then some .sbEmpty
      else if c.mode = .interrupt ∧ ¬has sr1 c.layout.addr = true ∧ b.checkAddrAck = true then some .addrNack
      else (rs.find? (·.hits w)).map (·.sub) := by
  simp only [rowsStart, List.cons_append, List.nil_append, find_hits_cons, hits_selector_iff hd hw]
  refine ite_congr_branch ?_ fun hn => ite_congr_branch ?_ fun hn' => ite_congr_branch ?_ fun _ => rfl
  all_goals simp [Fin.forall_fin_succ, selectorBit]
  all_goals grind

/-- (d): the rows of an address acknowledged on the read path. -/
theorem rowsAddress_find (rs : List SelRow) :
    ((rowsAddress ++ rs).find? (·.hits w)).map (·.sub) =
      if has sr1 c.layout.addr = true ∧ b.flags.read = true ∧ b.checkAddrAck = true ∧ b.dcnt = 1 ∧ b.totalMsgLen = 1
        then some .raddr1
      else if has sr1 c.layout.addr = true ∧ b.flags.read = true ∧ b.checkAddrAck = true ∧ b.dcnt = 2 ∧
        b.totalMsgLen = 2 then some .raddr2
      else if has sr1 c.layout.addr = true ∧ b.flags.read = true ∧ b.checkAddrAck = true then some .raddrN
      else (rs.find? (·.hits w)).map (·.sub) := by
  simp only [rowsAddress, List.cons_append, List.nil_append, find_hits_cons, hits_selector_iff hd hw]
  refine ite_congr_branch ?_ fun hn => ite_congr_branch ?_ fun hn' => ite_congr_branch ?_ fun _ => rfl
  all_goals simp [Fin.forall_fin_succ, selectorBit]
  all_goals grind

/-- (e): the rows of the write path. -/
theorem rowsWrite_find (rs : List SelRow) :
    ((rowsWrite ++ rs).find? (·.hits w)).map (·.sub) =
      if ¬b.flags.read = true ∧ (has sr1 c.layout.addr = true ∨ has sr1 c.layout.txe = true) ∧ 1 ≤ b.dcnt
        then some .wByte
      else if ¬b.flags.read = true ∧ (has sr1 c.layout.addr = true ∨ has sr1 c.layout.txe = true) ∧ b.dcnt = 0 ∧
        b.msgc = 0 then some .wStop
      else if ¬b.flags.read = true ∧ (has sr1 c.layout.addr = true ∨ has sr1 c.layout.txe = true) ∧ b.dcnt = 0 ∧
        (b.nextFlags = MsgFlags.empty ∨ b.nextFlags.read = true) then some .wRestart
      else if ¬b.flags.read = true ∧ (has sr1 c.layout.addr = true ∨ has sr1 c.layout.txe = true) ∧ b.dcnt = 0 ∧
        b.nextFlags.norestart = true then some .wNorestart
      else if ¬b.flags.read = true ∧ (has sr1 c.layout.addr = true ∨ has sr1 c.layout.txe = true) ∧ b.dcnt = 0
        then some .wFlagerr
      else if ¬b.flags.read = true ∧ (has sr1 c.layout.addr = true ∨ has sr1 c.layout.txe = true) then some .wNone
      else (rs.find? (·.hits w)).map (·.sub) := by
  simp only [rowsWrite, List.cons_append, List.nil_append, find_hits_cons, hits_selector_iff hd hw]
  refine ite_congr_branch ?_ fun h1 => ite_congr_branch ?_ fun h2 => ite_congr_branch ?_ fun h3 =>
    ite_congr_branch ?_ fun h4 => ite_congr_branch ?_ fun h5 => ite_congr_branch ?_ fun _ => rfl
  all_goals simp [Fin.forall_fin_succ, selectorBit]
  all_goals grind

/-- (f): the rows of the read path for messages of one and two bytes. -/
theorem rowsRead_take_find (rs : List SelRow) :
    ((rowsRead.take 3 ++ rs).find? (·.hits w)).map (·.sub) =
      if b.flags.read = true ∧ has sr1 c.layout.rxne = true ∧ b.totalMsgLen = 1 ∧ b.dcnt = 0 then some .r1Last
      else if b.flags.read = true ∧ has sr1 c.layout.rxne = true ∧ b.totalMsgLen = 2 ∧ b.dcnt = 2 ∧
        ¬has sr1 c.layout.btf = true then some .r2Wait
      else if b.flags.read = true ∧ has sr1 c.layout.rxne = true ∧ b.totalMsgLen = 2 ∧ b.dcnt = 2 ∧
        has sr1 c.layout.btf = true then some .r2Final
      else (rs.find? (·.hits w)).map (·.sub) := by
  simp only [rowsRead, List.take, List.cons_append, List.nil_append, find_hits_cons, hits_selector_iff hd hw]
  refine ite_congr_branch ?_ fun h1 => ite_congr_branch ?_ fun h2 => ite_congr_branch ?_ fun _ => rfl
  all_goals simp [Fin.forall_fin_succ, selectorBit]
  all_goals grind

/-- (f): the rows of the read path for longer messages, and of no known read state. -/
theorem rowsRead_drop_find (rs : List SelRow) :
    ((rowsRead.drop 3 ++ rs).find? (·.hits w)).map (·.sub) =
      if b.flags.read = true ∧ has sr1 c.layout.rxne = true ∧ 3 ≤ b.totalMsgLen ∧ ¬has sr1 c.layout.btf = true
        then some .rnWait
      else if b.flags.read = true ∧ has sr1 c.layout.rxne = true ∧ 3 ≤ b.totalMsgLen ∧ has sr1 c.layout.btf = true ∧
        4 ≤ b.dcnt then some .rnByte
      else if b.flags.read = true ∧ has sr1 c.layout.rxne = true ∧ 3 ≤ b.totalMsgLen ∧ has sr1 c.layout.btf = true ∧
        b.dcnt = 3 then some .rnNackprep
      else if b.flags.read = true ∧ has sr1 c.layout.rxne = true ∧ 3 ≤ b.totalMsgLen ∧ has sr1 c.layout.btf = true ∧
        b.dcnt = 2 then some .rnFinal
      else if b.flags.read = true ∧ has sr1 c.layout.rxne = true then some .rErr
      else (rs.find? (·.hits w)).map (·.sub) := by
  simp only [rowsRead, List.drop, List.cons_append, List.nil_append, find_hits_cons, hits_selector_iff hd hw]
  refine ite_congr_branch ?_ fun h1 => ite_congr_branch ?_ fun h2 => ite_congr_branch ?_ fun h3 =>
    ite_congr_branch ?_ fun h4 => ite_congr_branch ?_ fun _ => rfl
  all_goals simp [Fin.forall_fin_succ, selectorBit]
  all_goals grind

/-- (g) and (h): the rows of an entry with nothing left to do, and of no event recognised. -/
theorem rowsLast_find :
    (rowsLast.find? (·.hits w)).map (·.sub) =
      if b.dcnt = -1 ∧ b.msgc = 0 then some .emptyTerm
      else if c.mode = .polled then some .fallbackPoll
      else some .fallbackInt := by
  simp only [rowsLast, find_hits_cons, hits_selector_iff hd hw]
  refine ite_congr_branch ?_ fun h1 => ite_congr_branch ?_ fun h2 => if_pos ?_
  all_goals cases hm : c.mode <;> simp [Fin.forall_fin_succ, selectorBit, hm]
  · grind
  · grind
  · simp [hm] at h2

/-- R116: no Bus State forms a reserved value, field by field. -/
theorem selector_not_reserved : w.extractLsb' 17 3 = 0 ∧ w.extractLsb' 8 3 ≠ 2 ∧ w.extractLsb' 8 3 ≠ 3 ∧
    w.extractLsb' 14 2 ≠ 3 := by
  have h8 := selector_getLsbD hd hw 8
  have h9 := selector_getLsbD hd hw 9
  have h10 := selector_getLsbD hd hw 10
  have h14 := selector_getLsbD hd hw 14
  have h15 := selector_getLsbD hd hw 15
  have h17 := selector_getLsbD hd hw 17
  have h18 := selector_getLsbD hd hw 18
  have h19 := selector_getLsbD hd hw 19
  simp [selectorBit] at h8 h9 h10 h14 h15 h17 h18 h19
  refine ⟨BitVec.eq_of_getLsbD_eq fun i hi => ?_, fun h => ?_, fun h => ?_, fun h => ?_⟩
  · obtain rfl | rfl | rfl : i = 0 ∨ i = 1 ∨ i = 2 := by omega
    all_goals simp [*]
  · have h1 := congrArg (·.getLsbD 1) h
    have h2 := congrArg (·.getLsbD 2) h
    simp [h9, h10] at h1 h2
    omega
  · have h1 := congrArg (·.getLsbD 1) h
    have h2 := congrArg (·.getLsbD 2) h
    simp [h9, h10] at h1 h2
    omega
  · have h0 := congrArg (·.getLsbD 0) h
    have h1 := congrArg (·.getLsbD 1) h
    simp [h14, h15] at h0 h1
    exact absurd h0.2.2 (by simp [h1.2.2])

theorem reservedSelector_selector : reservedSelector w = false := by
  obtain ⟨h1, h2, h3, h4⟩ := selector_not_reserved hd hw
  simp only [reservedSelector, selDC, selNX, h1, bne_self_eq_false, Bool.false_or, beq_eq_false_iff_ne.mpr h2,
    beq_eq_false_iff_ne.mpr h3, beq_eq_false_iff_ne.mpr h4]

theorem decodeSelector_eq_find (ph : Phase) : decodeSelector ph w = ((rowsOf ph).find? (·.hits w)).map (·.sub) := by
  rw [decodeSelector, reservedSelector_selector hd hw, if_neg Bool.false_ne_true]

/-- R115: the branch rows, as one list, are R115's conditions in words. -/
theorem decodeSelector_branch : decodeSelector .branch w = some (branchInWords c sr1 b) := by
  rw [decodeSelector_eq_find hd hw, rowsOf, branchRows, ← List.take_append_drop 3 rowsRead]
  simp only [List.append_assoc, rowsStart_find hd hw, rowsAddress_find hd hw, rowsWrite_find hd hw,
    rowsRead_take_find hd hw, rowsRead_drop_find hd hw, rowsLast_find hd hw]
  simp only [branchInWords, apply_ite some, ← BusState.nextFlags.eq_def]

/-- R200: the prelude row's condition. -/
theorem matchesAdvance_iff : matchesAdvance w = true ↔ b.dcnt = -1 ∧ 0 < b.msgc := by
  simp only [matchesAdvance, preRows, List.any_cons, List.any_nil, Bool.or_false, hits_selector_iff hd hw]
  simp [Fin.forall_fin_succ, selectorBit]
  grind

/-- R285 and R286: the terminal rows' condition. -/
theorem decodeSelector_term : decodeSelector .term w =
    if b.dcnt = -1 ∧ b.msgc = 0 then some (if c.mode = .polled then .termPoll else .termInt) else none := by
  have hp : SelRow.hits ⟨0x02780, 0x02000, .termPoll⟩ w = true ↔ (b.dcnt = -1 ∧ b.msgc = 0) ∧ c.mode = .polled := by
    rw [hits_selector_iff hd hw]
    cases hm : c.mode <;> simp [Fin.forall_fin_succ, selectorBit, hm]
    grind
  have hi : SelRow.hits ⟨0x02780, 0x02080, .termInt⟩ w = true ↔ (b.dcnt = -1 ∧ b.msgc = 0) ∧ c.mode = .interrupt := by
    rw [hits_selector_iff hd hw]
    cases hm : c.mode <;> simp [Fin.forall_fin_succ, selectorBit, hm]
    grind
  rw [decodeSelector_eq_find hd hw, rowsOf, termRows]
  simp only [find_hits_cons, hp, hi]
  by_cases h : b.dcnt = -1 ∧ b.msgc = 0 <;> cases c.mode <;> simp [h]

end

/-- Settles O5: row by row, the mask's bits are R115's condition. -/
theorem selectorRowsAreTheirConditions : Obligations.SelectorRowsAreTheirConditions := fun _ _ _ _ hd hw =>
  ⟨decodeSelector_branch hd hw, matchesAdvance_iff hd hw, decodeSelector_term hd hw⟩

end Sys2Proof.Machine
end
section
/-! The engine's sub-cases (42_engine_address_phase to 45_engine_termination): when each goes on, and the state it leaves. -/

namespace Sys2Proof.Machine

open Sys2Proof

/-! The state after each piece. -/

/-- The state with one port's Bus State changed. -/
def State.changed (s : State) (p : Port) (f : BusState → BusState) : State := s.setBus p (f (s.bus p))

@[simp] theorem State.changed_bus (s : State) (p : Port) (f : BusState → BusState) :
    (s.changed p f).bus p = f (s.bus p) := by simp [State.changed]
@[simp] theorem State.changed_bus_of_ne (s : State) {p q : Port} (f : BusState → BusState) (h : q ≠ p) :
    (s.changed p f).bus q = s.bus q := by simp [State.changed, h]
@[simp] theorem State.changed_cfg (s : State) (p : Port) (f : BusState → BusState) : (s.changed p f).cfg = s.cfg := by
  simp [State.changed]
@[simp] theorem State.changed_entry (s : State) (p : Port) (f : BusState → BusState) :
    (s.changed p f).entry = s.entry := by simp [State.changed]
@[simp] theorem State.changed_mem (s : State) (p : Port) (f : BusState → BusState) : (s.changed p f).mem = s.mem := by
  simp [State.changed]
@[simp] theorem State.changed_races (s : State) (p : Port) (f : BusState → BusState) :
    (s.changed p f).races = s.races := by simp [State.changed]
@[simp] theorem State.regAt_changed (s : State) (p : Port) (f : BusState → BusState) (k : Nat) :
    (s.changed p f).regAt k = s.regAt k := by simp [State.changed]

/-- The state after ReadSR2. -/
def State.sr2Read (s : State) (p : Port) : State :=
  (s.gotReg p .sr2).withEntry { s.entry with s := s.entry.s ||| high16 (s.regAt 0) }

/-- The state after the preamble of the write path (R230). -/
def State.preambled (s : State) (p : Port) : State :=
  if has s.entry.sr1 s.cfg.layout.addr then (s.sr2Read p).changed p ({ · with checkAddrAck := false }) else s

/-- The state after the last two bytes of a read (R254, R258). -/
def State.pairRead (s : State) (p : Port) : State :=
  (((s.modReg p .cr1 0 (bit s.cfg.layout.stop)).readByteDone p).readByteDone p).changed p ({ · with dcnt := -1 })

/-- The state after the status word is captured (R283, R284). -/
def State.captured (s : State) (p : Port) : State := s.changed p ({ · with status := s.entry.s, msgv := none })

/-- The message `msgv` names, in a state where it names one. -/
def BusState.messageOr (b : BusState) : Message := b.message.getD ⟨0, MsgFlags.empty, 0, 0⟩

end Sys2Proof.Machine

namespace Sys2Proof

open Machine

/-- When a sub-case of an entry of the port goes on. -/
def Subcase.Runs (c : Subcase) (s : State) (p : Port) : Prop :=
  match c with
  | .advance => ∃ m, (s.bus p).message = some m ∧ m.length ≤ s.cfg.maxLen
  | .wByte | .r1Last | .rnByte | .rnNackprep => (s.bus p).plat.clkEn = true ∧ CursorHolds s.cfg (s.bus p) 1
  | .r2Final | .rnFinal => (s.bus p).plat.clkEn = true ∧ CursorHolds s.cfg (s.bus p) 2
  | .wNorestart | .wNone => s.addrSeen = true → (s.bus p).plat.clkEn = true
  | .wFlagerr => (s.addrSeen = true → (s.bus p).plat.clkEn = true) ∧ (s.bus p).message ≠ none
  | .sbAddr | .sbEmpty | .addrNack | .raddr1 | .raddr2 | .raddrN | .wStop | .wRestart | .r2Wait | .rnWait | .rErr
  | .termInt => (s.bus p).plat.clkEn = true
  | .emptyTerm | .fallbackPoll | .fallbackInt | .termPoll => True

/-- The state a sub-case of an entry of the port leaves. -/
def Subcase.done (c : Subcase) (s : State) (p : Port) : State :=
  let l := s.cfg.layout
  let b := s.bus p
  match c with
  | .advance => s.advanced p b.messageOr
  | .sbAddr => s.addressSent p
  | .sbEmpty => ((s.changed p ({ · with dcnt := -1 })).modReg p .cr2 0 (bit l.itbufen)).emittedEv p .empty 0
  | .addrNack =>
    ((s.changed p ({ · with checkAddrAck := false, dcnt := -1, msgc := 0 })).modReg p .cr1 0 (bit l.stop)).emittedEv
      p .addrNack 0
  | .raddr1 =>
    ((((s.modReg p .cr2 0 (bit l.itbufen)).sr2Read p).modReg p .cr1 0 (bit l.stop)).changed p
      (fun b => { b with dcnt := b.dcnt - 1, checkAddrAck := false })).emittedEv p .rcvbyte1 0
  | .raddr2 =>
    (((s.modReg p .cr1 (bit l.ack) 0).sr2Read p).changed p ({ · with checkAddrAck := false })).emittedEv p .rcvbyte2 0
  | .raddrN => ((s.sr2Read p).changed p ({ · with checkAddrAck := false })).emittedEv p .rcvbyteN b.dcnt
  | .wByte =>
    (((s.preambled p).writeByteDone p).changed p (fun b => { b with dcnt := b.dcnt - 1 })).emittedEv p .sendbyte
      (b.dcnt - 1)
  | .wStop =>
    (((s.preambled p).modReg p .cr1 0 (bit l.stop)).changed p (fun b => { b with dcnt := b.dcnt - 1 })).emittedEv
      p .stop 0
  | .wRestart =>
    (((s.preambled p).modReg p .cr1 0 (bit l.start)).changed p (fun b => { b with dcnt := b.dcnt - 1 })).emittedEv
      p .restart 0
  | .wNorestart => ((s.preambled p).changed p ({ · with dcnt := -1 })).emittedEv p .norestart 0
  | .wFlagerr => (s.preambled p).emittedEv p .writeFlagError b.messageOr.flags.number
  | .wNone => (s.preambled p).emittedEv p .writeIdle 0
  | .r1Last =>
    (((s.readByteDone p).changed p (fun b => { b with dcnt := b.dcnt - 1 })).emittedEv p .rcvbyteLast 0).sr2Read p
  | .r2Wait => (s.emittedEv p .read2Wait 0).sr2Read p
  | .r2Final => ((s.pairRead p).emittedEv p .read2 0).sr2Read p
  | .rnWait => (s.emittedEv p .readWait b.dcnt).sr2Read p
  | .rnByte =>
    (((s.readByteDone p).changed p (fun b => { b with dcnt := b.dcnt - 1 })).emittedEv p .rcvbyte
      (b.dcnt - 1)).sr2Read p
  | .rnNackprep =>
    ((((s.modReg p .cr1 (bit l.ack) 0).readByteDone p).changed p (fun b => { b with dcnt := b.dcnt - 1 })).emittedEv p
      .rcvbyteNackprep 2).sr2Read p
  | .rnFinal => ((s.pairRead p).emittedEv p .rcvbyteFinal 0).sr2Read p
  | .rErr => ((s.emittedEv p .readError b.dcnt).changed p ({ · with dcnt := -1, msgc := 0 })).sr2Read p
  | .emptyTerm => s.emittedEv p .shutdown 0
  | .fallbackPoll => s.emittedEv p .notReady 0
  | .fallbackInt => (s.emittedEv p .stateError s.entry.sr1.toNat).changed p ({ · with dcnt := -1, msgc := 0 })
  | .termPoll => ((s.captured p).changed p ({ · with intstate := .done })).emittedEv p .done 0
  | .termInt => (((s.captured p).modReg p .cr2 (allInts l) 0).changed p BusState.signalled).emittedEv p .done 0

end Sys2Proof

namespace Sys2Proof.Machine
open Sys2Proof

@[simp] theorem State.sr2Read_cfg (s : State) (p : Port) : (s.sr2Read p).cfg = s.cfg := by simp [State.sr2Read]
@[simp] theorem State.sr2Read_entry (s : State) (p : Port) :
    (s.sr2Read p).entry = { s.entry with s := s.entry.s ||| high16 (s.regAt 0) } := by simp [State.sr2Read]
@[simp] theorem State.sr2Read_bus (s : State) (p : Port) :
    (s.sr2Read p).bus p = (s.bus p).record (.rd .sr2 (s.regAt 0)) := by simp [State.sr2Read]
@[simp] theorem State.sr2Read_bus_of_ne (s : State) {p q : Port} (h : q ≠ p) : (s.sr2Read p).bus q = s.bus q := by
  simp [State.sr2Read, h]
@[simp] theorem State.sr2Read_mem (s : State) (p : Port) : (s.sr2Read p).mem = s.mem := by simp [State.sr2Read]
@[simp] theorem State.sr2Read_races (s : State) (p : Port) : (s.sr2Read p).races = s.races := by simp [State.sr2Read]
@[simp] theorem State.regAt_sr2Read (s : State) (p : Port) (k : Nat) : (s.sr2Read p).regAt k = s.regAt (k + 1) := by
  simp [State.sr2Read]

@[simp] theorem State.preambled_cfg (s : State) (p : Port) : (s.preambled p).cfg = s.cfg := by
  unfold State.preambled; split <;> simp

theorem State.preambled_bus (s : State) (p : Port) : (s.preambled p).bus p =
    if s.addrSeen then { (s.bus p).record (.rd .sr2 (s.regAt 0)) with checkAddrAck := false } else s.bus p := by
  unfold State.preambled State.addrSeen; split <;> simp

@[simp] theorem State.preambled_bus_of_ne (s : State) {p q : Port} (h : q ≠ p) : (s.preambled p).bus q = s.bus q := by
  unfold State.preambled; split <;> simp [h]

@[simp] theorem State.preambled_mem (s : State) (p : Port) : (s.preambled p).mem = s.mem := by
  unfold State.preambled; split <;> simp

@[simp] theorem State.preambled_races (s : State) (p : Port) : (s.preambled p).races = s.races := by
  unfold State.preambled; split <;> simp

/-- The preamble changes the mark and the history of its port's Bus State only. -/
@[simp] theorem State.preambled_bus_plat (s : State) (p : Port) : ((s.preambled p).bus p).plat = (s.bus p).plat := by
  rw [State.preambled_bus]; split <;> rfl

@[simp] theorem State.preambled_bus_dcnt (s : State) (p : Port) : ((s.preambled p).bus p).dcnt = (s.bus p).dcnt := by
  rw [State.preambled_bus]; split <;> rfl

@[simp] theorem State.preambled_bus_ptr (s : State) (p : Port) : ((s.preambled p).bus p).ptr = (s.bus p).ptr := by
  rw [State.preambled_bus]; split <;> rfl

@[simp] theorem State.preambled_bus_message (s : State) (p : Port) :
    ((s.preambled p).bus p).message = (s.bus p).message := by
  rw [State.preambled_bus]; split <;> rfl

@[simp] theorem State.preambled_bus_checkAddrAck (s : State) (p : Port) :
    ((s.preambled p).bus p).checkAddrAck = s.preambleAck (s.bus p) := by
  rw [State.preambled_bus, State.preambleAck]; split <;> rfl

@[simp] theorem State.preambled_bus_hist (s : State) (p : Port) :
    ((s.preambled p).bus p).hist = (s.bus p).hist ++ s.preambleEvs := by
  rw [State.preambled_bus, State.preambleEvs]; split <;> simp

@[simp] theorem State.preambled_entry (s : State) (p : Port) :
    (s.preambled p).entry = { s.entry with s := s.preambleStatus } := by
  unfold State.preambled State.preambleStatus State.addrSeen
  split
  · simp [high16, zext32]
  · rfl

@[simp] theorem State.regAt_preambled (s : State) (p : Port) (k : Nat) :
    (s.preambled p).regAt k = s.regAt (k + s.preambleReads) := by
  unfold State.preambled State.preambleReads State.addrSeen
  split <;> simp

theorem State.found_preambled (s : State) (p : Port) (a : Nat) : (s.preambled p).found a = s.found a := by
  unfold State.preambled
  split
  · simp [State.found, State.sr2Read, State.changed, State.gotReg]
  · rfl

/-! The cursor. -/

theorem cursorHolds_one_iff {s : State} {b : BusState} :
    CursorHolds s.cfg b 1 ↔ b.inBuffer = true ∧ s.hasAddress b.ptr = true := by
  simp only [CursorHolds, BusState.inBuffer, State.hasAddress, Bool.and_eq_true, decide_eq_true_eq]
  omega

/-- Two bytes are before the cursor where one is, and one is before the cursor moved on by one. -/
theorem cursorHolds_two_iff {c : Config} {b b' : BusState} (hp : b'.ptr = b.ptr + 1) (hb : b'.curBuf = b.curBuf)
    (hl : b'.totalMsgLen = b.totalMsgLen) : CursorHolds c b 2 ↔ CursorHolds c b 1 ∧ CursorHolds c b' 1 := by
  simp only [CursorHolds, hp, hb, hl]
  omega

theorem cursorHolds_congr {c : Config} {b b' : BusState} {n : Nat} (hp : b'.ptr = b.ptr) (hb : b'.curBuf = b.curBuf)
    (hl : b'.totalMsgLen = b.totalMsgLen) : CursorHolds c b' n ↔ CursorHolds c b n := by
  simp only [CursorHolds, hp, hb, hl]

@[simp] theorem cursorHolds_preambled (s : State) (p : Port) (n : Nat) :
    CursorHolds s.cfg ((s.preambled p).bus p) n ↔ CursorHolds s.cfg (s.bus p) n := by
  rw [State.preambled_bus]
  split <;> exact Iff.rfl

/-! When each piece goes on, and the state it leaves. -/

theorem readSr2_iff {s t : State} {p : Port} {u : Unit} :
    readSr2 p s = .ok u t ↔ (s.bus p).plat.clkEn = true ∧ t = s.sr2Read p := readSr2_ok_iff

theorem updBus_iff {s t : State} {p : Port} {f : BusState → BusState} {u : Unit} :
    updBus p f s = .ok u t ↔ t = s.changed p f := by
  rw [run_updBus, result_ok_iff]
  simp [State.changed]

theorem control_iff {s t : State} {p : Port} {r : Reg} {clr set : Half} {u : Unit} (h : isControl r = true) :
    regModify p r clr set s = .ok u t ↔ (s.bus p).plat.clkEn = true ∧ t = s.modReg p r clr set := by
  simp [regModify_ok_iff, h]

theorem setCr1_iff {s t : State} {p : Port} {i : BitLayout → Fin 16} {u : Unit} :
    setCr1 p i s = .ok u t ↔ (s.bus p).plat.clkEn = true ∧ t = s.modReg p .cr1 0 (bit (i s.cfg.layout)) := by
  rw [setCr1_eq, control_iff rfl]

theorem clrCr1_iff {s t : State} {p : Port} {i : BitLayout → Fin 16} {u : Unit} :
    clrCr1 p i s = .ok u t ↔ (s.bus p).plat.clkEn = true ∧ t = s.modReg p .cr1 (bit (i s.cfg.layout)) 0 := by
  rw [clrCr1_eq, control_iff rfl]

theorem setItbufen_iff {s t : State} {p : Port} {u : Unit} :
    setItbufen p s = .ok u t ↔ (s.bus p).plat.clkEn = true ∧ t = s.modReg p .cr2 0 (bit s.cfg.layout.itbufen) := by
  rw [setItbufen_eq, control_iff rfl]

theorem disableAll_iff {s t : State} {p : Port} {u : Unit} :
    disableAll p s = .ok u t ↔ (s.bus p).plat.clkEn = true ∧ t = s.modReg p .cr2 (allInts s.cfg.layout) 0 := by
  rw [disableAll_eq, control_iff rfl]

theorem readByte_iff {s t : State} {p : Port} {u : Unit} :
    readByte p s = .ok u t ↔
      (s.bus p).plat.clkEn = true ∧ CursorHolds s.cfg (s.bus p) 1 ∧ t = s.readByteDone p := by
  rw [readByte_ok_iff, cursorHolds_one_iff, and_assoc]

theorem writeByte_iff {s t : State} {p : Port} {u : Unit} :
    writeByte p s = .ok u t ↔
      (s.bus p).plat.clkEn = true ∧ CursorHolds s.cfg (s.bus p) 1 ∧ t = s.writeByteDone p := by
  rw [writeByte_ok_iff, cursorHolds_one_iff, and_assoc]

theorem writePreamble_iff {s t : State} {p : Port} {u : Unit} :
    writePreamble p s = .ok u t ↔ (s.addrSeen = true → (s.bus p).plat.clkEn = true) ∧ t = s.preambled p := by
  unfold writePreamble State.preambled State.addrSeen
  by_cases h : has s.entry.sr1 s.cfg.layout.addr = true
  · simp [-run_updBus, run_ite, h, readSr2_iff, updBus_iff]
  · simp only [bind_ok_iff, run_look, result_ok_iff, run_ite]
    simp [h]
    exact eq_comm

/-- The CR1 Modify before the two bytes leaves the cursor where it is. -/
@[simp] theorem cursorHolds_put_record (c : Config) (b : BusState) (e : Event) (r : Reg) (v : Half) (n : Nat) :
    CursorHolds c ((b.record e).put r v) n ↔ CursorHolds c b n := Iff.rfl

theorem finalPair_iff {s t : State} {p : Port} {u : Unit} :
    finalPair p s = .ok u t ↔
      (s.bus p).plat.clkEn = true ∧ CursorHolds s.cfg (s.bus p) 2 ∧ t = s.pairRead p := by
  have h₂ : CursorHolds s.cfg (s.bus p) 2 ↔ CursorHolds s.cfg (s.bus p) 1 ∧
      CursorHolds s.cfg (((s.modReg p .cr1 0 (bit s.cfg.layout.stop)).readByteDone p).bus p) 1 :=
    cursorHolds_two_iff (by simp) (by simp) (by simp)
  rw [h₂]
  simp only [finalPair, emitStop, bind_ok_iff, setCr1_iff, readByte_iff, updBus_iff]
  constructor
  · rintro ⟨_, _, ⟨hc, rfl⟩, _, _, ⟨-, h₁, rfl⟩, _, _, ⟨-, h₂, rfl⟩, rfl⟩
    exact ⟨hc, ⟨by simpa using h₁, by simpa using h₂⟩, rfl⟩
  · rintro ⟨hc, ⟨h₁, h₂⟩, rfl⟩
    exact ⟨(), _, ⟨hc, rfl⟩, (), _, ⟨by simpa using hc, by simpa using h₁, rfl⟩, (), _,
      ⟨by simpa using hc, by simpa using h₂, rfl⟩, rfl⟩

@[simp] theorem State.pairRead_bus_plat (s : State) (p : Port) : ((s.pairRead p).bus p).plat = (s.bus p).plat := by
  simp [State.pairRead]

theorem nextMessage_iff {s t : State} {p : Port} {m : Message} :
    nextMessage p s = .ok m t ↔ (s.bus p).message = some m ∧ t = s := by
  cases h : (s.bus p).message with
  | none => simp [nextMessage_badMsgv h]
  | some n => simp [nextMessage_run h, eq_comm]

theorem subAdvance_iff {s t : State} {u : Unit} :
    subAdvance s = .ok u t ↔ Subcase.advance.Runs s s.entry.port ∧ t = Subcase.advance.done s s.entry.port := by
  simp only [subAdvance, entryPort, bind_ok_iff, run_look, result_ok_iff, nextMessage_iff, require_ok_iff, updBus_iff,
    emit_ok_iff, Subcase.Runs, Subcase.done, State.advanced, State.changed, BusState.messageOr]
  constructor
  · rintro ⟨_, _, ⟨rfl, rfl⟩, m, _, ⟨hm, rfl⟩, _, _, ⟨rfl, rfl⟩, _, _, ⟨hl, rfl⟩, _, _, rfl, rfl⟩
    exact ⟨⟨m, hm, of_decide_eq_true hl⟩, by rw [hm]; rfl⟩
  · rintro ⟨⟨m, hm, hl⟩, rfl⟩
    exact ⟨_, _, ⟨rfl, rfl⟩, m, _, ⟨hm, rfl⟩, _, _, ⟨rfl, rfl⟩, (), _, ⟨decide_eq_true hl, rfl⟩, (), _, rfl,
      by rw [hm]; rfl⟩

/-- R230, R235: a flag error needs a message to name. -/
theorem subWFlagerr_iff {s t : State} {u : Unit} :
    subWFlagerr s = .ok u t ↔ Subcase.wFlagerr.Runs s s.entry.port ∧ t = Subcase.wFlagerr.done s s.entry.port := by
  cases h : (s.bus s.entry.port).message with
  | none => simp [subWFlagerr, entryPort, writePreamble_iff, nextMessage_iff, Subcase.Runs, h]
  | some m =>
    simp [-run_emit, subWFlagerr, entryPort, writePreamble_iff, nextMessage_iff, emit_ok_iff, Subcase.Runs,
      Subcase.done, h, BusState.messageOr]

theorem subSbAddr_iff {s t : State} {u : Unit} :
    subSbAddr s = .ok u t ↔ Subcase.sbAddr.Runs s s.entry.port ∧ t = Subcase.sbAddr.done s s.entry.port := by
  constructor
  · intro h
    have hc : (s.bus s.entry.port).plat.clkEn = true := by
      simp only [subSbAddr, entryPort, bind_ok_iff, run_look, run_lookBus, result_ok_iff] at h
      obtain ⟨_, _, ⟨rfl, rfl⟩, _, _, ⟨rfl, rfl⟩, _, u, hp, -⟩ := h
      unfold ackPosPolicy at hp
      split at hp
      · exact (clrCr1_iff.mp (bind_ok_inv hp).choose_spec.choose_spec.1).1
      · split at hp
        · exact (setCr1_iff.mp (bind_ok_inv hp).choose_spec.choose_spec.1).1
        · exact (clrCr1_iff.mp (bind_ok_inv hp).choose_spec.choose_spec.1).1
    rw [subSbAddr_run hc] at h
    cases h
    exact ⟨hc, rfl⟩
  · rintro ⟨hc, rfl⟩
    exact subSbAddr_run hc

/-- The rest of the address phase (R207, R212 to R215), and terminal handling (R282 to R288). -/
theorem runSubcase_iff_of_address {c : Subcase} {s t : State} {u : Unit}
    (h : c ∈ [.sbEmpty, .addrNack, .raddr1, .raddr2, .raddrN, .emptyTerm, .fallbackPoll, .fallbackInt, .termPoll,
      .termInt]) :
    runSubcase c s = .ok u t ↔ c.Runs s s.entry.port ∧ t = c.done s s.entry.port := by
  fin_cases h
  all_goals
    simp [-run_updBus, -run_emit, runSubcase, subSbEmpty, subAddrNack, subRaddr1, subRaddr2, subRaddrN, subEmptyTerm,
      subFallbackInt, subFallbackPoll, subTermPoll, subTermInt, capture, entryPort, emitStop, clrAck, setItbufen_iff,
      updBus_iff, clrCr1_iff, setCr1_iff, emit_ok_iff, readSr2_iff, disableAll_iff, Subcase.Runs, Subcase.done,
      State.captured]

/-- The write path (R230 to R236). -/
theorem runSubcase_iff_of_write {c : Subcase} {s t : State} {u : Unit}
    (h : c ∈ [.wByte, .wStop, .wRestart, .wNorestart, .wNone]) :
    runSubcase c s = .ok u t ↔ c.Runs s s.entry.port ∧ t = c.done s s.entry.port := by
  fin_cases h
  all_goals
    simp [-run_updBus, -run_emit, runSubcase, subWByte, subWStop, subWRestart, subWNorestart, subWNone, entryPort,
      emitStop, emitStart, updBus_iff, setCr1_iff, emit_ok_iff, writePreamble_iff, writeByte_iff, Subcase.Runs,
      Subcase.done]
  all_goals tauto

/-- The read data phase (R252 to R262). -/
theorem runSubcase_iff_of_read {c : Subcase} {s t : State} {u : Unit}
    (h : c ∈ [.r1Last, .r2Wait, .r2Final, .rnWait, .rnByte, .rnNackprep, .rnFinal, .rErr]) :
    runSubcase c s = .ok u t ↔ c.Runs s s.entry.port ∧ t = c.done s s.entry.port := by
  fin_cases h
  all_goals
    simp [-run_updBus, -run_emit, runSubcase, subR1Last, subR2Wait, subR2Final, subRnWait, subRnByte, subRnNackprep,
      subRnFinal, subRErr, entryPort, clrAck, updBus_iff, clrCr1_iff, emit_ok_iff, readSr2_iff, readByte_iff,
      finalPair_iff, Subcase.Runs, Subcase.done]
  all_goals tauto

/-- Each sub-case goes on exactly where its accesses do. -/
theorem runSubcase_iff {c : Subcase} {s t : State} {u : Unit} :
    runSubcase c s = .ok u t ↔ c.Runs s s.entry.port ∧ t = c.done s s.entry.port := by
  cases c
  case advance => exact subAdvance_iff
  case wFlagerr => exact subWFlagerr_iff
  case sbAddr => exact subSbAddr_iff
  case wByte | wStop | wRestart | wNorestart | wNone => exact runSubcase_iff_of_write (by decide)
  case r1Last | r2Wait | r2Final | rnWait | rnByte | rnNackprep | rnFinal | rErr =>
    exact runSubcase_iff_of_read (by decide)
  all_goals exact runSubcase_iff_of_address (by decide)

theorem exec_subcase (c : Subcase) (s : State) : exec c.instr s = finish (runSubcase c) s := by cases c <;> rfl

theorem exec_subcase_of_runs {c : Subcase} {s : State} (h : c.Runs s s.entry.port) :
    exec c.instr s = .next (c.done s s.entry.port) := by
  rw [exec_subcase]
  exact finish_ok (u := ()) (runSubcase_iff.mpr ⟨h, rfl⟩)

end Sys2Proof.Machine
end
section
/-! The claims about the sub-cases: what each writes and in what order (42_engine_address_phase to
45_engine_termination), read off the state it leaves. -/

namespace Sys2Proof.Machine

open Sys2Proof

/-- Settles O16. -/
theorem emptyMessageAndAddressNack : Obligations.EmptyMessageAndAddressNack := by
  rintro s _ rfl hc
  exact ⟨⟨_, exec_subcase_of_runs (c := .sbEmpty) hc, by simp [Subcase.done, modEvs, modified]⟩,
    _, exec_subcase_of_runs (c := .addrNack) hc, by simp [Subcase.done, modEvs, modified]⟩

/-- Settles O17. -/
theorem readAddressClearOrder : Obligations.ReadAddressClearOrder := by
  rintro s _ rfl hc
  exact ⟨⟨_, exec_subcase_of_runs (c := .raddr1) hc, by simp [Subcase.done, modEvs, modified, high16, zext32]⟩,
    ⟨_, exec_subcase_of_runs (c := .raddr2) hc, by simp [Subcase.done, modEvs, modified, high16, zext32]⟩,
    _, exec_subcase_of_runs (c := .raddrN) hc, by simp [Subcase.done, high16, zext32]⟩

/-- Settles O19. -/
theorem writeMessageEnds : Obligations.WriteMessageEnds := by
  rintro s _ rfl hc
  have hp : s.addrSeen = true → (s.bus s.entry.port).plat.clkEn = true := fun _ => hc
  exact ⟨⟨_, exec_subcase_of_runs (c := .wStop) hc, by simp [Subcase.done, modEvs, modified]⟩,
    ⟨_, exec_subcase_of_runs (c := .wRestart) hc, by simp [Subcase.done, modEvs, modified]⟩,
    ⟨_, exec_subcase_of_runs (c := .wNorestart) hp, by simp [Subcase.done]⟩,
    fun m hm => ⟨_, exec_subcase_of_runs (c := .wFlagerr) ⟨hp, by simp [hm]⟩,
      by simp [Subcase.done, BusState.messageOr, hm]⟩,
    _, exec_subcase_of_runs (c := .wNone) hp, by simp [Subcase.done]⟩

/-- Settles O22. -/
theorem readWaitsAndReadError : Obligations.ReadWaitsAndReadError := by
  rintro s _ rfl hc
  exact ⟨⟨_, exec_subcase_of_runs (c := .r2Wait) hc, by simp [Subcase.done, high16, zext32]⟩,
    ⟨_, exec_subcase_of_runs (c := .rnWait) hc, by simp [Subcase.done, high16, zext32]⟩,
    _, exec_subcase_of_runs (c := .rErr) hc, by simp [Subcase.done, high16, zext32]⟩

/-- Settles O24. -/
theorem emptyTerminationAndFallbacks : Obligations.EmptyTerminationAndFallbacks := by
  rintro s _ rfl
  exact ⟨⟨_, exec_subcase_of_runs (c := .emptyTerm) trivial, by simp [Subcase.done]⟩,
    ⟨_, exec_subcase_of_runs (c := .fallbackPoll) trivial, by simp [Subcase.done]⟩,
    _, exec_subcase_of_runs (c := .fallbackInt) trivial, by simp [Subcase.done]⟩

/-- R286, as one update of the two fields it writes. -/
theorem BusState.signalled_eq (b : BusState) : b.signalled =
    { b with
      intstate := if b.intstate = .waiting then .done else b.intstate
      sem := if b.intstate = .waiting then b.sem + 1 else b.sem } := by
  unfold BusState.signalled
  split <;> rfl

/-- Settles O25. -/
theorem terminalHandlingCapturesStatus : Obligations.TerminalHandlingCapturesStatus := by
  rintro s _ rfl
  refine ⟨⟨_, exec_subcase_of_runs (c := .termPoll) trivial, ?_⟩,
    fun hc => ⟨_, exec_subcase_of_runs (c := .termInt) hc, ?_⟩⟩
  · simp [Subcase.done, State.captured]
  · simp [Subcase.done, State.captured, BusState.signalled_eq, modEvs, modified]
    exact ⟨rfl, rfl⟩

/-- Settles O18: the preamble does not touch the cursor or memory, so the byte found is the one at the cursor. -/
theorem writeByteSendsTheByte : Obligations.WriteByteSendsTheByte := by
  rintro s _ rfl hc hb
  refine ⟨_, exec_subcase_of_runs (c := .wByte) ⟨hc, hb⟩, ?_⟩
  have hnone (a : Nat) (h : s.raceOf a = []) : s.found a = s.mem.read a := (State.found_of_no_race h).1
  have hmem (a : Nat) : s.found a ∈ s.mem.read a :: s.raceOf a := oneOf_mem _ _ _
  simpa [Subcase.done, State.found_preambled] using ⟨hnone _, List.mem_cons.mp (hmem _)⟩

/-- Settles O20. -/
theorem readOneByteStoresIt : Obligations.ReadOneByteStoresIt := by
  rintro s _ rfl hc hb hm
  have hread (a : Nat) (v : Byte) : (s.mem.write a v).read a = v := Memory.read_write_same hm
  exact ⟨⟨_, exec_subcase_of_runs (c := .r1Last) ⟨hc, hb⟩, by simp [Subcase.done, high16, zext32, hread]⟩,
    ⟨_, exec_subcase_of_runs (c := .rnByte) ⟨hc, hb⟩, by simp [Subcase.done, high16, zext32, hread]⟩,
    _, exec_subcase_of_runs (c := .rnNackprep) ⟨hc, hb⟩,
    by simp [Subcase.done, modEvs, modified, high16, zext32, hread]⟩

/-- Settles O21: the second byte is stored beside the first. -/
theorem readLastTwoStoresThem : Obligations.ReadLastTwoStoresThem := by
  rintro s _ c e h rfl hc hb hm
  have hfirst (a : Nat) (v w : Byte) : ((s.mem.write a v).write (a + 1) w).read a = v :=
    (Memory.read_write_ne (Nat.ne_of_lt a.lt_succ_self)).trans (Memory.read_write_same hm)
  have hsecond (a : Nat) (v w : Byte) : ((s.mem.write a v).write (a + 1) w).read (a + 1) = w :=
    Memory.read_write_same (Memory.write_wf a v hm)
  obtain ⟨rfl, rfl⟩ | ⟨rfl, rfl⟩ := h
  · exact ⟨_, exec_subcase_of_runs (c := .r2Final) ⟨hc, hb⟩,
      by simp [Subcase.done, State.pairRead, modEvs, modified, high16, zext32, hfirst, hsecond]⟩
  · exact ⟨_, exec_subcase_of_runs (c := .rnFinal) ⟨hc, hb⟩,
      by simp [Subcase.done, State.pairRead, modEvs, modified, high16, zext32, hfirst, hsecond]⟩

/-! Buffer bytes (20_memory R81; 70_reset_and_hazards R461). -/

theorem State.ownedByOther_of_owned {s : State} {w : Option Port} {a : Nat} {p : Port} {m : Message} (hw : w ≠ some p)
    (ho : (s.bus p).owning = true) (hm : m ∈ (s.bus p).msgs) (h₁ : m.buffer ≤ a) (h₂ : a < m.buffer + m.length) :
    s.ownedByOther w a = true := by
  have h : (s.bus p).owns a = true := by
    simp only [BusState.owns, ho, Bool.true_and, List.any_eq_true]
    exact ⟨m, hm, by simp [h₁, h₂]⟩
  have hne : (w != some p) = true := by simpa using hw
  cases p <;> simp [State.ownedByOther, State.bus] at * <;> simp [h, hne]

/-- A store races where another transfer owns the byte or it is under a race already. -/
theorem State.raceOf_stored (s : State) (w : Option Port) (a : Nat) (v : Byte) (b : Nat) :
    (s.stored w a v).raceOf b =
      s.raceOf b ++ if b = a ∧ (s.ownedByOther w a || !(s.raceOf a).isEmpty) then [s.mem.read a] else [] := by
  simp only [State.raceOf, State.stored_races]
  by_cases hr : (s.ownedByOther w a || !(s.raceOf a).isEmpty) = true
  · by_cases hb : b = a
    · subst hb
      simp [State.raceOf] at hr ⊢
      simp [hr]
    · have : (a == b) = false := by simpa using Ne.symm hb
      simp [State.raceOf] at hr ⊢
      simp [hr, hb, this]
  · simp [State.raceOf] at hr ⊢
    simp [hr]

/-- Each value of a byte under a race is found for some draws. -/
theorem oneOf_surjective (ws : List Byte) (v : Byte) {x : Byte} (h : x ∈ v :: ws) :
    ∃ l, ∀ n, (oneOf ws v ⟨l, n⟩).1 = x := by
  induction ws generalizing v with
  | nil => exact ⟨[], fun _ => (List.mem_singleton.mp h).symm⟩
  | cons w ws ih =>
    obtain rfl | rfl | h := by simpa using h
    · obtain ⟨l, hl⟩ := ih x (.head _)
      exact ⟨false :: l, fun n => hl (n + 1)⟩
    · obtain ⟨l, hl⟩ := ih x (.head _)
      exact ⟨true :: l, fun n => hl (n + 1)⟩
    · obtain ⟨l, hl⟩ := ih w (.tail _ h)
      exact ⟨true :: l, fun n => hl (n + 1)⟩

/-- Where races end each byte is one of its values. -/
theorem Memory.read_decided_mem (m : Memory) (cs : List Host.Cell) (x : Source Bool) (a : Nat) (hm : m.wf = true) :
    (m.decided cs x).1.read a ∈ m.read a :: (cs.filter fun c => c.1 == a).map (·.2) := by
  induction cs generalizing m x with
  | nil => simp [Memory.decided]
  | cons c cs ih =>
    obtain ⟨b, v⟩ := c
    rw [Memory.decided]
    split
    · have h := ih (m.write b v) x.advance (Memory.write_wf b v hm)
      by_cases hb : b = a
      · subst hb
        rw [Memory.read_write_same hm] at h
        simp at h ⊢
        tauto
      · rw [Memory.read_write_ne (Ne.symm hb)] at h
        simpa [hb] using h
    · have h := ih m x.advance hm
      by_cases hb : b = a
      · simp [hb] at h ⊢
        tauto
      · simpa [hb] using h

theorem State.read_decided_mem {s : State} (a : Nat) (hm : s.mem.wf = true) :
    s.decided.mem.read a ∈ s.mem.read a :: s.raceOf a := by
  have h := Memory.read_decided_mem s.mem (s.races.filter fun c => !s.owned c.1) s.draws.races a hm
  refine List.mem_cons.mpr ((List.mem_cons.mp h).imp_right fun h => ?_)
  rw [List.filter_filter] at h
  have hsub : (s.races.filter fun c => c.1 == a && !s.owned c.1) ⊆ s.races.filter fun c => c.1 == a :=
    (List.monotone_filter_right _ fun _ hc => (Bool.and_eq_true _ _ ▸ hc).1).subset
  exact List.map_subset _ hsub h

theorem State.raceOf_decided_of_not_owned {s : State} {a : Nat} (h : s.owned a = false) : s.decided.raceOf a = [] := by
  simp only [State.raceOf, State.decided_races, List.filter_filter, List.map_eq_nil_iff, List.filter_eq_nil_iff]
  rintro c - hc
  simp only [Bool.and_eq_true, beq_iff_eq] at hc
  rw [hc.1, h] at hc
  exact nomatch hc.2

theorem State.raceOf_decided_of_owned {s : State} {a : Nat} (h : s.owned a = true) :
    s.decided.raceOf a = s.raceOf a := by
  simp only [State.raceOf, State.decided_races, List.filter_filter]
  congr 1
  refine List.filter_congr fun c _ => ?_
  by_cases hc : c.1 = a
  · simp [hc, h]
  · simp [hc]

theorem State.read_decided_of_owned {s : State} {a : Nat} (h : s.owned a = true) :
    s.decided.mem.read a = s.mem.read a :=
  Memory.read_decided_ne _ fun c hc hca => by simp [hca, h] at hc

/-! A cursor outside the buffer, or outside the address space. -/

/-- Why an access at the cursor faults (R81). -/
def CursorFault (c : Config) (b : BusState) (f : Fault) : Prop :=
  f = .bufferOverrun ∧ ¬(b.curBuf ≤ b.ptr ∧ b.ptr < b.curBuf + b.totalMsgLen) ∨
    f = .noSuchAddress ∧ (b.curBuf ≤ b.ptr ∧ b.ptr < b.curBuf + b.totalMsgLen) ∧ 2 ^ c.addrWidth ≤ b.ptr

theorem bufferAccess_fault {s : State} {p : Port} {f : Fault} (h : CursorFault s.cfg (s.bus p) f) :
    bufferAccess p s = .error (.fault f) s := by
  obtain ⟨rfl, hb⟩ | ⟨rfl, hb, ha⟩ := h
  · have hin : (s.bus p).inBuffer = false := by
      simpa [BusState.inBuffer] using hb
    simp [bufferAccess, run_bind, run_ensure, hin]
  · have hin : (s.bus p).inBuffer = true := by simpa [BusState.inBuffer] using hb
    have hout : s.hasAddress (s.bus p).ptr = false := by simpa [State.hasAddress] using ha
    simp [bufferAccess, run_bind, run_ensure, hin, hout]

theorem readByte_fault {s : State} {p : Port} {f : Fault} (hc : (s.bus p).plat.clkEn = true)
    (h : CursorFault s.cfg (s.bus p) f) : ∃ t, readByte p s = .error (.fault f) t := by
  refine ⟨_, (run_bind_ok (regGet_run rfl hc)).trans (run_bind_error (bufferAccess_fault ?_))⟩
  rw [State.gotReg_bus, State.gotReg_cfg]
  exact h

theorem writeByte_fault {s : State} {p : Port} {f : Fault} (h : CursorFault s.cfg (s.bus p) f) :
    writeByte p s = .error (.fault f) s := run_bind_error (bufferAccess_fault h)

theorem exec_subcase_fault {c : Subcase} {s : State} {f : Fault} (h : ∃ t, runSubcase c s = .error (.fault f) t) :
    exec c.instr s = .fault f := by
  obtain ⟨t, h⟩ := h
  rw [exec_subcase]
  exact finish_fault h

/-- The first of the last two bytes, or the second, may lie outside. -/
theorem finalPair_fault {s : State} {p : Port} {f : Fault} (hc : (s.bus p).plat.clkEn = true) (h : CursorFault s.cfg (s.bus p) f ∨
    CursorHolds s.cfg (s.bus p) 1 ∧ CursorFault s.cfg { s.bus p with ptr := (s.bus p).ptr + 1 } f) :
    ∃ t, finalPair p s = .error (.fault f) t := by
  have hstop : emitStop p s = .ok () (s.modReg p .cr1 0 (bit s.cfg.layout.stop)) := setCr1_iff.mpr ⟨hc, rfl⟩
  have hc' : ((s.modReg p .cr1 0 (bit s.cfg.layout.stop)).bus p).plat.clkEn = true := by simpa using hc
  obtain h | ⟨h₁, h₂⟩ := h
  · obtain ⟨t, ht⟩ := readByte_fault (f := f) hc' (by simpa [CursorFault] using h)
    exact ⟨t, (run_bind_ok hstop).trans (run_bind_error ht)⟩
  · have hfirst := readByte_iff (u := ()).mpr ⟨hc', by simpa using h₁, rfl⟩
    obtain ⟨t, ht⟩ := readByte_fault (s := (s.modReg p .cr1 0 (bit s.cfg.layout.stop)).readByteDone p) (p := p) (f := f)
      (by simpa using hc) (by simpa [CursorFault] using h₂)
    exact ⟨t, (run_bind_ok hstop).trans ((run_bind_ok hfirst).trans (run_bind_error ht))⟩

section
variable {s : State} {f : Fault} (hc : (s.bus s.entry.port).plat.clkEn = true)
include hc

/-- Every sub-case that accesses a byte faults where its cursor is outside. -/
theorem exec_byte_fault {c : Subcase} (h : CursorFault s.cfg (s.bus s.entry.port) f)
    (hb : c = .wByte ∨ c = .r1Last ∨ c = .r2Final ∨ c = .rnByte ∨ c = .rnNackprep ∨ c = .rnFinal) :
    exec c.instr s = .fault f := by
  refine exec_subcase_fault ?_
  have hpre : writePreamble s.entry.port s = .ok () (s.preambled s.entry.port) :=
    writePreamble_iff.mpr ⟨fun _ => hc, rfl⟩
  have hack : clrAck s.entry.port s = .ok () (s.modReg s.entry.port .cr1 (bit s.cfg.layout.ack) 0) :=
    clrCr1_iff.mpr ⟨hc, rfl⟩
  obtain ⟨t, ht⟩ := readByte_fault hc h
  obtain ⟨t', ht'⟩ := finalPair_fault hc (.inl h)
  obtain ⟨t'', ht''⟩ := readByte_fault (s := s.modReg s.entry.port .cr1 (bit s.cfg.layout.ack) 0) (p := s.entry.port)
    (f := f) (by simpa using hc) (by simpa [CursorFault] using h)
  have hw := writeByte_fault (s := s.preambled s.entry.port) (p := s.entry.port) (f := f) (by
    rw [State.preambled_bus, State.preambled_cfg]
    split
    · exact h
    · exact h)
  obtain rfl | rfl | rfl | rfl | rfl | rfl := hb
  · exact ⟨_, (run_bind_ok (run_look _ _)).trans ((run_bind_ok hpre).trans (run_bind_error hw))⟩
  · exact ⟨t, (run_bind_ok (run_look _ _)).trans (run_bind_error ht)⟩
  · exact ⟨t', (run_bind_ok (run_look _ _)).trans (run_bind_error ht')⟩
  · exact ⟨t, (run_bind_ok (run_look _ _)).trans (run_bind_error ht)⟩
  · exact ⟨t'', (run_bind_ok (run_look _ _)).trans ((run_bind_ok hack).trans (run_bind_error ht''))⟩
  · exact ⟨t', (run_bind_ok (run_look _ _)).trans (run_bind_error ht')⟩

end

/-- Settles O23. -/
theorem bufferOverrunFaults : Obligations.BufferOverrunFaults := by
  refine ⟨fun s w a v hm => ⟨?_, fun b hb => ?_, ?_, fun ho hr => ?_, fun b hb => ?_⟩,
    fun s a => ⟨oneOf_mem _ _ _, fun v hv => ?_⟩, fun s a hm => ⟨Memory.decided_wf _ _ hm, s.read_decided_mem a hm,
      State.raceOf_decided_of_not_owned, fun h => ⟨State.raceOf_decided_of_owned h, State.read_decided_of_owned h⟩⟩, ?_⟩
  · rw [State.stored_mem]
    exact Memory.read_write_same hm
  · rw [State.stored_mem]
    exact Memory.read_write_ne hb
  · rintro ⟨p, m, hw, ho, hmem, h₁, h₂⟩
    simp [State.raceOf_stored, State.ownedByOther_of_owned hw ho hmem h₁ h₂]
  · rw [State.stored_races, ho, hr]
    rfl
  · simp [State.raceOf_stored, hb]
  · obtain ⟨l, hl⟩ := oneOf_surjective _ _ hv
    exact ⟨⟨l, 0⟩, hl 0⟩
  · rintro s _ rfl hc
    refine ⟨fun h c hb => exec_byte_fault hc (.inl ⟨rfl, h⟩) hb, fun h₁ h₂ h₃ c hb => ?_,
      fun h₁ h₂ h₃ c hb => exec_byte_fault hc (.inr ⟨rfl, ⟨h₁, h₂⟩, h₃⟩) hb⟩
    obtain ⟨t, ht⟩ := finalPair_fault (f := .bufferOverrun) hc
      (.inr ⟨⟨h₁, by omega, by omega⟩, .inl ⟨rfl, by simp only; omega⟩⟩)
    refine exec_subcase_fault ⟨t, ?_⟩
    obtain rfl | rfl := hb
    · exact (run_bind_ok (run_look _ _)).trans (run_bind_error ht)
    · exact (run_bind_ok (run_look _ _)).trans (run_bind_error ht)

end Sys2Proof.Machine
end
section
/-! The frame of the sub-cases (42_engine_address_phase to 45_engine_termination). -/

namespace Sys2Proof.Machine

open Sys2Proof

/-! Nothing of the engine waits for a lock, and only the message advance is refused anything. -/

theorem bind_stop_iff {α β : Type} (m : M α) (f : α → M β) (e : Stop) (s t : State) :
    (m >>= f) s = .error e t ↔ m s = .error e t ∨ ∃ a u, m s = .ok a u ∧ f a u = .error e t := by
  rw [run_bind]
  cases m s <;> simp

theorem bind_wait_iff {α β : Type} (m : M α) (f : α → M β) (s t : State) :
    (m >>= f) s = .error .lockWait t ↔
      m s = .error .lockWait t ∨ ∃ a u, m s = .ok a u ∧ f a u = .error .lockWait t := bind_stop_iff m f _ s t

/-- A stop that is no fault: a refusal or a lock wait. -/
def Stop.Soft (e : Stop) : Prop := ∀ f, e ≠ .fault f

theorem Stop.soft_lockWait : Stop.lockWait.Soft := nofun

theorem Stop.soft_refusal (r : Refusal) : (Stop.refusal r).Soft := nofun

section
variable {e : Stop} (he : e.Soft)
include he

theorem raise_ne_soft {α : Type} (f : Fault) (s t : State) : (raise f : M α) s ≠ .error e t := fun h => by
  cases h
  exact he f rfl

theorem ensure_ne_soft (c : Bool) (f : Fault) (s t : State) : ensure c f s ≠ .error e t := by
  cases c
  · exact raise_ne_soft he f s t
  · nofun

theorem regGet_ne_soft (p : Port) (r : Reg) (s t : State) : regGet p r s ≠ .error e t := by
  simp [regGet, bind_stop_iff, ensure_ne_soft he, run_drawReg]

theorem regPut_ne_soft (p : Port) (r : Reg) (v : Half) (s t : State) : regPut p r v s ≠ .error e t := by
  simp [regPut, bind_stop_iff, ensure_ne_soft he]

theorem regModify_ne_soft (p : Port) (r : Reg) (clr set : Half) (s t : State) : regModify p r clr set s ≠ .error e t := by
  simp [regModify, bind_stop_iff, ensure_ne_soft he, regGet_ne_soft he, regPut_ne_soft he]

theorem readSr2_ne_soft (p : Port) (s t : State) : readSr2 p s ≠ .error e t := by
  simp [readSr2, bind_stop_iff, regGet_ne_soft he]

theorem bufferAccess_ne_soft (p : Port) (s t : State) : bufferAccess p s ≠ .error e t := by
  simp only [bufferAccess, ne_eq, bind_stop_iff, ensure_ne_soft he, false_or, run_lookBus, run_look]
  simp

theorem readByte_ne_soft (p : Port) (s t : State) : readByte p s ≠ .error e t := by
  simp [readByte, bind_stop_iff, regGet_ne_soft he, bufferAccess_ne_soft he]

theorem writeByte_ne_soft (p : Port) (s t : State) : writeByte p s ≠ .error e t := by
  simp [writeByte, bind_stop_iff, regPut_ne_soft he, bufferAccess_ne_soft he]

theorem nextMessage_ne_soft (p : Port) (s t : State) : nextMessage p s ≠ .error e t := by
  cases h : (s.bus p).message with
  | none => rw [nextMessage_badMsgv h]; exact raise_ne_soft (α := Message) he _ s t
  | some m => simp [nextMessage_run h]

theorem ackPosPolicy_ne_soft (p : Port) (n : Nat) (read : Bool) (s t : State) : ackPosPolicy p n read s ≠ .error e t := by
  unfold ackPosPolicy
  split_ifs
  all_goals
    simp [bind_stop_iff, clrPos, clrAck, setPos, setAck, setCr1_eq, clrCr1_eq, regModify_ne_soft he]

theorem writePreamble_ne_soft (p : Port) (s t : State) : writePreamble p s ≠ .error e t := by
  unfold writePreamble
  by_cases h : has s.entry.sr1 s.cfg.layout.addr = true
  · simp [bind_stop_iff, run_ite, h, readSr2_ne_soft he]
  · simp [bind_stop_iff, run_ite, h]

theorem finalPair_ne_soft (p : Port) (s t : State) : finalPair p s ≠ .error e t := by
  simp [finalPair, bind_stop_iff, emitStop, setCr1_eq, regModify_ne_soft he, readByte_ne_soft he]

/-- Only the message advance, which tests a length (R200), is refused anything. -/
theorem runSubcase_ne_soft {c : Subcase} (hc : c ≠ .advance) (s t : State) : runSubcase c s ≠ .error e t := by
  cases c
  case advance => exact absurd rfl hc
  all_goals
    simp [bind_stop_iff, runSubcase, subSbAddr, subSbEmpty, subAddrNack, subRaddr1, subRaddr2, subRaddrN,
      subWByte, subWStop, subWRestart, subWNorestart, subWFlagerr, subWNone, subR1Last, subR2Wait, subR2Final,
      subRnWait, subRnByte, subRnNackprep, subRnFinal, subRErr, subEmptyTerm, subFallbackInt, subFallbackPoll,
      subTermPoll, subTermInt, capture, entryPort, emitStop, emitStart, clrAck, setCr1_eq, clrCr1_eq, setItbufen_eq,
      disableAll_eq, regModify_ne_soft he, regPut_ne_soft he, readSr2_ne_soft he, readByte_ne_soft he, writeByte_ne_soft he,
      nextMessage_ne_soft he, ackPosPolicy_ne_soft he, writePreamble_ne_soft he, finalPair_ne_soft he]

/-- The message advance stops before it changes anything. -/
theorem subAdvance_soft {s t : State} (h : subAdvance s = .error e t) : t = s ∧ e ≠ .lockWait := by
  cases hm : (s.bus s.entry.port).message with
  | none =>
    rw [subAdvance_badMsgv hm] at h
    cases h
    exact absurd rfl (he _)
  | some m =>
    by_cases hl : m.length ≤ s.cfg.maxLen
    · rw [subAdvance_run hm hl] at h
      cases h
    · rw [subAdvance_lengthTooLarge hm (by omega)] at h
      cases h
      exact ⟨rfl, nofun⟩

end

theorem runSubcase_ne_wait (c : Subcase) (s t : State) : runSubcase c s ≠ .error .lockWait t := by
  by_cases hc : c = .advance
  · subst hc
    exact fun h => (subAdvance_soft Stop.soft_lockWait h).2 rfl
  · exact runSubcase_ne_soft Stop.soft_lockWait hc s t

/-- A sub-case that goes on did what it does. -/
theorem exec_subcase_next_iff {c : Subcase} {s t : State} :
    exec c.instr s = .next t ↔ c.Runs s s.entry.port ∧ t = c.done s s.entry.port := by
  rw [← runSubcase_iff (u := ()), exec_subcase]
  constructor
  · intro h
    exact (finish_next_inv h).resolve_right (runSubcase_ne_wait c s t)
  · exact finish_ok

/-! What a piece of a sub-case leaves as it is. -/

/-- One port changed in the listed fields and registers, and nothing outside the ports but memory, races, the draws and
the entry. -/
structure EngineFrame (p : Port) (fs : List Field) (rs : List Reg) (s t : State) : Prop where
  port : KeptBut s.cfg fs rs (s.bus p) (t.bus p)
  others : OtherPortsKept p s t
  outside : OutsideKept s t

theorem OutsideKept.trans {s t u : State} (h : OutsideKept s t) (k : OutsideKept t u) : OutsideKept s u where
  cfg := k.cfg.trans h.cfg
  instances := k.instances.trans h.instances
  fsmcEn := k.fsmcEn.trans h.fsmcEn
  intsOff := k.intsOff.trans h.intsOff
  requests := k.requests.trans h.requests
  stores := k.stores.trans h.stores
  threads := k.threads.trans h.threads
  returned := k.returned.trans h.returned
  ret := k.ret.trans h.ret
  errval := k.errval.trans h.errval

theorem KeptBut.mono {c : Config} {fs fs' : List Field} {rs rs' : List Reg} {b b' : BusState}
    (h : KeptBut c fs rs b b') (hf : ∀ f ∈ fs, f ∈ fs') (hr : ∀ r ∈ rs, r ∈ rs') : KeptBut c fs' rs' b b' where
  engine := h.engine
  recorder := h.recorder
  fields := fun f k => h.fields f (mt (hf f) k)
  regs := fun r k => h.regs r (mt (hr r) k)

/-- A Bus State whose history got longer and which differs in listed fields only. -/
theorem KeptBut.of_eq {c : Config} {fs : List Field} {b b' : BusState} (hist : b.hist <+: b'.hist)
    (eq : { b with
      sem := b'.sem, intstate := b'.intstate, dcnt := b'.dcnt, msgc := b'.msgc, msgv := b'.msgv, ptr := b'.ptr
      totalMsgLen := b'.totalMsgLen, flags := b'.flags, checkAddrAck := b'.checkAddrAck, status := b'.status
      curAddr := b'.curAddr, curBuf := b'.curBuf, cr2Written := b'.cr2Written, hist := b'.hist } = b')
    (fields : ∀ f, f ∉ fs → f.Same b b') : KeptBut c fs [] b b' where
  engine := by rw [← eq]; constructor <;> rfl
  recorder := .of_trace_eq hist (by rw [← eq]) (by rw [← eq])
  fields := fields
  regs := fun r _ => by rw [← eq]

namespace EngineFrame

variable {p : Port} {fs fs' : List Field} {rs rs' : List Reg} {s t u : State}

theorem trans (h : EngineFrame p fs rs s t) (k : EngineFrame p fs' rs' t u) :
    EngineFrame p (fs ++ fs') (rs ++ rs') s u where
  port := h.port.trans (h.outside.cfg ▸ k.port)
  others := fun q hq => (k.others q hq).trans (h.others q hq)
  outside := h.outside.trans k.outside

theorem mono (h : EngineFrame p fs rs s t) (hf : ∀ f ∈ fs, f ∈ fs') (hr : ∀ r ∈ rs, r ∈ rs') :
    EngineFrame p fs' rs' s t := ⟨h.port.mono hf hr, h.others, h.outside⟩

theorem gotReg (s : State) (p : Port) (r : Reg) : EngineFrame p [] [] s (s.gotReg p r) :=
  ⟨(OnlyPort.gotReg s p r).port, (OnlyPort.gotReg s p r).others, .gotReg s p r⟩

theorem putReg (s : State) (p : Port) (r : Reg) (v : Half) :
    EngineFrame p (if r = .cr2 then [.cr2Written] else []) [r] s (s.putReg p r v) :=
  ⟨(OnlyPort.putReg s p r v).port, (OnlyPort.putReg s p r v).others, by constructor <;> simp⟩

theorem modReg (s : State) (p : Port) (r : Reg) (clr set : Half) :
    EngineFrame p (if r = .cr2 then [.cr2Written] else []) [r] s (s.modReg p r clr set) :=
  ⟨(OnlyPort.modReg s p r clr set).port, (OnlyPort.modReg s p r clr set).others, .modReg s p r clr set⟩

theorem withEntry (s : State) (p : Port) (x : Entry) : EngineFrame p [] [] s (s.withEntry x) :=
  ⟨by simpa using KeptBut.of_eq List.prefix_rfl rfl fun f _ => by cases f <;> rfl, fun _ _ => by simp,
    by constructor <;> rfl⟩

theorem sr2Read (s : State) (p : Port) : EngineFrame p [] [] s (s.sr2Read p) := (gotReg s p .sr2).trans (withEntry _ p _)

/-- A change of a Bus State is framed by what it changes. -/
theorem changed {f : BusState → BusState} (h : KeptBut s.cfg fs [] (s.bus p) (f (s.bus p))) :
    EngineFrame p fs [] s (s.changed p f) :=
  ⟨by simpa using h, fun _ hq => by simp [hq], by constructor <;> simp [State.changed]⟩

/-- R346: an event annotates the current entry of the ring. -/
theorem emittedEv (s : State) (p : Port) (ev : EvName) (x : Int) : EngineFrame p [] [] s (s.emittedEv p ev x) where
  port := by
    rw [State.emittedEv_bus]
    split
    case isTrue h =>
      refine ⟨by constructor <;> rfl, ⟨List.prefix_append _ _, ?_, rfl, rfl, fun k hk => ?_, ?_, rfl⟩, ?_, fun _ _ => rfl⟩
      · simp [Trace.annotate, Trace.setCurrent]
      · simp [Trace.annotate, Trace.setCurrent, List.getElem?_set_ne (Ne.symm hk)]
      · exact fun h' => absurd (h.symm.trans h') (by decide)
      · intro f _; cases f <;> rfl
    case isFalse => exact KeptBut.of_eq List.prefix_rfl rfl fun f _ => by cases f <;> rfl
  others := fun _ hq => by simp [hq]
  outside := by constructor <;> simp

theorem preambled (s : State) (p : Port) : EngineFrame p [.checkAddrAck] [] s (s.preambled p) := by
  unfold State.preambled
  split
  · exact (sr2Read s p).trans (changed (.of_eq List.prefix_rfl rfl fun f hf => by cases f <;> simp_all [Field.Same]))
  · exact ⟨.of_eq List.prefix_rfl rfl fun f _ => by cases f <;> rfl, fun _ _ => rfl, by constructor <;> rfl⟩

theorem readByteDone (s : State) (p : Port) : EngineFrame p [.ptr] [] s (s.readByteDone p) where
  port := by
    rw [State.readByteDone_bus]
    exact .of_eq (by simp) rfl fun f hf => by cases f <;> simp_all [Field.Same]
  others := fun _ hq => by simp [hq]
  outside := by constructor <;> simp

theorem writeByteDone (s : State) (p : Port) : EngineFrame p [.ptr] [.dr] s (s.writeByteDone p) where
  port := by
    have h : (s.writeByteDone p).bus p = { ((s.bus p).record (.mrd (s.bus p).ptr (s.found (s.bus p).ptr))).put .dr
        ((s.found (s.bus p).ptr).setWidth 16) with ptr := (s.bus p).ptr + 1 } := by simp [State.writeByteDone]
    rw [h]
    exact ((KeptBut.record s.cfg _ _).trans (.put s.cfg _ .dr _)).trans
      (.of_eq (fs := [.ptr]) List.prefix_rfl rfl fun f hf => by cases f <;> simp_all [Field.Same])
  others := fun _ hq => by simp [hq]
  outside := by constructor <;> simp

/-- R202: the policy writes CR1 only. -/
theorem policyDone (s : State) (p : Port) (n : Nat) (read : Bool) :
    EngineFrame p [] [.cr1] s (s.policyDone p n read) :=
  ((modReg s p .cr1 _ _).trans (modReg _ p .cr1 _ _)).mono (by decide) (by decide)

theorem pairRead (s : State) (p : Port) : EngineFrame p [.ptr, .dcnt] [.cr1] s (s.pairRead p) :=
  ((((modReg s p .cr1 _ _).trans (readByteDone _ p)).trans (readByteDone _ p)).trans
    (changed (fs := [.dcnt]) (.of_eq List.prefix_rfl rfl fun f hf => by cases f <;> simp_all [Field.Same]))).mono
    (by decide) (by decide)

/-- Updates of fields only. -/
theorem fields {f : BusState → BusState} (fs : List Field) (hist : (f (s.bus p)).hist = (s.bus p).hist)
    (eq : { s.bus p with
      sem := (f (s.bus p)).sem, intstate := (f (s.bus p)).intstate, dcnt := (f (s.bus p)).dcnt
      msgc := (f (s.bus p)).msgc, msgv := (f (s.bus p)).msgv, ptr := (f (s.bus p)).ptr
      totalMsgLen := (f (s.bus p)).totalMsgLen, flags := (f (s.bus p)).flags
      checkAddrAck := (f (s.bus p)).checkAddrAck, status := (f (s.bus p)).status, curAddr := (f (s.bus p)).curAddr
      curBuf := (f (s.bus p)).curBuf, cr2Written := (f (s.bus p)).cr2Written } = f (s.bus p))
    (same : ∀ g, g ∉ fs → g.Same (s.bus p) (f (s.bus p))) : EngineFrame p fs [] s (s.changed p f) :=
  changed (.of_eq (by rw [hist]) (by rw [hist]; exact eq) same)

end EngineFrame

/-- Each sub-case writes what its rule lists. -/
theorem Subcase.done_frame (c : Subcase) (s : State) (p : Port) :
    EngineFrame p c.written c.registersWritten s (c.done s p) := by
  have dcnt (t : State) (n : Int → Int) : EngineFrame p [.dcnt] [] t (t.changed p fun b => { b with dcnt := n b.dcnt }) :=
    .fields _ rfl rfl fun f hf => by cases f <;> simp_all [Field.Same]
  have ack (t : State) : EngineFrame p [.checkAddrAck] [] t (t.changed p ({ · with checkAddrAck := false })) :=
    .fields _ rfl rfl fun f hf => by cases f <;> simp_all [Field.Same]
  have abort (t : State) : EngineFrame p [.dcnt, .msgc] [] t (t.changed p ({ · with dcnt := -1, msgc := 0 })) :=
    .fields _ rfl rfl fun f hf => by cases f <;> simp_all [Field.Same]
  have event (t : State) (ev : EvName) (x : Int) : EngineFrame p [] [] t (t.emittedEv p ev x) := .emittedEv t p ev x
  have sr2 (t : State) : EngineFrame p [] [] t (t.sr2Read p) := .sr2Read t p
  have cr1 (t : State) (clr set : Half) : EngineFrame p [] [.cr1] t (t.modReg p .cr1 clr set) := .modReg t p .cr1 clr set
  have cr2 (t : State) (clr set : Half) : EngineFrame p [.cr2Written] [.cr2] t (t.modReg p .cr2 clr set) :=
    .modReg t p .cr2 clr set
  have pre := EngineFrame.preambled s p
  have pair := EngineFrame.pairRead s p
  have capture : EngineFrame p [.status, .msgv] [] s (s.captured p) :=
    .fields _ rfl rfl fun f hf => by cases f <;> simp_all [Field.Same]
  cases c
  case advance =>
    refine .mono (.trans (.fields (f := (·.latch (s.bus p).messageOr)) Subcase.advance.written rfl rfl
      fun f hf => ?_) (event _ _ _)) (by decide) (by decide)
    cases f
    case sem | intstate | checkAddrAck | status | cr2Written => rfl
    all_goals exact absurd hf (by decide)
  case sbAddr =>
    refine .mono (.trans (.trans (.trans (.policyDone s p _ _) (.putReg _ p .dr _)) (.fields [.checkAddrAck]
      (f := ({ · with checkAddrAck := true })) rfl rfl fun f hf => ?_)) (event _ _ _)) (by decide) (by decide)
    cases f <;> simp_all [Field.Same]
  case sbEmpty => exact .mono (.trans (.trans (dcnt s fun _ => -1) (cr2 _ _ _)) (event _ _ _)) (by decide) (by decide)
  case addrNack =>
    refine .mono (.trans (.trans (.fields [.checkAddrAck, .dcnt, .msgc]
      (f := ({ · with checkAddrAck := false, dcnt := -1, msgc := 0 })) rfl rfl fun f hf => ?_) (cr1 _ _ _))
      (event _ _ _)) (by decide) (by decide)
    cases f <;> simp_all [Field.Same]
  case raddr1 =>
    refine .mono (.trans (.trans (.trans (.trans (cr2 s _ _) (sr2 _)) (cr1 _ _ _)) (.fields [.dcnt, .checkAddrAck]
      (f := fun b => { b with dcnt := b.dcnt - 1, checkAddrAck := false }) rfl rfl fun f hf => ?_)) (event _ _ _))
      (by decide) (by decide)
    cases f <;> simp_all [Field.Same]
  case raddr2 => exact .mono (.trans (.trans (.trans (cr1 s _ _) (sr2 _)) (ack _)) (event _ _ _)) (by decide) (by decide)
  case raddrN => exact .mono (.trans (.trans (sr2 s) (ack _)) (event _ _ _)) (by decide) (by decide)
  case wByte =>
    exact .mono (.trans (.trans (.trans pre (.writeByteDone _ p)) (dcnt _ (· - 1))) (event _ _ _)) (by decide) (by decide)
  case wStop | wRestart =>
    exact .mono (.trans (.trans (.trans pre (cr1 _ _ _)) (dcnt _ (· - 1))) (event _ _ _)) (by decide) (by decide)
  case wNorestart => exact .mono (.trans (.trans pre (dcnt _ fun _ => -1)) (event _ _ _)) (by decide) (by decide)
  case wFlagerr | wNone => exact .mono (.trans pre (event _ _ _)) (by decide) (by decide)
  case r1Last | rnByte =>
    exact .mono (.trans (.trans (.trans (.readByteDone s p) (dcnt _ (· - 1))) (event _ _ _)) (sr2 _)) (by decide)
      (by decide)
  case rnNackprep =>
    exact .mono (.trans (.trans (.trans (.trans (cr1 s _ _) (.readByteDone _ p)) (dcnt _ (· - 1))) (event _ _ _)) (sr2 _))
      (by decide) (by decide)
  case r2Final | rnFinal => exact .mono (.trans (.trans pair (event _ _ _)) (sr2 _)) (by decide) (by decide)
  case r2Wait | rnWait => exact .mono (.trans (event s _ _) (sr2 _)) (by decide) (by decide)
  case rErr => exact .mono (.trans (.trans (event s _ _) (abort _)) (sr2 _)) (by decide) (by decide)
  case emptyTerm | fallbackPoll => exact event s _ _
  case fallbackInt => exact .mono (.trans (event s _ _) (abort _)) (by decide) (by decide)
  case termPoll =>
    refine .mono (.trans (.trans capture (.fields [.intstate] (f := ({ · with intstate := .done })) rfl rfl
      fun f hf => ?_)) (event _ _ _)) (by decide) (by decide)
    cases f <;> simp_all [Field.Same]
  case termInt =>
    refine .mono (.trans (.trans (.trans capture (cr2 _ _ _)) (.fields [.intstate, .sem] (f := BusState.signalled)
      (by rw [BusState.signalled_eq]) (by rw [BusState.signalled_eq]) fun f hf => ?_)) (event _ _ _)) (by decide) (by decide)
    rw [BusState.signalled_eq]
    cases f <;> simp_all [Field.Same]

/-! The entry-local data, memory and races. -/

/-- R66: only a read of SR2 changes the entry-local data, and only the status word of it. -/
theorem Subcase.done_entry (c : Subcase) (s : State) (p : Port) :
    (c.done s p).entry.port = s.entry.port ∧ (c.done s p).entry.sr1 = s.entry.sr1 ∧
      (c.readsSr2 s.addrSeen = false → (c.done s p).entry.s = s.entry.s) := by
  have hpre : s.addrSeen = false → s.preambleStatus = s.entry.s := fun h => by simp [State.preambleStatus, h]
  cases c <;> simp [Subcase.done, State.pairRead, State.captured, State.advanced, State.addressSent,
    State.addressWritten, State.policyDone, Subcase.readsSr2]
  all_goals exact hpre

theorem State.readByteDone_races (s : State) (p : Port) :
    ∃ cs, (s.readByteDone p).races = s.races ++ cs ∧ ∀ x ∈ cs, x.1 = (s.bus p).ptr := by
  obtain ⟨cs, h, hcs⟩ := State.races_stored ((s.setBus p ((s.bus p).stored (s.regAt 0))).withDraws
    { s.draws with regs := s.draws.regs.advance }) (some p) (s.bus p).ptr ((s.regAt 0).setWidth 8)
  exact ⟨cs, by simpa [State.readByteDone] using h, hcs⟩

/-- Memory and races change at the addresses listed only. -/
structure StoresAt (as : List Nat) (s t : State) : Prop where
  bytes : ∀ a, a ∉ as → t.mem.read a = s.mem.read a
  races : ∃ cs, t.races = s.races ++ cs ∧ ∀ x ∈ cs, x.1 ∈ as

namespace StoresAt

theorem of_eq {as : List Nat} {s t : State} (hm : t.mem = s.mem) (hr : t.races = s.races) : StoresAt as s t :=
  ⟨fun _ _ => by rw [hm], [], by simp [hr], by simp⟩

theorem trans {as : List Nat} {s t u : State} (h : StoresAt as s t) (k : StoresAt as t u) : StoresAt as s u := by
  obtain ⟨cs, hr, hc⟩ := h.races
  obtain ⟨ds, kr, kc⟩ := k.races
  exact ⟨fun a ha => (k.bytes a ha).trans (h.bytes a ha), cs ++ ds, by rw [kr, hr, List.append_assoc],
    fun x hx => (List.mem_append.mp hx).elim (hc x) (kc x)⟩

theorem readByteDone {as : List Nat} {s : State} {p : Port} (h : (s.bus p).ptr ∈ as) :
    StoresAt as s (s.readByteDone p) := by
  obtain ⟨cs, hr, hc⟩ := State.readByteDone_races s p
  refine ⟨fun a ha => ?_, cs, hr, fun x hx => hc x hx ▸ h⟩
  rw [State.readByteDone_mem]
  exact Memory.read_write_ne fun he => ha (he ▸ h)

theorem pairRead (s : State) (p : Port) : StoresAt [(s.bus p).ptr, (s.bus p).ptr + 1] s (s.pairRead p) :=
  .trans (.trans (.trans (t := s.modReg p .cr1 0 (bit s.cfg.layout.stop)) (.of_eq (by simp) (by simp))
    (.readByteDone (p := p) (by simp))) (.readByteDone (p := p) (by simp))) (.of_eq (by simp [State.pairRead]) (by simp [State.pairRead]))

end StoresAt

/-- 40_register_access R158: the bytes a sub-case stores. -/
theorem Subcase.done_stores (c : Subcase) (s : State) (p : Port) : StoresAt (c.stores (s.bus p)) s (c.done s p) := by
  cases c
  case r1Last | rnByte =>
    exact .trans (t := s.readByteDone p) (.readByteDone (.head _)) (.of_eq (by simp [Subcase.done]) (by simp [Subcase.done]))
  case rnNackprep =>
    exact .trans (t := s.modReg p .cr1 (bit s.cfg.layout.ack) 0) (.of_eq (by simp) (by simp))
      (.trans (t := (s.modReg p .cr1 (bit s.cfg.layout.ack) 0).readByteDone p) (.readByteDone (by simp [Subcase.stores]))
        (.of_eq (by simp [Subcase.done]) (by simp [Subcase.done])))
  case r2Final | rnFinal =>
    exact .trans (.pairRead s p) (.of_eq (by simp [Subcase.done]) (by simp [Subcase.done]))
  all_goals
    exact .of_eq
      (by simp [Subcase.done, State.captured, State.advanced, State.addressSent, State.addressWritten, State.policyDone])
      (by simp [Subcase.done, State.captured, State.advanced, State.addressSent, State.addressWritten, State.policyDone])

/-- Settles O26: a sub-case that goes on leaves the state `Subcase.done` says, and its frame is that state's. -/
theorem subcaseFrame : Obligations.SubcaseFrame := by
  rintro c s t _ rfl h
  obtain ⟨-, rfl⟩ := exec_subcase_next_iff.mp h
  obtain ⟨hport, hother, hout⟩ := Subcase.done_frame c s s.entry.port
  obtain ⟨hep, hesr1, hes⟩ := Subcase.done_entry c s s.entry.port
  obtain ⟨hbytes, hraces⟩ := Subcase.done_stores c s s.entry.port
  exact ⟨hport, hother, hout, hep, hesr1, hes, hbytes, hraces⟩

end Sys2Proof.Machine
end
section
/-! The engine entry (45_engine_termination R280, R281): when it goes on, as its stages, and the state it leaves. -/

namespace Sys2Proof.Machine

open Sys2Proof

/-! The trace sample. -/

/-- The state after a trace sample; a sample always goes on. -/
def State.sampled (s : State) (p : Port) (w : Word32) : State :=
  match traceSample p w s with
  | .ok _ t => t
  | .error _ t => t

/-- A sample changes its port's ring and host log and may draw a time. -/
theorem traceSample_run (p : Port) (w : Word32) (s : State) : traceSample p w s = .ok () (s.sampled p w) ∧
    ∃ d t log, d.regs = s.draws.regs ∧ s.sampled p w = s.recorded p d t log := by
  have of_run {d : Draws} {t : Trace} {log : List LogItem} (hd : d.regs = s.draws.regs)
      (h : traceSample p w s = .ok () (s.recorded p d t log)) : traceSample p w s = .ok () (s.sampled p w) ∧
        ∃ d t log, d.regs = s.draws.regs ∧ s.sampled p w = s.recorded p d t log := by
    unfold State.sampled
    rw [h]
    exact ⟨rfl, d, t, log, hd, rfl⟩
  cases hon : s.cfg.traceOn with
  | false =>
    refine of_run (d := s.draws) (t := (s.bus p).trace) (log := (s.bus p).log) rfl ?_
    have hs : s.recorded p s.draws (s.bus p).trace (s.bus p).log = s := (State.recorded_draws s p _ _).trans (State.setBus_bus s p)
    rw [hs, traceSample, whenTracing, run_bind_ok (run_look _ _), hon]
    rfl
  | true =>
    have hrun := whenTracing_run (sample p w) hon
    by_cases h₀ : (s.bus p).trace.current.count = 0
    · exact of_run (d := s.nowDrawn) rfl (hrun.trans (sample_fresh rfl h₀))
    · by_cases hw : w = (s.bus p).trace.current.status
      · exact of_run rfl (hrun.trans (sample_repeated rfl h₀ hw))
      · by_cases hl : s.cfg.traceCap ≤ (s.bus p).trace.cur + 1
        · exact of_run rfl (hrun.trans (sample_overflow rfl h₀ hw hl))
        · exact of_run (d := s.nowDrawn) rfl (hrun.trans (sample_next rfl h₀ hw hl))

/-! The stages. -/

/-- A Bus State forms a selector that is not reserved (30_encoding R110, R116). -/
def BusState.Selectable (b : BusState) : Prop := -1 ≤ b.dcnt ∧ (b.msgc ≠ 0 → b.message ≠ none)

/-- The state in which an entry's stages begin: SR1 read and sampled. -/
def State.entered (s : State) (p : Port) : State :=
  ((s.gotReg p .sr1).withEntry ⟨p, s.regAt 0, zext32 (s.regAt 0)⟩).sampled p (zext32 (s.regAt 0))

theorem nxClass_eq_none_iff {b : BusState} : nxClass b = none ↔ b.msgc ≠ 0 ∧ b.message = none := by
  unfold nxClass
  split <;> simp [*]

/-- R110: the field of DC. -/
theorem selDC_selectorBits (c : Config) (sr1 : Half) (b : BusState) (nx : BitVec 2) :
    selDC (selectorBits c sr1 b nx) = dcClass b.dcnt := by
  refine BitVec.eq_of_getLsbD_eq fun i hi => ?_
  rw [selDC, BitVec.getLsbD_extractLsb']
  change (_ && @BitVec.getLsbD (3 + 1 + 2 + 1 + 2 + 3 + 1 + 1 + 1 + 1 + 1 + 1 + 1 + 1) (selectorBits c sr1 b nx) _) = _
  unfold selectorBits
  simp only [BitVec.getLsbD_append, BitVec.getLsbD_ofBool]
  obtain rfl | rfl | rfl : i = 0 ∨ i = 1 ∨ i = 2 := by omega
  all_goals simp

/-- Log entry 19: a `dcnt` below its range would form a reserved selector. -/
theorem reservedSelector_of_dcnt_lt {c : Config} {sr1 : Half} {b : BusState} {w : Selector} (hd : b.dcnt < -1)
    (hw : selector c sr1 b = some w) : reservedSelector w = true := by
  obtain ⟨nx, -, rfl⟩ := Option.map_eq_some_iff.mp hw
  have hdc : dcClass b.dcnt = 2 := by
    unfold dcClass
    simp (disch := omega) [hd, if_neg]
  simp [reservedSelector, selDC_selectorBits, hdc]

theorem currentSelector_iff {s t : State} {p : Port} {sr1 : Half} {w : Selector} :
    currentSelector p sr1 s = .ok w t ↔
      -1 ≤ (s.bus p).dcnt ∧ selector s.cfg sr1 (s.bus p) = some w ∧ t = s := by
  cases hs : selector s.cfg sr1 (s.bus p) with
  | none => simp [currentSelector, run_bind, hs]
  | some v =>
    by_cases hd : -1 ≤ (s.bus p).dcnt
    · have hr := reservedSelector_selector hd hs
      simp [currentSelector, run_bind, hs, hr, hd, eq_comm]
    · have hr := reservedSelector_of_dcnt_lt (by omega) hs
      simp [currentSelector, run_bind, run_ensure, hs, hr, hd]

theorem selectable_iff {c : Config} {sr1 : Half} {b : BusState} :
    b.Selectable ↔ -1 ≤ b.dcnt ∧ ∃ w, selector c sr1 b = some w := by
  have h : (∃ w, selector c sr1 b = some w) ↔ ¬(b.msgc ≠ 0 ∧ b.message = none) := by
    rw [← nxClass_eq_none_iff, ← Option.ne_none_iff_exists', selector, ne_eq, Option.map_eq_none_iff]
  rw [BusState.Selectable, h]
  tauto

/-- The stages of an entry after its sample (R280). -/
def engineStages (p : Port) (sr1 : Half) : M Unit := do
  prelude p sr1
  let w ← currentSelector p sr1
  let c ← branchOf w
  runSubcase c
  onlyIf (c != .fallbackPoll) (terminal p sr1)
  upd fun s => s.withEntry ⟨p, 0, 0⟩

theorem engineEntry_run {s : State} {p : Port} (hc : (s.bus p).plat.clkEn = true) :
    engineEntry p s = engineStages p (s.regAt 0) (s.entered p) :=
  (run_bind_ok (regGet_run rfl hc)).trans
    ((run_bind_ok (run_upd _ _)).trans (run_bind_ok (traceSample_run p _ _).1))

/-- What the sample may change is not read by the stages. -/
theorem State.entered_bus (s : State) (p : Port) : ∃ t log,
    (s.entered p).bus p = { (s.bus p).record (.rd .sr1 (s.regAt 0)) with trace := t, log := log } := by
  obtain ⟨-, d, t, log, -, h⟩ :=
    traceSample_run p (zext32 (s.regAt 0)) ((s.gotReg p .sr1).withEntry ⟨p, s.regAt 0, zext32 (s.regAt 0)⟩)
  exact ⟨t, log, by rw [State.entered, h]; simp⟩

theorem reservedSelector_iff (w : Selector) : reservedSelector w = true ↔
    w.extractLsb' 17 3 ≠ 0 ∨ w.extractLsb' 8 3 = 2 ∨ w.extractLsb' 8 3 = 3 ∨ w.extractLsb' 14 2 = 3 := by
  simp [reservedSelector, selDC, selNX, or_assoc]

/-- Settles O6: the fields of a selector word stay in their range; a reserved word is in no row's domain. -/
theorem reservedSelectorsFault : Obligations.ReservedSelectorsFault := by
  refine ⟨fun _ _ _ _ hd hw => selector_not_reserved hd hw, fun s ph w qs hw => ?_, fun s p hc hd hm => ?_⟩
  · have hdec (ph : Phase) : decodeSelector ph w = none := if_pos ((reservedSelector_iff w).mpr hw)
    refine ⟨hdec ph, fun hq => step_of_decode_error hq (e := .badSelector) ?_⟩
    have hlow : (ph.code ++ w).extractLsb' 0 20 = w := by
      refine BitVec.eq_of_getLsbD_eq fun i hi => ?_
      rw [BitVec.getLsbD_extractLsb', BitVec.getLsbD_append]
      simp [hi]
    simp only [decodeRequest, decodeSelectorWord, hlow, hdec]
    split <;> rfl
  · obtain ⟨t, log, hbus⟩ := s.entered_bus p
    obtain ⟨w, hw⟩ : ∃ w, selector (s.entered p).cfg (s.regAt 0) ((s.entered p).bus p) = some w := by
      rw [selector, nxClass, if_pos (by rw [hbus]; exact hm)]
      exact ⟨_, rfl⟩
    have hr := reservedSelector_of_dcnt_lt (by rw [hbus]; exact hd) hw
    have hcur : currentSelector p (s.regAt 0) (s.entered p) = .error (.fault .badSelector) (s.entered p) := by
      simp [currentSelector, run_bind, run_ensure, hw, hr]
    exact finish_fault (m := engineEntry p) ((engineEntry_run hc).trans (run_bind_error (run_bind_error hcur)))

/-! The stages, as the states they leave. -/

/-- What of the ports' entry the stages read: its port and SR1 value (10_state R66). -/
def State.AtEntry (s : State) (p : Port) (sr1 : Half) : Prop := s.entry.port = p ∧ s.entry.sr1 = sr1

/-- The state after the prelude. -/
def State.preluded (s : State) (p : Port) : State :=
  if (s.bus p).dcnt = -1 ∧ 0 < (s.bus p).msgc then Subcase.advance.done s p else s

/-- The branch of an entry with its SR1 value in this state. -/
def State.branch (s : State) (p : Port) : Subcase := branchInWords s.cfg s.entry.sr1 (s.bus p)

/-- The terminal handling of the mode (R285, R286). -/
def terminalOf (c : Config) : Subcase := if c.mode = .polled then .termPoll else .termInt

/-- The state after terminal handling. -/
def State.terminated (s : State) (p : Port) : State :=
  if (s.bus p).dcnt = -1 ∧ (s.bus p).msgc = 0 then (terminalOf s.cfg).done s p else s

/-- When the prelude goes on. -/
def State.Preludes (s : State) (p : Port) : Prop :=
  (s.bus p).Selectable ∧ ((s.bus p).dcnt = -1 ∧ 0 < (s.bus p).msgc → Subcase.advance.Runs s p)

/-- When terminal handling goes on. -/
def State.Terminates (s : State) (p : Port) : Prop :=
  (s.bus p).Selectable ∧ ((s.bus p).dcnt = -1 ∧ (s.bus p).msgc = 0 → (terminalOf s.cfg).Runs s p)

section
variable {s t : State} {u : Unit}

theorem prelude_iff {sr1 : Half} :
    prelude s.entry.port sr1 s = .ok u t ↔ s.Preludes s.entry.port ∧ t = s.preluded s.entry.port := by
  simp only [prelude, bind_ok_iff, currentSelector_iff, onlyIf_ok_iff]
  constructor
  · rintro ⟨w, s', ⟨hd, hw, hs'⟩, h⟩
    rw [hs'] at h
    have hs := selectable_iff.mpr ⟨hd, w, hw⟩
    by_cases ha : (s.bus s.entry.port).dcnt = -1 ∧ 0 < (s.bus s.entry.port).msgc
    · rw [if_pos ((matchesAdvance_iff hd hw).mpr ha)] at h
      obtain ⟨hr, rfl⟩ := subAdvance_iff.mp h
      exact ⟨⟨hs, fun _ => hr⟩, (if_pos ha).symm⟩
    · rw [if_neg (mt (matchesAdvance_iff hd hw).mp ha)] at h
      exact ⟨⟨hs, fun h => absurd h ha⟩, h.trans (if_neg ha).symm⟩
  · rintro ⟨⟨hs, hr⟩, rfl⟩
    obtain ⟨hd, w, hw⟩ := selectable_iff.mp hs
    refine ⟨w, _, ⟨hd, hw, rfl⟩, ?_⟩
    by_cases ha : (s.bus s.entry.port).dcnt = -1 ∧ 0 < (s.bus s.entry.port).msgc
    · rw [if_pos ((matchesAdvance_iff hd hw).mpr ha), subAdvance_iff]
      exact ⟨hr ha, if_pos ha⟩
    · rw [if_neg (mt (matchesAdvance_iff hd hw).mp ha)]
      exact if_neg ha

theorem terminal_iff {sr1 : Half} :
    terminal s.entry.port sr1 s = .ok u t ↔ s.Terminates s.entry.port ∧ t = s.terminated s.entry.port := by
  simp only [terminal, bind_ok_iff, currentSelector_iff]
  have hdec {w : Selector} (hd : -1 ≤ (s.bus s.entry.port).dcnt)
      (hw : selector s.cfg sr1 (s.bus s.entry.port) = some w) :
      decodeSelector .term w =
        if (s.bus s.entry.port).dcnt = -1 ∧ (s.bus s.entry.port).msgc = 0 then some (terminalOf s.cfg) else none :=
    decodeSelector_term hd hw
  constructor
  · rintro ⟨w, s', ⟨hd, hw, hs'⟩, h⟩
    rw [hs'] at h
    have hs := selectable_iff.mpr ⟨hd, w, hw⟩
    by_cases he : (s.bus s.entry.port).dcnt = -1 ∧ (s.bus s.entry.port).msgc = 0
    · rw [hdec hd hw, if_pos he] at h
      obtain ⟨hr, rfl⟩ := runSubcase_iff.mp h
      exact ⟨⟨hs, fun _ => hr⟩, (if_pos he).symm⟩
    · rw [hdec hd hw, if_neg he] at h
      cases h
      exact ⟨⟨hs, fun h => absurd h he⟩, (if_neg he).symm⟩
  · rintro ⟨⟨hs, hr⟩, rfl⟩
    obtain ⟨hd, w, hw⟩ := selectable_iff.mp hs
    refine ⟨w, _, ⟨hd, hw, rfl⟩, ?_⟩
    by_cases he : (s.bus s.entry.port).dcnt = -1 ∧ (s.bus s.entry.port).msgc = 0
    · rw [hdec hd hw, if_pos he]
      exact runSubcase_iff.mpr ⟨hr he, if_pos he⟩
    · rw [hdec hd hw, if_neg he, State.terminated, if_neg he]
      rfl

/-- The branch of an entry: the sub-case whose condition in words holds first. -/
theorem branchStage_iff {p : Port} {sr1 : Half} {c : Subcase} :
    (currentSelector p sr1 >>= branchOf) s = .ok c t ↔
      (s.bus p).Selectable ∧ c = branchInWords s.cfg sr1 (s.bus p) ∧ t = s := by
  simp only [bind_ok_iff, currentSelector_iff]
  constructor
  · rintro ⟨w, _, ⟨hd, hw, rfl⟩, h⟩
    rw [branchOf, decodeSelector_branch hd hw] at h
    cases h
    exact ⟨selectable_iff.mpr ⟨hd, w, hw⟩, rfl, rfl⟩
  · rintro ⟨hs, rfl, rfl⟩
    obtain ⟨hd, w, hw⟩ := selectable_iff.mp hs
    refine ⟨w, _, ⟨hd, hw, rfl⟩, ?_⟩
    rw [branchOf, decodeSelector_branch hd hw]
    rfl

end

/-- The state after the branch. -/
def State.branched (s : State) (p : Port) : State := (s.branch p).done s p

/-! Parameters and the entry's own data through the stages. -/

@[simp] theorem Subcase.done_cfg (c : Subcase) (s : State) (p : Port) : (c.done s p).cfg = s.cfg :=
  (Subcase.done_frame c s p).outside.cfg

@[simp] theorem Subcase.done_entry_port (c : Subcase) (s : State) (p : Port) :
    (c.done s p).entry.port = s.entry.port := (Subcase.done_entry c s p).1

@[simp] theorem Subcase.done_entry_sr1 (c : Subcase) (s : State) (p : Port) :
    (c.done s p).entry.sr1 = s.entry.sr1 := (Subcase.done_entry c s p).2.1

@[simp] theorem State.preluded_cfg (s : State) (p : Port) : (s.preluded p).cfg = s.cfg := by
  unfold State.preluded; split <;> simp

@[simp] theorem State.preluded_entry_port (s : State) (p : Port) : (s.preluded p).entry.port = s.entry.port := by
  unfold State.preluded; split <;> simp

@[simp] theorem State.preluded_entry_sr1 (s : State) (p : Port) : (s.preluded p).entry.sr1 = s.entry.sr1 := by
  unfold State.preluded; split <;> simp

@[simp] theorem State.branched_cfg (s : State) (p : Port) : (s.branched p).cfg = s.cfg := by simp [State.branched]

@[simp] theorem State.branched_entry_port (s : State) (p : Port) : (s.branched p).entry.port = s.entry.port := by
  simp [State.branched]

@[simp] theorem State.branched_entry_sr1 (s : State) (p : Port) : (s.branched p).entry.sr1 = s.entry.sr1 := by
  simp [State.branched]

theorem State.sampled_eq (s : State) (p : Port) (w : Word32) :
    ∃ d t log, d.regs = s.draws.regs ∧ s.sampled p w = s.recorded p d t log := (traceSample_run p w s).2

@[simp] theorem State.sampled_cfg (s : State) (p : Port) (w : Word32) : (s.sampled p w).cfg = s.cfg := by
  obtain ⟨d, t, log, -, h⟩ := s.sampled_eq p w
  rw [h]
  exact (s.recorded_frame p d t log).2.2.2.cfg

@[simp] theorem State.sampled_entry (s : State) (p : Port) (w : Word32) : (s.sampled p w).entry = s.entry := by
  obtain ⟨d, t, log, -, h⟩ := s.sampled_eq p w
  rw [h]
  simp [State.recorded]

@[simp] theorem State.entered_cfg (s : State) (p : Port) : (s.entered p).cfg = s.cfg := by simp [State.entered]

@[simp] theorem State.entered_entry (s : State) (p : Port) :
    (s.entered p).entry = ⟨p, s.regAt 0, zext32 (s.regAt 0)⟩ := by simp [State.entered]

/-! The fallback of the polled loop, which ends its entry (R287). -/

/-- What the condition of each sub-case of an entry gives of the Bus State. -/
def BusState.Fits (b : BusState) : Subcase → Prop
  | .raddr1 => b.dcnt = 1
  | .wByte => b.flags.read = false ∧ 1 ≤ b.dcnt
  | .wStop | .wRestart => b.dcnt = 0
  | .wFlagerr => b.dcnt = 0 ∧ b.msgc ≠ 0
  | .r1Last => b.flags.read = true ∧ b.totalMsgLen = 1 ∧ b.dcnt = 0
  | .r2Final => b.flags.read = true ∧ b.totalMsgLen = 2 ∧ b.dcnt = 2
  | .rnByte => b.flags.read = true ∧ 3 ≤ b.totalMsgLen ∧ 4 ≤ b.dcnt
  | .rnNackprep => b.flags.read = true ∧ 3 ≤ b.totalMsgLen ∧ b.dcnt = 3
  | .rnFinal => b.flags.read = true ∧ 3 ≤ b.totalMsgLen ∧ b.dcnt = 2
  | .fallbackPoll => ¬(b.dcnt = -1 ∧ b.msgc = 0)
  | .advance => b.dcnt = -1 ∧ 0 < b.msgc
  | .termPoll | .termInt => b.msgc = 0
  | .sbAddr | .sbEmpty | .addrNack | .raddr2 | .raddrN | .wNorestart | .wNone | .r2Wait | .rnWait | .rErr | .emptyTerm
  | .fallbackInt => True

theorem BusState.Fits.ite {b : BusState} {p : Prop} [Decidable p] {x y : Subcase} (h : p → b.Fits x) (k : ¬p → b.Fits y) :
    b.Fits (if p then x else y) := by
  by_cases hp : p
  · rw [if_pos hp]
    exact h hp
  · rw [if_neg hp]
    exact k hp

theorem branchInWords_fits (c : Config) (sr1 : Half) (b : BusState) : b.Fits (branchInWords c sr1 b) := by
  unfold branchInWords
  extract_lets sb addr btf rxne at' rd ca next
  have read (h : ¬rd) : b.flags.read = false := Bool.eq_false_iff.mpr h
  refine .ite (fun _ => trivial) fun _ => .ite (fun _ => trivial) fun _ => .ite (fun _ => trivial) fun _ => ?_
  refine .ite (fun ⟨_, _, _, hd, _⟩ => hd) fun _ => .ite (fun _ => trivial) fun _ => .ite (fun _ => trivial) fun _ => ?_
  refine .ite (fun ⟨hr, _, hd⟩ => ⟨read hr, hd⟩) fun _ => .ite (fun ⟨_, _, hd, _⟩ => hd) fun hstop => ?_
  refine .ite (fun ⟨_, _, hd, _⟩ => hd) fun _ => .ite (fun _ => trivial) fun _ => ?_
  refine .ite (fun ⟨hr, ha, hd⟩ => ⟨hd, fun hm => hstop ⟨hr, ha, hd, hm⟩⟩) fun _ => .ite (fun _ => trivial) fun _ => ?_
  refine .ite (fun ⟨hr, _, hl, hd⟩ => ⟨hr, hl, hd⟩) fun _ => .ite (fun _ => trivial) fun _ => ?_
  refine .ite (fun ⟨hr, _, hl, hd, _⟩ => ⟨hr, hl, hd⟩) fun _ => .ite (fun _ => trivial) fun _ => ?_
  refine .ite (fun ⟨hr, _, hl, _, hd⟩ => ⟨hr, hl, hd⟩) fun _ => ?_
  refine .ite (fun ⟨hr, _, hl, _, hd⟩ => ⟨hr, hl, hd⟩) fun _ => ?_
  refine .ite (fun ⟨hr, _, hl, _, hd⟩ => ⟨hr, hl, hd⟩) fun _ => ?_
  exact .ite (fun _ => trivial) fun _ => .ite (fun _ => trivial) fun hend => .ite (fun _ => hend) fun _ => trivial

/-- So terminal handling would do nothing after it. -/
theorem branched_of_fallbackPoll {s : State} {p : Port} (h : s.branch p = .fallbackPoll) (hs : (s.bus p).Selectable) :
    (s.branched p).Terminates p ∧ (s.branched p).terminated p = s.branched p := by
  have hbus : ((s.branched p).bus p).dcnt = (s.bus p).dcnt ∧ ((s.branched p).bus p).msgc = (s.bus p).msgc ∧
      ((s.branched p).bus p).message = (s.bus p).message := by
    rw [State.branched, h, Subcase.done, State.emittedEv_bus]
    split <;> exact ⟨rfl, rfl, rfl⟩
  obtain ⟨hd, hm, hmsg⟩ := hbus
  have hne : (s.bus p).Fits .fallbackPoll := h ▸ branchInWords_fits _ _ _
  rw [BusState.Fits, ← hd, ← hm] at hne
  refine ⟨⟨?_, fun he => absurd he hne⟩, if_neg hne⟩
  rw [BusState.Selectable, hd, hm, hmsg]
  exact hs

/-- When an entry goes on: its SR1 read and each of its stages do. -/
def State.EntryRuns (s : State) (p : Port) : Prop :=
  (s.bus p).plat.clkEn = true ∧ (s.entered p).Preludes p ∧
    let b := (s.entered p).preluded p
    (b.bus p).Selectable ∧ (b.branch p).Runs b p ∧ (b.branched p).Terminates p

/-- The state an entry leaves; its entry-local word does not survive (R66). -/
def State.entryDone (s : State) (p : Port) : State :=
  ((((s.entered p).preluded p).branched p).terminated p).withEntry ⟨p, 0, 0⟩

/-- R280: an entry is its stages. -/
theorem engineEntry_iff {s t : State} {p : Port} {u : Unit} :
    engineEntry p s = .ok u t ↔ s.EntryRuns p ∧ t = s.entryDone p := by
  by_cases hc : (s.bus p).plat.clkEn = true
  case neg =>
    have hget : ∀ v t, regGet p .sr1 s ≠ .ok v t := fun v t h => hc (regGet_inv h).2.1
    constructor
    · intro h
      obtain ⟨v, t, h, -⟩ := bind_ok_inv h
      exact absurd h (hget v t)
    · exact fun h => absurd h.1.1 hc
  rw [engineEntry_run hc]
  have hpre {t : State} {u : Unit} : prelude p (s.regAt 0) (s.entered p) = .ok u t ↔
      (s.entered p).Preludes p ∧ t = (s.entered p).preluded p := by
    simpa using prelude_iff (s := s.entered p) (sr1 := s.regAt 0) (t := t) (u := u)
  have hrun {c : Subcase} {t : State} {u : Unit} : runSubcase c ((s.entered p).preluded p) = .ok u t ↔
      c.Runs ((s.entered p).preluded p) p ∧ t = c.done ((s.entered p).preluded p) p := by
    simpa using runSubcase_iff (c := c) (s := (s.entered p).preluded p) (t := t) (u := u)
  have hterm {t : State} {u : Unit} :
      terminal p (s.regAt 0) (((s.entered p).preluded p).branched p) = .ok u t ↔
        (((s.entered p).preluded p).branched p).Terminates p ∧
          t = (((s.entered p).preluded p).branched p).terminated p := by
    simpa using terminal_iff (s := ((s.entered p).preluded p).branched p) (sr1 := s.regAt 0) (t := t) (u := u)
  have hbranch : ((s.entered p).preluded p).branch p =
      branchInWords ((s.entered p).preluded p).cfg (s.regAt 0) (((s.entered p).preluded p).bus p) := by
    simp [State.branch]
  constructor
  · intro h
    obtain ⟨_, b, h₁, h⟩ := bind_ok_inv h
    obtain ⟨hp, rfl⟩ := hpre.mp h₁
    obtain ⟨w, b', h₂, h⟩ := bind_ok_inv h
    obtain ⟨c, b'', h₃, h⟩ := bind_ok_inv h
    obtain ⟨hs, hc', hb⟩ := branchStage_iff.mp ((run_bind_ok h₂).trans h₃)
    rw [← hbranch] at hc'
    subst hc' hb
    obtain ⟨_, d, h₄, h⟩ := bind_ok_inv h
    obtain ⟨hr, rfl⟩ := hrun.mp h₄
    obtain ⟨_, e, h₅, h⟩ := bind_ok_inv h
    cases h
    rw [onlyIf_ok_iff] at h₅
    by_cases hf : ((s.entered p).preluded p).branch p = .fallbackPoll
    · obtain ⟨ht, hd⟩ := branched_of_fallbackPoll hf hs
      rw [if_neg (by simp [hf])] at h₅
      exact ⟨⟨hc, hp, hs, hr, ht⟩, by rw [h₅, State.entryDone, hd]; rfl⟩
    · rw [if_pos (by simpa using hf)] at h₅
      obtain ⟨ht, rfl⟩ := hterm.mp h₅
      exact ⟨⟨hc, hp, hs, hr, ht⟩, rfl⟩
  · rintro ⟨⟨-, hp, hs, hr, ht⟩, rfl⟩
    refine (run_bind_ok (a := ()) (hpre.mpr ⟨hp, rfl⟩)).trans ?_
    obtain ⟨w, b', h₂, h₃⟩ := bind_ok_inv (branchStage_iff.mpr ⟨hs, hbranch, rfl⟩)
    refine (run_bind_ok h₂).trans ((run_bind_ok h₃).trans ((run_bind_ok (a := ()) (hrun.mpr ⟨hr, rfl⟩)).trans ?_))
    refine run_bind_ok (onlyIf_ok_iff.mpr ?_) (a := ())
    by_cases hf : ((s.entered p).preluded p).branch p = .fallbackPoll
    · rw [if_neg (by simp [hf])]
      exact (branched_of_fallbackPoll hf hs).2
    · rw [if_pos (by simpa using hf)]
      exact hterm.mpr ⟨ht, rfl⟩

/-! From a ready Bus State every stage goes on and leaves a ready Bus State. -/

theorem Coherent.message {b : BusState} (h : Coherent b) (hm : b.msgc ≠ 0) : ∃ m ∈ b.msgs, b.message = some m := by
  obtain ⟨i, hi, hn⟩ := h.next (Nat.pos_of_ne_zero hm)
  have hlt : i < b.msgs.length := by rw [← h.count]; omega
  refine ⟨b.msgs[i], List.getElem_mem hlt, ?_⟩
  simp [BusState.message, hi, h.count, hlt]

theorem Coherent.selectable {b : BusState} (h : Coherent b) : b.Selectable :=
  ⟨h.dcnt, fun hm hn => by
    obtain ⟨m, -, he⟩ := h.message hm
    rw [hn] at he
    cases he⟩

/-- Coherence is kept where the cursor and the messages left only move on. -/
theorem Coherent.of_le {b b' : BusState} (h : Coherent b) (msgs : b'.msgs = b.msgs) (count : b'.count = b.count)
    (curBuf : b'.curBuf = b.curBuf) (len : b'.totalMsgLen = b.totalMsgLen) (flags : b'.flags = b.flags)
    (next : b'.msgc = b.msgc ∧ b'.msgv = b.msgv ∨ b'.msgc = 0) (dcnt : -1 ≤ b'.dcnt)
    (cursor : 0 < b'.dcnt → 0 < b.dcnt ∧ b.ptr ≤ b'.ptr ∧ (b'.ptr : Int) + b'.dcnt ≤ b.ptr + b.dcnt)
    (single : b.flags.read = true → b.totalMsgLen = 1 → 0 ≤ b'.dcnt → 0 ≤ b.dcnt ∧ b'.ptr = b.ptr) : Coherent b' where
  dcnt := dcnt
  next := fun hm => by
    obtain ⟨hc, hv⟩ | hc := next
    · rw [hc, hv, count]
      exact h.next (hc ▸ hm)
    · omega
  count := by rw [count, msgs, h.count]
  cursor := fun hd => by
    obtain ⟨hd', hp, hl⟩ := cursor hd
    have := h.cursor hd'
    rw [curBuf, len]
    omega
  single := fun hr hl hd => by
    obtain ⟨hd', hp⟩ := single (flags ▸ hr) (len ▸ hl) hd
    rw [hp, curBuf]
    exact h.single (flags ▸ hr) (len ▸ hl) hd'

/-- R200: a latched message starts at its buffer. -/
theorem Coherent.latch {b : BusState} (h : Coherent b) (m : Message) : Coherent (b.latch m) where
  dcnt := by simp only [BusState.latch]; omega
  next := fun hm => by
    simp only [BusState.latch] at hm ⊢
    obtain ⟨i, hi, hn⟩ := h.next (by omega)
    exact ⟨i + 1, by rw [if_pos hm, hi]; rfl, by omega⟩
  count := h.count
  cursor := fun _ => ⟨Nat.le_refl _, by simp only [BusState.latch]; omega⟩
  single := fun _ _ _ => rfl

theorem Subcase.done_coherent {c : Subcase} {s : State} {p : Port} (h : Coherent (s.bus p)) (hf : (s.bus p).Fits c) :
    Coherent ((c.done s p).bus p) := by
  obtain ⟨⟨engine, -, fields, -⟩, -, -⟩ := Subcase.done_frame c s p
  by_cases ha : c = .advance
  · subst ha
    have hbus : ((Subcase.advance.done s p).bus p) = ((s.bus p).latch (s.bus p).messageOr) ∨
        ∃ x, ((Subcase.advance.done s p).bus p) = ((s.bus p).latch (s.bus p).messageOr).emitted .advance x := by
      simp only [Subcase.done, State.advanced, State.emittedEv_bus, State.bus_setBus_same]
      split
      · exact .inr ⟨_, rfl⟩
      · exact .inl rfl
    obtain hb | ⟨x, hb⟩ := hbus
    · rw [hb]
      exact h.latch _
    · rw [hb]
      exact { h.latch (s.bus p).messageOr with }
  · have hsame (f : Field) (hfw : f ∉ c.written) : f.Same (s.bus p) ((c.done s p).bus p) := fields f hfw
    have hcb : Field.curBuf ∉ c.written := by cases c <;> first | decide | exact absurd rfl ha
    have hln : Field.totalMsgLen ∉ c.written := by cases c <;> first | decide | exact absurd rfl ha
    have hfl : Field.flags ∉ c.written := by cases c <;> first | decide | exact absurd rfl ha
    have hd := h.dcnt
    have hm : ((c.done s p).bus p).msgc = (s.bus p).msgc ∧ ((c.done s p).bus p).msgv = (s.bus p).msgv ∨
        ((c.done s p).bus p).msgc = 0 := by
      cases c
      case termPoll | termInt => exact .inr (Eq.trans (b := (s.bus p).msgc) (hsame .msgc (by decide)) hf)
      case addrNack | rErr | fallbackInt => exact .inr (by simp [Subcase.done])
      case advance => exact absurd rfl ha
      all_goals exact .inl ⟨hsame .msgc (by decide), hsame .msgv (by decide)⟩
    refine h.of_le engine.msgs engine.count (hsame _ hcb) (hsame _ hln) (hsame _ hfl) hm ?_ ?_ ?_
    all_goals
      clear hm hcb hln hfl hsame fields engine
      cases c <;> simp [Subcase.done, State.pairRead, State.captured, State.addressSent, State.addressWritten,
        BusState.signalled_eq, BusState.Fits] at ha hf ⊢
    all_goals grind

theorem EntryReady.congr {c : Config} {b b' : BusState} (h : EntryReady c b) (hc : Coherent b') (msgs : b'.msgs = b.msgs)
    (curBuf : b'.curBuf = b.curBuf) (len : b'.totalMsgLen = b.totalMsgLen) : EntryReady c b' :=
  ⟨hc, by rw [msgs]; exact h.chain, by rw [curBuf, len]; exact h.buffer⟩

theorem Subcase.done_ready {c : Subcase} {s : State} {p : Port} (h : EntryReady s.cfg (s.bus p))
    (hf : (s.bus p).Fits c) : EntryReady (c.done s p).cfg ((c.done s p).bus p) := by
  obtain ⟨⟨engine, -, fields, -⟩, -, -⟩ := Subcase.done_frame c s p
  have hc := Subcase.done_coherent h.coherent hf
  rw [Subcase.done_cfg]
  by_cases ha : c = .advance
  · subst ha
    obtain ⟨m, hm, he⟩ := h.coherent.message (Nat.ne_of_gt hf.2)
    have hbuf : ((Subcase.advance.done s p).bus p).curBuf = m.buffer ∧
        ((Subcase.advance.done s p).bus p).totalMsgLen = m.length := by
      simp [Subcase.done, State.advanced, BusState.messageOr, he, BusState.latch]
    refine ⟨hc, by rw [engine.msgs]; exact h.chain, ?_⟩
    rw [hbuf.1, hbuf.2]
    exact (h.chain m hm).2
  · refine h.congr hc engine.msgs (fields .curBuf ?_) (fields .totalMsgLen ?_)
    · cases c <;> first | decide | exact absurd rfl ha
    · cases c <;> first | decide | exact absurd rfl ha

theorem Subcase.runs_of_ready {c : Subcase} {s : State} {p : Port} (h : EntryReady s.cfg (s.bus p))
    (hk : (s.bus p).plat.clkEn = true) (hf : (s.bus p).Fits c) : c.Runs s p := by
  have hbuf := h.buffer
  have holds (n : Nat) (hn : 0 < n) (hd : n ≤ (s.bus p).dcnt) : CursorHolds s.cfg (s.bus p) n := by
    obtain ⟨h₁, h₂⟩ := h.coherent.cursor (by omega)
    exact ⟨h₁, by omega, by omega⟩
  cases c
  case advance =>
    obtain ⟨m, hm, he⟩ := h.coherent.message (Nat.ne_of_gt hf.2)
    exact ⟨m, he, (h.chain m hm).1⟩
  case wByte => exact ⟨hk, holds 1 (by decide) hf.2⟩
  case r1Last =>
    obtain ⟨hr, hl, hd⟩ := hf
    have hp := h.coherent.single hr hl (by omega)
    exact ⟨hk, by omega, by omega, by omega⟩
  case rnByte | rnNackprep =>
    obtain ⟨-, -, hd⟩ := hf
    exact ⟨hk, holds 1 (by decide) (by omega)⟩
  case r2Final | rnFinal =>
    obtain ⟨-, -, hd⟩ := hf
    exact ⟨hk, holds 2 (by decide) (by omega)⟩
  case wFlagerr => exact ⟨fun _ => hk, fun hn => (h.coherent.selectable.2 hf.2 hn).elim⟩
  case wNorestart | wNone => exact fun _ => hk
  case emptyTerm | fallbackPoll | fallbackInt | termPoll => trivial
  all_goals exact hk

@[simp] theorem Subcase.done_bus_plat (c : Subcase) (s : State) (p : Port) :
    ((c.done s p).bus p).plat = (s.bus p).plat := (Subcase.done_frame c s p).port.engine.plat

/-- The conditions of the stages. -/
theorem terminalOf_fits {c : Config} {b : BusState} (h : b.msgc = 0) : b.Fits (terminalOf c) := by
  unfold terminalOf
  split <;> exact h

theorem State.branch_fits (s : State) (p : Port) : (s.bus p).Fits (s.branch p) := branchInWords_fits _ _ _

/-- A Bus State in which every stage of an entry goes on: ready, its clock on. -/
def State.StageReady (s : State) (p : Port) : Prop := EntryReady s.cfg (s.bus p) ∧ (s.bus p).plat.clkEn = true

theorem State.StageReady.done {s : State} {p : Port} {c : Subcase} (h : s.StageReady p) (hf : (s.bus p).Fits c) :
    (c.done s p).StageReady p := ⟨Subcase.done_ready h.1 hf, by simpa using h.2⟩

theorem State.StageReady.entered {s : State} {p : Port} (h : s.StageReady p) : (s.entered p).StageReady p := by
  obtain ⟨t, log, hb⟩ := s.entered_bus p
  rw [State.StageReady, hb, State.entered_cfg]
  exact ⟨h.1.congr { h.1.coherent with } rfl rfl rfl, h.2⟩

theorem State.StageReady.preluded {s : State} {p : Port} (h : s.StageReady p) : (s.preluded p).StageReady p := by
  unfold State.preluded
  split
  · exact h.done ‹_›
  · exact h

theorem State.StageReady.terminated {s : State} {p : Port} (h : s.StageReady p) : (s.terminated p).StageReady p := by
  unfold State.terminated
  split
  · exact h.done (terminalOf_fits (And.right ‹_›))
  · exact h

theorem State.StageReady.entryDone {s : State} {p : Port} (h : s.StageReady p) : (s.entryDone p).StageReady p := by
  have hd : (((s.entered p).preluded p).branched p).StageReady p := h.entered.preluded.done (State.branch_fits _ p)
  simpa [State.entryDone, State.StageReady] using hd.terminated

theorem State.StageReady.entryRuns {s : State} {p : Port} (h : s.StageReady p) : s.EntryRuns p := by
  have ha := h.entered
  have hb := ha.preluded
  have hd := hb.done (State.branch_fits _ p)
  exact ⟨h.2, ⟨ha.1.coherent.selectable, Subcase.runs_of_ready (c := .advance) ha.1 ha.2⟩, hb.1.coherent.selectable,
    Subcase.runs_of_ready hb.1 hb.2 (State.branch_fits _ p), hd.1.coherent.selectable,
    fun he => Subcase.runs_of_ready hd.1 hd.2 (terminalOf_fits he.2)⟩

theorem engineEntry_run_of_ready {s : State} {p : Port} (h : s.StageReady p) :
    engineEntry p s = .ok () (s.entryDone p) := engineEntry_iff.mpr ⟨h.entryRuns, rfl⟩

/-- Settles O27: each stage's condition is all its accesses need, and each leaves a ready Bus State. -/
theorem entryCompletes : Obligations.EntryCompletes := by
  intro s p h hc
  have hs : s.StageReady p := ⟨h, hc⟩
  exact ⟨_, finish_ok (engineEntry_run_of_ready hs), hs.entryDone⟩

end Sys2Proof.Machine
end
section
/-! The claims about an entry (45_engine_termination R280 to R289): its stages as instructions, its accesses, its frame. -/

namespace Sys2Proof.Machine

open Sys2Proof

theorem exec_engEntry (p : Port) (s : State) : exec (.engEntry p) s = finish (engineEntry p) s := rfl

theorem exec_advance_of_runs {s : State} {p : Port} (hp : s.entry.port = p) (h : Subcase.advance.Runs s p) :
    exec .engAdvance s = .next (Subcase.advance.done s p) := hp ▸ exec_subcase_of_runs (c := .advance) (hp ▸ h)

/-- Settles O28: the states the stages leave are those the instructions of their names leave. -/
theorem entryRunsItsStages : Obligations.EntryRunsItsStages := by
  intro s p hr hc
  have hs : s.StageReady p := ⟨hr, hc⟩
  have ha := hs.entered
  have hb := ha.preluded
  have hd : (((s.entered p).preluded p).branched p).StageReady p := hb.done (State.branch_fits _ p)
  have hsample := (traceSample_run p (zext32 (s.regAt 0))
    ((s.gotReg p .sr1).withEntry ⟨p, s.regAt 0, zext32 (s.regAt 0)⟩)).1
  have hget : (regGet p .sr1 >>= fun v => answer v.toNat) s = .ok () ((s.gotReg p .sr1).withRet (s.regAt 0).toNat) :=
    run_bind_ok (regGet_run rfl hc)
  have hret : ((s.gotReg p .sr1).withRet (s.regAt 0).toNat).withRet s.ret = s.gotReg p .sr1 := by
    rw [State.withRet_withRet_self, ← State.gotReg_ret s p .sr1]
    rfl
  refine ⟨_, s.entered p, (s.entered p).preluded p, ((s.entered p).preluded p).branched p,
    (((s.entered p).preluded p).branched p).terminated p, finish_ok hget, ?_, ?_, ?_, ?_,
    finish_ok (engineEntry_run_of_ready hs)⟩
  · rw [hret]
    exact finish_ok hsample
  · by_cases h : ((s.entered p).bus p).dcnt = -1 ∧ 0 < ((s.entered p).bus p).msgc
    · rw [if_pos h, State.preluded, if_pos h]
      exact exec_advance_of_runs (by simp) (Subcase.runs_of_ready (c := .advance) ha.1 ha.2 h)
    · rw [if_neg h, State.preluded, if_neg h]
  · have hbr : branchInWords s.cfg (s.regAt 0) (((s.entered p).preluded p).bus p) =
        ((s.entered p).preluded p).branch p := by simp [State.branch]
    have hrun := exec_subcase_of_runs (c := ((s.entered p).preluded p).branch p) (s := (s.entered p).preluded p)
    simp only [State.preluded_entry_port, State.entered_entry] at hrun
    rw [hbr]
    exact hrun (Subcase.runs_of_ready hb.1 hb.2 (State.branch_fits _ p))
  · have hrun := exec_subcase_of_runs (c := terminalOf s.cfg) (s := ((s.entered p).preluded p).branched p)
    simp only [State.branched_entry_port, State.preluded_entry_port, State.entered_entry] at hrun
    have hi : (terminalOf s.cfg).instr = if s.cfg.mode = .polled then .engTermPoll else .engTermInt := by
      unfold terminalOf; split <;> rfl
    have hcfg : (((s.entered p).preluded p).branched p).cfg = s.cfg := by simp
    by_cases h : ((((s.entered p).preluded p).branched p).bus p).dcnt = -1 ∧
        ((((s.entered p).preluded p).branched p).bus p).msgc = 0
    · rw [if_pos h, State.terminated, if_pos h, ← hi, hcfg]
      exact hrun (Subcase.runs_of_ready hd.1 hd.2 (terminalOf_fits h.2))
    · rw [if_neg h, State.terminated, if_neg h]

/-! Accesses. -/

@[simp] theorem Event.readsSr1_rd (r : Reg) (v : Half) : (Event.rd r v).readsSr1 = decide (r = .sr1) := by
  cases r <;> rfl
@[simp] theorem Event.readsSr1_wr (r : Reg) (v : Half) : (Event.wr r v).readsSr1 = false := rfl
@[simp] theorem Event.readsSr1_mrd (a : Nat) (v : Byte) : (Event.mrd a v).readsSr1 = false := rfl
@[simp] theorem Event.readsSr1_mwr (a : Nat) (v : Byte) : (Event.mwr a v).readsSr1 = false := rfl
@[simp] theorem Event.isAccess_rd (r : Reg) (v : Half) : (Event.rd r v).isAccess = true := rfl
@[simp] theorem Event.isAccess_wr (r : Reg) (v : Half) : (Event.wr r v).isAccess = true := rfl
@[simp] theorem Event.isAccess_mrd (a : Nat) (v : Byte) : (Event.mrd a v).isAccess = true := rfl
@[simp] theorem Event.isAccess_mwr (a : Nat) (v : Byte) : (Event.mwr a v).isAccess = true := rfl

/-- An event of the recorder is no access. -/
@[simp] theorem filter_isAccess_evs (c : Config) (ev : EvName) (x : Int) : (evs c ev x).filter Event.isAccess = [] := by
  unfold evs
  split <;> rfl

theorem readsSr1_of_mem_evs {c : Config} {ev : EvName} {x : Int} {e : Event} (h : e ∈ evs c ev x) :
    e.readsSr1 = false := by
  unfold evs at h
  split at h
  · rw [List.mem_singleton.mp h]
    rfl
  · cases h

/-- A port's history grew by events of which none reads SR1 and at most `n` are accesses. -/
def AddsAccesses (n : Nat) (b b' : BusState) : Prop :=
  ∃ es, b'.hist = b.hist ++ es ∧ (∀ e ∈ es, e.readsSr1 = false) ∧ (es.filter Event.isAccess).length ≤ n

theorem AddsAccesses.trans {n m : Nat} {b b' b'' : BusState} (h : AddsAccesses n b b') (k : AddsAccesses m b' b'') :
    AddsAccesses (n + m) b b'' := by
  obtain ⟨es, he, hs, hn⟩ := h
  obtain ⟨es', he', hs', hn'⟩ := k
  refine ⟨es ++ es', by rw [he', he, List.append_assoc], fun e h => (List.mem_append.mp h).elim (hs e) (hs' e), ?_⟩
  rw [List.filter_append, List.length_append]
  omega

/-- How many accesses a sub-case makes at most. -/
def accessBound : Subcase → Nat
  | .advance => 0
  | .termPoll | .termInt => 2
  | _ => 7

theorem Subcase.done_accesses (c : Subcase) (s : State) (p : Port) :
    AddsAccesses (accessBound c) (s.bus p) ((c.done s p).bus p) := by
  have hev (c : Config) (ev : EvName) (x : Int) : ∀ e ∈ evs c ev x, e.readsSr1 = false := fun _ => readsSr1_of_mem_evs
  have pre : s.preambleEvs = [] ∨ s.preambleEvs = [.rd .sr2 (s.regAt 0)] := by
    unfold State.preambleEvs; split <;> simp
  unfold AddsAccesses
  cases c
  case wByte | wStop | wRestart | wNorestart | wFlagerr | wNone =>
    obtain h | h := pre
    all_goals simp [Subcase.done, h, accessBound, List.filter_cons]
    all_goals exact hev _ _ _
  case advance => exact ⟨evs s.cfg .advance (s.bus p).messageOr.length, by simp [Subcase.done, State.advanced,
    BusState.latch], hev _ _ _, by simp⟩
  case r1Last | r2Wait | r2Final | rnWait | rnByte | rnNackprep | rnFinal | rErr =>
    simp [Subcase.done, State.pairRead, accessBound, List.filter_cons]
    rintro e (h | rfl)
    · exact hev _ _ _ e h
    · rfl
  all_goals
    simp [Subcase.done, State.captured, State.addressSent, State.addressWritten, BusState.signalled_eq, accessBound,
      List.filter_cons]
    exact hev _ _ _

/-! An entry that goes on. -/

/-- Only the prelude's rows name the message advance (30_encoding R115). -/
theorem decodeSelector_ne_advance {ph : Phase} {w : Selector} {c : Subcase} (hph : ph ≠ .pre)
    (h : decodeSelector ph w = some c) : c ≠ .advance := by
  unfold decodeSelector at h
  split at h
  · cases h
  · obtain ⟨r, hr, rfl⟩ := Option.map_eq_some_iff.1 h
    have hm := List.mem_of_find?_eq_some hr
    have hrows : ∀ r ∈ rowsOf ph, r.sub ≠ .advance := by
      cases ph
      case pre => exact absurd rfl hph
      all_goals decide
    exact hrows r hm

section
variable {e : Stop} (he : e.Soft)
include he

theorem currentSelector_ne_soft (p : Port) (sr1 : Half) (s t : State) : currentSelector p sr1 s ≠ .error e t := by
  cases h : selector s.cfg sr1 (s.bus p) with
  | none =>
    simp only [currentSelector, run_bind, run_look, run_lookBus, h]
    exact raise_ne_soft (α := Selector) he _ s t
  | some w =>
    simp only [currentSelector, run_bind_ok (run_look _ _), run_bind_ok (run_lookBus _ _ _), h, ne_eq, bind_stop_iff,
      ensure_ne_soft he, false_or]
    rintro ⟨_, _, -, h⟩
    cases h

theorem branchOf_ne_soft (w : Selector) (s t : State) : branchOf w s ≠ .error e t := by
  unfold branchOf
  cases decodeSelector .branch w with
  | none => exact raise_ne_soft (α := Subcase) he _ s t
  | some c => simp

/-- The prelude stops before it changes anything. -/
theorem prelude_soft {p : Port} {sr1 : Half} {s t : State} (h : prelude p sr1 s = .error e t) : t = s ∧ e ≠ .lockWait := by
  obtain h | ⟨w, u, hw, h⟩ := (bind_stop_iff ..).1 h
  · exact absurd h (currentSelector_ne_soft he _ _ _ _)
  · obtain ⟨-, -, -, rfl⟩ := currentSelector_iff.1 hw
    cases hm : matchesAdvance w with
    | false =>
      rw [hm] at h
      cases h
    | true =>
      rw [hm] at h
      exact subAdvance_soft he h

theorem terminal_ne_soft (p : Port) (sr1 : Half) (s t : State) : terminal p sr1 s ≠ .error e t := by
  intro h
  obtain h | ⟨w, u, -, h⟩ := (bind_stop_iff ..).1 h
  · exact currentSelector_ne_soft he _ _ _ _ h
  · cases hd : decodeSelector .term w with
    | none =>
      rw [hd] at h
      cases h
    | some c =>
      rw [hd] at h
      exact runSubcase_ne_soft he (decodeSelector_ne_advance (by decide) hd) _ _ h

/-- An entry that a refusal stops has only read SR1 and taken its sample. -/
theorem engineEntry_soft {p : Port} {s t : State} (h : engineEntry p s = .error e t) : t = s.entered p ∧ e ≠ .lockWait := by
  have hc : (s.bus p).plat.clkEn = true := by
    by_contra hc
    rw [engineEntry, run_bind_error (regGet_portDown rfl (by simpa using hc))] at h
    cases h
    exact he _ rfl
  rw [engineEntry_run hc] at h
  obtain h | ⟨_, u, -, h⟩ := (bind_stop_iff ..).1 h
  · exact prelude_soft he h
  · simp only [bind_stop_iff, currentSelector_ne_soft he, branchOf_ne_soft he, false_or] at h
    obtain ⟨w, v, -, c, v', hb, h | ⟨_, v'', -, h | ⟨_, w', -, h⟩⟩⟩ := h
    · have hc : c ≠ .advance := by
        unfold branchOf at hb
        cases hd : decodeSelector .branch w with
        | none =>
          rw [hd] at hb
          cases hb
        | some c' =>
          rw [hd] at hb
          cases hb
          exact decodeSelector_ne_advance (by decide) hd
      exact absurd h (runSubcase_ne_soft he hc _ _)
    · unfold onlyIf at h
      split at h
      · exact absurd h (terminal_ne_soft he _ _ _ _)
      · cases h
    · cases h

end

theorem engineEntry_ne_wait (p : Port) (s t : State) : engineEntry p s ≠ .error .lockWait t :=
  fun h => (engineEntry_soft Stop.soft_lockWait h).2 rfl

theorem exec_engEntry_next_iff {s t : State} {p : Port} :
    exec (.engEntry p) s = .next t ↔ s.EntryRuns p ∧ t = s.entryDone p := by
  rw [exec_engEntry, ← engineEntry_iff (u := ())]
  exact ⟨fun h => (finish_next_inv h).resolve_right (engineEntry_ne_wait p s t), finish_ok⟩

theorem State.preluded_accesses (s : State) (p : Port) : AddsAccesses 0 (s.bus p) ((s.preluded p).bus p) := by
  unfold State.preluded
  split
  · exact Subcase.done_accesses .advance s p
  · exact ⟨[], by simp⟩

theorem State.terminated_accesses (s : State) (p : Port) : AddsAccesses 2 (s.bus p) ((s.terminated p).bus p) := by
  unfold State.terminated terminalOf
  split
  · split <;> exact Subcase.done_accesses _ s p
  · exact ⟨[], by simp⟩

/-- Settles O29: seven accesses of the branch and two of terminal handling at most come after the SR1 read. -/
theorem entryReadsSr1OnceFirst : Obligations.EntryReadsSr1OnceFirst := by
  intro s t p h
  obtain ⟨-, rfl⟩ := exec_engEntry_next_iff.mp h
  obtain ⟨x, log, ha⟩ := s.entered_bus p
  obtain ⟨es, he, hs, hn⟩ := ((State.preluded_accesses (s.entered p) p).trans
    (Subcase.done_accesses (((s.entered p).preluded p).branch p) ((s.entered p).preluded p) p)).trans
    (State.terminated_accesses (((s.entered p).preluded p).branched p) p)
  have hb : accessBound (((s.entered p).preluded p).branch p) ≤ 7 := by
    cases ((s.entered p).preluded p).branch p <;> decide
  refine ⟨es, ?_, hs, by omega⟩
  rw [State.entryDone, State.withEntry_bus, he, ha]
  simp

/-! Its frame. -/

theorem EngineKeeps.rfl' (b : BusState) : EngineKeeps b b := by constructor <;> rfl

/-- What an entry leaves as it is outside memory. -/
structure EntryFrame (p : Port) (s t : State) : Prop where
  others : OtherPortsKept p s t
  outside : OutsideKept s t
  engine : EngineKeeps (s.bus p) (t.bus p)

theorem EntryFrame.refl (p : Port) (s : State) : EntryFrame p s s :=
  ⟨fun _ _ => rfl, by constructor <;> rfl, by constructor <;> rfl⟩

theorem EntryFrame.trans {p : Port} {s t u : State} (h : EntryFrame p s t) (k : EntryFrame p t u) : EntryFrame p s u :=
  ⟨fun q hq => (k.others q hq).trans (h.others q hq), h.outside.trans k.outside, h.engine.trans k.engine⟩

theorem EngineFrame.entry {p : Port} {fs : List Field} {rs : List Reg} {s t : State} (h : EngineFrame p fs rs s t) :
    EntryFrame p s t := ⟨h.others, h.outside, h.port.engine⟩

theorem EntryFrame.entered (s : State) (p : Port) : EntryFrame p s (s.entered p) := by
  have h₁ := ((EngineFrame.gotReg s p .sr1).trans
    (.withEntry _ p ⟨p, s.regAt 0, zext32 (s.regAt 0)⟩)).entry
  obtain ⟨d, t, log, -, h⟩ := State.sampled_eq ((s.gotReg p .sr1).withEntry ⟨p, s.regAt 0, zext32 (s.regAt 0)⟩) p
    (zext32 (s.regAt 0))
  obtain ⟨-, hother, -, hout⟩ := State.recorded_frame ((s.gotReg p .sr1).withEntry ⟨p, s.regAt 0, zext32 (s.regAt 0)⟩)
    p d t log
  refine h₁.trans ?_
  rw [State.entered, h]
  exact ⟨hother, hout, by rw [State.recorded_bus]; constructor <;> rfl⟩

theorem EntryFrame.preluded (s : State) (p : Port) : EntryFrame p s (s.preluded p) := by
  unfold State.preluded
  split
  · exact (Subcase.done_frame .advance s p).entry
  · exact .refl p s

theorem EntryFrame.branched (s : State) (p : Port) : EntryFrame p s (s.branched p) := (Subcase.done_frame _ s p).entry

theorem EntryFrame.terminated (s : State) (p : Port) : EntryFrame p s (s.terminated p) := by
  unfold State.terminated
  split
  · exact (Subcase.done_frame _ s p).entry
  · exact .refl p s

theorem EntryFrame.entryDone (s : State) (p : Port) : EntryFrame p s (s.entryDone p) :=
  (((EntryFrame.entered s p).trans (.preluded _ p)).trans (.branched _ p)).trans
    ((EntryFrame.terminated _ p).trans (EngineFrame.withEntry _ p ⟨p, 0, 0⟩).entry)

/-! Memory. -/

theorem StoresAt.raceOf {as : List Nat} {s t : State} (h : StoresAt as s t) {a : Nat} (ha : a ∉ as) :
    t.raceOf a = s.raceOf a := by
  obtain ⟨cs, hr, hc⟩ := h.races
  have hno : (cs.filter fun c => c.1 == a) = [] := by
    rw [List.filter_eq_nil_iff]
    exact fun c hcs he => ha (eq_of_beq he ▸ hc c hcs)
  simp [State.raceOf, hr, hno]

theorem StoresAt.memoryKept {s t : State} (h : StoresAt [] s t) : MemoryKept s t := by
  obtain ⟨cs, hr, hc⟩ := h.races
  have hnil : cs = [] := List.eq_nil_iff_forall_not_mem.mpr fun x hx => nomatch hc x hx
  exact ⟨fun a => h.bytes a List.not_mem_nil, by rw [hr, hnil, List.append_nil]⟩

theorem StoresAt.mono {as bs : List Nat} {s t : State} (h : StoresAt as s t) (hs : ∀ a ∈ as, a ∈ bs) : StoresAt bs s t := by
  obtain ⟨cs, hr, hc⟩ := h.races
  exact ⟨fun a ha => h.bytes a (mt (hs a) ha), cs, hr, fun x hx => hs _ (hc x hx)⟩

theorem StoresAt.entered (s : State) (p : Port) : StoresAt [] s (s.entered p) := by
  obtain ⟨d, t, log, -, h⟩ := State.sampled_eq ((s.gotReg p .sr1).withEntry ⟨p, s.regAt 0, zext32 (s.regAt 0)⟩) p
    (zext32 (s.regAt 0))
  rw [State.entered, h]
  exact .of_eq (by simp [State.recorded]) (by simp [State.recorded])

theorem StoresAt.preluded (s : State) (p : Port) : StoresAt [] s (s.preluded p) := by
  unfold State.preluded
  split
  · exact Subcase.done_stores .advance s p
  · exact .of_eq rfl rfl

theorem StoresAt.terminated (s : State) (p : Port) : StoresAt [] s (s.terminated p) := by
  unfold State.terminated terminalOf
  split
  · split
    · exact Subcase.done_stores .termPoll s p
    · exact Subcase.done_stores .termInt s p
  · exact .of_eq rfl rfl

/-- The bytes an entry stores are those of its branch. -/
theorem StoresAt.entryDone (s : State) (p : Port) :
    StoresAt ((((s.entered p).preluded p).branch p).stores (((s.entered p).preluded p).bus p)) s (s.entryDone p) := by
  have hpre := ((StoresAt.entered s p).trans (.preluded _ p))
  have hend : StoresAt [] (((s.entered p).preluded p).branched p) (s.entryDone p) :=
    (StoresAt.terminated _ p).trans (.of_eq rfl rfl)
  exact (hpre.mono (by simp)).trans ((Subcase.done_stores _ _ p).trans (hend.mono (by simp)))

theorem ite_ne {α : Type} {p : Prop} [Decidable p] {x y z : α} (h : x ≠ z) (k : y ≠ z) : (if p then x else y) ≠ z := by
  split <;> assumption

/-- The prelude is no branch. -/
theorem branchInWords_ne_advance (c : Config) (sr1 : Half) (b : BusState) : branchInWords c sr1 b ≠ .advance := by
  unfold branchInWords
  repeat refine ite_ne nofun ?_
  nofun

/-- The current message's buffer and direction, which only the prelude writes. -/
theorem Subcase.done_buffer {c : Subcase} (h : c ≠ .advance) (s : State) (p : Port) :
    ((c.done s p).bus p).curBuf = (s.bus p).curBuf ∧ ((c.done s p).bus p).totalMsgLen = (s.bus p).totalMsgLen ∧
      ((c.done s p).bus p).flags = (s.bus p).flags := by
  have hf := (Subcase.done_frame c s p).port.fields
  refine ⟨hf .curBuf ?_, hf .totalMsgLen ?_, hf .flags ?_⟩
  all_goals cases c <;> first | decide | exact absurd rfl h

theorem State.terminated_buffer (s : State) (p : Port) :
    ((s.terminated p).bus p).curBuf = (s.bus p).curBuf ∧
      ((s.terminated p).bus p).totalMsgLen = (s.bus p).totalMsgLen ∧ ((s.terminated p).bus p).flags = (s.bus p).flags := by
  unfold State.terminated terminalOf
  split
  · split
    · exact Subcase.done_buffer (by decide) s p
    · exact Subcase.done_buffer (by decide) s p
  · exact ⟨rfl, rfl, rfl⟩

/-- A sub-case that stores does so in the buffer of a READ message (R81). -/
theorem Subcase.stores_of_fits {c : Subcase} {s : State} {p : Port} (hf : (s.bus p).Fits c) (hr : c.Runs s p) {a : Nat}
    (ha : a ∈ c.stores (s.bus p)) : (s.bus p).flags.read = true ∧ (s.bus p).curBuf ≤ a ∧
      a < (s.bus p).curBuf + (s.bus p).totalMsgLen := by
  cases c
  case r1Last | rnByte | rnNackprep =>
    obtain rfl := List.mem_singleton.mp ha
    obtain ⟨-, h₁, h₂, -⟩ := hr
    exact ⟨hf.1, h₁, by omega⟩
  case r2Final | rnFinal =>
    obtain ⟨-, h₁, h₂, -⟩ := hr
    simp only [Subcase.stores, List.mem_cons, List.not_mem_nil, or_false] at ha
    exact ⟨hf.1, by omega, by omega⟩
  all_goals cases ha

/-- Settles O30: the one stage that stores does so inside the current message's buffer, which stays current. -/
theorem entryIsolation : Obligations.EntryIsolation := by
  intro s t p h
  obtain ⟨⟨-, -, -, hr, -⟩, rfl⟩ := exec_engEntry_next_iff.mp h
  obtain ⟨hother, hout, hengine⟩ := EntryFrame.entryDone s p
  have hstores := StoresAt.entryDone s p
  have hbranch : ((s.entered p).preluded p).branch p ≠ .advance := branchInWords_ne_advance _ _ _
  obtain ⟨hcb, hln, hfl⟩ := Subcase.done_buffer hbranch ((s.entered p).preluded p) p
  obtain ⟨hcb', hln', hfl'⟩ := State.terminated_buffer (((s.entered p).preluded p).branched p) p
  have hin {a : Nat} (ha : a ∈ (((s.entered p).preluded p).branch p).stores (((s.entered p).preluded p).bus p)) :=
    Subcase.stores_of_fits (State.branch_fits _ p) hr ha
  have hcur : ((s.entryDone p).bus p).curBuf = (((s.entered p).preluded p).bus p).curBuf := by
    simpa [State.entryDone] using hcb'.trans hcb
  have hlen : ((s.entryDone p).bus p).totalMsgLen = (((s.entered p).preluded p).bus p).totalMsgLen := by
    simpa [State.entryDone] using hln'.trans hln
  have hflags : ((s.entryDone p).bus p).flags = (((s.entered p).preluded p).bus p).flags := by
    simpa [State.entryDone] using hfl'.trans hfl
  refine ⟨hother, hout, hengine, fun hread => ?_, fun a ha => ?_⟩
  · refine (hstores.mono fun a ha => ?_).memoryKept
    rw [hflags, (hin ha).1] at hread
    cases hread
  · rw [hcur, hlen] at ha
    have hno : a ∉ (((s.entered p).preluded p).branch p).stores (((s.entered p).preluded p).bus p) := fun h => by
      have := hin h
      omega
    exact ⟨hstores.bytes a hno, hstores.raceOf hno⟩

end Sys2Proof.Machine
end
section
/-! REG_PUT and the corners of the register primitives (40_register_access R150 to R152). -/

namespace Sys2Proof.Machine

theorem exec_regPut (p : Port) (r : Reg) (v : Half) (s : State) : exec (.regPut p r v) s = finish (regPut p r v) s := rfl

/-! Where a Put stops. -/

theorem regPut_unmapped {s : State} {p : Port} {r : Reg} {v : Half} (hm : mapped r = false) :
    regPut p r v s = .error (.fault .regUnmapped) s := by
  rw [regPut, hm, run_bind_error (ensure_false _ _)]

theorem regPut_sr2 (s : State) (p : Port) (v : Half) : regPut p .sr2 v s = .error (.fault .regReadOnly) s := rfl

theorem regPut_portDown {s : State} {p : Port} {r : Reg} {v : Half} (hm : mapped r = true) (hr : r ≠ .sr2)
    (hc : (s.bus p).plat.clkEn = false) : regPut p r v s = .error (.fault .portDown) s := by
  simp [regPut, run_bind, run_ensure, hm, hr, hc]

/-- R87: a register other than SR1 and SR2 holds what is written to it. -/
theorem Regs.at_written {x : Regs} {r : Reg} {v : Half} (hm : mapped r = true) (h₁ : r ≠ .sr1) (h₂ : r ≠ .sr2) :
    (x.written r v).at r = v := by
  cases r
  case sr1 => exact absurd rfl h₁
  case sr2 => exact absurd rfl h₂
  case oar2 | unlisted => cases hm
  all_goals rfl

/-- Settles O11: a Put of a mapped register other than SR2 writes it, or stops at the first check that fails. -/
theorem regPutWrites : Obligations.RegPutWrites := by
  intro s p r v
  simp only [exec_regPut, ← mapped_iff, Bool.not_eq_true]
  refine ⟨fun hm hr hc => ?_, fun hm _ => finish_fault (regPut_unmapped hm), fun _ => finish_fault (regPut_sr2 s p v),
    fun hm hr hc => finish_fault (regPut_portDown hm hr hc)⟩
  refine ⟨_, finish_ok (regPut_run hm hr hc), by simp, fun h₁ => ?_, fun h₁ hv => ?_, fun h₂ => by simp [h₂],
    .putReg s p r v, by constructor <;> simp⟩
  · simpa using Regs.at_written hm h₁ hr
  · subst h₁ hv
    rw [State.putReg_bus, BusState.put_regs, Regs.written_sr1]
    change ((s.bus p).regs.sr1 &&& (0 ||| 0x00FF)) &&& 0xFF00 = 0
    rw [BitVec.and_assoc, show ((0 ||| 0x00FF) &&& 0xFF00 : Half) = 0 from by decide]
    exact BitVec.and_zero

/-- The eight low bits. -/
theorem getLsbD_lowByte (k : Nat) : (0x00FF : Half).getLsbD k = decide (k < 8) := by
  change ((BitVec.allOnes 8).setWidth 16).getLsbD k = _
  rw [BitVec.getLsbD_setWidth, BitVec.getLsbD_allOnes, Bool.and_eq_right_iff_imp]
  simp only [decide_eq_true_eq]
  omega

/-- Settles O13: the tests of an accessor come in the order its rule lists them, and the mask keeps the low bits of SR1. -/
theorem registerAccessCorners : Obligations.RegisterAccessCorners := by
  intro s p
  simp only [exec_regPut, exec_regGet, exec_regModify, ← mapped_iff, Bool.not_eq_true]
  refine ⟨fun r hm => ⟨finish_fault (run_bind_error (regGet_unmapped hm)), fun v => finish_fault (regPut_unmapped hm),
    fun clr set => finish_fault (regModify_unmapped hm)⟩, fun v => finish_fault (regPut_sr2 s p v),
    fun r clr set hm h₁ h₂ => finish_fault (regModify_notControl hm (isControl_eq_false h₁ h₂)),
    fun v hc => ⟨_, finish_ok (regPut_run rfl (by decide) hc), fun k => ?_⟩⟩
  rw [State.putReg_bus, BusState.put_regs, Regs.written_sr1, BitVec.getLsbD_and, BitVec.getLsbD_or, getLsbD_lowByte,
    Bool.or_comm]

end Sys2Proof.Machine
end
section
/-! Steps (00_scope R24, 10_state R49, 30_encoding R117): the history only grows; a step runs the decoded instruction. -/

namespace Sys2Proof.Machine

/-- The parameters are the same, no history lost an event, and no mark was cleared. -/
def Grown (s t : State) : Prop :=
  t.cfg = s.cfg ∧ ∀ p, (s.bus p).hist <+: (t.bus p).hist ∧
    ((s.bus p).faulted = true → (t.bus p).faulted = true) ∧ ((s.bus p).refused = true → (t.bus p).refused = true)

theorem Grown.of_bus_eq {s t : State} (hc : t.cfg = s.cfg) (h : ∀ p, t.bus p = s.bus p) : Grown s t :=
  ⟨hc, fun p => by rw [h p]; exact ⟨List.prefix_rfl, id, id⟩⟩

/-- A Bus State replaced by one with a longer history and no mark cleared. -/
theorem Grown.setBus (s : State) (p : Port) (b : BusState) (hh : (s.bus p).hist <+: b.hist)
    (hf : (s.bus p).faulted = true → b.faulted = true) (hr : (s.bus p).refused = true → b.refused = true) :
    Grown s (s.setBus p b) := by
  refine ⟨by simp, fun q => ?_⟩
  by_cases hq : q = p
  · subst hq
    simpa using ⟨hh, hf, hr⟩
  · simp [hq]

theorem Grown.scheduled : Scheduled Grown where
  refl s := .of_bus_eq rfl fun _ => rfl
  trans h k := ⟨k.1.trans h.1, fun p => ⟨(h.2 p).1.trans (k.2 p).1, (k.2 p).2.1 ∘ (h.2 p).2.1, (k.2 p).2.2 ∘ (h.2 p).2.2⟩⟩
  draws _ _ := .of_bus_eq rfl (by simp)
  entry _ _ := .of_bus_eq rfl (by simp)
  mem _ _ _ := .of_bus_eq rfl (by simp)
  races _ _ := .of_bus_eq rfl (by simp)
  fsmc _ _ := .of_bus_eq rfl (by simp)
  intsOff _ _ := .of_bus_eq rfl (by simp)
  instances _ _ := .of_bus_eq rfl (by simp)
  past _ _ := .of_bus_eq rfl (by simp)
  ret _ _ := .of_bus_eq rfl (by simp)
  errval _ _ := .of_bus_eq rfl (by simp)
  threads _ _ := .of_bus_eq rfl (by simp)
  requests _ _ := .of_bus_eq rfl (by simp)
  stores _ _ := .of_bus_eq rfl (by simp)
  returned _ _ := .of_bus_eq rfl (by simp)
  bus s p b hh _ hf hq := .setBus s p b hh (by rw [hf]; exact id) (by rw [hq]; exact id)
  refs s p n := .setBus s p _ List.prefix_rfl id id
  stopped s e p := by
    cases p with
    | none => exact .of_bus_eq rfl (by simp [State.stopped])
    | some p =>
      have h := Grown.setBus s p ((s.bus p).stopped e) (by cases e <;> exact List.prefix_rfl)
        (by cases e <;> simp [BusState.stopped]) (by cases e <;> simp [BusState.stopped])
      exact ⟨h.1, fun q => by simpa [State.stopped] using h.2 q⟩

/-- Settles O9. -/
theorem historyOnlyGrows : Obligations.HistoryOnlyGrows := fun _ _ => Grown.scheduled.step_keeps

/-! What a step runs. -/

@[simp] theorem State.portOf_withRequests (s : State) (x : List Request) (i : Instr) :
    (s.withRequests x).portOf i = s.portOf i := by cases i <;> rfl

@[simp] theorem State.portOf_withDraws (s : State) (x : Draws) (i : Instr) : (s.withDraws x).portOf i = s.portOf i := by
  cases i <;> rfl

theorem execLive_of_live {i : Instr} {s : State} (h : ∀ p, s.portOf i = some p → (s.bus p).faulted = false) :
    execLive i s = exec i s := by
  unfold execLive
  cases hp : s.portOf i with
  | none => rfl
  | some p => simp [BusState.live, h p hp]

theorem step_of_decode_ok {s : State} {q : Request} {qs : List Request} {i : Instr} (hq : s.settled.requests = q :: qs)
    (hd : decodeRequest q = .ok i) (hl : ∀ p, s.settled.portOf i = some p → (s.settled.bus p).faulted = false) :
    step s = exec i (s.settled.withRequests qs) := by
  simp only [step, runRequest, hq, hd]
  exact execLive_of_live (by simpa using hl)

theorem step_of_markedFaulted {s : State} {q : Request} {qs : List Request} {i : Instr} {p : Port}
    (hq : s.settled.requests = q :: qs) (hd : decodeRequest q = .ok i) (hp : s.settled.portOf i = some p)
    (hf : (s.settled.bus p).faulted = true) : step s = .fault .markedFaulted := by
  simp [step, runRequest, hq, hd, execLive, hp, BusState.live, hf]

/-- Where nobody may move between two requests, nobody does. -/
theorem settled_of_alone {s : State} (h : othersBetween s = false) : s.settled = s := by
  have hrun : betweenRequests s = .ok () s := by simp [betweenRequests, run_bind, h]
  simp [State.settled, hrun]

theorem othersBetween_eq_false {s : State}
    (h : s.intsOff = true ∨ (∀ p, canEnter s p = false) ∧ s.threads = [] ∧ s.stores = []) : othersBetween s = false := by
  obtain h | ⟨hp, ht, hs⟩ := h
  · simp [othersBetween, h]
  · simp [othersBetween, anyCanEnter, hp, ht, hs]

/-- Where nobody is drawn to move, nobody does. -/
theorem settled_of_no_turns {s : State} (h : othersBetween s = true) (hd : s.draws.turns.peek Config.freeTurns = []) :
    s.settled = s.withDraws { s.draws with turns := s.draws.turns.advance } := by
  have hrun : betweenRequests s = .ok () (s.withDraws { s.draws with turns := s.draws.turns.advance }) := by
    simp [betweenRequests, run_bind, h, hd, runAgents]
  simp [State.settled, hrun]

/-- The word placed by `withFetchWord` is the next request, with nobody moving before it. -/
theorem settled_withFetchWord (s : State) (nbits w : Nat) :
    (s.withFetchWord nbits w).settled = s.withRequests (tableRequest nbits w :: s.requests) ∨
    (s.withFetchWord nbits w).settled =
      (s.withDraws { s.draws with turns := { s.draws.turns with used := s.draws.turns.used + 1 } }).withRequests
        (tableRequest nbits w :: s.requests) := by
  have hothers (x : List Request) (d : Draws) : othersBetween ((s.withRequests x).withDraws d) = othersBetween s := rfl
  cases h : othersBetween s with
  | true =>
    refine .inr ?_
    rw [State.withFetchWord, h, if_pos rfl, settled_of_no_turns (by rw [hothers, h]) rfl]
    rfl
  | false =>
    refine .inl ?_
    rw [State.withFetchWord, h, if_neg Bool.false_ne_true]
    exact settled_of_alone h

/-- Settles O7. -/
theorem stepRunsDecodedInstruction : Obligations.StepRunsDecodedInstruction := by
  refine ⟨fun s q qs i hq hd hl => step_of_decode_ok hq hd hl, fun s h => settled_of_alone (othersBetween_eq_false h),
    fun s q qs e hq hd => ?_, fun s q qs i p hq hd hp hf => step_of_markedFaulted hq hd hp hf,
    fun s nbits w i hw hl => ?_⟩
  · rw [step_of_decode_error hq hd]
    cases e <;> rfl
  · have hd : decodeRequest (tableRequest nbits w) = .ok i := by
      unfold decodeTableWord at hw
      cases hr : decodeRequest (tableRequest nbits w) with
      | ok j =>
        rw [hr] at hw
        cases hw
        rfl
      | error e =>
        rw [hr] at hw
        cases hw
    obtain h | h := settled_withFetchWord s nbits w
    · refine .inl ((step_of_decode_ok (by rw [h]; rfl) hd (by simpa [h] using hl)).trans ?_)
      rw [h]
      rfl
    · refine .inr ((step_of_decode_ok (by rw [h]; rfl) hd (by simpa [h] using hl)).trans ?_)
      rw [h]
      rfl

end Sys2Proof.Machine
end

section
/-! TRACE_EVENT, TRACE_RESET, TRACE_DUMP (47_lifecycle_trace_ops R345, R346, R348), and the launch state's invariants
(70_reset_and_hazards R453, R454). -/

namespace Sys2Proof.Machine

/-! The recorder's other three operations. -/

/-- R13: with tracing off, an action of the recorder is not done. -/
theorem whenTracing_off {s : State} (m : M Unit) (h : s.cfg.traceOn = false) : whenTracing m s = .ok () s := by
  rw [whenTracing, run_bind_ok (run_look _ _), h, run_onlyIf_false]

theorem exec_traceSample (p : Port) (w : Word32) (s : State) : exec (.traceSample p w) s = finish (traceSample p w) s :=
  rfl

theorem exec_traceEvent (p : Port) (ev : EvName) (x : Int) (s : State) :
    exec (.traceEvent p ev x) s = finish (emit p ev x) s := rfl

theorem exec_traceReset (p : Port) (s : State) : exec (.traceReset p) s = finish (traceReset p) s := rfl

theorem exec_traceDump (p : Port) (s : State) : exec (.traceDump p) s = finish (traceDump p) s := rfl

/-- A change of one port's Bus State leaves the other ports, memory and everything outside as they are. -/
theorem State.setBus_frame (s : State) (p : Port) (b : BusState) :
    OtherPortsKept p s (s.setBus p b) ∧ MemoryKept s (s.setBus p b) ∧ OutsideKept s (s.setBus p b) := by
  refine ⟨fun q hq => by simp [hq], ?_, ?_⟩ <;> constructor <;> simp

theorem emit_run_on {s : State} (p : Port) (ev : EvName) (x : Int) (hon : s.cfg.traceOn = true) :
    emit p ev x s = .ok () (s.setBus p ((s.bus p).emitted ev x)) :=
  whenTracing_run _ hon

theorem traceDump_run_on {s : State} (p : Port) (hon : s.cfg.traceOn = true) :
    traceDump p s = .ok () (s.setBus p { s.bus p with log := (s.bus p).log ++ (s.bus p).trace.dump }) :=
  whenTracing_run _ hon

/-- R345: the ring is cleared at the time drawn. -/
theorem traceReset_run_on {s : State} (p : Port) (hon : s.cfg.traceOn = true) :
    traceReset p s = .ok () (s.recorded p s.nowDrawn ((s.bus p).trace.cleared s.now) (s.bus p).log) := by
  rw [traceReset, whenTracing_run _ hon, run_bind_ok (drawTime_run _), run_updBus, State.withDraws_setBus,
    State.withDraws_bus]
  rfl

/-- Settles O55: each of the three operations with tracing on is one change of its port's recorder and history, and with
tracing off each of the four ends at once. -/
theorem traceEventResetDump : Obligations.TraceEventResetDump := by
  refine ⟨fun s p ev x e hon he => ?_, fun s p hon => ⟨?_, ?_⟩, fun s p hoff => ?_⟩
  · refine ⟨_, finish_ok (emit_run_on p ev x hon), ?_, State.setBus_frame _ _ _⟩
    simp [BusState.emitted, Trace.annotate, Trace.setCurrent, Trace.current_eq he]
  · refine ⟨_, finish_ok (traceReset_run_on p hon), ?_⟩
    simp [State.recorded_frame, Trace.cleared, TraceEntry.fresh, State.now]
  · refine ⟨_, finish_ok (traceDump_run_on p hon), ?_, State.setBus_frame _ _ _⟩
    rw [State.bus_setBus_same]
    rfl
  · exact ⟨fun _ => finish_ok (whenTracing_off _ hoff), fun _ _ => finish_ok (whenTracing_off _ hoff),
      finish_ok (whenTracing_off _ hoff), finish_ok (whenTracing_off _ hoff)⟩

/-! Launch. -/

theorem BusState.launch_coherent (c : Config) : Coherent (BusState.launch c) where
  dcnt := Int.le_refl _
  next := nofun
  count := rfl
  cursor := nofun
  single := nofun

theorem State.launch_canEnter (c : Config) (x : Bool) (p : Port) :
    canEnter ((State.launch c).withIntsOff x) p = false := by
  simp [canEnter, BusState.launch, Platform.launch]

theorem State.launch_sound (c : Config) : Sound (State.launch c) where
  memory := rfl
  region := rfl
  count := by simp [BusState.launch]
  ring := fun p => by
    rw [State.launch_bus]
    exact ⟨List.length_replicate, .inr rfl⟩
  lines := by simp [BusState.launch, Platform.launch]
  mode := by simp [BusState.launch, Platform.launch]
  threads := nofun

/-- Settles O60: the fields of the one Bus State every port launches with. -/
theorem launchIsSoundAndQuiet : Obligations.LaunchIsSoundAndQuiet := by
  intro c
  have coherent (p : Port) : Coherent ((State.launch c).bus p) := by
    simpa using BusState.launch_coherent c
  refine ⟨State.launch_sound c, ⟨State.launch_sound c, fun p _ => ⟨?_, ?_, ?_⟩⟩,
    ⟨⟨rfl, rfl, rfl⟩, State.launch_canEnter c false⟩, ⟨fun p => ⟨coherent p, ?_, ?_⟩, ?_⟩, coherent,
    State.launch_canEnter c false, rfl, ?_⟩
  · simp [BusState.launch]
  · rw [State.launch_bus]
    rfl
  · simp [BusState.launch, Platform.launch]
  · simp [BusState.launch]
  · simp [BusState.launch]
  · simp [BusState.launch, Platform.launch]
  · simp [BusState.launch, Platform.launch]

end Sys2Proof.Machine
end

section
/-! Calls where nobody else moves. `Prog.Ends x s a t`: with nobody else able to move at any of its actions, `x` goes from `s`
to `t` and answers `a`, whatever answers are remembered meanwhile; `Prog.Fails x s e`: it stops with `e`. Both are rules over
the parts of a program, and each gives what `drive`, `Prog.direct` and a call do. -/

namespace Sys2Proof.Machine

variable {α β : Type}

/-! What an action does does not depend on the answers remembered. -/

theorem State.withPast_self (s : State) : s.withPast s.past = s := rfl

@[simp] theorem State.gotReg_withPast (s : State) (xs : List Ans) (p : Port) (r : Reg) :
    (s.withPast xs).gotReg p r = (s.gotReg p r).withPast xs := by
  simp only [State.gotReg, State.withPast_bus, State.withPast_setBus, State.regAt_withPast, State.withPast_draws]
  rfl

@[simp] theorem State.putReg_withPast (s : State) (xs : List Ans) (p : Port) (r : Reg) (v : Half) :
    (s.withPast xs).putReg p r v = (s.putReg p r v).withPast xs := by
  simp only [State.putReg, State.withPast_bus, State.withPast_setBus]

@[simp] theorem State.modReg_withPast (s : State) (xs : List Ans) (p : Port) (r : Reg) (clr set : Half) :
    (s.withPast xs).modReg p r clr set = (s.modReg p r clr set).withPast xs := by
  simp only [State.modReg, State.gotReg_withPast, State.putReg_withPast, State.regAt_withPast]

@[simp] theorem State.emittedEv_withPast (s : State) (xs : List Ans) (p : Port) (ev : EvName) (x : Int) :
    (s.withPast xs).emittedEv p ev x = (s.emittedEv p ev x).withPast xs := by
  simp only [State.emittedEv, State.withPast_cfg, State.withPast_bus, State.withPast_setBus]
  split <;> rfl

@[simp] theorem State.changed_withPast (s : State) (xs : List Ans) (p : Port) (f : BusState → BusState) :
    (s.withPast xs).changed p f = (s.changed p f).withPast xs := by
  simp only [State.changed, State.withPast_bus, State.withPast_setBus]

/-! Programs that end. -/

/-- A program goes from one state to another and answers, with nobody able to move at its actions. -/
def Prog.Ends : Prog α → State → α → State → Prop
  | .ret a, s, b, t => b = a ∧ t = s
  | .act m k, s, b, t => othersCanMove s = false ∧
      ∃ x u, (∀ xs, m (s.withPast xs) = .ok x (u.withPast xs)) ∧ (k x).Ends u b t

/-- A program stops, with nobody able to move at its actions. -/
def Prog.Fails : Prog α → State → Stop → Prop
  | .ret _, _, _ => False
  | .act m k, s, e => othersCanMove s = false ∧
      ((∀ xs, ∃ t, m (s.withPast xs) = .error e t) ∨
        ∃ x u, (∀ xs, m (s.withPast xs) = .ok x (u.withPast xs)) ∧ (k x).Fails u e)

namespace Prog

theorem Ends.ret (a : α) (s : State) : (Prog.ret a).Ends s a s := ⟨rfl, rfl⟩

theorem Ends.andThen {x : Prog α} {f : α → Prog β} {s t u : State} {a : α} {b : β} (h : x.Ends s a t)
    (k : (f a).Ends t b u) : (x.andThen f).Ends s b u := by
  induction x generalizing s with
  | ret c =>
    obtain ⟨rfl, rfl⟩ := h
    exact k
  | act m g ih =>
    obtain ⟨hq, y, v, hm, hg⟩ := h
    exact ⟨hq, y, v, hm, ih y hg⟩

theorem Ends.fails {x : Prog α} {f : α → Prog β} {s t : State} {a : α} {e : Stop} (h : x.Ends s a t)
    (k : (f a).Fails t e) : (x.andThen f).Fails s e := by
  induction x generalizing s with
  | ret c =>
    obtain ⟨rfl, rfl⟩ := h
    exact k
  | act m g ih =>
    obtain ⟨hq, y, v, hm, hg⟩ := h
    exact ⟨hq, .inr ⟨y, v, hm, ih y hg⟩⟩

theorem Fails.andThen {x : Prog α} {f : α → Prog β} {s : State} {e : Stop} (h : x.Fails s e) :
    (x.andThen f).Fails s e := by
  induction x generalizing s with
  | ret c => exact h.elim
  | act m g ih =>
    obtain ⟨hq, hm | ⟨y, v, hm, hg⟩⟩ := h
    · exact ⟨hq, .inl hm⟩
    · exact ⟨hq, .inr ⟨y, v, hm, ih y hg⟩⟩

theorem Ends.onlyIf {x : Prog Unit} {s t : State} {c : Bool} (h : c = true → x.Ends s () t) (k : c = false → t = s) :
    (Prog.onlyIf c x).Ends s () t := by
  cases c with
  | true => exact h rfl
  | false => exact ⟨rfl, k rfl⟩

/-! What they mean for a run. -/

theorem Ends.drive {x : Prog α} {s t : State} {a : α} (own : Option Port) (h : x.Ends s a t) (xs : List Ans) :
    ∃ ys, drive own x (s.withPast xs) = .ok a (t.withPast ys) := by
  induction x generalizing s xs with
  | ret c =>
    obtain ⟨rfl, rfl⟩ := h
    exact ⟨xs, rfl⟩
  | act m g ih =>
    obtain ⟨hq, y, v, hm, hg⟩ := h
    rw [drive_act_quiet own m g (by simpa using hq), hm xs]
    exact ih y hg _

theorem Ends.drive_self {x : Prog α} {s t : State} {a : α} (own : Option Port) (h : x.Ends s a t) :
    ∃ ys, Sys2Proof.Machine.drive own x s = .ok a (t.withPast ys) := h.drive own s.past

theorem Ends.direct {x : Prog α} {s t : State} {a : α} (h : x.Ends s a t) (xs : List Ans) :
    x.direct (s.withPast xs) = .ok a (t.withPast xs) := by
  induction x generalizing s xs with
  | ret c =>
    obtain ⟨rfl, rfl⟩ := h
    rfl
  | act m g ih =>
    obtain ⟨-, y, v, hm, hg⟩ := h
    exact (run_bind_ok (hm xs)).trans (ih y hg xs)

theorem Fails.drive {x : Prog α} {s : State} {e : Stop} (own : Option Port) (h : x.Fails s e) (xs : List Ans) :
    ∃ t, drive own x (s.withPast xs) = .error e t := by
  induction x generalizing s xs with
  | ret c => exact h.elim
  | act m g ih =>
    obtain ⟨hq, hm | ⟨y, v, hm, hg⟩⟩ := h
    · obtain ⟨t, ht⟩ := hm xs
      exact ⟨t, by rw [drive_act_quiet own m g (by simpa using hq), ht]⟩
    · rw [drive_act_quiet own m g (by simpa using hq), hm xs]
      exact ih y hg _

/-- The outcome of a call that ends. -/
theorem Ends.call {i : Instr} {f : Config → Prog Unit} {s t : State} (hq : othersCanMove s = false)
    (h : (f s.cfg).Ends s () t) : call i f s = .next (t.withPast []) := by
  obtain ⟨ys, hd⟩ := h.drive (s.portOf i) []
  have hp : (s.withPast []).portOf i = s.portOf i := by cases i <;> rfl
  have hrun := driveCall_quiet (by simpa using hq) (f s.cfg) (i := i) (s := s.withPast [])
  rw [hp, hd] at hrun
  exact (call_ok hrun).trans rfl

/-- The outcome of a call that stops. -/
theorem Fails.driveCall {i : Instr} {x : Prog Unit} {s : State} {e : Stop} (hq : othersCanMove s = false)
    (h : x.Fails s e) : ∃ t, driveCall i x (s.withPast []) = .error e t := by
  rw [driveCall_quiet (by simpa using hq)]
  exact h.drive _ []

theorem Fails.refused {i : Instr} {f : Config → Prog Unit} {s : State} {r : Refusal} (hq : othersCanMove s = false)
    (h : (f s.cfg).Fails s (.refusal r)) : Sys2Proof.Machine.call i f s = .refused r :=
  (h.driveCall hq).elim fun _ => call_refused

/-! The single actions. -/

theorem Ends.act {m : M Unit} {s t : State} (hq : othersCanMove s = false)
    (hm : ∀ xs, m (s.withPast xs) = .ok () (t.withPast xs)) : (Machine.act m).Ends s () t :=
  ⟨hq, .unit, t, fun xs => by rw [run_bind_ok (hm xs)]; rfl, rfl, rfl⟩

theorem Ends.askHalf {m : M Half} {s t : State} {v : Half} (hq : othersCanMove s = false)
    (hm : ∀ xs, m (s.withPast xs) = .ok v (t.withPast xs)) : (Machine.askHalf m).Ends s v t :=
  ⟨hq, .half v, t, fun xs => by rw [run_bind_ok (hm xs)]; rfl, rfl, rfl⟩

theorem Ends.askFlag {m : M Bool} {s t : State} {v : Bool} (hq : othersCanMove s = false)
    (hm : ∀ xs, m (s.withPast xs) = .ok v (t.withPast xs)) : (Machine.askFlag m).Ends s v t :=
  ⟨hq, .flag v, t, fun xs => by rw [run_bind_ok (hm xs)]; rfl, rfl, rfl⟩

theorem Ends.askNum {m : M Nat} {s t : State} {v : Nat} (hq : othersCanMove s = false)
    (hm : ∀ xs, m (s.withPast xs) = .ok v (t.withPast xs)) : (Machine.askNum m).Ends s v t :=
  ⟨hq, .num v, t, fun xs => by rw [run_bind_ok (hm xs)]; rfl, rfl, rfl⟩

theorem Ends.askWord {m : M Word32} {s t : State} {v : Word32} (hq : othersCanMove s = false)
    (hm : ∀ xs, m (s.withPast xs) = .ok v (t.withPast xs)) : (Machine.askWord m).Ends s v t :=
  ⟨hq, .word v, t, fun xs => by rw [run_bind_ok (hm xs)]; rfl, rfl, rfl⟩

theorem Ends.askInst {m : M Inst} {s t : State} {v : Inst} (hq : othersCanMove s = false)
    (hm : ∀ xs, m (s.withPast xs) = .ok v (t.withPast xs)) : (Machine.askInst m).Ends s v t :=
  ⟨hq, .inst v, t, fun xs => by rw [run_bind_ok (hm xs)]; rfl, rfl, rfl⟩

theorem Fails.act {m : M Unit} {s : State} {e : Stop} (hq : othersCanMove s = false)
    (hm : ∀ xs, ∃ t, m (s.withPast xs) = .error e t) : (Machine.act m).Fails s e :=
  ⟨hq, .inl fun xs => (hm xs).imp fun _ => run_bind_error⟩

theorem Fails.askInst {m : M Inst} {s : State} {e : Stop} (hq : othersCanMove s = false)
    (hm : ∀ xs, ∃ t, m (s.withPast xs) = .error e t) : (Machine.askInst m).Fails s e :=
  ⟨hq, .inl fun xs => (hm xs).imp fun _ => run_bind_error⟩

theorem Fails.refuse {s : State} (hq : othersCanMove s = false) (r : Refusal) :
    (Machine.act (refuse r)).Fails s (.refusal r) := Fails.act hq fun _ => ⟨_, rfl⟩

theorem Ends.get {s : State} {p : Port} {r : Reg} (hq : othersCanMove s = false) (hm : mapped r = true)
    (hc : (s.bus p).plat.clkEn = true) : (Machine.get p r).Ends s (s.regAt 0) (s.gotReg p r) :=
  Ends.askHalf hq fun xs => by
    rw [regGet_run hm (by simpa using hc)]
    simp

theorem Ends.put {s : State} {p : Port} {r : Reg} {v : Half} (hq : othersCanMove s = false) (hm : mapped r = true)
    (hr : r ≠ .sr2) (hc : (s.bus p).plat.clkEn = true) : (Machine.put p r v).Ends s () (s.putReg p r v) :=
  Ends.act hq fun xs => by
    rw [regPut_run hm hr (by simpa using hc)]
    simp

theorem Ends.modify {s : State} {p : Port} {r : Reg} {clr set : Half} (hq : othersCanMove s = false)
    (hr : isControl r = true) (hc : (s.bus p).plat.clkEn = true) :
    (Machine.modify p r clr set).Ends s () (s.modReg p r clr set) :=
  Ends.act hq fun xs => by
    rw [regModify_run hr (by simpa using hc)]
    simp

theorem Ends.write {s : State} {p : Port} {f : BusState → BusState} (hq : othersCanMove s = false) :
    (Machine.write p f).Ends s () (s.changed p f) :=
  Ends.act hq fun xs => by
    rw [run_updBus, State.withPast_bus, State.withPast_setBus]
    rfl

theorem Ends.theInst {s : State} {d : Nat} {x : Inst} (hq : othersCanMove s = false) (hx : s.inst d = some x) :
    (Machine.theInst d).Ends s x s :=
  Ends.askInst hq fun xs => by simp [getInst, run_bind, hx]

theorem Fails.theInst {s : State} {d : Nat} (hq : othersCanMove s = false) (hx : s.inst d = none) :
    (Machine.theInst d).Fails s (.refusal .noInstance) :=
  Fails.askInst hq fun xs => ⟨s.withPast xs, by simp [getInst, run_bind, hx]⟩

end Prog

/-! States in which nobody else moves, and what keeps a state so. -/

/-- A condition under which nobody else moves and which only the fields that let an entry start can end. -/
structure Calm (Q : State → Prop) : Prop where
  quiet : ∀ {s}, Q s → othersCanMove s = false
  changed : ∀ {s p f}, Q s → (f (s.bus p)).faulted = (s.bus p).faulted →
    (f (s.bus p)).plat.evIrq = (s.bus p).plat.evIrq → (f (s.bus p)).plat.erIrq = (s.bus p).plat.erIrq →
    (f (s.bus p)).cr2Written = (s.bus p).cr2Written → Q (s.changed p f)
  draws : ∀ {s} x, Q s → Q (s.withDraws x)
  instances : ∀ {s} x, Q s → Q (s.withInstances x)
  ret : ∀ {s} x, Q s → Q (s.withRet x)

theorem canEnter_congr {s t : State} {p : Port} (hc : t.cfg = s.cfg) (hi : t.intsOff = s.intsOff)
    (hf : (t.bus p).faulted = (s.bus p).faulted) (he : (t.bus p).plat.evIrq = (s.bus p).plat.evIrq)
    (hr : (t.bus p).plat.erIrq = (s.bus p).plat.erIrq) (hw : (t.bus p).cr2Written = (s.bus p).cr2Written) :
    canEnter t p = canEnter s p := by
  simp only [canEnter, BusState.live, hc, hi, hf, he, hr, hw]

/-- A field of the changed Bus State that the change keeps is the same on every port. -/
theorem State.changed_keeps {γ : Type} (g : BusState → γ) {s : State} {p : Port} {f : BusState → BusState}
    (h : g (f (s.bus p)) = g (s.bus p)) (q : Port) : g ((s.changed p f).bus q) = g (s.bus q) := by
  by_cases hq : q = p
  · subst hq
    rw [State.changed_bus, h]
  · rw [State.changed_bus_of_ne _ _ hq]

theorem calm_alone : Calm Alone where
  quiet := Alone.quiet
  changed := fun {s p f} h hf he hr hw => by
    refine ⟨⟨?_, ?_, ?_⟩, fun q => ?_⟩
    · simpa [State.changed] using h.threads
    · simpa [State.changed] using h.requests
    · simpa [State.changed] using h.stores
    · refine (canEnter_congr (s := s.withIntsOff false) (t := (s.changed p f).withIntsOff false) ?_ rfl ?_ ?_ ?_ ?_).trans (h.entries q)
      · simp
      · simpa using State.changed_keeps (·.faulted) hf q
      · simpa using State.changed_keeps (·.plat.evIrq) he q
      · simpa using State.changed_keeps (·.plat.erIrq) hr q
      · simpa using State.changed_keeps (·.cr2Written) hw q
  draws := fun x h => ⟨⟨h.threads, h.requests, h.stores⟩, h.entries⟩
  instances := fun x h => ⟨⟨h.threads, h.requests, h.stores⟩, h.entries⟩
  ret := fun x h => ⟨⟨h.threads, h.requests, h.stores⟩, h.entries⟩

/-- Being masked does not depend on the ports. -/
theorem Masked.congr {s t : State} (h : Masked s) (hi : t.intsOff = s.intsOff) (hc : t.cfg = s.cfg)
    (ht : t.threads = s.threads) (hr : t.requests = s.requests) (hs : t.stores = s.stores) : Masked t := by
  obtain h | ⟨hm, hsolo⟩ := h
  · exact .inl (hi.trans h)
  · exact .inr ⟨by rw [hc, hm], ht.trans hsolo.threads, hr.trans hsolo.requests, hs.trans hsolo.stores⟩

theorem calm_masked : Calm Masked where
  quiet := Masked.quiet
  changed := fun h _ _ _ _ => h.congr (by simp [State.changed]) (by simp) (by simp [State.changed])
    (by simp [State.changed]) (by simp [State.changed])
  draws := fun _ h => h.congr rfl rfl rfl rfl rfl
  instances := fun _ h => h.congr rfl rfl rfl rfl rfl
  ret := fun _ h => h.congr rfl rfl rfl rfl rfl

namespace Calm

variable {Q : State → Prop} (hQ : Calm Q) {s : State}
include hQ

theorem gotReg (h : Q s) (p : Port) (r : Reg) : Q (s.gotReg p r) :=
  hQ.draws _ (hQ.changed (f := (·.record (.rd r (s.regAt 0)))) h rfl rfl rfl rfl)

theorem putReg (h : Q s) (p : Port) {r : Reg} (v : Half) (hr : r ≠ .cr2) : Q (s.putReg p r v) :=
  hQ.changed (f := (·.put r v)) h rfl rfl rfl (if_neg hr)

theorem modReg (h : Q s) (p : Port) {r : Reg} (clr set : Half) (hr : r ≠ .cr2) : Q (s.modReg p r clr set) :=
  hQ.putReg (hQ.gotReg h p r) p _ hr

theorem emittedEv (h : Q s) (p : Port) (ev : EvName) (x : Int) : Q (s.emittedEv p ev x) := by
  unfold State.emittedEv
  split
  · exact hQ.changed (f := (·.emitted ev x)) h rfl rfl rfl rfl
  · exact h

end Calm

end Sys2Proof.Machine
end

section
/-! The clock programmer (41_clock_programmer R180 to R190) and the error classification (46_dispatcher R318), where nobody
else moves. -/

namespace Sys2Proof.Machine

/-! CLK_PROGRAM. -/

/-- The state CLK_PROGRAM leaves: CR1 read, PE cleared, the three words written, CR1 restored (R180 to R188). -/
def State.clockDone (s : State) (c : Config) (p : Port) (fp ft : Nat) : State :=
  (((((s.gotReg p .cr1).putReg p .cr1 (s.regAt 0 &&& ~~~(bit c.layout.pe))).putReg p .ccr
    (ccrWord c.layout (clockWords c.duty169 fp ft))).putReg p .trise
    (place c.layout.trise (clockWords c.duty169 fp ft).trise)).putReg p .oar1 0x4000).putReg p .cr1 (s.regAt 0)

/-- R190 in the terms of the claims. -/
theorem clockRefusal_eq_none {c : Config} {ft : Nat} (h : ClockFits c ft) :
    clockRefusal c.layout c.duty169 c.pclk ft = none := by
  obtain ⟨h0, h1, h2⟩ := h
  rw [clockRefusal, if_neg h0, if_neg (by omega), if_neg (by omega)]

section
variable {Q : State → Prop} (hQ : Calm Q) {s : State} (h : Q s) {c : Config} {p : Port} {fp ft : Nat}
  (hc : (s.bus p).plat.clkEn = true)
include hQ h hc

theorem Prog.Ends.clkProgram (hf : clockRefusal c.layout c.duty169 fp ft = none) :
    (Machine.clkProgram c p fp ft).Ends s () (s.clockDone c p fp ft) := by
  have h₁ := hQ.gotReg h p .cr1
  have h₂ := hQ.putReg h₁ p (r := .cr1) (s.regAt 0 &&& ~~~(bit c.layout.pe)) (by decide)
  have h₃ := hQ.putReg h₂ p (r := .ccr) (ccrWord c.layout (clockWords c.duty169 fp ft)) (by decide)
  have h₄ := hQ.putReg h₃ p (r := .trise) (place c.layout.trise (clockWords c.duty169 fp ft).trise) (by decide)
  have h₅ := hQ.putReg h₄ p (r := .oar1) 0x4000 (by decide)
  refine (Ends.get (hQ.quiet h) rfl hc).andThen ((Ends.put (hQ.quiet h₁) rfl (by decide) (by simpa using hc)).andThen ?_)
  rw [hf]
  exact (Ends.put (hQ.quiet h₂) rfl (by decide) (by simpa using hc)).andThen <|
    (Ends.put (hQ.quiet h₃) rfl (by decide) (by simpa using hc)).andThen <|
    (Ends.put (hQ.quiet h₄) rfl (by decide) (by simpa using hc)).andThen <|
    Ends.put (hQ.quiet h₅) rfl (by decide) (by simpa using hc)

/-- R190: PE is cleared before the refusal. -/
theorem Prog.Fails.clkProgram {r : Refusal} (hf : clockRefusal c.layout c.duty169 fp ft = some r) :
    (Machine.clkProgram c p fp ft).Fails s (.refusal r) := by
  have h₁ := hQ.gotReg h p .cr1
  have h₂ := hQ.putReg h₁ p (r := .cr1) (s.regAt 0 &&& ~~~(bit c.layout.pe)) (by decide)
  refine (Ends.get (hQ.quiet h) rfl hc).fails ((Ends.put (hQ.quiet h₁) rfl (by decide) (by simpa using hc)).fails ?_)
  rw [hf]
  exact Fails.refuse (hQ.quiet h₂) r

omit hc in
theorem Calm.clockDone : Q (s.clockDone c p fp ft) :=
  hQ.putReg (hQ.putReg (hQ.putReg (hQ.putReg (hQ.putReg (hQ.gotReg h p .cr1) p _ (by decide)) p _ (by decide)) p _
    (by decide)) p _ (by decide)) p _ (by decide)

end

theorem State.clockDone_bus (s : State) (c : Config) (p : Port) (fp ft : Nat) :
    (s.clockDone c p fp ft).bus p =
      ((((((s.bus p).record (.rd .cr1 (s.regAt 0))).put .cr1 (s.regAt 0 &&& ~~~(bit c.layout.pe))).put .ccr
        (ccrWord c.layout (clockWords c.duty169 fp ft))).put .trise
        (place c.layout.trise (clockWords c.duty169 fp ft).trise)).put .oar1 0x4000).put .cr1 (s.regAt 0) := by
  simp [State.clockDone]

theorem State.clockDone_frame (s : State) (c : Config) (p : Port) (fp ft : Nat) :
    EngineFrame p [] [.cr1, .ccr, .trise, .oar1] s (s.clockDone c p fp ft) :=
  ((((((EngineFrame.gotReg s p .cr1).trans (.putReg _ p .cr1 _)).trans (.putReg _ p .ccr _)).trans
    (.putReg _ p .trise _)).trans (.putReg _ p .oar1 _)).trans (.putReg _ p .cr1 _)).mono (by decide) (by decide)

theorem State.clockDone_memory (s : State) (c : Config) (p : Port) (fp ft : Nat) :
    MemoryKept s (s.clockDone c p fp ft) := by
  constructor <;> simp [State.clockDone]

@[simp] theorem State.clockDone_hist (s : State) (c : Config) (p : Port) (fp ft : Nat) :
    ((s.clockDone c p fp ft).bus p).hist = (s.bus p).hist ++ clockEvs c.layout (s.regAt 0)
      (ccrWord c.layout (clockWords c.duty169 fp ft)) (place c.layout.trise (clockWords c.duty169 fp ft).trise) := by
  simp [State.clockDone_bus, clockEvs]

@[simp] theorem State.regAt_clockDone (s : State) (c : Config) (p : Port) (fp ft k : Nat) :
    (s.clockDone c p fp ft).regAt k = s.regAt (k + 1) := by
  simp [State.clockDone]

/-- A frame does not see the answers remembered. -/
theorem EngineFrame.withPast {p : Port} {fs : List Field} {rs : List Reg} {s t : State} (h : EngineFrame p fs rs s t)
    (xs : List Ans) : EngineFrame p fs rs s (t.withPast xs) :=
  ⟨by simpa using h.port, fun q hq => by simpa using h.others q hq, { h.outside with }⟩

theorem MemoryKept.withPast {s t : State} (h : MemoryKept s t) (xs : List Ans) : MemoryKept s (t.withPast xs) :=
  ⟨h.bytes, h.races⟩

theorem exec_clkProgram (p : Port) (fp ft : Nat) (s : State) :
    exec (.clkProgram p fp ft) s = call (.clkProgram p fp ft) (clkProgram · p fp ft) s := rfl

/-- What CLK_PROGRAM does where R190 does not refuse it, in terms of the words of R183 and R184. -/
theorem exec_clkProgram_of_fits {s : State} {p : Port} {fp ft : Nat} {w : ClockWords} (ha : Alone s)
    (hc : (s.bus p).plat.clkEn = true) (h0 : ft ≠ 0) (hw : clockWords s.cfg.duty169 fp ft = w)
    (h1 : w.ccr < 2 ^ s.cfg.layout.ccr.width) (h2 : w.trise < 2 ^ s.cfg.layout.trise.width) :
    ∃ t, exec (.clkProgram p fp ft) s = .next t ∧
      (t.bus p).hist = (s.bus p).hist ++ clockEvs s.cfg.layout (s.regAt 0) (ccrWord s.cfg.layout w)
        (place s.cfg.layout.trise w.trise) ∧
      (t.bus p).regs.ccr = ccrWord s.cfg.layout w ∧ (t.bus p).regs.trise = place s.cfg.layout.trise w.trise ∧
      (t.bus p).regs.oar1 = 0x4000 ∧ (t.bus p).regs.cr1 = s.regAt 0 ∧
      OnlyPort p [] [.cr1, .ccr, .trise, .oar1] s t ∧ OutsideKept s t := by
  subst hw
  have hf : clockRefusal s.cfg.layout s.cfg.duty169 fp ft = none := by
    rw [clockRefusal, if_neg h0, if_neg (by omega), if_neg (by omega)]
  have hframe := (s.clockDone_frame s.cfg p fp ft).withPast []
  have hend := (Prog.Ends.clkProgram calm_alone ha hc hf).call (i := .clkProgram p fp ft) (f := (clkProgram · p fp ft)) ha.quiet
  refine ⟨_, (exec_clkProgram p fp ft s).trans hend, ?_, ?_, ?_, ?_, ?_,
    ⟨hframe.port, hframe.others, (s.clockDone_memory s.cfg p fp ft).withPast []⟩, hframe.outside⟩
  · simp
  all_goals simp [State.clockDone_bus]

/-- Settles O31: the words of R183 and of R184 are what the one run of CLK_PROGRAM writes. -/
theorem clockProgramWritesTheFormulas : Obligations.ClockProgramWritesTheFormulas := by
  intro s p fp ft ha hc h0
  refine ⟨fun hs h1 h2 => ?_, fun hf h1 h2 => ?_⟩
  · have h := exec_clkProgram_of_fits (w := clockStandard fp ft) ha hc h0 (if_pos hs) h1 h2
    simpa [ccrWord, clockStandard, Nat.mod_eq_of_lt h1] using h
  · have h := exec_clkProgram_of_fits (w := clockFast s.cfg.duty169 fp ft) ha hc h0 (if_neg (by omega)) h1 h2
    rwa [ccrWord, clockFast, Nat.mod_eq_of_lt h1] at h

/-- Settles O32: the three tests of R190 in their order; a refusal comes after PE was cleared. -/
theorem clockProgramRefuses : Obligations.ClockProgramRefuses := by
  intro s p fp ft ha hc
  have refused {r : Refusal} (h : clockRefusal s.cfg.layout s.cfg.duty169 fp ft = some r) :
      exec (.clkProgram p fp ft) s = .refused r :=
    (Prog.Fails.clkProgram calm_alone ha hc h).refused (f := (clkProgram · p fp ft)) ha.quiet
  refine ⟨fun h0 => refused ?_, fun h0 h1 => refused ?_, fun h0 h1 h2 => refused ?_⟩
  · rw [clockRefusal, if_pos h0]
  · rw [clockRefusal, if_neg h0, if_pos h1]
  · rw [clockRefusal, if_neg h0, if_neg (by omega), if_pos h2]

/-! ERR_CLASSIFY. -/

theorem exec_errClassify (x : Word32) (e : ErrVal) (s : State) : exec (.errClassify x e) s =
    .next ((s.withErrval (classify s.cfg x e)).withRet (returnValue s.cfg (classify s.cfg x e))) := rfl

/-- Settles O47: the order of the tests of R318 is that of `classify`; the kind and its return value are all that changes. -/
theorem errClassifyFirstMatch : Obligations.ErrClassifyFirstMatch := by
  intro s x e
  refine ⟨_, exec_errClassify x e s, ?_, ?_, ?_, rfl, fun q => by simp, rfl, rfl, by constructor <;> rfl⟩
  · intro h
    simp [classify, h]
  · intro h₁
    refine ⟨fun h => ?_, fun h₂ => ⟨fun h => ?_, fun h₃ => ⟨fun h => ?_, fun h₄ => ⟨fun h => ?_, fun h₅ =>
      ⟨fun h => ?_, fun h₆ => ⟨fun h => ?_, fun h => ?_⟩⟩⟩⟩⟩⟩
    case refine_2 =>
      simp only [State.withRet_errval, State.withErrval_errval, classify, h₁, h₂, h, if_true, Bool.false_eq_true, if_false]
      rfl
    all_goals simp [classify, *]
  · intro h
    simp only [State.withRet_errval, State.withErrval_errval] at h
    simp [returnValue, h, Errno.magnitude]

end Sys2Proof.Machine
end

section
/-! What an engine entry can do, however it ends (45_engine_termination R280, 60_exceptions R403, R406): the frame of an entry
that a fault or a refusal cuts short too, and of the moves of entries at a point between two actions. -/

namespace Sys2Proof.Machine

/-- An event that no engine entry appends: a pin driven or read, or a delay (47_lifecycle_trace_ops R343). -/
def Event.isPin : Event → Bool
  | .pin _ _ | .pinRead _ _ | .delay _ => true
  | .rd _ _ | .wr _ _ | .mrd _ _ | .mwr _ _ | .ev _ _ => false

/-- A history grown by events that are no pin's. -/
def GrownByEngine (b b' : BusState) : Prop := ∃ es, b'.hist = b.hist ++ es ∧ ∀ e ∈ es, e.isPin = false

/-- What an engine does to its own port's Bus State. -/
structure EngineWrote (c : Config) (b b' : BusState) : Prop where
  engine : EngineKeeps b b'
  hist : GrownByEngine b b'
  ring : TraceShape c b.trace → TraceShape c b'.trace

/-- What the engine of a port does to the machine, however far it gets. -/
structure EngineMoved (p : Port) (s t : State) : Prop where
  others : OtherPortsKept p s t
  own : EngineWrote s.cfg (s.bus p) (t.bus p)
  outside : OutsideKept s t
  past : t.past = s.past
  draws : t.draws = { s.draws with regs := t.draws.regs, races := t.draws.races, times := t.draws.times }
  memory : s.mem.wf = true → t.mem.wf = true

/-- The same inside an entry, where its port is noted. -/
structure EngineStage (p : Port) (s t : State) : Prop extends EngineMoved p s t where
  entry : t.entry.port = s.entry.port

theorem GrownByEngine.refl (b : BusState) : GrownByEngine b b := ⟨[], by simp, nofun⟩

theorem GrownByEngine.trans {b b' b'' : BusState} (h : GrownByEngine b b') (k : GrownByEngine b' b'') :
    GrownByEngine b b'' := by
  obtain ⟨es, he, hp⟩ := h
  obtain ⟨es', he', hp'⟩ := k
  exact ⟨es ++ es', by rw [he', he, List.append_assoc], fun e hm => (List.mem_append.1 hm).elim (hp e) (hp' e)⟩

theorem EngineWrote.refl (c : Config) (b : BusState) : EngineWrote c b b := ⟨.rfl' b, .refl b, id⟩

theorem EngineWrote.trans {c : Config} {b b' b'' : BusState} (h : EngineWrote c b b') (k : EngineWrote c b' b'') :
    EngineWrote c b b'' := ⟨h.engine.trans k.engine, h.hist.trans k.hist, k.ring ∘ h.ring⟩

theorem OutsideKept.refl (s : State) : OutsideKept s s := by constructor <;> rfl

theorem EngineMoved.refl (p : Port) (s : State) : EngineMoved p s s :=
  ⟨fun _ _ => rfl, .refl _ _, .refl s, rfl, rfl, id⟩

theorem EngineMoved.trans {p : Port} {s t u : State} (h : EngineMoved p s t) (k : EngineMoved p t u) :
    EngineMoved p s u where
  others := fun q hq => (k.others q hq).trans (h.others q hq)
  own := h.own.trans (h.outside.cfg ▸ k.own)
  outside := h.outside.trans k.outside
  past := k.past.trans h.past
  draws := by rw [k.draws, h.draws]
  memory := k.memory ∘ h.memory

theorem EngineStage.refl (p : Port) (s : State) : EngineStage p s s := ⟨.refl p s, rfl⟩

theorem EngineStage.trans {p : Port} {s t u : State} (h : EngineStage p s t) (k : EngineStage p t u) :
    EngineStage p s u := ⟨h.toEngineMoved.trans k.toEngineMoved, k.entry.trans h.entry⟩

theorem EngineStage.chain (p : Port) : Chain (EngineStage p) := ⟨.refl p, .trans⟩

/-- A change of the engine's own Bus State. -/
theorem EngineStage.setBus {p : Port} {s : State} {b : BusState} (h : EngineWrote s.cfg (s.bus p) b) :
    EngineStage p s (s.setBus p b) where
  others := fun q hq => by simp [hq]
  own := by simpa using h
  outside := by constructor <;> simp
  past := by simp
  draws := by simp
  memory := by simp
  entry := by simp

/-- A change that leaves the history and the recorder as they are. -/
theorem EngineWrote.fields {c : Config} {b b' : BusState} (engine : EngineKeeps b b') (hist : b'.hist = b.hist)
    (trace : b'.trace = b.trace) : EngineWrote c b b' :=
  ⟨engine, ⟨[], by simp [hist], nofun⟩, by rw [trace]; exact id⟩

theorem EngineWrote.record {c : Config} {b : BusState} {e : Event} (he : e.isPin = false) :
    EngineWrote c b (b.record e) :=
  ⟨by constructor <;> rfl, ⟨[e], rfl, by simpa using he⟩, id⟩

theorem EngineWrote.put (c : Config) (b : BusState) (r : Reg) (v : Half) : EngineWrote c b (b.put r v) :=
  ⟨by constructor <;> rfl, ⟨[.wr r v], rfl, by simp [Event.isPin]⟩, id⟩

theorem EngineWrote.emitted (c : Config) (b : BusState) (ev : EvName) (x : Int) : EngineWrote c b (b.emitted ev x) :=
  ⟨by constructor <;> rfl, ⟨[.ev ev x], rfl, by simp [Event.isPin]⟩, fun h => by
    simpa [TraceShape, Trace.annotate, Trace.setCurrent] using h⟩

/-- The recorder keeps the shape of its ring (10_state R52). -/
theorem EngineWrote.traced {c : Config} {b : BusState} {t : Trace} (h : TraceShape c b.trace → TraceShape c t) :
    EngineWrote c b { b with trace := t } := ⟨by constructor <;> rfl, .refl b, h⟩

namespace EngineStage

variable {α β : Type} {p : Port}

theorem pure (a : α) : Keeps (EngineStage p) (pure a : M α) := Keeps.pure (chain p) a

theorem bind {m : M α} {f : α → M β} (hm : Keeps (EngineStage p) m) (hf : ∀ a, Keeps (EngineStage p) (f a)) :
    Keeps (EngineStage p) (m >>= f) := Keeps.bind (chain p) hm hf

theorem look (f : State → α) : Keeps (EngineStage p) (look f) := Keeps.look (chain p) f

theorem lookBus (q : Port) (f : BusState → α) : Keeps (EngineStage p) (lookBus q f) := Keeps.lookBus (chain p) q f

theorem ensure (c : Bool) (f : Fault) : Keeps (EngineStage p) (ensure c f) := Keeps.ensure (chain p) c f

theorem require (c : Bool) (r : Refusal) : Keeps (EngineStage p) (require c r) := Keeps.require (chain p) c r

theorem updBus {f : BusState → BusState} (hf : ∀ c b, EngineWrote c b (f b)) :
    Keeps (EngineStage p) (updBus p f) := Keeps.updBus fun _ => .setBus (hf _ _)

/-- An update of fields no frame names. -/
theorem fields {f : BusState → BusState}
    (h : ∀ b, EngineKeeps b (f b) ∧ (f b).hist = b.hist ∧ (f b).trace = b.trace := by
      exact fun _ => ⟨by constructor <;> rfl, rfl, rfl⟩) :
    Keeps (EngineStage p) (Machine.updBus p f) := updBus fun _ b => .fields (h b).1 (h b).2.1 (h b).2.2

theorem drawReg : Keeps (EngineStage p) drawReg where
  ok := fun e => by
    cases e
    exact ⟨⟨fun _ _ => by simp, by simpa using .refl _ _, by constructor <;> rfl, rfl, rfl, id⟩, rfl⟩
  error := nofun

theorem drawTime : Keeps (EngineStage p) drawTime where
  ok := fun e => by
    cases e
    exact ⟨⟨fun _ _ => by simp, by simpa using .refl _ _, by constructor <;> rfl, rfl, rfl, id⟩, rfl⟩
  error := nofun

theorem loadByte (a : Nat) : Keeps (EngineStage p) (loadByte a) where
  ok := fun e => by
    cases e
    exact ⟨⟨fun _ _ => by simp, by simpa using .refl _ _, by constructor <;> rfl, rfl, rfl, id⟩, rfl⟩
  error := nofun

theorem stored (a : Nat) (v : Byte) : Keeps (EngineStage p) (upd (·.stored (some p) a v)) :=
  Keeps.upd fun s => ⟨⟨fun _ _ => by simp, by simpa using .refl _ _, by constructor <;> simp, by simp, by simp,
    fun h => by simpa using Memory.write_wf a v h⟩, by simp⟩

/-- The entry's word may change, its port may not. -/
theorem withEntry {f : State → Entry} (h : ∀ s, (f s).port = s.entry.port) :
    Keeps (EngineStage p) (upd fun s => s.withEntry (f s)) :=
  Keeps.upd fun s => ⟨⟨fun _ _ => by simp, by simpa using .refl _ _, by constructor <;> rfl, rfl, rfl, id⟩, h s⟩

theorem regGet (r : Reg) : Keeps (EngineStage p) (regGet p r) :=
  bind (ensure _ _) fun _ => bind (lookBus _ _) fun _ => bind (ensure _ _) fun _ => bind drawReg fun _ =>
    bind (updBus fun _ _ => .record rfl) fun _ => pure _

theorem regPut (r : Reg) (v : Half) : Keeps (EngineStage p) (regPut p r v) :=
  bind (ensure _ _) fun _ => bind (ensure _ _) fun _ => bind (lookBus _ _) fun _ => bind (ensure _ _) fun _ =>
    updBus fun _ _ => .put _ _ _ _

theorem regModify (r : Reg) (clr set : Half) : Keeps (EngineStage p) (regModify p r clr set) :=
  bind (ensure _ _) fun _ => bind (ensure _ _) fun _ => bind (regGet _) fun _ => regPut _ _

theorem setCr1 (i : BitLayout → Fin 16) : Keeps (EngineStage p) (setCr1 p i) := bind (look _) fun _ => regModify _ _ _

theorem clrCr1 (i : BitLayout → Fin 16) : Keeps (EngineStage p) (clrCr1 p i) := bind (look _) fun _ => regModify _ _ _

theorem setItbufen : Keeps (EngineStage p) (setItbufen p) := bind (look _) fun _ => regModify _ _ _

theorem disableAll : Keeps (EngineStage p) (disableAll p) := bind (look _) fun _ => regModify _ _ _

theorem whenTracing {m : M Unit} (hm : Keeps (EngineStage p) m) : Keeps (EngineStage p) (whenTracing m) :=
  bind (look _) fun _ => Keeps.onlyIf (chain p) _ hm

theorem emit (ev : EvName) (x : Int) : Keeps (EngineStage p) (emit p ev x) :=
  whenTracing (updBus fun _ _ => .emitted _ _ _ _)

theorem readSr2 : Keeps (EngineStage p) (readSr2 p) := bind (regGet _) fun _ => withEntry fun _ => rfl

theorem nextMessage : Keeps (EngineStage p) (nextMessage p) := by
  refine bind (lookBus _ _) fun o => ?_
  cases o
  · exact Keeps.raise (chain p) _
  · exact pure _

theorem bufferAccess : Keeps (EngineStage p) (bufferAccess p) :=
  bind (lookBus _ _) fun _ => bind (ensure _ _) fun _ => bind (lookBus _ _) fun _ => bind (look _) fun _ =>
    bind (ensure _ _) fun _ => pure _

theorem readByte : Keeps (EngineStage p) (readByte p) :=
  bind (regGet _) fun _ => bind bufferAccess fun _ => bind (stored _ _) fun _ =>
    bind (updBus fun _ _ => .record rfl) fun _ => fields

theorem writeByte : Keeps (EngineStage p) (writeByte p) :=
  bind bufferAccess fun _ => bind (loadByte _) fun _ => bind (updBus fun _ _ => .record rfl) fun _ =>
    bind (regPut _ _) fun _ => fields

/-- A time-stamped sample keeps the ring's shape: its index rises only below the capacity (R344, R347). -/
theorem traceSample (w : Word32) : Keeps (EngineStage p) (traceSample p w) where
  ok := fun {s t _} h => by
    obtain ⟨d, tr, log, hd, ht, hs⟩ : ∃ d tr log, d = { s.draws with times := d.times } ∧
        (TraceShape s.cfg (s.bus p).trace → TraceShape s.cfg tr) ∧ t = s.recorded p d tr log := by
      have run {d : Draws} {tr : Trace} {log : List LogItem} (hd : d = { s.draws with times := d.times })
          (hr : Machine.traceSample p w s = .ok () (s.recorded p d tr log))
          (ht : TraceShape s.cfg (s.bus p).trace → TraceShape s.cfg tr) : ∃ d tr log,
          d = { s.draws with times := d.times } ∧ (TraceShape s.cfg (s.bus p).trace → TraceShape s.cfg tr) ∧
            t = s.recorded p d tr log := by
        rw [hr] at h
        cases h
        exact ⟨d, tr, log, hd, ht, rfl⟩
      cases hon : s.cfg.traceOn with
      | false =>
        refine run (d := s.draws) (tr := (s.bus p).trace) (log := (s.bus p).log) rfl ?_ id
        have hs : s.recorded p s.draws (s.bus p).trace (s.bus p).log = s :=
          (State.recorded_draws s p _ _).trans (State.setBus_bus s p)
        rw [hs]
        exact whenTracing_off _ hon
      | true =>
        have hrun := whenTracing_run (sample p w) hon
        by_cases h₀ : (s.bus p).trace.current.count = 0
        · exact run (d := s.nowDrawn) rfl (hrun.trans (sample_fresh rfl h₀)) fun k => by
            simpa [TraceShape, Trace.setCurrent] using k
        · by_cases hw : w = (s.bus p).trace.current.status
          · exact run rfl (hrun.trans (sample_repeated rfl h₀ hw)) fun k => by
              simpa [TraceShape, Trace.bump, Trace.setCurrent] using k
          · by_cases hl : s.cfg.traceCap ≤ (s.bus p).trace.cur + 1
            · exact run rfl (hrun.trans (sample_overflow rfl h₀ hw hl)) id
            · exact run (d := s.nowDrawn) rfl (hrun.trans (sample_next rfl h₀ hw hl)) fun k =>
                ⟨by simpa [Trace.setCurrent] using k.1, .inl (by simpa [Trace.setCurrent] using Nat.lt_of_not_le hl)⟩
    subst hs
    obtain ⟨-, hother, hmem, hout⟩ := State.recorded_frame s p d tr log
    refine ⟨⟨hother, ?_, hout, by simp [State.recorded], ?_, by simp [State.recorded]⟩, by simp [State.recorded]⟩
    · rw [State.recorded_bus]
      exact ⟨by constructor <;> rfl, .refl _, ht⟩
    · simpa [State.recorded] using by rw [hd]
  error := fun {s t e} h => by
    rw [(traceSample_run p w s).1] at h
    cases h

/-- A stage of an entry of the port. -/
def AtStage (p : Port) (s t : State) : Prop := s.entry.port = p → EngineStage p s t

theorem AtStage.chain (p : Port) : Chain (AtStage p) :=
  ⟨fun s _ => .refl p s, fun h k hs => (h hs).trans (k ((h hs).entry.trans hs))⟩

/-- A piece that looks up the entry's port acts on that port. -/
theorem ofEntryPort {f : Port → M β} (hf : Keeps (EngineStage p) (f p)) : Keeps (AtStage p) (entryPort >>= f) := by
  have hrun (s : State) (hs : s.entry.port = p) : (entryPort >>= f) s = f p s := by
    rw [entryPort, run_bind_ok (run_look _ _), hs]
  exact ⟨fun h hs => hf.ok ((hrun _ hs).symm.trans h), fun h hs => hf.error ((hrun _ hs).symm.trans h)⟩

theorem ackPosPolicy (n : Nat) (read : Bool) : Keeps (EngineStage p) (ackPosPolicy p n read) :=
  Keeps.ite (bind (clrCr1 _) fun _ => clrCr1 _)
    (Keeps.ite (bind (setCr1 _) fun _ => setCr1 _) (bind (clrCr1 _) fun _ => setCr1 _))

theorem writePreamble : Keeps (EngineStage p) (writePreamble p) :=
  bind (look _) fun _ => bind (look _) fun _ => Keeps.ite (bind readSr2 fun _ => fields) (pure _)

theorem finalPair : Keeps (EngineStage p) (finalPair p) :=
  bind (setCr1 _) fun _ => bind readByte fun _ => bind readByte fun _ => fields

theorem capture : Keeps (EngineStage p) (capture p) := bind (look _) fun _ => fields

/-- Every sub-case of an entry of the port. -/
theorem runSubcase (c : Subcase) : Keeps (AtStage p) (runSubcase c) := by
  cases c
  · exact ofEntryPort (bind nextMessage fun _ => bind (look _) fun _ => bind (require _ _) fun _ =>
      bind fields fun _ => emit _ _)
  · exact ofEntryPort (bind (lookBus _ _) fun _ => bind (ackPosPolicy _ _) fun _ => bind (regPut _ _) fun _ =>
      bind fields fun _ => emit _ _)
  · exact ofEntryPort (bind fields fun _ => bind setItbufen fun _ => emit _ _)
  · exact ofEntryPort (bind fields fun _ => bind (setCr1 _) fun _ => emit _ _)
  · exact ofEntryPort (bind setItbufen fun _ => bind readSr2 fun _ => bind (setCr1 _) fun _ => bind fields fun _ => emit _ _)
  · exact ofEntryPort (bind (clrCr1 _) fun _ => bind readSr2 fun _ => bind fields fun _ => emit _ _)
  · exact ofEntryPort (bind readSr2 fun _ => bind fields fun _ => bind (lookBus _ _) fun _ => emit _ _)
  · exact ofEntryPort (bind writePreamble fun _ => bind writeByte fun _ => bind fields fun _ =>
      bind (lookBus _ _) fun _ => emit _ _)
  · exact ofEntryPort (bind writePreamble fun _ => bind (setCr1 _) fun _ => bind fields fun _ => emit _ _)
  · exact ofEntryPort (bind writePreamble fun _ => bind (setCr1 _) fun _ => bind fields fun _ => emit _ _)
  · exact ofEntryPort (bind writePreamble fun _ => bind fields fun _ => emit _ _)
  · exact ofEntryPort (bind writePreamble fun _ => bind nextMessage fun _ => emit _ _)
  · exact ofEntryPort (bind writePreamble fun _ => emit _ _)
  · exact ofEntryPort (bind readByte fun _ => bind fields fun _ => bind (emit _ _) fun _ => readSr2)
  · exact ofEntryPort (bind (emit _ _) fun _ => readSr2)
  · exact ofEntryPort (bind finalPair fun _ => bind (emit _ _) fun _ => readSr2)
  · exact ofEntryPort (bind (lookBus _ _) fun _ => bind (emit _ _) fun _ => readSr2)
  · exact ofEntryPort (bind readByte fun _ => bind fields fun _ => bind (lookBus _ _) fun _ => bind (emit _ _) fun _ =>
      readSr2)
  · exact ofEntryPort (bind (clrCr1 _) fun _ => bind readByte fun _ => bind fields fun _ => bind (emit _ _) fun _ => readSr2)
  · exact ofEntryPort (bind finalPair fun _ => bind (emit _ _) fun _ => readSr2)
  · exact ofEntryPort (bind (lookBus _ _) fun _ => bind (emit _ _) fun _ => bind fields fun _ => readSr2)
  · exact ofEntryPort (emit _ _)
  · exact ofEntryPort (emit _ _)
  · exact ofEntryPort (bind (look _) fun _ => bind (emit _ _) fun _ => fields)
  · exact ofEntryPort (bind capture fun _ => bind fields fun _ => emit _ _)
  · refine ofEntryPort (bind capture fun _ => bind disableAll fun _ => bind (fields fun b => ?_) fun _ => emit _ _)
    unfold BusState.signalled
    split <;> exact ⟨by constructor <;> rfl, rfl, rfl⟩

theorem at_ {m : M α} (h : Keeps (EngineStage p) m) : Keeps (AtStage p) m :=
  ⟨fun e _ => h.ok e, fun e _ => h.error e⟩

theorem currentSelector (sr1 : Half) : Keeps (EngineStage p) (currentSelector p sr1) := by
  refine bind (look _) fun c => bind (lookBus _ _) fun o => ?_
  cases o
  · exact Keeps.raise (chain p) _
  · exact bind (ensure _ _) fun _ => pure _

theorem branchOf (w : Selector) : Keeps (EngineStage p) (branchOf w) := by
  unfold Machine.branchOf
  split
  · exact pure _
  · exact Keeps.raise (chain p) _

theorem prelude (sr1 : Half) : Keeps (AtStage p) (prelude p sr1) :=
  Keeps.bind (AtStage.chain p) (at_ (currentSelector _)) fun _ =>
    Keeps.onlyIf (AtStage.chain p) _ (runSubcase .advance)

theorem terminal (sr1 : Half) : Keeps (AtStage p) (terminal p sr1) := by
  refine Keeps.bind (AtStage.chain p) (at_ (currentSelector _)) fun w => ?_
  split
  · exact runSubcase _
  · exact at_ (pure _)

theorem stages (sr1 : Half) : Keeps (AtStage p) (engineStages p sr1) := by
  have hc := AtStage.chain p
  refine Keeps.bind hc (prelude _) fun _ => Keeps.bind hc (at_ (currentSelector _)) fun _ =>
    Keeps.bind hc (at_ (branchOf _)) fun _ => Keeps.bind hc (runSubcase _) fun _ =>
    Keeps.bind hc (Keeps.onlyIf hc _ (terminal _)) fun _ => Keeps.upd fun s hs => ?_
  exact ⟨⟨fun _ _ => by simp, by simpa using .refl _ _, by constructor <;> rfl, rfl, rfl, id⟩, hs.symm⟩

end EngineStage

/-- A whole entry, however it ends. -/
theorem EngineMoved.engineEntry (p : Port) : Keeps (EngineMoved p) (engineEntry p) := by
  have hc : Chain (EngineMoved p) := ⟨.refl p, .trans⟩
  have drop {α : Type} {m : M α} (h : Keeps (EngineStage p) m) : Keeps (EngineMoved p) m :=
    ⟨fun e => (h.ok e).toEngineMoved, fun e => (h.error e).toEngineMoved⟩
  have noted (s : State) (x : Entry) : EngineMoved p s (s.withEntry x) :=
    ⟨fun _ _ => by simp, by simpa using .refl _ _, by constructor <;> rfl, rfl, rfl, id⟩
  refine Keeps.bind hc (drop (EngineStage.regGet _)) fun sr1 => ?_
  have rest : Keeps (EngineStage.AtStage p) (traceSample p (zext32 sr1) >>= fun _ => engineStages p sr1) :=
    Keeps.bind (EngineStage.AtStage.chain p) (EngineStage.at_ (EngineStage.traceSample _)) fun _ => EngineStage.stages _
  constructor
  · intro s t u h
    obtain ⟨_, v, h₁, h₂⟩ := bind_ok_inv h
    cases h₁
    exact (noted s _).trans (rest.ok h₂ rfl).toEngineMoved
  · intro s t e h
    obtain h₁ | ⟨_, v, h₁, h₂⟩ := bind_error_inv h
    · cases h₁
    · cases h₁
      exact (noted s _).trans (rest.error h₂ rfl).toEngineMoved

end Sys2Proof.Machine
end

section
/-! Engine entries between the actions of a call with no other call beside it (60_exceptions R406): what one of them, and what
a point between two actions, can leave. -/

namespace Sys2Proof.Machine

variable {α : Type}

/-! One entry that starts. -/

/-- How an entry beside an instruction ends: it ran, or it stopped and its port is marked. -/
theorem besideEntry_inv {own : Option Port} {p : Port} {s t : State} {u : Unit}
    (h : beside own (some p) (engineEntry p) s = .ok u t) :
    engineEntry p s = .ok () t ∨ ∃ e v, engineEntry p s = .error e v ∧ t = v.stopped e (some p) ∧
      ∀ f, e = .fault f → own ≠ some p := by
  unfold beside at h
  split at h
  · cases h
    exact .inl ‹_›
  · split at h
    · cases h
    · rename_i f v hm hq
      cases h
      refine .inr ⟨_, v, hm, rfl, fun g hg => ?_⟩
      rintro rfl
      simp at hq
  · rename_i e v hf hm
    cases h
    exact .inr ⟨e, v, hm, rfl, fun f he => absurd he (hf f)⟩

/-- What entries leave of a port's Bus State: the marks may have been set, and the history grew by engine events. -/
structure PortMoved (c : Config) (b b' : BusState) : Prop where
  refs : b'.refs = b.refs
  lock : b'.lock = b.lock
  msgs : b'.msgs = b.msgs
  count : b'.count = b.count
  plat : b'.plat = b.plat
  deadline : b'.deadline = b.deadline
  owning : b'.owning = b.owning
  faulted : b.faulted = true → b'.faulted = true
  refused : b.refused = true → b'.refused = true
  hist : GrownByEngine b b'
  ring : TraceShape c b.trace → TraceShape c b'.trace

theorem PortMoved.refl (c : Config) (b : BusState) : PortMoved c b b :=
  ⟨rfl, rfl, rfl, rfl, rfl, rfl, rfl, id, id, .refl b, id⟩

theorem PortMoved.trans {c : Config} {b b' b'' : BusState} (h : PortMoved c b b') (k : PortMoved c b' b'') :
    PortMoved c b b'' where
  refs := k.refs.trans h.refs
  lock := k.lock.trans h.lock
  msgs := k.msgs.trans h.msgs
  count := k.count.trans h.count
  plat := k.plat.trans h.plat
  deadline := k.deadline.trans h.deadline
  owning := k.owning.trans h.owning
  faulted := k.faulted ∘ h.faulted
  refused := k.refused ∘ h.refused
  hist := h.hist.trans k.hist
  ring := k.ring ∘ h.ring

theorem EngineWrote.portMoved {c : Config} {b b' : BusState} (h : EngineWrote c b b') : PortMoved c b b' where
  refs := h.engine.refs
  lock := h.engine.lock
  msgs := h.engine.msgs
  count := h.engine.count
  plat := h.engine.plat
  deadline := h.engine.deadline
  owning := h.engine.owning
  faulted := by rw [h.engine.faulted]; exact id
  refused := by rw [h.engine.refused]; exact id
  hist := h.hist
  ring := h.ring

theorem PortMoved.stopped (c : Config) (b : BusState) (e : Stop) : PortMoved c b (b.stopped e) := by
  cases e with
  | fault f => exact ⟨rfl, rfl, rfl, rfl, rfl, rfl, rfl, fun _ => rfl, id, .refl b, id⟩
  | refusal r => exact ⟨rfl, rfl, rfl, rfl, rfl, rfl, rfl, id, fun _ => rfl, .refl b, id⟩
  | lockWait => exact .refl c b

/-- What entries leave of the machine. -/
structure EntriesMoved (s t : State) : Prop where
  ports : ∀ q, PortMoved s.cfg (s.bus q) (t.bus q)
  intsOff : s.intsOff = false → t.intsOff = false
  outside : OutsideKept s (t.withIntsOff s.intsOff)
  past : t.past = s.past
  draws : t.draws =
    { s.draws with regs := t.draws.regs, races := t.draws.races, times := t.draws.times, turns := t.draws.turns }
  memory : s.mem.wf = true → t.mem.wf = true

theorem EntriesMoved.cfg {s t : State} (h : EntriesMoved s t) : t.cfg = s.cfg := h.outside.cfg

theorem EntriesMoved.instances {s t : State} (h : EntriesMoved s t) : t.instances = s.instances := h.outside.instances

theorem EntriesMoved.solo {s t : State} (h : EntriesMoved s t) (hs : Solo s) : Solo t :=
  ⟨h.outside.threads.trans hs.threads, h.outside.requests.trans hs.requests, h.outside.stores.trans hs.stores⟩

theorem EntriesMoved.refl (s : State) : EntriesMoved s s :=
  ⟨fun _ => .refl _ _, id, .refl s, rfl, rfl, id⟩

theorem EntriesMoved.trans {s t u : State} (h : EntriesMoved s t) (k : EntriesMoved t u) : EntriesMoved s u where
  ports := fun q => (h.ports q).trans (h.cfg ▸ k.ports q)
  intsOff := k.intsOff ∘ h.intsOff
  outside := { h.outside.trans (u := u.withIntsOff s.intsOff) { k.outside with intsOff := rfl } with }
  past := k.past.trans h.past
  draws := by rw [k.draws, h.draws]
  memory := k.memory ∘ h.memory

theorem EngineMoved.entriesMoved {p : Port} {s t : State} (h : EngineMoved p s t) : EntriesMoved s t where
  ports := fun q => by
    by_cases hq : q = p
    · subst hq
      exact h.own.portMoved
    · rw [h.others q hq]
      exact .refl _ _
  intsOff := fun hi => h.outside.intsOff.trans hi
  outside := { h.outside with intsOff := rfl }
  past := h.past
  draws := by rw [h.draws]
  memory := h.memory

theorem EntriesMoved.stopped (s : State) (e : Stop) (p : Port) : EntriesMoved s (s.stopped e (some p)) where
  ports := fun q => by
    by_cases hq : q = p
    · subst hq
      simpa [State.stopped] using .stopped _ _ e
    · simpa [State.stopped, hq] using .refl _ _
  intsOff := fun _ => rfl
  outside := by constructor <;> simp [State.stopped]
  past := by simp [State.stopped]
  draws := by simp [State.stopped]
  memory := by simp [State.stopped]

theorem EntriesMoved.drawTurns (s : State) :
    EntriesMoved s (s.withDraws { s.draws with turns := s.draws.turns.advance }) where
  ports := fun q => by simpa using .refl _ _
  intsOff := id
  outside := by constructor <;> rfl
  past := rfl
  draws := rfl
  memory := id

theorem EntriesMoved.besideEntry {own : Option Port} {p : Port} {s t : State} {u : Unit}
    (h : beside own (some p) (engineEntry p) s = .ok u t) : EntriesMoved s t := by
  obtain h | ⟨e, v, he, rfl, -⟩ := besideEntry_inv h
  · exact ((EngineMoved.engineEntry p).ok h).entriesMoved
  · exact ((EngineMoved.engineEntry p).error he).entriesMoved.trans (.stopped v e p)

/-! A point between two actions. -/

/-- With no other call beside it, an agent's move is an entry that may start, or nothing. -/
theorem runAgent_solo_inv {own : Option Port} {a : Agent} {s t : State} {u : Unit} (hs : Solo s)
    (h : runAgent own a s = .ok u t) :
    t = s ∨ ∃ p, canEnter s p = true ∧ beside own (some p) (engineEntry p) s = .ok () t := by
  cases a with
  | entry p =>
    simp only [runAgent, run_bind, run_look, run_onlyIf] at h
    split at h
    · exact .inr ⟨p, ‹_›, h⟩
    · cases h
      exact .inl rfl
  | thread k =>
    have e0 : runAgent own (.thread k) s = .ok () s := by simp [runAgent, moveThread, run_bind, hs.threads]
    rw [e0] at h
    cases h
    exact .inl rfl
  | caller =>
    have e0 : runAgent own .caller s = .ok () s := by simp [runAgent, beginCall, run_bind, State.nextCall, hs.requests]
    rw [e0] at h
    cases h
    exact .inl rfl
  | store =>
    have e0 : runAgent own .store s = .ok () s := by simp [runAgent, outsideStore, run_bind, hs.stores]
    rw [e0] at h
    cases h
    exact .inl rfl

/-- A property that an entry which may start keeps, however it ends, and that a draw of turns keeps. -/
structure EntryStable (own : Option Port) (P : State → Prop) : Prop where
  draw : ∀ {s}, P s → P (s.withDraws { s.draws with turns := s.draws.turns.advance })
  entry : ∀ {s t p}, Solo s → P s → canEnter s p = true → beside own (some p) (engineEntry p) s = .ok () t → P t

theorem EntryStable.runAgents {own : Option Port} {P : State → Prop} (hP : EntryStable own P) {as : List Agent}
    {s t : State} {u : Unit} (hs : Solo s) (h₀ : P s) (h : runAgents own as s = .ok u t) : P t ∧ EntriesMoved s t := by
  induction as generalizing s with
  | nil =>
    cases h
    exact ⟨h₀, .refl _⟩
  | cons a as ih =>
    obtain ⟨_, v, h₁, h₂⟩ := bind_ok_inv h
    obtain ⟨hv, hmv⟩ : P v ∧ EntriesMoved s v := by
      obtain hv | ⟨p, hp, hb⟩ := runAgent_solo_inv hs h₁
      · rw [hv]
        exact ⟨h₀, .refl _⟩
      · exact ⟨hP.entry hs h₀ hp hb, .besideEntry hb⟩
    obtain ⟨ht, hmt⟩ := ih (hmv.solo hs) hv h₂
    exact ⟨ht, hmv.trans hmt⟩

theorem EntryStable.window {own : Option Port} {P : State → Prop} (hP : EntryStable own P) {s t : State} {u : Unit}
    (hs : Solo s) (h₀ : P s) (h : window own s = .ok u t) : P t ∧ EntriesMoved s t ∧ t.intsOff = s.intsOff := by
  cases hi : s.intsOff with
  | true =>
    rw [window_quiet own (by simp [othersCanMove, hi])] at h
    cases h
    exact ⟨h₀, .refl _, hi⟩
  | false =>
    simp only [Machine.window, run_bind, run_look] at h
    split at h
    · simp only [run_bind, run_drawTurns] at h
      have hs' : Solo (s.withDraws { s.draws with turns := s.draws.turns.advance }) :=
        ⟨hs.threads, hs.requests, hs.stores⟩
      obtain ⟨ht, hm⟩ := hP.runAgents hs' (hP.draw h₀) h
      have := (EntriesMoved.drawTurns s).trans hm
      exact ⟨ht, this, this.intsOff hi⟩
    · cases h
      exact ⟨h₀, .refl _, hi⟩

theorem entryStable_true (own : Option Port) : EntryStable own fun _ => True := by
  constructor <;> intros <;> trivial

theorem window_moved {own : Option Port} {s t : State} {u : Unit} (hs : Solo s) (h : window own s = .ok u t) :
    EntriesMoved s t ∧ t.intsOff = s.intsOff := ((entryStable_true own).window hs trivial h).2

end Sys2Proof.Machine
end

section
/-! The calls of an instance and their lock (46_dispatcher R300, R301, 47_lifecycle_trace_ops R349 to R352, 60_exceptions
R404): the program of each call that acquires a lock, and what it does up to there. -/

namespace Sys2Proof.Machine

/-! The programs. -/

/-- The program of the transfer an instruction starts: the instance found, then `process`. -/
structure IsTransfer (s : State) (i : Instr) (d : Nat) (msgs : List Message) (f : Config → Prog Unit)
    (g : Inst → Prog Unit) : Prop where
  exec : exec i s = call i f s
  program : f s.cfg = (theInst d).andThen g
  process : ∀ x, s.inst d = some x → g x = process s.cfg d x msgs

theorem callOf_program {s : State} {i : Instr} {d : Nat} {msgs : List Message} (h : callOf s i = some (d, msgs)) :
    ∃ f g, IsTransfer s i d msgs f g := by
  cases i with
  | opProcess e ms =>
    cases h
    exact ⟨(opProcess · d msgs), _, rfl, rfl, fun _ _ => rfl⟩
  | opTransfer e ms =>
    simp only [callOf, Option.ite_none_right_eq_some, Option.some.injEq, Prod.mk.injEq] at h
    obtain ⟨hon, rfl, rfl⟩ := h
    exact ⟨(opTransfer · e ms), _, rfl, by rw [opTransfer, offered, if_pos hon]; rfl, fun _ _ => rfl⟩
  | opWrite e buf n =>
    simp only [callOf, Option.map_eq_some_iff, Prod.mk.injEq] at h
    obtain ⟨y, hy, rfl, rfl⟩ := h
    refine ⟨(opWrite · e buf n), _, rfl, rfl, fun x hx => ?_⟩
    rw [hx] at hy
    cases hy
    rfl
  | opRead e buf n =>
    simp only [callOf, Option.map_eq_some_iff, Prod.mk.injEq] at h
    obtain ⟨y, hy, rfl, rfl⟩ := h
    refine ⟨(opRead · e buf n), _, rfl, rfl, fun x hx => ?_⟩
    rw [hx] at hy
    cases hy
    rfl
  | _ => cases h

theorem process_of_ne_nil {c : Config} {d : Nat} {x : Inst} {msgs : List Message} (h : msgs ≠ []) :
    process c d x msgs =
      (acquire x.port d).andThen fun ok => if ok then runTransfer c d x msgs else returnInterrupted c := by
  rw [process, offered, if_pos (by simpa using h)]

/-- The program of a call that takes its lock: the instance found, one try at the lock, then the rest, or the return of an
interrupted wait. -/
structure IsLocking (s : State) (i : Instr) (d : Nat) (f : Config → Prog Unit) (g : Inst → Prog Unit)
    (k : Inst → Prog Unit) : Prop where
  exec : exec i s = call i f s
  program : f s.cfg = (theInst d).andThen g
  lock : ∀ x, s.inst d = some x →
    g x = (acquire x.port d).andThen fun ok => if ok then k x else returnInterrupted s.cfg

theorem IsTransfer.locking {s : State} {i : Instr} {d : Nat} {msgs : List Message} {f : Config → Prog Unit}
    {g : Inst → Prog Unit} (h : IsTransfer s i d msgs f g) (hne : msgs ≠ []) :
    IsLocking s i d f g fun x => runTransfer s.cfg d x msgs :=
  ⟨h.exec, h.program, fun x hx => (h.process x hx).trans (process_of_ne_nil hne)⟩

/-- 46_dispatcher R301: every call whose `acquire` a signal may end. -/
theorem interruptibleCall_program {s : State} {i : Instr} {d : Nat} (h : interruptibleCall s i = some d) :
    ∃ f g k, IsLocking s i d f g k := by
  have transfer (h : (match callOf s i with | some (e, _ :: _) => some e | _ => none) = some d) :
      ∃ f g k, IsLocking s i d f g k := by
    split at h
    · rename_i e m ms hc
      cases h
      obtain ⟨f, g, hp⟩ := callOf_program hc
      exact ⟨f, g, _, hp.locking (by simp)⟩
    · cases h
  cases i with
  | opSetaddress e a n =>
    cases h
    exact ⟨(setAddress · d a n), _, _, rfl, rfl, fun _ _ => rfl⟩
  | opReset e =>
    simp only [interruptibleCall, Option.ite_none_right_eq_some, Option.some.injEq] at h
    obtain ⟨hon, rfl⟩ := h
    exact ⟨(opReset · e), _, _, rfl, by rw [opReset, offered, if_pos hon], fun _ _ => rfl⟩
  | opWrite | opRead | opTransfer | opProcess => exact transfer h
  | _ => cases h

/-! The try at the lock, where nobody else moves. -/

theorem tryAcquire_run {s : State} {p : Port} (d : Nat) (hl : (s.bus p).lock = .free) :
    tryAcquire p d s = .ok true (s.changed p (·.locked d)) := by
  simp [tryAcquire, run_bind, hl, State.changed]

/-- The state after a look at a held lock drew a signal. -/
def State.signalDrawn (s : State) : State := s.withDraws { s.draws with signals := s.draws.signals.advance }

theorem tryAcquire_interrupted {s : State} {p : Port} {o : Nat} (d : Nat) (hl : (s.bus p).lock = .held o)
    (hs : s.noSignal = false) : tryAcquire p d s = .ok false s.signalDrawn := by
  simp only [State.noSignal, Bool.not_eq_false'] at hs
  simp [tryAcquire, run_bind, hl, hs, State.signalDrawn]

theorem tryAcquire_waits {s : State} {p : Port} {o : Nat} (d : Nat) (hl : (s.bus p).lock = .held o)
    (hs : s.noSignal = true) : tryAcquire p d s = .error .lockWait s.signalDrawn := by
  simp only [State.noSignal, Bool.not_eq_true'] at hs
  simp [tryAcquire, run_bind, hl, hs, State.signalDrawn]

theorem tryAcquireRestart_waits {s : State} {p : Port} {o : Nat} (d : Nat) (hl : (s.bus p).lock = .held o) :
    tryAcquireRestart p d s = .error .lockWait s := by
  simp [tryAcquireRestart, run_bind, hl]

namespace Prog

theorem Ends.acquire {s : State} {p : Port} {d : Nat} (hq : othersCanMove s = false) (hl : (s.bus p).lock = .free) :
    (Machine.acquire p d).Ends s true (s.changed p (·.locked d)) :=
  Ends.askFlag hq fun xs => by
    rw [tryAcquire_run d (by simpa using hl)]
    simp

/-- A signal ends the wait for a held lock. -/
theorem Ends.acquire_interrupted {s : State} {p : Port} {o : Nat} (d : Nat) (hq : othersCanMove s = false)
    (hl : (s.bus p).lock = .held o) (hs : s.noSignal = false) :
    (Machine.acquire p d).Ends s false s.signalDrawn :=
  Ends.askFlag hq fun _ => tryAcquire_interrupted d (by simpa using hl) hs

theorem Ends.returnInterrupted {s : State} (c : Config) (hq : othersCanMove s = false) :
    (Machine.returnInterrupted c).Ends s () (s.withRet (returnValue c .interrupted)) :=
  Ends.act hq fun _ => rfl

end Prog

/-! OP_SETADDRESS (R349). -/

/-- The state OP_SETADDRESS leaves. -/
def State.addressSet (s : State) (d addr nbits : Nat) : State :=
  (s.updatedInst d fun y => { y with address := addr, iflags := widthFlags nbits }).withRet 0

theorem setAddress_ends {s : State} {d : Nat} {x : Inst} (c : Config) (addr nbits : Nat) (ha : Alone s)
    (hx : LockTaken s d x) : (setAddress c d addr nbits).Ends s () (s.addressSet d addr nbits) := by
  have h₁ : Alone (s.changed x.port (·.locked d)) := calm_alone.changed ha rfl rfl rfl rfl
  have h₂ : Alone ((s.changed x.port (·.locked d)).updatedInst d fun y =>
      { y with address := addr, iflags := widthFlags nbits }) := calm_alone.instances _ h₁
  refine (Prog.Ends.theInst ha.quiet hx.inst).andThen ((Prog.Ends.acquire ha.quiet hx.lock).andThen ?_)
  refine (Prog.Ends.act h₁.quiet fun xs => ?_).andThen (Prog.Ends.act h₂.quiet fun xs => ?_)
  · rw [run_updInst, State.withPast_updatedInst]
  · simp [run_bind, answer, State.addressSet, State.changed, BusState.unlocked_locked d hx.lock]

/-- Settles O34: where the lock is free the call changes its handle's entry and the answer and nothing else; where a signal
ends the wait for a held lock it only answers. -/
theorem setAddressStoresIt : Obligations.SetAddressStoresIt := by
  refine ⟨fun s d addr nbits x ha hx => ?_, fun s d o addr nbits x ha hx hl hs => ?_⟩
  · have hend := (setAddress_ends s.cfg addr nbits ha hx).call (i := .opSetaddress d addr nbits)
      (f := (setAddress · d addr nbits)) ha.quiet
    refine ⟨_, hend, ?_, rfl, fun e he => ?_, fun q => ?_, rfl, rfl, by constructor <;> rfl⟩
    · by_cases hn : nbits = 10 <;> simp [State.addressSet, State.inst_updatedInst, hx.inst, widthFlags, hn, MsgFlags.empty]
    · exact State.inst_updatedInst_of_ne s _ he
    · simp [State.addressSet]
  · have h₁ : Alone s.signalDrawn := calm_alone.draws _ ha
    have hprog : (setAddress s.cfg d addr nbits).Ends s () (s.signalDrawn.withRet (returnValue s.cfg .interrupted)) :=
      (Prog.Ends.theInst ha.quiet hx).andThen <| (Prog.Ends.acquire_interrupted d ha.quiet hl hs).andThen <|
        Prog.Ends.returnInterrupted _ h₁.quiet
    refine ⟨_, hprog.call (i := .opSetaddress d addr nbits) (f := (setAddress · d addr nbits)) ha.quiet, rfl, rfl,
      fun q => ?_, rfl, rfl⟩
    simp [State.signalDrawn]

/-! A wait that goes on. -/

/-- A call that found its instance and whose next action is a wait that goes on becomes a thread that has found it. -/
theorem call_waits {i : Instr} {d : Nat} {f : Config → Prog Unit} {g : Inst → Prog Unit} {s u : State} {x : Inst}
    {m : M Ans} {k : Ans → Prog Unit} (ha : Alone s) (hx : s.inst d = some x)
    (hf : f s.cfg = (theInst d).andThen g) (hg : g x = .act m k)
    (hm : ∀ xs, m (s.withPast xs) = .error .lockWait (u.withPast xs)) :
    call i f s = .next ((u.withThreads (u.threads ++ [⟨i, some x.port, [.inst x]⟩])).withPast []) := by
  have hq : othersCanMove (s.withPast []) = false := by simpa using ha.quiet
  have hdrive : driveCall i (f s.cfg) (s.withPast []) = .error .lockWait (u.withPast [.inst x]) := by
    rw [driveCall_quiet hq, hf, drive_andThen, run_bind_ok (drive_theInst_quiet _ hq hx), hg,
      drive_act_quiet _ _ _ (by simpa using ha.quiet), State.withPast_withPast_self, hm]
    rfl
  exact (call_wait hdrive).trans rfl

/-- Settles O35: one look at a held lock makes the call a waiting thread, or with a signal returns; a free lock is taken. -/
theorem lockWaits : Obligations.LockWaits := by
  refine ⟨fun s i d o x ha hi hx hl => ?_, fun s i d o x ha hi hx hl hs => ?_, fun s p d hl => tryAcquire_run d hl⟩
  · have waits {u : State} (hu : ∀ q, u.bus q = s.bus q) (hm : MemoryKept s u) (hmem : u.mem = s.mem)
        (ho : OutsideKept s u) (h : exec i s =
          .next ((u.withThreads (u.threads ++ [⟨i, some x.port, [.inst x]⟩])).withPast [])) :
        ∃ t, exec i s = .next t ∧ t.threads = [⟨i, some x.port, [.inst x]⟩] ∧ (∀ q, t.bus q = s.bus q) ∧
          t.mem = s.mem ∧ t.races = s.races ∧ OutsideKept (s.withThreads t.threads) t :=
      ⟨_, h, by simp [ho.threads, ha.threads], fun q => by simp [hu q], hmem, hm.races,
        { ho with threads := rfl }⟩
    obtain ⟨hi, hs⟩ | ⟨f, rfl⟩ := hi
    · obtain ⟨f, g, k, hp⟩ := interruptibleCall_program hi
      refine waits (u := s.signalDrawn) (fun q => by simp [State.signalDrawn]) ⟨fun _ => rfl, rfl⟩ rfl
        (by constructor <;> rfl) (hp.exec.trans (call_waits ha hx hp.program (hp.lock x hx) fun xs => ?_))
      exact run_bind_error (tryAcquire_waits d (by simpa using hl) hs)
    · refine waits (u := s) (fun _ => rfl) ⟨fun _ => rfl, rfl⟩ rfl (.refl s)
        (call_waits (f := (setFrequency · d f)) ha hx rfl rfl fun xs => ?_)
      exact run_bind_error (tryAcquireRestart_waits d (by simpa using hl))
  · obtain ⟨f, g, k, hp⟩ := interruptibleCall_program hi
    have h₁ : Alone s.signalDrawn := calm_alone.draws _ ha
    have hprog : (f s.cfg).Ends s () (s.signalDrawn.withRet (returnValue s.cfg .interrupted)) := by
      rw [hp.program]
      refine (Prog.Ends.theInst ha.quiet hx).andThen ?_
      rw [hp.lock x hx]
      exact (Prog.Ends.acquire_interrupted d ha.quiet hl hs).andThen (Prog.Ends.returnInterrupted _ h₁.quiet)
    refine ⟨_, hp.exec.trans (hprog.call ha.quiet), rfl, fun q => ?_, rfl, rfl, by constructor <;> rfl⟩
    simp [State.signalDrawn]

/-! Refusals (60_exceptions R404). -/

/-- Settles O39: a call's option is tested first, then its handle, then its chain. -/
theorem callsRefused : Obligations.CallsRefused := by
  have option {s : State} {i : Instr} {f : Config → Prog Unit} {x : Prog Unit} (ha : Alone s)
      (hf : f s.cfg = offered false .optionOff x) : call i f s = .refused .optionOff := by
    refine Prog.Fails.refused ha.quiet ?_
    rw [hf]
    exact .refuse ha.quiet _
  refine ⟨fun s d ha hx => ?_, fun s d x ha hx => ?_, fun s d ha hoff => ?_, fun s d msgs ha hoff => ?_⟩
  · have unopened {i : Instr} {f : Config → Prog Unit} {g : Inst → Prog Unit} (hf : f s.cfg = (theInst d).andThen g) :
        call i f s = .refused .noInstance := by
      refine Prog.Fails.refused ha.quiet ?_
      rw [hf]
      exact (Prog.Fails.theInst ha.quiet hx).andThen
    exact ⟨fun f => unopened (f := (setFrequency · d f)) rfl, fun a n => unopened (f := (setAddress · d a n)) rfl,
      fun b n => ⟨unopened (f := (opWrite · d b n)) rfl, unopened (f := (opRead · d b n)) rfl⟩,
      fun msgs => unopened (f := (opProcess · d msgs)) rfl,
      fun hon => unopened (f := (opReset · d)) (by rw [opReset, offered, if_pos hon]),
      fun msgs hon => unopened (f := (opTransfer · d msgs)) (by rw [opTransfer, offered, if_pos hon]; rfl)⟩
  · exact Prog.Fails.refused (f := (opProcess · d [])) ha.quiet ((Prog.Ends.theInst ha.quiet hx).fails (.refuse ha.quiet _))
  · exact option (f := (opReset · d)) ha (by rw [opReset, hoff])
  · exact option (f := (opTransfer · d msgs)) ha (by rw [opTransfer, hoff])

/-! OP_WRITE, OP_READ and OP_TRANSFER (R350 to R352). -/

/-- With no other call beside it, a try at a free lock, or at one whose wait a signal ends, does not wait. -/
theorem tryAcquire_ne_wait {s t : State} {p : Port} {d : Nat} (h : (s.bus p).lock = .free ∨ s.noSignal = false) :
    tryAcquire p d s ≠ .error .lockWait t := by
  intro hw
  obtain hl | hs := h
  · rw [tryAcquire_run d hl] at hw
    cases hw
  · cases hl : (s.bus p).lock with
    | free =>
      rw [tryAcquire_run d hl] at hw
      cases hw
    | held o =>
      rw [tryAcquire_interrupted d hl hs] at hw
      cases hw

end Sys2Proof.Machine
end

section
/-! The actions of the calls, said once: each program is built of these, and of which kinds is stated per part of a call. A
property of every action of a part is then a case analysis over its kinds. -/

namespace Sys2Proof.Machine

variable {α β : Type}

/-- The actions of the calls on a port. -/
inductive Op where
  | get (r : Reg)
  | put (r : Reg) (v : Half)
  | modify (r : Reg) (clr set : Half)
  | refuse (r : Refusal)
  | getInst (d : Nat)
  | tryAcquire (d : Nat)
  | tryAcquireRestart (d : Nat)
  | updInst (d : Nat) (f : Inst → Inst)
  | unlock (x : Int)
  | answer (x : Int)
  | startWait (msgs : List Message)
  | emit (ev : EvName) (x : Int)
  | polledRound
  | takeOrSignal
  | lookDone
  | expire
  | install (msgs : List Message)
  | traceReset
  | frequencyOf (d : Nat) (x : Inst)
  | begun
  | handshake (x : IntState)
  | lookStatus
  | saveFsmc
  | restoreFsmc (x : Bool)
  | traceDump
  | conclude (e : ErrVal)
  | clockOn
  | pulsed
  | pins (m : PinMode)
  | irqs (x : Bool)
  | clockOff
  | driven (l : Line) (v : Bool)
  | readPin (l : Line)
  | delay
  | openPort
  | uninitTests (d : Nat)
  | closePort
  | freeHandle (d : Nat)

/-- What an action does. -/
def Op.run (c : Config) (p : Port) : Op → M Ans
  | .get r => do return .half (← regGet p r)
  | .put r v => do regPut p r v; return .unit
  | .modify r clr set => do regModify p r clr set; return .unit
  | .refuse r => do Machine.refuse r; return .unit
  | .getInst d => do return .inst (← Machine.getInst d)
  | .tryAcquire d => do return .flag (← Machine.tryAcquire p d)
  | .tryAcquireRestart d => do Machine.tryAcquireRestart p d; return .unit
  | .updInst d f => do Machine.updInst d f; return .unit
  | .unlock x => do (do updBus p (·.unlocked); Machine.answer x); return .unit
  | .answer x => do Machine.answer x; return .unit
  | .startWait msgs => do return .num (← (do updBus p fun b => { b with deadline := deadlineUs c msgs }; drawWait))
  | .emit ev x => do Machine.emit p ev x; return .unit
  | .polledRound => do return .flag (← Machine.polledRound p)
  | .takeOrSignal => do return .flag (← Machine.takeOrSignal p)
  | .lookDone => do return .flag (← lookBus p fun b => b.intstate == .done)
  | .expire => do return .flag (← Machine.expire p)
  | .install msgs => do updBus p (·.install msgs); return .unit
  | .traceReset => do Machine.traceReset p; return .unit
  | .frequencyOf d x => do return .num (← Machine.frequencyOf d x)
  | .begun => do updBus p (·.begun); return .unit
  | .handshake x => do updBus p (·.handshake x); return .unit
  | .lookStatus => do return .word (← lookBus p fun b => b.status &&& 0x0000FFFF)
  | .saveFsmc => do return .flag (← Machine.saveFsmc)
  | .restoreFsmc x => do Machine.restoreFsmc x; return .unit
  | .traceDump => do Machine.traceDump p; return .unit
  | .conclude e => do releaseAndConclude c p e; return .unit
  | .clockOn => do updBus p (·.clockOn); return .unit
  | .pulsed => do updBus p (·.pulsed); return .unit
  | .pins m => do updBus p (·.pins m); return .unit
  | .irqs x => do updBus p (·.irqs x); return .unit
  | .clockOff => do updBus p (·.clockOff); return .unit
  | .driven l v => do updBus p (·.driven l v); return .unit
  | .readPin l => do return .flag (← Machine.readPin p l)
  | .delay => do updBus p (·.record (.delay 10)); return .unit
  | .openPort => do Machine.openPort c p; return .unit
  | .uninitTests d => do return .inst (← Machine.uninitTests d)
  | .closePort => do Machine.closePort p; return .unit
  | .freeHandle d => do Machine.freeHandle d; return .unit

/-- The kinds of actions. -/
inductive Op.Kind where
  /-- an access to a register other than a write of CR2 -/
  | reg
  /-- a write of CR2 -/
  | cr2
  | refuse
  /-- a look that changes nothing -/
  | look
  | find
  | lock
  /-- a try at the lock whose wait no signal ends -/
  | lockRestart
  | store
  | unlock
  | answer
  | startWait
  | emit
  | round
  | take
  | install
  | traceReset
  | begun
  | handshake
  | save
  | restore
  | dump
  | conclude
  /-- a change of the platform -/
  | plat
  /-- a pin driven or read, a delay -/
  | line
  | openPort
  | tests
  | closePort
  | free
deriving DecidableEq

/-- The kind of an action. -/
def Op.kind : Op → Op.Kind
  | .get _ => .reg
  | .put r _ => if r = .cr2 then .cr2 else .reg
  | .modify r _ _ => if r = .cr2 then .cr2 else .reg
  | .refuse _ => .refuse
  | .getInst _ => .find
  | .tryAcquire _ => .lock
  | .tryAcquireRestart _ => .lockRestart
  | .updInst _ _ => .store
  | .unlock _ => .unlock
  | .answer _ => .answer
  | .startWait _ => .startWait
  | .emit _ _ => .emit
  | .polledRound => .round
  | .takeOrSignal | .expire => .take
  | .lookDone | .frequencyOf _ _ | .lookStatus => .look
  | .install _ => .install
  | .traceReset => .traceReset
  | .begun => .begun
  | .handshake _ => .handshake
  | .saveFsmc => .save
  | .restoreFsmc _ => .restore
  | .traceDump => .dump
  | .conclude _ => .conclude
  | .clockOn | .pulsed | .pins _ | .irqs _ | .clockOff => .plat
  | .driven _ _ | .readPin _ | .delay => .line
  | .openPort => .openPort
  | .uninitTests _ => .tests
  | .closePort => .closePort
  | .freeHandle _ => .free

/-- The IRQ lines are attached in INTERRUPT mode only (47_lifecycle_trace_ops R342); an instance keeps its port (R189, R349). -/
def Op.Allowed (c : Config) : Op → Prop
  | .irqs x => x = true → c.mode = .interrupt
  | .updInst _ f => ∀ y, (f y).port = y.port
  | _ => True

/-- Every action of a program is one of these kinds, on the port. -/
def Prog.Uses (c : Config) (p : Port) (ks : List Op.Kind) (x : Prog α) : Prop :=
  x.All fun m => ∃ o : Op, o.kind ∈ ks ∧ o.Allowed c ∧ m = o.run c p

theorem Prog.All.mono {P Q : M Ans → Prop} {x : Prog α} (hx : x.All P) (h : ∀ m, P m → Q m) : x.All Q := by
  induction hx with
  | ret a => exact .ret a
  | act hm _ ih => exact .act (h _ hm) ih

namespace Prog.Uses

variable {c : Config} {p : Port} {ks ks' : List Op.Kind}

theorem ret (a : α) : (Prog.ret a).Uses c p ks := Prog.All.ret a

theorem andThen {x : Prog α} {f : α → Prog β} (hx : x.Uses c p ks) (hf : ∀ a, (f a).Uses c p ks) :
    (x.andThen f).Uses c p ks := Prog.All.andThen hx hf

theorem ite {a : Prop} [Decidable a] {x y : Prog α} (hx : x.Uses c p ks) (hy : y.Uses c p ks) :
    (if a then x else y).Uses c p ks := Prog.All.ite hx hy

theorem onlyIf {x : Prog Unit} (a : Bool) (hx : x.Uses c p ks) : (Prog.onlyIf a x).Uses c p ks := Prog.All.onlyIf a hx

theorem mono {x : Prog α} (hx : x.Uses c p ks) (h : ks ⊆ ks' := by decide) : x.Uses c p ks' :=
  Prog.All.mono hx fun _ ⟨o, ho, ha, hm⟩ => ⟨o, h ho, ha, hm⟩

/-- One action, and the value its answer stands for. -/
theorem op (o : Op) {f : Ans → α} (ho : decide (o.kind ∈ ks) = true := by rfl) (ha : o.Allowed c := by trivial) :
    (Prog.act (o.run c p) fun x => .ret (f x)).Uses c p ks :=
  .act ⟨o, of_decide_eq_true ho, ha, rfl⟩ fun _ => .ret _

/-- What every action of these kinds has, every action of the program has. -/
theorem all {P : M Ans → Prop} {x : Prog α} (hx : x.Uses c p ks)
    (h : ∀ o : Op, o.kind ∈ ks → o.Allowed c → P (o.run c p)) : x.All P :=
  Prog.All.mono hx fun _ ⟨o, ho, ha, hm⟩ => hm ▸ h o ho ha

/-! The parts of the calls. -/

theorem clkProgram (fp ft : Nat) : (clkProgram c p fp ft).Uses c p [.reg, .refuse] := by
  refine andThen (op (.get .cr1)) fun v => andThen (op (.put .cr1 _)) fun _ => ?_
  split
  · exact op (.refuse _)
  · exact andThen (op (.put .ccr _)) fun _ => andThen (op (.put .trise _)) fun _ => andThen (op (.put .oar1 _)) fun _ =>
      op (.put .cr1 _)

theorem settleLoop (n : Nat) : (settleLoop c p n).Uses c p [.reg, .emit] := by
  induction n with
  | zero => exact andThen (op (.get .cr1)) fun v => ite (andThen (op (.get .sr1)) fun _ => ite (.ret _)
      (op (.emit .stopSettleTimeout v.toNat))) (.ret _)
  | succ n ih => exact andThen (op (.get .cr1)) fun _ => ite (andThen (op (.get .sr1)) fun _ => ite (.ret _) ih) (.ret _)

theorem startWait (msgs : List Message) : (startWait c p msgs).Uses c p [.startWait] := op (.startWait msgs)

theorem stopSettle (msgs : List Message) : (stopSettle c p msgs).Uses c p [.startWait, .reg, .emit] :=
  andThen (startWait msgs).mono fun n => (settleLoop n).mono

/-- The kinds of the actions that start a transfer. -/
def startKinds : List Op.Kind := [.startWait, .reg, .emit, .install, .traceReset, .look, .refuse, .begun]

theorem startTransfer (d : Nat) (x : Inst) (msgs : List Message) (settle : Bool) :
    (startTransfer c d x msgs settle).Uses c x.port startKinds :=
  andThen (onlyIf _ (stopSettle msgs).mono) fun _ => andThen (op (.put .sr1 0)) fun _ =>
    andThen (op (.modify .cr1 _ _)) fun _ => andThen (op (.install msgs)) fun _ => andThen (op .traceReset) fun _ =>
    andThen (op (.frequencyOf d x)) fun _ => andThen (clkProgram _ _).mono fun _ => andThen (op .begun) fun _ =>
    op (.modify .cr1 _ _)

theorem polledLoop (n : Nat) : (polledLoop p n).Uses c p [.round] := by
  induction n with
  | zero => exact op .polledRound
  | succ n ih => exact andThen (op .polledRound) fun _ => ite (.ret _) ih

theorem takeLoop (n : Nat) : (takeLoop p n).Uses c p [.take, .look] := by
  induction n with
  | zero => exact op .expire
  | succ n ih =>
    exact andThen (op .takeOrSignal) fun _ => ite (andThen (op .lookDone) fun _ => ite (.ret _) ih) ih

theorem openWait : (openWait c p).Uses c p [.handshake, .cr2] :=
  andThen (op (.handshake .waiting)) fun _ => op (.modify .cr2 _ _)

theorem waitInterrupt (msgs : List Message) :
    (waitInterrupt c p msgs).Uses c p [.startWait, .handshake, .cr2, .take, .look] :=
  andThen (startWait msgs).mono fun n => andThen openWait.mono fun _ => andThen (takeLoop n).mono fun _ =>
    andThen (op (.modify .cr2 _ _)) fun _ => .ret _

theorem waitPolled (msgs : List Message) : (waitPolled c p msgs).Uses c p [.startWait, .round] :=
  andThen (startWait msgs).mono fun n => (polledLoop n).mono

/-- The kinds of the actions of step 7. -/
def waitKinds : List Op.Kind := [.startWait, .handshake, .cr2, .take, .look, .round]

theorem modeWait (msgs : List Message) : (modeWait c p msgs).Uses c p waitKinds := by
  unfold Machine.modeWait
  cases c.mode with
  | interrupt => exact (waitInterrupt msgs).mono
  | polled => exact (waitPolled msgs).mono

theorem completionWait (msgs : List Message) : (completionWait c p msgs).Uses c p waitKinds :=
  andThen (modeWait msgs) fun _ => andThen (op (.handshake .idle)) fun _ => .ret _

theorem transferResult (ok : Bool) : (transferResult c p ok).Uses c p [.look, .reg] :=
  ite (andThen (op .lookStatus) fun _ => .ret _)
    (andThen (andThen (op (.get .sr1)) fun _ => andThen (op (.get .sr2)) fun _ => andThen (op (.modify .cr1 _ _)) fun _ =>
      andThen (onlyIf _ (op (.modify .cr1 _ _))) fun _ => .ret _) fun _ => .ret _)

theorem openFsmc (active : Bool) : (openFsmc active).Uses c p [.save] := ite (op .saveFsmc) (.ret _)

theorem closeFsmc (msgs : List Message) (active saved : Bool) :
    (closeFsmc c p msgs active saved).Uses c p [.startWait, .reg, .emit, .restore] :=
  onlyIf _ (andThen (stopSettle msgs).mono fun _ => op (.restoreFsmc saved))

theorem closeTransfer (e : ErrVal) : (closeTransfer c p e).Uses c p [.dump, .conclude] :=
  andThen (op .traceDump) fun _ => op (.conclude e)

/-- The kinds of the actions of a transfer under its lock. -/
def transferKinds : List Op.Kind := [.save, .startWait, .reg, .emit, .install, .traceReset, .look, .refuse, .begun,
  .handshake, .cr2, .take, .round, .restore, .dump, .conclude]

theorem runTransfer (d : Nat) (x : Inst) (msgs : List Message) :
    (runTransfer c d x msgs).Uses c x.port transferKinds :=
  andThen (openFsmc _).mono fun _ => andThen (startTransfer d x msgs _).mono fun _ =>
    andThen (completionWait msgs).mono fun _ => andThen (transferResult _).mono fun _ =>
    andThen (closeFsmc msgs _ _).mono fun _ => (closeTransfer _).mono

theorem process (d : Nat) (x : Inst) (msgs : List Message) :
    (process c d x msgs).Uses c x.port (.lock :: .answer :: transferKinds) :=
  ite (andThen (op (.tryAcquire d)) fun _ => ite (runTransfer d x msgs).mono (op (.answer _))) (op (.refuse _))

/-- R342: the IRQ lines are attached only in INTERRUPT mode. -/
theorem attachIrqs : (Prog.onlyIf (c.mode == .interrupt) (write p (·.irqs true))).Uses c p [.plat] := by
  unfold Prog.onlyIf
  split
  · rename_i h
    exact op (.irqs true) (ha := fun _ => by simpa using h)
  · exact .ret _

theorem lifeUp : (lifeUp c p).Uses c p [.plat, .reg, .cr2, .refuse] :=
  andThen (op .clockOn) fun _ => andThen (op .pulsed) fun _ => andThen (op (.pins _)) fun _ =>
    andThen attachIrqs.mono fun _ => andThen (ite (.ret _) (op (.refuse _))) fun _ =>
    andThen (op (.put .cr2 _)) fun _ => andThen (clkProgram _ _).mono fun _ => op (.modify .cr1 _ _)

theorem lifeDown : (lifeDown p).Uses c p [.plat, .reg] :=
  andThen (op (.put .cr1 0)) fun _ => andThen (op (.irqs false) (ha := nofun)) fun _ => andThen (op (.pins _)) fun _ => op .clockOff

theorem driveHalf (l : Line) (v : Bool) : (driveHalf p l v).Uses c p [.line] :=
  andThen (op (.driven l v)) fun _ => op .delay

theorem stretchLoop (n : Nat) : (stretchLoop p n).Uses c p [.line] := by
  induction n with
  | zero => exact andThen (op (.readPin .scl)) fun _ => .ret _
  | succ n ih => exact andThen (op (.readPin .scl)) fun _ => ite (.ret _) (andThen (op .delay) fun _ => ih)

theorem sclPulse : (sclPulse p).Uses c p [.line] :=
  andThen (stretchLoop _) fun _ => andThen (driveHalf _ _) fun _ => driveHalf _ _

theorem pulseLoop (n : Nat) : (pulseLoop p n).Uses c p [.line] := by
  induction n with
  | zero => exact andThen (op (.readPin .sda)) fun _ => .ret _
  | succ n ih => exact andThen (op (.readPin .sda)) fun _ => ite (.ret _) (andThen sclPulse fun _ => ih)

theorem manualStartStop : (manualStartStop p).Uses c p [.line] :=
  andThen (driveHalf _ _) fun _ => andThen (driveHalf _ _) fun _ => andThen (driveHalf _ _) fun _ => driveHalf _ _

/-- The kinds of the actions of a bus recovery under its lock. -/
def recoveryKinds : List Op.Kind := [.plat, .reg, .cr2, .refuse, .line]

theorem recoverBus : (recoverBus c p).Uses c p recoveryKinds :=
  andThen lifeDown.mono fun _ => andThen (op (.pins .gpio)) fun _ => andThen (op (.driven .sda true)) fun _ =>
    andThen (pulseLoop _).mono fun _ => andThen manualStartStop.mono fun _ => andThen (op (.pins .afOd)) fun _ => lifeUp.mono

end Prog.Uses

/-! The programs of the callers. -/

/-- A program whose first action finds an instance, and whose other actions are on that instance's port; or which is refused
at once. -/
inductive Prog.FindsFirst (c : Config) (d : Nat) (ks : List Op.Kind) : Prog Unit → Prop where
  | refused (r : Refusal) : FindsFirst c d ks (Machine.act (refuse r))
  | finds {m : M Inst} {g : Inst → Prog Unit} (hm : m = getInst d ∨ m = uninitTests d)
      (hg : ∀ x, (g x).Uses c x.port ks) : FindsFirst c d ks ((askInst m).andThen g)

/-- Every kind of action that follows the first one of a call. -/
def Op.callKinds : List Op.Kind :=
  .lock :: .lockRestart :: .store :: .unlock :: .answer :: .plat :: .line :: .closePort :: .free :: Prog.Uses.transferKinds

theorem Prog.FindsFirst.offered {c : Config} {d : Nat} {ks : List Op.Kind} {x : Prog Unit} (a : Bool) (r : Refusal)
    (hx : x.FindsFirst c d ks) : (Machine.offered a r x).FindsFirst c d ks := by
  unfold Machine.offered
  split
  · exact hx
  · exact .refused r

/-- Every program of a host operation but OP_INIT, which acts on its operand's port. -/
theorem programOf_findsFirst {c : Config} {i : Instr} {x : Prog Unit} (hi : ∀ p, i ≠ .opInit p)
    (h : programOf c i = some x) :
    ∃ d, x.FindsFirst c d Op.callKinds ∧ ∀ s : State, s.portOf i = (s.inst d).map (·.port) := by
  cases i <;> simp only [programOf, Option.some.injEq, reduceCtorEq] at h <;> subst h
  case opInit p => exact absurd rfl (hi p)
  case opUninit d =>
    exact ⟨d, .finds (.inr rfl) fun x => Prog.Uses.andThen (.op .closePort) fun _ => .op (.freeHandle d), fun _ => rfl⟩
  case opReset d =>
    refine ⟨d, .offered _ _ <| .finds (.inl rfl) fun x => ?_, fun _ => rfl⟩
    exact Prog.Uses.andThen (.op (.tryAcquire d)) fun _ =>
      .ite (Prog.Uses.andThen Prog.Uses.recoverBus.mono fun _ => .op (.unlock 0)) (.op (.answer _))
  case opSetfrequency d f =>
    refine ⟨d, .finds (.inl rfl) fun x => ?_, fun _ => rfl⟩
    exact Prog.Uses.andThen (.op (.tryAcquireRestart d)) fun _ => Prog.Uses.andThen (.op (.updInst d _) (ha := fun _ => rfl)) fun _ =>
      .op (.unlock _)
  case opSetaddress d a n =>
    refine ⟨d, .finds (.inl rfl) fun x => ?_, fun _ => rfl⟩
    exact Prog.Uses.andThen (.op (.tryAcquire d)) fun _ =>
      .ite (Prog.Uses.andThen (.op (.updInst d _) (ha := fun _ => rfl)) fun _ => .op (.unlock 0)) (.op (.answer _))
  case opWrite d b n => exact ⟨d, .finds (.inl rfl) fun x => (Prog.Uses.process d x _).mono, fun _ => rfl⟩
  case opRead d b n => exact ⟨d, .finds (.inl rfl) fun x => (Prog.Uses.process d x _).mono, fun _ => rfl⟩
  case opTransfer d ms =>
    exact ⟨d, .offered _ _ <| .finds (.inl rfl) fun x => (Prog.Uses.process d x ms).mono, fun _ => rfl⟩
  case opProcess d ms => exact ⟨d, .finds (.inl rfl) fun x => (Prog.Uses.process d x ms).mono, fun _ => rfl⟩

/-- OP_INIT is one action on its operand's port. -/
theorem opInit_uses (c : Config) (p : Port) : (opInit c p).Uses c p [.openPort, .refuse] :=
  .ite (.op .openPort) (.op (.refuse _))

end Sys2Proof.Machine
end

section
/-! What an action of a call does, said once: a sequence of single changes, each of a sort that the kind of the action fixes.
A relation that these changes respect is kept by every such action (`Op.keeps`). -/

namespace Sys2Proof.Machine

variable {α β : Type} {c : Config} {p : Port} {R : State → State → Prop}

/-- The kinds of actions that make the changes of another kind: an `interrupts_off` region brings its port up or shuts it
down. -/
def Op.Kind.Does (k k' : Op.Kind) : Prop := k = k' ∨ k = .openPort ∨ k = .closePort

/-- The single changes of a port's Bus State that actions of a kind make. -/
inductive BusStep (c : Config) : Op.Kind → BusState → BusState → Prop where
  | read {k : Op.Kind} (b : BusState) (r : Reg) (v : Half) (h : k.Does .reg) : BusStep c k b (b.record (.rd r v))
  | put {k : Op.Kind} (b : BusState) {r : Reg} (v : Half) (hr : r ≠ .cr2) (h : k.Does .reg) : BusStep c k b (b.put r v)
  | readCr2 {k : Op.Kind} (b : BusState) (v : Half) (h : k.Does .cr2) : BusStep c k b (b.record (.rd .cr2 v))
  | putCr2 {k : Op.Kind} (b : BusState) (v : Half) (h : k.Does .cr2) : BusStep c k b (b.put .cr2 v)
  | locked (b : BusState) (d : Nat) : BusStep c .lock b (b.locked d)
  | lockedRestart (b : BusState) (d : Nat) : BusStep c .lockRestart b (b.locked d)
  | unlocked (b : BusState) : BusStep c .unlock b b.unlocked
  | deadline (b : BusState) (n : Nat) : BusStep c .startWait b { b with deadline := n }
  | emitted (b : BusState) (ev : EvName) (x : Int) : BusStep c .emit b (b.emitted ev x)
  | taken (b : BusState) : BusStep c .take b b.taken
  | drained (b : BusState) : BusStep c .take b { b with sem := 0 }
  | install (b : BusState) (msgs : List Message) : BusStep c .install b (b.install msgs)
  | cleared (b : BusState) (now : Nat) : BusStep c .traceReset b { b with trace := b.trace.cleared now }
  | begun (b : BusState) : BusStep c .begun b b.begun
  | handshake (b : BusState) (x : IntState) : BusStep c .handshake b (b.handshake x)
  | dumped (b : BusState) (l : List LogItem) : BusStep c .dump b { b with log := b.log ++ l }
  | released (b : BusState) : BusStep c .conclude b b.released
  | clockOn {k : Op.Kind} (b : BusState) (h : k.Does .plat) : BusStep c k b b.clockOn
  | pulsed {k : Op.Kind} (b : BusState) (h : k.Does .plat) : BusStep c k b b.pulsed
  | pins {k : Op.Kind} (b : BusState) (m : PinMode) (h : k.Does .plat) : BusStep c k b (b.pins m)
  | irqs {k : Op.Kind} (b : BusState) (x : Bool) (hx : x = true → c.mode = .interrupt) (h : k.Does .plat) :
    BusStep c k b (b.irqs x)
  | refs {k : Op.Kind} (b : BusState) (n : Nat) (h : k = .openPort ∨ k = .closePort) : BusStep c k b { b with refs := n }
  | clockOff {k : Op.Kind} (b : BusState) (h : k.Does .plat) : BusStep c k b b.clockOff
  | driven (b : BusState) (l : Line) (v : Bool) : BusStep c .line b (b.driven l v)
  | looked (b : BusState) (l : Line) (v : Bool) : BusStep c .line b (b.record (.pinRead l v))
  | delay (b : BusState) : BusStep c .line b (b.record (.delay 10))

/-- The single changes of the machine that actions of a kind on the port make. -/
inductive OpStep (c : Config) (p : Port) (k : Op.Kind) : State → State → Prop where
  | bus (s : State) {b : BusState} (h : BusStep c k (s.bus p) b) : OpStep c p k s (s.setBus p b)
  | draws (s : State) (x : Draws) : OpStep c p k s (s.withDraws x)
  | ret (s : State) (x : Int) (h : k ∈ [.unlock, .answer, .conclude, .free, .openPort]) : OpStep c p k s (s.withRet x)
  | errval (s : State) (x : ErrVal) (h : k = .conclude) : OpStep c p k s (s.withErrval x)
  | fsmc (s : State) (x : Bool) (h : k = .save ∨ k = .restore) : OpStep c p k s (s.withFsmc x)
  | updated (s : State) (d : Nat) (f : Inst → Inst) (hf : ∀ y, (f y).port = y.port) (h : k = .store) :
    OpStep c p k s (s.withInstances (s.instances.modify d (·.map f)))
  | freed (s : State) (d : Nat) (h : k = .free) : OpStep c p k s (s.withInstances (s.instances.set d none))
  | opened (s : State) (h : k = .openPort) : OpStep c p k s (s.withInstances (s.instances ++ [some (Inst.fresh p)]))
  | intsOff (s : State) (x : Bool) (h : k = .openPort ∨ k = .closePort) : OpStep c p k s (s.withIntsOff x)
  | decided (s : State) (h : k = .conclude) : OpStep c p k s s.decided

namespace OpStep

variable {k : Op.Kind} (hR : Chain R) (h : ∀ {s t}, OpStep c p k s t → R s t)
include hR h

omit hR in
theorem keeps_updBus {f : BusState → BusState} (hf : ∀ b, BusStep c k b (f b)) : Keeps R (updBus p f) :=
  Keeps.updBus fun s => h (.bus s (hf _))

omit hR in
theorem keeps_drawn {m : M α} (hm : ∀ s, ∃ a x, m s = .ok a (s.withDraws x)) : Keeps R m where
  ok := fun {s t a} e => by
    obtain ⟨a', x, hm⟩ := hm s
    rw [hm] at e
    cases e
    exact h (.draws s x)
  error := fun {s t a} e => by
    obtain ⟨a', x, hm⟩ := hm s
    rw [hm] at e
    cases e

theorem keeps_regGet {r : Reg} (hr : ∀ b v, BusStep c k b (b.record (.rd r v))) : Keeps R (regGet p r) :=
  Keeps.bind hR (Keeps.ensure hR _ _) fun _ => Keeps.bind hR (Keeps.lookBus hR p _) fun _ =>
    Keeps.bind hR (Keeps.ensure hR _ _) fun _ => Keeps.bind hR (keeps_drawn h fun s => ⟨_, _, run_drawReg s⟩) fun v =>
    Keeps.bind hR (keeps_updBus h fun b => hr b v) fun _ => Keeps.pure hR _

theorem keeps_regPut {r : Reg} {v : Half} (hr : ∀ b, BusStep c k b (b.put r v)) : Keeps R (regPut p r v) :=
  Keeps.bind hR (Keeps.ensure hR _ _) fun _ => Keeps.bind hR (Keeps.ensure hR _ _) fun _ =>
    Keeps.bind hR (Keeps.lookBus hR p _) fun _ => Keeps.bind hR (Keeps.ensure hR _ _) fun _ => keeps_updBus h hr

theorem keeps_regModify {r : Reg} {clr set : Half} (hg : ∀ b v, BusStep c k b (b.record (.rd r v)))
    (hp : ∀ b v, BusStep c k b (b.put r v)) : Keeps R (regModify p r clr set) :=
  Keeps.bind hR (Keeps.ensure hR _ _) fun _ => Keeps.bind hR (Keeps.ensure hR _ _) fun _ =>
    Keeps.bind hR (keeps_regGet hR h hg) fun _ => keeps_regPut hR h fun b => hp b _

omit hR in
theorem keeps_answer {x : Int} (hk : k ∈ [.unlock, .answer, .conclude, .free, .openPort]) : Keeps R (answer x) :=
  Keeps.upd fun s => h (.ret s x hk)

omit h in
theorem keeps_getInst (d : Nat) : Keeps R (getInst d) := by
  refine Keeps.bind hR (Keeps.look hR _) fun o => ?_
  cases o
  · exact Keeps.refuse hR _
  · exact Keeps.pure hR _

omit h in
/-- The tests of OP_UNINIT change nothing. -/
theorem keeps_uninitTests (d : Nat) : Keeps R (uninitTests d) := by
  refine Keeps.bind hR (Keeps.look hR _) fun o => ?_
  cases o
  · exact Keeps.refuse hR _
  · exact Keeps.bind hR (Keeps.lookBus hR _ _) fun _ => Keeps.bind hR (Keeps.require hR _ _) fun _ =>
      Keeps.bind hR (Keeps.require hR _ _) fun _ => Keeps.pure hR _

omit h in
theorem keeps_whenTracing {m : M Unit} (hm : Keeps R m) : Keeps R (whenTracing m) :=
  Keeps.bind hR (Keeps.look hR _) fun _ => Keeps.onlyIf hR _ hm

end OpStep

/-- The changes of a bring-up or a shut-down are made in an `interrupts_off` region too. -/
theorem BusStep.region {k k' : Op.Kind} {b b' : BusState} (h : BusStep c k b b') (hk : k ∈ [.plat, .reg, .cr2, .refuse])
    (hk' : k' = .openPort ∨ k' = .closePort) : BusStep c k' b b' := by
  cases h with
  | read => exact .read _ _ _ (.inr hk')
  | put _ _ hr => exact .put _ _ hr (.inr hk')
  | readCr2 => exact .readCr2 _ _ (.inr hk')
  | putCr2 => exact .putCr2 _ _ (.inr hk')
  | clockOn => exact .clockOn _ (.inr hk')
  | pulsed => exact .pulsed _ (.inr hk')
  | pins => exact .pins _ _ (.inr hk')
  | irqs _ _ hx => exact .irqs _ _ hx (.inr hk')
  | clockOff => exact .clockOff _ (.inr hk')
  | refs => exact .refs _ _ hk'
  | _ => simp at hk

theorem OpStep.region {k k' : Op.Kind} {s t : State} (h : OpStep c p k s t) (hk : k ∈ [.plat, .reg, .cr2, .refuse])
    (hk' : k' = .openPort ∨ k' = .closePort) : OpStep c p k' s t := by
  cases h with
  | bus h => exact .bus _ (h.region hk hk')
  | draws => exact .draws _ _
  | intsOff => exact .intsOff _ _ hk'
  | ret _ h => exact absurd h (by fin_cases hk <;> decide)
  | errval _ h | updated _ _ _ h | freed _ h | opened h | decided h => subst h; simp at hk
  | fsmc _ h => obtain rfl | rfl := h <;> simp at hk

theorem Op.eq_openPort {o : Op} (h : o.kind = .openPort) : o = .openPort := by
  cases o <;> simp [Op.kind, ite_eq_iff] at h ⊢

theorem Op.eq_polledRound {o : Op} (h : o.kind = .round) : o = .polledRound := by
  cases o <;> simp [Op.kind, ite_eq_iff] at h ⊢

theorem Op.eq_closePort {o : Op} (h : o.kind = .closePort) : o = .closePort := by
  cases o <;> simp [Op.kind, ite_eq_iff] at h ⊢

/-- The kinds of actions that are a sequence of single changes outside an `interrupts_off` region. -/
def Op.Simple (o : Op) : Prop := o.kind ≠ .round ∧ o.kind ≠ .openPort ∧ o.kind ≠ .closePort

theorem Op.keeps_simple {o : Op} (hR : Chain R) (ho : o.Simple) (ha : o.Allowed c)
    (h : ∀ {s t}, OpStep c p o.kind s t → R s t) : Keeps R (o.run c p) := by
  have unit {m : M Unit} (hm : Keeps R m) : Keeps R (m >>= fun _ => Pure.pure Ans.unit) := Keeps.bind hR hm fun _ => Keeps.pure hR _
  have one {γ : Type} {m : M γ} {f : γ → Ans} (hm : Keeps R m) : Keeps R (do return f (← m)) :=
    Keeps.bind hR hm fun _ => Keeps.pure hR _
  have bus {f : BusState → BusState} (hf : ∀ b, BusStep c o.kind b (f b)) : Keeps R (updBus p f) := OpStep.keeps_updBus h hf
  cases o with
  | get r => exact one (OpStep.keeps_regGet hR h fun b v => .read b r v (.inl rfl))
  | put r v =>
    by_cases hr : r = .cr2
    · subst hr
      exact unit (OpStep.keeps_regPut hR h fun b => .putCr2 b v (.inl rfl))
    · simp only [Op.kind, if_neg hr] at h
      exact unit (OpStep.keeps_regPut hR h fun b => .put b v hr (.inl rfl))
  | modify r clr set =>
    by_cases hr : r = .cr2
    · subst hr
      exact unit (OpStep.keeps_regModify hR h (fun b v => .readCr2 b v (.inl rfl)) fun b v => .putCr2 b v (.inl rfl))
    · simp only [Op.kind, if_neg hr] at h
      exact unit (OpStep.keeps_regModify hR h (fun b v => .read b r v (.inl rfl)) fun b v => .put b v hr (.inl rfl))
  | refuse r => exact unit (Keeps.refuse hR r)
  | getInst d => exact one (OpStep.keeps_getInst hR d)
  | tryAcquire d =>
    exact one (Keeps.bind hR (Keeps.lookBus hR p _) fun _ => Keeps.ite
      (Keeps.bind hR (bus fun b => .locked b d) fun _ => Keeps.pure hR _)
      (Keeps.bind hR (OpStep.keeps_drawn h fun s => ⟨_, _, run_drawSignal s⟩) fun _ =>
        Keeps.ite (Keeps.pure hR _) (Keeps.keepWaiting hR)))
  | tryAcquireRestart d =>
    exact unit (Keeps.bind hR (Keeps.lookBus hR p _) fun _ => Keeps.ite (bus fun b => .lockedRestart b d) (Keeps.keepWaiting hR))
  | updInst d f => exact unit (Keeps.upd fun s => h (.updated s d f ha rfl))
  | unlock x => exact unit (Keeps.bind hR (bus fun b => .unlocked b) fun _ => OpStep.keeps_answer h (List.mem_of_elem_eq_true rfl))
  | answer x => exact unit (OpStep.keeps_answer h (List.mem_of_elem_eq_true rfl))
  | startWait msgs =>
    exact one (Keeps.bind hR (bus fun b => .deadline b _) fun _ => OpStep.keeps_drawn h fun s => ⟨_, _, run_drawWait s⟩)
  | emit ev x => exact unit (OpStep.keeps_whenTracing hR (bus fun b => .emitted b ev x))
  | polledRound => exact absurd rfl ho.1
  | takeOrSignal =>
    exact one (Keeps.bind hR (Keeps.lookBus hR p _) fun _ =>
      Keeps.ite (Keeps.bind hR (bus fun b => .taken b) fun _ => Keeps.pure hR _) (Keeps.pure hR _))
  | lookDone => exact one (Keeps.lookBus hR p _)
  | expire =>
    exact one (Keeps.bind hR (Keeps.lookBus hR p _) fun _ =>
      Keeps.ite (Keeps.bind hR (bus fun b => .taken b) fun _ => Keeps.pure hR _)
        (Keeps.bind hR (bus fun b => .drained b) fun _ => Keeps.pure hR _))
  | install msgs => exact unit (bus fun b => .install b msgs)
  | traceReset =>
    exact unit (OpStep.keeps_whenTracing hR (Keeps.bind hR (OpStep.keeps_drawn h fun s => ⟨_, _, run_drawTime s⟩) fun now =>
      bus fun b => .cleared b now))
  | frequencyOf d x => exact one (Keeps.look hR _)
  | begun => exact unit (bus fun b => .begun b)
  | handshake x => exact unit (bus fun b => .handshake b x)
  | lookStatus => exact one (Keeps.lookBus hR p _)
  | saveFsmc => exact one (Keeps.bind hR (Keeps.look hR _) fun _ => Keeps.bind hR (Keeps.upd fun s => h (.fsmc s _ (.inl rfl))) fun _ => Keeps.pure hR _)
  | restoreFsmc x => exact unit (Keeps.upd fun s => h (.fsmc s _ (.inr rfl)))
  | traceDump => exact unit (OpStep.keeps_whenTracing hR (bus fun b => .dumped b _))
  | conclude e =>
    exact unit (Keeps.bind hR (bus fun b => .released b) fun _ => Keeps.bind hR (Keeps.upd fun s => h (.decided s rfl)) fun _ =>
      Keeps.bind hR (Keeps.upd fun s => h (.errval s _ rfl)) fun _ => OpStep.keeps_answer h (List.mem_of_elem_eq_true rfl))
  | clockOn => exact unit (bus fun b => .clockOn b (.inl rfl))
  | pulsed => exact unit (bus fun b => .pulsed b (.inl rfl))
  | pins m => exact unit (bus fun b => .pins b m (.inl rfl))
  | irqs x => exact unit (bus fun b => .irqs b x ha (.inl rfl))
  | clockOff => exact unit (bus fun b => .clockOff b (.inl rfl))
  | driven l v => exact unit (bus fun b => .driven b l v)
  | readPin l =>
    exact one (Keeps.bind hR (OpStep.keeps_drawn h fun s => ⟨_, _, run_drawPin s⟩) fun v =>
      Keeps.bind hR (bus fun b => .looked b l v) fun _ => Keeps.pure hR _)
  | delay => exact unit (bus fun b => .delay b)
  | openPort => exact absurd rfl ho.2.1
  | uninitTests d => exact one (OpStep.keeps_uninitTests hR d)
  | closePort => exact absurd rfl ho.2.2
  | freeHandle d => exact unit (Keeps.bind hR (Keeps.upd fun s => h (.freed s d rfl)) fun _ => OpStep.keeps_answer h (List.mem_of_elem_eq_true rfl))

/-- A program of a bring-up or a shut-down, in an `interrupts_off` region. -/
theorem Prog.Uses.keeps_direct {x : Prog α} {k' : Op.Kind} {ks : List Op.Kind} (hR : Chain R)
    (hx : x.Uses c p ks) (hks : ks ⊆ [.plat, .reg, .cr2, .refuse]) (hk' : k' = .openPort ∨ k' = .closePort)
    (h : ∀ {s t}, OpStep c p k' s t → R s t) : Keeps R x.direct :=
  Prog.All.direct hR <| hx.all fun o ho ha => by
    have hk := hks ho
    exact Op.keeps_simple hR ⟨fun e => by simp [e] at hk, fun e => by simp [e] at hk, fun e => by simp [e] at hk⟩ ha
      fun e => h (e.region hk hk')

theorem OpStep.keeps_openPort (hR : Chain R) (h : ∀ {s t}, OpStep c p .openPort s t → R s t) : Keeps R (openPort c p) := by
  refine Keeps.bind hR (Keeps.upd fun s => h (.intsOff s _ (.inl rfl))) fun _ => Keeps.bind hR (Keeps.lookBus hR p _) fun _ => ?_
  refine Keeps.bind hR (Keeps.onlyIf hR _ (Prog.Uses.lifeUp.keeps_direct hR (List.Subset.refl _) (.inl rfl) h)) fun _ => ?_
  refine Keeps.bind hR (keeps_updBus h fun b => .refs b _ (.inl rfl)) fun _ => ?_
  refine Keeps.bind hR (Keeps.upd fun s => h (.intsOff s _ (.inl rfl))) fun _ => Keeps.bind hR ?_ fun _ =>
    keeps_answer h (List.mem_of_elem_eq_true rfl)
  exact ⟨fun e => by cases e; exact h (.opened _ rfl), nofun⟩

theorem OpStep.keeps_closePort (hR : Chain R) (h : ∀ {s t}, OpStep c p .closePort s t → R s t) : Keeps R (closePort p) := by
  refine Keeps.bind hR (Keeps.lookBus hR p _) fun _ => Keeps.bind hR (Keeps.require hR _ _) fun _ => ?_
  refine Keeps.bind hR (Keeps.upd fun s => h (.intsOff s _ (.inr rfl))) fun _ => ?_
  refine Keeps.bind hR (keeps_updBus h fun b => .refs b _ (.inr rfl)) fun _ => Keeps.bind hR (Keeps.lookBus hR p _) fun _ => ?_
  refine Keeps.bind hR (Keeps.onlyIf hR _ ?_) fun _ => Keeps.upd fun s => h (.intsOff s _ (.inr rfl))
  exact Prog.Uses.lifeDown.keeps_direct hR (by decide) (.inr rfl) h

/-- Every action but an engine entry is a sequence of single changes: it keeps what each of them keeps. -/
theorem Op.keeps {o : Op} (hR : Chain R) (ho : o.kind ≠ .round) (ha : o.Allowed c)
    (h : ∀ {s t}, OpStep c p o.kind s t → R s t) : Keeps R (o.run c p) := by
  by_cases h₁ : o.kind = .openPort
  · rw [Op.eq_openPort h₁] at h ⊢
    exact Keeps.bind hR (OpStep.keeps_openPort hR h) fun _ => Keeps.pure hR _
  by_cases h₂ : o.kind = .closePort
  · rw [Op.eq_closePort h₂] at h ⊢
    exact Keeps.bind hR (OpStep.keeps_closePort hR h) fun _ => Keeps.pure hR _
  exact Op.keeps_simple hR ⟨ho, h₁, h₂⟩ ha h

end Sys2Proof.Machine
end

section
/-! What any action of a call can do, however it ends: its port's Bus State and some of what lies outside change, no other
port's (20_memory R93, 60_exceptions R415), and what the invariants speak of keeps its form. -/

namespace Sys2Proof.Machine

variable {α β : Type}

/-- What an action does to its own port's Bus State. -/
structure OpWrote (c : Config) (b b' : BusState) : Prop where
  faulted : b'.faulted = b.faulted
  refused : b'.refused = b.refused
  ring : TraceShape c b.trace → TraceShape c b'.trace
  count : b.count = b.msgs.length → b'.count = b'.msgs.length
  lines : b.plat.evIrq = b.plat.erIrq → b'.plat.evIrq = b'.plat.erIrq
  mode : (b.plat.evIrq.attached = true → c.mode = .interrupt) → b'.plat.evIrq.attached = true → c.mode = .interrupt

/-- What an action on a port does to the machine. -/
structure OpMoved (p : Port) (s t : State) : Prop where
  others : OtherPortsKept p s t
  own : OpWrote s.cfg (s.bus p) (t.bus p)
  cfg : t.cfg = s.cfg
  threads : t.threads = s.threads
  requests : t.requests = s.requests
  stores : t.stores = s.stores
  returned : t.returned = s.returned
  past : t.past = s.past
  memory : s.mem.wf = true → t.mem.wf = true

theorem OpWrote.refl (c : Config) (b : BusState) : OpWrote c b b := ⟨rfl, rfl, id, id, id, id⟩

theorem OpWrote.trans {c : Config} {b b' b'' : BusState} (h : OpWrote c b b') (k : OpWrote c b' b'') : OpWrote c b b'' :=
  ⟨k.faulted.trans h.faulted, k.refused.trans h.refused, k.ring ∘ h.ring, k.count ∘ h.count, k.lines ∘ h.lines,
    k.mode ∘ h.mode⟩

theorem OpMoved.refl (p : Port) (s : State) : OpMoved p s s :=
  ⟨fun _ _ => rfl, .refl _ _, rfl, rfl, rfl, rfl, rfl, rfl, id⟩

theorem OpMoved.trans {p : Port} {s t u : State} (h : OpMoved p s t) (k : OpMoved p t u) : OpMoved p s u where
  others := fun q hq => (k.others q hq).trans (h.others q hq)
  own := h.own.trans (h.cfg ▸ k.own)
  cfg := k.cfg.trans h.cfg
  threads := k.threads.trans h.threads
  requests := k.requests.trans h.requests
  stores := k.stores.trans h.stores
  returned := k.returned.trans h.returned
  past := k.past.trans h.past
  memory := k.memory ∘ h.memory

theorem EngineWrote.opWrote {c : Config} {b b' : BusState} (h : EngineWrote c b b') : OpWrote c b b' where
  faulted := h.engine.faulted
  refused := h.engine.refused
  ring := h.ring
  count := by rw [h.engine.count, h.engine.msgs]; exact id
  lines := by rw [h.engine.plat]; exact id
  mode := by rw [h.engine.plat]; exact id

theorem EngineMoved.opMoved {p : Port} {s t : State} (h : EngineMoved p s t) : OpMoved p s t :=
  ⟨h.others, h.own.opWrote, h.outside.cfg, h.outside.threads, h.outside.requests, h.outside.stores, h.outside.returned,
    h.past, h.memory⟩

/-- A change of the fields that none of this speaks of. -/
theorem OpWrote.fields {c : Config} {b b' : BusState} (h : b'.faulted = b.faulted ∧ b'.refused = b.refused ∧
    b'.trace = b.trace ∧ b'.count = b.count ∧ b'.msgs = b.msgs ∧ b'.plat.evIrq = b.plat.evIrq ∧ b'.plat.erIrq = b.plat.erIrq) :
    OpWrote c b b' := by
  obtain ⟨h₁, h₂, h₃, h₄, h₅, h₆, h₇⟩ := h
  refine ⟨h₁, h₂, ?_, ?_, ?_, ?_⟩
  · rw [h₃]; exact id
  · rw [h₄, h₅]; exact id
  · rw [h₆, h₇]; exact id
  · rw [h₆]; exact id

/-- Each single change of a Bus State. -/
theorem BusStep.opWrote {c : Config} {k : Op.Kind} {b b' : BusState} (h : BusStep c k b b') : OpWrote c b b' := by
  cases h with
  | emitted =>
    exact ⟨rfl, rfl, fun h => by simpa [TraceShape, BusState.emitted, Trace.annotate, Trace.setCurrent] using h, id, id, id⟩
  | cleared => exact ⟨rfl, rfl, fun h => ⟨by simpa [Trace.cleared] using h.1, .inr rfl⟩, id, id, id⟩
  | install => exact ⟨rfl, rfl, id, fun _ => rfl, id, id⟩
  | irqs _ _ hx => exact ⟨rfl, rfl, id, id, fun _ => rfl, fun _ h => hx h⟩
  | driven _ l v => cases l <;> exact .fields ⟨rfl, rfl, rfl, rfl, rfl, rfl, rfl⟩
  | _ => exact .fields ⟨rfl, rfl, rfl, rfl, rfl, rfl, rfl⟩

namespace OpMoved

/-- Under the given parameters. -/
def Under (c : Config) (p : Port) (s t : State) : Prop := s.cfg = c → OpMoved p s t

variable {c : Config} {p : Port}

theorem chain : Chain (Under c p) :=
  ⟨fun s _ => .refl p s, fun h k hs => (h hs).trans (k ((h hs).cfg.trans hs))⟩

theorem ofEngine {m : M α} (h : Keeps (EngineMoved p) m) : Keeps (Under c p) m :=
  ⟨fun e _ => (h.ok e).opMoved, fun e _ => (h.error e).opMoved⟩

/-- Each single change of an action. -/
theorem ofStep {k : Op.Kind} {s t : State} (h : OpStep c p k s t) : Under c p s t := fun hs => by
  cases h with
  | @bus b h =>
    refine ⟨fun q hq => by simp [hq], ?_, by simp, by simp, by simp, by simp, by simp, by simp, by simp⟩
    rw [State.bus_setBus_same, hs]
    exact h.opWrote
  | decided => exact ⟨fun q _ => by simp, by simpa using .refl _ _, rfl, rfl, rfl, rfl, rfl, rfl, fun h => Memory.decided_wf _ _ h⟩
  | _ => exact ⟨fun q _ => by simp, by simpa using .refl _ _, rfl, rfl, rfl, rfl, rfl, rfl, id⟩

theorem pure (a : α) : Keeps (Under c p) (pure a : M α) := Keeps.pure chain a

theorem bind {m : M α} {f : α → M β} (hm : Keeps (Under c p) m) (hf : ∀ a, Keeps (Under c p) (f a)) :
    Keeps (Under c p) (m >>= f) := Keeps.bind chain hm hf

/-- Every action. -/
theorem op (o : Op) (ha : o.Allowed c) : Keeps (Under c p) (o.run c p) := by
  by_cases h : o.kind = .round
  · rw [Op.eq_polledRound h]
    exact bind (bind (ofEngine (EngineMoved.engineEntry p)) fun _ => bind (Keeps.lookBus chain p _) fun _ => pure _) fun _ => pure _
  · exact Op.keeps chain h ha ofStep

end OpMoved

end Sys2Proof.Machine
end

section
/-! Threads (20_memory R93): what a thread's next action is, from its call's program and the answers so far. -/

namespace Sys2Proof.Machine

variable {α : Type}

/-- A find of a handle's instance: it changes nothing, and answers the instance or is refused. -/
def Finds (d : Nat) (m : M Ans) : Prop :=
  ∀ s, (∃ y, s.inst d = some y ∧ m s = .ok (.inst y) s) ∨ ∃ r, m s = .error (.refusal r) s

theorem Finds.keeps {R : State → State → Prop} {d : Nat} {m : M Ans} (h : Finds d m) (hR : Chain R) : Keeps R m where
  ok := fun {s t a} e => by
    obtain ⟨y, -, h⟩ | ⟨r, h⟩ := h s
    · rw [h] at e
      cases e
      exact hR.refl _
    · rw [h] at e
      cases e
  error := fun {s t x} e => by
    obtain ⟨y, -, h⟩ | ⟨r, h⟩ := h s
    · rw [h] at e
      cases e
    · rw [h] at e
      cases e
      exact hR.refl _

theorem finds_getInst (d : Nat) : Finds d (do return .inst (← getInst d)) := fun s => by
  cases h : s.inst d with
  | some y =>
    have hg : getInst d s = .ok y s := by simp [getInst, run_bind, h]
    exact .inl ⟨y, rfl, run_bind_ok hg⟩
  | none =>
    have hg : getInst d s = .error (.refusal .noInstance) s := by simp [getInst, run_bind, h]
    exact .inr ⟨_, run_bind_error hg⟩

theorem finds_uninitTests (d : Nat) : Finds d (do return .inst (← uninitTests d)) := fun s => by
  cases h : s.inst d with
  | none =>
    have hg : uninitTests d s = .error (.refusal .notOpen) s := by simp [uninitTests, run_bind, h]
    exact .inr ⟨_, run_bind_error hg⟩
  | some y =>
    have hg : uninitTests d s = .ok y s ∨ ∃ r, uninitTests d s = .error (.refusal r) s := by
      simp only [uninitTests, run_bind, run_look, h, run_lookBus, id, run_require]
      by_cases h₁ : ((s.bus y.port).refs != 0) = true
      · rw [if_pos h₁]
        by_cases h₂ : ((s.bus y.port).lock == .free) = true
        · simp [h₂]
        · simp [h₂]
      · simp [h₁]
    obtain hg | ⟨r, hg⟩ := hg
    · exact .inl ⟨y, rfl, run_bind_ok hg⟩
    · exact .inr ⟨r, run_bind_error hg⟩

theorem finds_refuse (d : Nat) (r : Refusal) : Finds d (do refuse r; return .unit) := fun _ => .inr ⟨r, rfl⟩

/-- The first action of a program that finds its instance. -/
theorem Prog.FindsFirst.first {c : Config} {d : Nat} {ks : List Op.Kind} {x : Prog Unit} (h : x.FindsFirst c d ks) :
    ∃ m k, x = .act m k ∧ Finds d m ∧ ∀ y, (k (.inst y)).Uses c y.port ks := by
  cases h with
  | refused r => exact ⟨_, _, rfl, finds_refuse d r, fun _ => .ret _⟩
  | finds hm hg =>
    obtain rfl | rfl := hm
    · exact ⟨_, _, rfl, finds_getInst d, hg⟩
    · exact ⟨_, _, rfl, finds_uninitTests d, hg⟩

/-- Whatever the first action was answered. -/
theorem Prog.FindsFirst.rest {c : Config} {d : Nat} {ks : List Op.Kind} {x : Prog Unit} (h : x.FindsFirst c d ks)
    (y : Ans) (ys : List Ans) : (x.after (y :: ys)).Uses c y.toInst.port ks := by
  cases h with
  | refused r => exact Prog.All.after (.ret _) ys
  | finds hm hg => exact Prog.All.after (hg _) ys

/-- What a thread's next action is. -/
inductive Thread.Acts (c : Config) (x : Thread) (m : M Ans) (rest : Ans → Prog Unit) : Prop where
  /-- OP_INIT's one action -/
  | opens (q : Port) (call : x.call = .opInit q) (past : x.past = []) (o : Op) (kind : o.kind ∈ [.openPort, .refuse])
    (allowed : o.Allowed c) (run : m = o.run c q) (last : ∀ a, (rest a).isOver = true)
  /-- the find of a call's instance -/
  | finds (d : Nat) (call : ∀ q, x.call ≠ .opInit q) (past : x.past = [])
    (port : ∀ s : State, s.portOf x.call = (s.inst d).map (·.port)) (run : Finds d m)
  /-- an action on the port of the instance found -/
  | goes (call : ∀ q, x.call ≠ .opInit q) (y : Ans) (ys : List Ans) (past : x.past = y :: ys) (o : Op)
    (kind : o.kind ∈ Op.callKinds) (allowed : o.Allowed c) (run : m = o.run c y.toInst.port)

theorem Thread.next_acts {c : Config} {x : Thread} {m : M Ans} {rest : Ans → Prog Unit} (h : x.next c = some (m, rest)) :
    x.Acts c m rest := by
  unfold Thread.next at h
  split at h
  · cases h
  rename_i f hf
  split at h
  case h_2 => cases h
  rename_i m' k hk
  cases h
  by_cases hi : ∃ q, x.call = .opInit q
  · obtain ⟨q, hq⟩ := hi
    rw [hq] at hf
    cases hf
    cases hp : x.past with
    | nil =>
      rw [hp, Prog.after_nil] at hk
      have hall := opInit_uses c q
      rw [hk] at hall
      obtain ⟨⟨o, ho, ha, hm⟩, -⟩ := (by cases hall; exact ⟨‹_›, ‹_›⟩ :
        (∃ o : Op, o.kind ∈ _ ∧ o.Allowed c ∧ m = o.run c q) ∧ _)
      refine .opens q hq hp o ho ha hm fun a => ?_
      unfold opInit offered act at hk
      split at hk <;> cases hk <;> rfl
    | cons y ys =>
      rw [hp] at hk
      unfold opInit offered act at hk
      split at hk <;> cases ys <;> cases hk
  · have hne : ∀ q, x.call ≠ .opInit q := fun q hq => hi ⟨q, hq⟩
    obtain ⟨d, hx, hport⟩ := programOf_findsFirst hne hf
    cases hp : x.past with
    | nil =>
      rw [hp, Prog.after_nil] at hk
      obtain ⟨m', k', he, hm, -⟩ := hx.first
      rw [he] at hk
      cases hk
      exact .finds d hne hp hport hm
    | cons y ys =>
      have hall := hx.rest y ys
      rw [← hp, hk] at hall
      cases hall with
      | act hm _ =>
        obtain ⟨o, ho, ha, hm⟩ := hm
        exact .goes hne y ys hp o ho ha hm

/-- A thread's next action is an action on some port, or changes nothing. -/
theorem Thread.Acts.moved {c : Config} {x : Thread} {m : M Ans} {rest : Ans → Prog Unit} (h : x.Acts c m rest) :
    ∃ p, Keeps (OpMoved.Under c p) m := by
  cases h with
  | opens q _ _ o _ ha hm _ => exact ⟨q, hm ▸ OpMoved.op o ha⟩
  | goes _ y _ _ o _ ha hm => exact ⟨y.toInst.port, hm ▸ OpMoved.op o ha⟩
  | finds d _ _ _ hm => exact ⟨.i2c1, hm.keeps OpMoved.chain⟩

/-- A placed thread's next action is on its port. -/
theorem Thread.Acts.onPort {c : Config} {x : Thread} {m : M Ans} {rest : Ans → Prog Unit} (h : x.Acts c m rest)
    (hx : x.Placed) {s : State} {p : Port} (hp : s.threadPort x = some p) : Keeps (OpMoved.Under c p) m := by
  cases h with
  | opens q hq hpast o _ ha hm _ =>
    rw [State.threadPort, hpast, hq] at hp
    cases hp
    exact hm ▸ OpMoved.op o ha
  | finds d _ _ _ hm => exact hm.keeps OpMoved.chain
  | goes hcall y ys hpast o _ ha hm =>
    rw [State.threadPort, hpast] at hp
    obtain hnil | ⟨q, hq⟩ := hx
    · rw [hnil] at hpast
      cases hpast
    · obtain ⟨z, zs, hz, hzp⟩ := hq.first hcall (by rw [hpast]; simp)
      have hqp : q = p := Option.some.inj (hq.port.symm.trans hp)
      rw [hpast] at hz
      cases hz
      rw [← hqp, ← hzp]
      exact hm ▸ OpMoved.op o ha

end Sys2Proof.Machine
end

section
/-! Moves of agents beside an instruction (60_exceptions R403, R404, R406; 20_memory R93): how a thread's move ends, what it
leaves, and that only a fault on the instruction's own port stops it. -/

namespace Sys2Proof.Machine

/-! How a move ends. -/

theorem beside_ok_inv {own q : Option Port} {m : M Unit} {s t : State} {u : Unit} (h : beside own q m s = .ok u t) :
    m s = .ok () t ∨ ∃ e v, m s = .error e v ∧ t = v.stopped e q := by
  unfold beside at h
  split at h
  · cases h
    exact .inl ‹_›
  · split at h
    · cases h
    · cases h
      exact .inr ⟨_, _, ‹_›, rfl⟩
  · cases h
    exact .inr ⟨_, _, ‹_›, rfl⟩

/-- What a thread's move left, by how its action ended. -/
inductive ThreadMoved (s : State) (k : Nat) (x : Thread) (m : M Ans) (rest : Ans → Prog Unit) (t : State) : Prop where
  | answered (a : Ans) (v : State) (run : m s = .ok a v) (left : t = v.answered k x a (rest a).isOver)
  | waits (run : m s = .error .lockWait t)
  | faulted (f : Fault) (v : State) (run : m s = .error (.fault f) v)
    (left : t = (v.withThreads (v.threads.eraseIdx k)).stopped (.fault f) (s.threadPort x))
  | refused (r : Refusal) (v : State) (run : m s = .error (.refusal r) v)
    (left : t = (((v.givenBack x).withThreads (v.threads.eraseIdx k)).withReturned
      (v.returned ++ [⟨x.call, .refused r⟩])).stopped (.refusal r) (s.threadPort x))

theorem moveThread_ok_inv {own : Option Port} {k : Nat} {s t : State} {u : Unit} (h : moveThread own k s = .ok u t) :
    t = s ∨ ∃ x m rest, s.threads[k]? = some x ∧ x.next s.cfg = some (m, rest) ∧ ThreadMoved s k x m rest t := by
  simp only [moveThread, run_bind, run_look] at h
  cases hk : s.threads[k]? with
  | none =>
    rw [hk] at h
    cases h
    exact .inl rfl
  | some x =>
    rw [hk] at h
    simp only [run_bind, run_look] at h
    cases hn : x.next s.cfg with
    | none =>
      rw [hn] at h
      cases h
      exact .inl rfl
    | some n =>
      obtain ⟨m, rest⟩ := n
      rw [hn] at h
      simp only [run_bind, run_look, run_onlyIf] at h
      split at h
      case isFalse =>
        cases h
        exact .inl rfl
      case isTrue =>
        refine .inr ⟨x, m, rest, rfl, hn, ?_⟩
        obtain hm | ⟨e, v, hm, rfl⟩ := beside_ok_inv h
        · unfold threadAction at hm
          split at hm
          · cases hm
            exact .answered _ _ ‹_› rfl
          · cases hm
            exact .waits ‹_›
          · cases hm
          · cases hm
        · unfold threadAction at hm
          split at hm
          · cases hm
          · cases hm
          · cases hm
            exact .faulted _ _ ‹_› rfl
          · cases hm
            exact .refused _ _ ‹_› rfl

/-- Only a fault of an entry of the instruction's port, or of a thread on it, stops an instruction from beside. -/
theorem runAgent_error_inv {own : Option Port} {a : Agent} {s t : State} {e : Stop} (h : runAgent own a s = .error e t) :
    ∃ p f, own = some p ∧ e = .fault f ∧
      (a = .entry p ∨ ∃ k x, a = .thread k ∧ s.threads[k]? = some x ∧ s.threadPort x = some p) := by
  cases a with
  | entry p =>
    simp only [runAgent, run_bind, run_look, run_onlyIf] at h
    split at h
    · obtain ⟨hq, -, f, he, -⟩ := beside_error_inv h
      exact ⟨p, f, hq.symm, he, .inl rfl⟩
    · cases h
  | thread k =>
    simp only [runAgent, moveThread, run_bind, run_look] at h
    cases hk : s.threads[k]? with
    | none =>
      rw [hk] at h
      cases h
    | some x =>
      rw [hk] at h
      simp only [run_bind, run_look] at h
      cases hn : x.next s.cfg with
      | none =>
        rw [hn] at h
        cases h
      | some n =>
        rw [hn] at h
        simp only [run_bind, run_look, run_onlyIf] at h
        split at h
        · obtain ⟨hq, hs, f, he, -⟩ := beside_error_inv h
          obtain ⟨p, hp⟩ := Option.isSome_iff_exists.1 hs
          exact ⟨p, f, hq ▸ hp, he, .inr ⟨k, x, rfl, hk, hp⟩⟩
        · cases h
  | caller =>
    obtain ⟨u, hu⟩ := beginCall_ok s
    rw [runAgent, hu] at h
    cases h
  | store =>
    obtain ⟨u, hu⟩ := outsideStore_ok s
    rw [runAgent, hu] at h
    cases h

theorem runAgents_append (own : Option Port) (xs ys : List Agent) (s : State) :
    runAgents own (xs ++ ys) s = (runAgents own xs >>= fun _ => runAgents own ys) s := by
  induction xs generalizing s with
  | nil => rfl
  | cons x xs ih =>
    simp only [List.cons_append, runAgents]
    rw [run_bind, run_bind, run_bind]
    cases runAgent own x s with
    | ok u v => simp only [ih, run_bind]
    | error e v => rfl

/-- A point between two actions stops a call by a fault only. -/
theorem runAgents_error_inv {own : Option Port} {as : List Agent} {s t : State} {e : Stop}
    (h : runAgents own as s = .error e t) : ∃ p f, own = some p ∧ e = .fault f := by
  induction as generalizing s with
  | nil => cases h
  | cons a as ih =>
    obtain h | ⟨_, u, -, h⟩ := bind_error_inv h
    · obtain ⟨p, f, hp, hf, -⟩ := runAgent_error_inv h
      exact ⟨p, f, hp, hf⟩
    · exact ih h

theorem window_error_inv {own : Option Port} {s t : State} {e : Stop} (h : window own s = .error e t) :
    ∃ p f, own = some p ∧ e = .fault f := by
  simp only [window, run_bind, run_look] at h
  split at h
  · exact runAgents_error_inv h
  · cases h

/-! What a thread's move leaves. -/

@[simp] theorem State.stopped_bus (s : State) (e : Stop) (p : Port) :
    (s.stopped e (some p)).bus p = (s.bus p).stopped e := by
  simp [State.stopped]

theorem State.stopped_bus_of_ne (s : State) (e : Stop) {o : Option Port} {q : Port} (h : o ≠ some q) :
    (s.stopped e o).bus q = s.bus q := by
  cases o with
  | none => simp [State.stopped]
  | some p => simp [State.stopped, show q ≠ p from fun hq => h (by rw [hq])]

@[simp] theorem State.stopped_threads (s : State) (e : Stop) (o : Option Port) : (s.stopped e o).threads = s.threads := by
  cases o <;> simp [State.stopped]

@[simp] theorem State.answered_bus (s : State) (k : Nat) (x : Thread) (a : Ans) (d : Bool) (q : Port) :
    (s.answered k x a d).bus q = s.bus q := by
  unfold State.answered
  split <;> simp

/-- What a refused call gives back lies on its thread's port. -/
theorem State.givenBack_bus_of_ne (s : State) {x : Thread} {q : Port} (h : x.port ≠ some q) :
    (s.givenBack x).bus q = s.bus q := by
  have hne {p : Port} (hp : x.port = some p) : q ≠ p := fun hq => h (by rw [hp, hq])
  unfold State.givenBack
  split
  · rename_i hp _
    simp [hne hp]
  · rename_i hp _
    simp [hne hp]
  · rfl

theorem State.givenBack_of_past_nil (s : State) {x : Thread} (h : x.past = []) : s.givenBack x = s := by
  unfold State.givenBack
  rw [h]
  cases x.port <;> rfl

/-- Marks are set by stops only. -/
theorem State.givenBack_faulted (s : State) (x : Thread) (q : Port) : ((s.givenBack x).bus q).faulted = (s.bus q).faulted := by
  have hb (p : Port) : ((s.setBus p (s.bus p).released).bus q).faulted = (s.bus q).faulted := by
    by_cases hq : q = p
    · subst hq
      rw [State.bus_setBus_same]
      rfl
    · rw [State.bus_setBus_of_ne _ _ hq]
  unfold State.givenBack
  split
  · simpa using hb _
  · simpa using hb _
  · rfl

/-- The thread after an answer, where its call is not over. -/
theorem mem_answered_threads {s : State} {k : Nat} {x y : Thread} {a : Ans} {d : Bool}
    (h : y ∈ (s.answered k x a d).threads) :
    y ∈ s.threads ∨ d = false ∧ y = { x with port := portFound (x.past ++ [a]), past := x.past ++ [a] } := by
  unfold State.answered at h
  split at h
  · exact .inl (List.mem_of_mem_eraseIdx (by simpa using h))
  · exact (List.mem_or_eq_of_mem_set (by simpa using h)).imp id fun h => ⟨Bool.eq_false_iff.2 ‹_›, h⟩

/-- A thread that goes on is placed on the port it acted on. -/
theorem Thread.Acts.answered_placed {c : Config} {x : Thread} {m : M Ans} {rest : Ans → Prog Unit} (h : x.Acts c m rest)
    (hx : x.Placed) {s v : State} {a : Ans} (hm : m s = .ok a v) (hd : (rest a).isOver = false) :
    let y : Thread := { x with port := portFound (x.past ++ [a]), past := x.past ++ [a] }
    y.Placed ∧ y.port = s.threadPort x := by
  cases h with
  | opens _ _ _ _ _ _ _ hlast => exact absurd (hlast a) (by simp [hd])
  | finds d hcall hpast hport hf =>
    obtain ⟨y, hy, hr⟩ | ⟨r, hr⟩ := hf s
    · rw [hr] at hm
      cases hm
      have hport' : s.threadPort x = some y.port := by rw [State.threadPort, hpast, hport, hy]; rfl
      refine ⟨.inr ⟨y.port, ?_, fun q hq => absurd hq (hcall q), fun _ _ => ⟨y, [], ?_, rfl⟩⟩, ?_⟩
      · simp [hpast, portFound]
      · simp [hpast]
      · rw [hport', hpast]
        rfl
    · rw [hr] at hm
      cases hm
  | goes hcall y ys hpast o _ _ _ =>
    obtain hnil | ⟨p, hp⟩ := hx
    · rw [hnil] at hpast
      cases hpast
    · obtain ⟨z, zs, hz, hzp⟩ := hp.first hcall (by rw [hpast]; simp)
      refine ⟨.inr ⟨p, ?_, fun q hq => absurd hq (hcall q), fun _ _ => ⟨z, zs ++ [a], by simp [hz], hzp⟩⟩, ?_⟩
      · simp [hz, portFound, hzp]
      · rw [State.threadPort, hpast]
        simp only [hp.port]
        rw [← hpast, hz]
        simp [portFound, hzp]

/-- A placed thread's move touches its port's Bus State only, and leaves it placed. -/
theorem moveThread_placed {own : Option Port} {k : Nat} {x : Thread} {s t : State} {u : Unit}
    (hk : s.threads[k]? = some x) (hx : x.Placed) (h : moveThread own k s = .ok u t) :
    (∀ q, s.threadPort x ≠ some q → t.bus q = s.bus q) ∧
      ∀ y ∈ t.threads, y ∈ s.threads ∨ y.Placed ∧ y.port = s.threadPort x := by
  obtain rfl | ⟨x', m, rest, hk', hn, hmv⟩ := moveThread_ok_inv h
  · exact ⟨fun _ _ => rfl, fun _ hy => .inl hy⟩
  rw [hk] at hk'
  cases hk'
  have hacts := Thread.next_acts hn
  have keeps : (∀ {v a}, m s = .ok a v → (∀ q, s.threadPort x ≠ some q → v.bus q = s.bus q) ∧ v.threads = s.threads) ∧
      ∀ {v e}, m s = .error e v → (∀ q, s.threadPort x ≠ some q → v.bus q = s.bus q) ∧ v.threads = s.threads := by
    cases hp : s.threadPort x with
    | some p =>
      have hkp := hacts.onPort hx hp
      exact ⟨fun hm => ⟨fun q hq => (hkp.ok hm rfl).others q fun e => hq (by rw [e]), (hkp.ok hm rfl).threads⟩,
        fun hm => ⟨fun q hq => (hkp.error hm rfl).others q fun e => hq (by rw [e]), (hkp.error hm rfl).threads⟩⟩
    | none =>
      have hf : ∃ d, Finds d m := by
        cases hacts with
        | opens q hc hpast _ _ _ _ _ =>
          rw [State.threadPort, hpast, hc] at hp
          cases hp
        | finds d _ _ _ hf => exact ⟨d, hf⟩
        | goes hcall y ys hpast _ _ _ _ =>
          rw [State.threadPort, hpast] at hp
          obtain hnil | ⟨q, hq⟩ := hx
          · rw [hnil] at hpast
            cases hpast
          · exact absurd (hq.port.symm.trans hp) (by simp)
      obtain ⟨d, hf⟩ := hf
      have hkeep : Keeps (fun s t : State => t = s) m := hf.keeps ⟨fun _ => rfl, fun h k => k.trans h⟩
      exact ⟨fun hm => by rw [hkeep.ok hm]; exact ⟨fun _ _ => rfl, rfl⟩,
        fun hm => by rw [hkeep.error hm]; exact ⟨fun _ _ => rfl, rfl⟩⟩
  cases hmv with
  | answered a v hm ht =>
    obtain ⟨hb, hth⟩ := keeps.1 hm
    subst ht
    refine ⟨fun q hq => by rw [State.answered_bus, hb q hq], fun y hy => ?_⟩
    obtain hy | ⟨hd, rfl⟩ := mem_answered_threads hy
    · exact .inl (hth ▸ hy)
    · exact .inr (hacts.answered_placed hx hm hd)
  | waits hm =>
    obtain ⟨hb, hth⟩ := keeps.2 hm
    exact ⟨hb, fun y hy => .inl (hth ▸ hy)⟩
  | faulted f v hm ht =>
    obtain ⟨hb, hth⟩ := keeps.2 hm
    subst ht
    refine ⟨fun q hq => by rw [State.stopped_bus_of_ne _ _ hq, State.withThreads_bus, hb q hq], fun y hy => .inl ?_⟩
    exact hth ▸ List.mem_of_mem_eraseIdx (by simpa using hy)
  | refused r v hm ht =>
    obtain ⟨hb, hth⟩ := keeps.2 hm
    subst ht
    refine ⟨fun q hq => ?_, fun y hy => .inl ?_⟩
    · rw [State.stopped_bus_of_ne _ _ hq, State.withReturned_bus, State.withThreads_bus]
      have hgb : (v.givenBack x).bus q = v.bus q := by
        cases hpast : x.past with
        | nil => rw [State.givenBack_of_past_nil v hpast]
        | cons y ys =>
          refine State.givenBack_bus_of_ne v fun hxq => hq ?_
          rw [State.threadPort, hpast]
          exact hxq
      rw [hgb, hb q hq]
    · exact hth ▸ List.mem_of_mem_eraseIdx (by simpa using hy)

/-- A thread's move sets no mark but its port's. -/
theorem moveThread_faulted {own : Option Port} {k : Nat} {s t : State} {u : Unit} {p : Port}
    (h : moveThread own k s = .ok u t) (h₀ : (s.bus p).faulted = false) (h₁ : (t.bus p).faulted = true) :
    ∃ x, s.threads[k]? = some x ∧ s.threadPort x = some p := by
  obtain rfl | ⟨x, m, rest, hk, hn, hmv⟩ := moveThread_ok_inv h
  · exact absurd (h₀.symm.trans h₁) (by decide)
  by_contra hno
  have hne : s.threadPort x ≠ some p := fun hp => hno ⟨x, hk, hp⟩
  obtain ⟨p', hkp⟩ := (Thread.next_acts hn).moved
  have same {v : State} (hv : OpMoved p' s v) : (v.bus p).faulted = false := by
    by_cases hp : p = p'
    · rw [hp, hv.own.faulted, ← hp, h₀]
    · rw [hv.others p hp, h₀]
  refine absurd h₁ (Bool.eq_false_iff.1 ?_)
  cases hmv with
  | answered a v hm ht =>
    rw [ht, State.answered_bus]
    exact same (hkp.ok hm rfl)
  | waits hm => exact same (hkp.error hm rfl)
  | faulted f v hm ht =>
    rw [ht, State.stopped_bus_of_ne _ _ hne, State.withThreads_bus]
    exact same (hkp.error hm rfl)
  | refused r v hm ht =>
    rw [ht, State.stopped_bus_of_ne _ _ hne, State.withReturned_bus, State.withThreads_bus, State.givenBack_faulted]
    exact same (hkp.error hm rfl)

end Sys2Proof.Machine
end

section
/-! Moves between two requests (60_exceptions R406): the one drawn entry, its stops, and the mark of every move. -/

namespace Sys2Proof.Machine

/-! An entry beside no instruction (60_exceptions R403, R404). -/

theorem beside_none_of_ok {q : Option Port} {m : M Unit} {s t : State} {u : Unit} (h : m s = .ok u t) :
    beside none q m s = .ok () t := by
  simp only [beside, h]

theorem beside_none_of_error {p : Port} {m : M Unit} {s t : State} {e : Stop} (h : m s = .error e t) :
    beside none (some p) m s = .ok () (t.stopped e (some p)) := by
  unfold beside
  rw [h]
  cases e <;> rfl

theorem canEnter_iff (s : State) (p : Port) : canEnter s p = true ↔
    s.cfg.mode = .interrupt ∧ s.intsOff = false ∧ (s.bus p).faulted = false ∧
    (s.bus p).plat.evIrq.attached = true ∧ (s.bus p).plat.erIrq.attached = true ∧
    (has (s.bus p).cr2Written s.cfg.layout.iterren = true ∨ has (s.bus p).cr2Written s.cfg.layout.itevten = true) := by
  simp [canEnter, BusState.live, and_assoc]

theorem othersBetween_of_canEnter {s : State} {p : Port} (h : canEnter s p = true) : othersBetween s = true := by
  obtain ⟨-, hi, -⟩ := (canEnter_iff s p).1 h
  have hany : anyCanEnter s = true := by cases p <;> simp [anyCanEnter, h]
  simp [othersBetween, hi, hany]

/-- Where one port's entry is drawn, the point between two requests is that entry beside no instruction. -/
theorem betweenRequests_of_entry_drawn {s u : State} {p : Port} (hp : canEnter s p = true)
    (hd : s.draws.turns.peek Config.freeTurns = [.entry p])
    (hu : u = s.withDraws { s.draws with turns := s.draws.turns.advance }) {t : State}
    (hb : beside none (some p) (engineEntry p) u = .ok () t) : s.settled = t := by
  have hup : canEnter u p = true := by
    rw [← hp, hu]
    exact canEnter_congr rfl rfl (by simp) (by simp) (by simp) (by simp)
  have hrun : betweenRequests s = .ok () t := by
    simp only [betweenRequests, run_bind, run_look, othersBetween_of_canEnter hp, if_true, run_drawTurns, hd, runAgents,
      runAgent, ← hu, hup, run_onlyIf, hb]
    rfl
  simp [State.settled, hrun]

theorem step_of_no_request {s t : State} (hs : s.settled = t) (h : t.requests = []) : step s = .next t := by
  simp [step, runRequest, hs, h]

/-- An entry drawn between two requests that stops marks its port, and the step ends there. -/
theorem step_of_entry_stopped {s u v : State} {p : Port} {e : Stop} (hr : s.requests = []) (hp : canEnter s p = true)
    (hd : s.draws.turns.peek Config.freeTurns = [.entry p])
    (hu : u = s.withDraws { s.draws with turns := s.draws.turns.advance }) (he : engineEntry p u = .error e v) :
    step s = .next (v.stopped e (some p)) ∧ ∀ q, q ≠ p → (v.stopped e (some p)).bus q = s.bus q := by
  have hs := betweenRequests_of_entry_drawn hp hd hu (beside_none_of_error he)
  have hmv := (EngineMoved.engineEntry p).error he
  refine ⟨?_, fun q hq => ?_⟩
  · refine step_of_no_request hs ?_
    have hreq := hmv.outside.requests
    rw [hu] at hreq
    simpa [State.stopped, hr] using hreq
  · rw [State.stopped_bus_of_ne _ _ (fun h => hq (Option.some.inj h).symm), hmv.others q hq, hu, State.withDraws_bus]

/-- The drawn entry, as the instruction of that name: it runs, or its port is marked. -/
theorem step_of_entry_drawn {s u : State} {p : Port} (hr : s.requests = []) (hp : canEnter s p = true)
    (hd : s.draws.turns.peek Config.freeTurns = [.entry p])
    (hu : u = s.withDraws { s.draws with turns := s.draws.turns.advance }) :
    (∀ t, exec (.engEntry p) u = .next t → step s = .next t) ∧
    (∀ f, exec (.engEntry p) u = .fault f → ∃ t, step s = .next t ∧ (t.bus p).faulted = true ∧
      ∀ q, q ≠ p → t.bus q = s.bus q) ∧
    (∀ r, exec (.engEntry p) u = .refused r → ∃ t, step s = .next t ∧ (t.bus p).refused = true ∧
      ∀ q, q ≠ p → t.bus q = s.bus q) := by
  cases h : engineEntry p u with
  | ok a t =>
    have hx : exec (.engEntry p) u = .next t := by rw [exec_engEntry, finish, h]
    have hreq : t.requests = [] := by
      have hreq := ((EngineMoved.engineEntry p).ok h).outside.requests
      rw [hu] at hreq
      simpa [hr] using hreq
    have hstep := step_of_no_request (betweenRequests_of_entry_drawn hp hd hu (beside_none_of_ok h)) hreq
    rw [hx]
    exact ⟨fun _ ht => Host.Outcome.next.inj ht ▸ hstep, (fun _ k => nomatch k), (fun _ k => nomatch k)⟩
  | error e v =>
    obtain ⟨hstep, hothers⟩ := step_of_entry_stopped hr hp hd hu h
    cases e with
    | fault f =>
      rw [show exec (.engEntry p) u = .fault f by rw [exec_engEntry, finish, h]]
      exact ⟨(fun _ k => nomatch k), fun _ _ => ⟨_, hstep, by simp [BusState.stopped], hothers⟩, (fun _ k => nomatch k)⟩
    | refusal r =>
      rw [show exec (.engEntry p) u = .refused r by rw [exec_engEntry, finish, h]]
      exact ⟨(fun _ k => nomatch k), (fun _ k => nomatch k), fun _ _ => ⟨_, hstep, by simp [BusState.stopped], hothers⟩⟩
    | lockWait => exact absurd h (engineEntry_ne_wait p u v)

/-! The marks of a move (60_exceptions R403). -/

theorem beginCall_bus {s t : State} {u : Unit} (h : beginCall s = .ok u t) (p : Port) : t.bus p = s.bus p := by
  simp only [beginCall, run_bind, run_look] at h
  cases hn : s.nextCall with
  | none =>
    rw [hn] at h
    cases h
    rfl
  | some n =>
    rw [hn] at h
    cases h
    simp

theorem outsideStore_bus {s t : State} {u : Unit} (h : outsideStore s = .ok u t) (p : Port) : t.bus p = s.bus p := by
  simp only [outsideStore, run_bind, run_look] at h
  cases hs : s.stores with
  | nil =>
    rw [hs] at h
    cases h
    rfl
  | cons c cs =>
    rw [hs] at h
    simp only [run_bind, run_upd, run_look, run_onlyIf] at h
    split at h <;> cases h <;> simp

/-- An entry sets no mark but its port's. -/
theorem besideEntry_faulted {own : Option Port} {q p : Port} {s t : State} {u : Unit}
    (h : beside own (some q) (engineEntry q) s = .ok u t) (h₀ : (s.bus p).faulted = false) (h₁ : (t.bus p).faulted = true) :
    q = p := by
  by_contra hq
  have hb : t.bus p = s.bus p := by
    obtain h | ⟨e, v, he, rfl, -⟩ := besideEntry_inv h
    · exact ((EngineMoved.engineEntry q).ok h).others p (Ne.symm hq)
    · rw [State.stopped_bus_of_ne _ _ (fun h => hq (Option.some.inj h))]
      exact ((EngineMoved.engineEntry q).error he).others p (Ne.symm hq)
  rw [hb, h₀] at h₁
  cases h₁

theorem runAgent_faulted {own : Option Port} {a : Agent} {s t : State} {u : Unit} {p : Port} (h : runAgent own a s = .ok u t)
    (h₀ : (s.bus p).faulted = false) (h₁ : (t.bus p).faulted = true) :
    a = .entry p ∨ ∃ k x, a = .thread k ∧ s.threads[k]? = some x ∧ s.threadPort x = some p := by
  cases a with
  | entry q =>
    simp only [runAgent, run_bind, run_look, run_onlyIf] at h
    split at h
    · exact .inl (congrArg Agent.entry (besideEntry_faulted h h₀ h₁))
    · cases h
      rw [h₀] at h₁
      cases h₁
  | thread k =>
    obtain ⟨x, hx⟩ := moveThread_faulted h h₀ h₁
    exact .inr ⟨k, x, rfl, hx⟩
  | caller =>
    rw [beginCall_bus h, h₀] at h₁
    cases h₁
  | store =>
    rw [outsideStore_bus h, h₀] at h₁
    cases h₁

/-! A store from outside the block (70_reset_and_hazards R461). -/

theorem outsideStore_run {s : State} {a : Nat} {v : Byte} {cs : List Host.Cell} (h : s.stores = (a, v) :: cs)
    (ha : a < 2 ^ s.cfg.addrWidth) : outsideStore s = .ok () ((s.withStores cs).stored none a v) := by
  have hadr : (s.withStores cs).hasAddress a = true := decide_eq_true ha
  simp only [outsideStore, run_bind, run_look, h, run_upd, hadr, run_onlyIf, if_true]

/-- Settles O8. -/
theorem idleStepRunsTheDrawnEntry : Obligations.IdleStepRunsTheDrawnEntry := by
  refine ⟨canEnter_iff, fun s hr ht hs hp => ?_, fun s u p hr hp hd hu => step_of_entry_drawn hr hp hd hu,
    fun own xs ys s t h => ?_, fun own k x s t hk hx h => moveThread_placed hk hx h,
    fun own a s t e h => runAgent_error_inv h, fun own a s t p h h₀ h₁ => runAgent_faulted h h₀ h₁,
    fun own s a v cs h hwf ha => ?_⟩
  · have hset := settled_of_alone (othersBetween_eq_false (.inr ⟨hp, ht, hs⟩))
    exact step_of_no_request hset hr
  · rw [runAgents_append, run_bind_ok h]
  · refine ⟨_, outsideStore_run h ha, by simp, by simp, ?_, fun b hb => ?_, ?_⟩
    · simpa using Memory.read_write_same hwf
    · simpa using Memory.read_write_ne hb
    · rintro ⟨p, m, ho, hm, h₁, h₂⟩
      have hown : (s.withStores cs).ownedByOther none a = true :=
        State.ownedByOther_of_owned (p := p) (by simp) (by simpa using ho) (by simpa using hm) h₁ h₂
      simp [State.raceOf_stored, hown]

end Sys2Proof.Machine
end

section
/-! OP_WRITE, OP_READ and OP_TRANSFER as OP_PROCESS (47_lifecycle_trace_ops R350 to R352): only a try at a held lock waits, so
the three calls differ from it in nothing but what a waiting thread would be called. -/

namespace Sys2Proof.Machine

variable {α : Type}

/-! Actions that never wait. -/

/-- The piece never waits for a lock. -/
def NeverWaits {β : Type} (m : M β) : Prop := ∀ s t, m s ≠ .error .lockWait t

namespace NeverWaits

variable {β γ : Type}

theorem of_ok {m : M β} (h : ∀ s, ∃ a t, m s = .ok a t) : NeverWaits m := by
  intro s t hw
  obtain ⟨a, u, hu⟩ := h s
  rw [hu] at hw
  cases hw

theorem pure (a : β) : NeverWaits (Pure.pure a : M β) := of_ok fun _ => ⟨_, _, rfl⟩

theorem look (f : State → β) : NeverWaits (Machine.look f) := of_ok fun _ => ⟨_, _, rfl⟩

theorem upd (f : State → State) : NeverWaits (Machine.upd f) := of_ok fun _ => ⟨_, _, rfl⟩

theorem bind {m : M β} {f : β → M γ} (hm : NeverWaits m) (hf : ∀ a, NeverWaits (f a)) : NeverWaits (m >>= f) := by
  intro s t h
  obtain h | ⟨a, u, -, h⟩ := (bind_wait_iff m f s t).1 h
  · exact hm s t h
  · exact hf a u t h

theorem ite {a : Prop} [Decidable a] {x y : M β} (hx : NeverWaits x) (hy : NeverWaits y) :
    NeverWaits (if a then x else y) := by
  split
  · exact hx
  · exact hy

theorem onlyIf {m : M Unit} (a : Bool) (hm : NeverWaits m) : NeverWaits (Machine.onlyIf a m) := ite hm (pure ())

theorem whenTracing {m : M Unit} (hm : NeverWaits m) : NeverWaits (Machine.whenTracing m) := bind (look _) fun _ => onlyIf _ hm

theorem refuse (r : Refusal) : NeverWaits (Machine.refuse r : M β) := by
  intro s t h
  cases h

end NeverWaits

/-- The kinds of actions under a lock. -/
def Op.workKinds : List Op.Kind := .store :: .answer :: .unlock :: .plat :: .line :: Prog.Uses.transferKinds

/-- Nothing waits once the lock is held. -/
theorem Op.neverWaits {c : Config} {p : Port} {o : Op}
    (h : o.kind ∈ Op.workKinds) :
    NeverWaits (o.run c p) := by
  have one {β : Type} {m : M β} {f : β → Ans} (hm : NeverWaits m) : NeverWaits (do return f (← m)) :=
    hm.bind fun _ => .pure _
  have does {m : M Unit} (hm : NeverWaits m) : NeverWaits (do m; return Ans.unit) := hm.bind fun _ => .pure _
  cases o
  case get r => exact one (regGet_ne_soft Stop.soft_lockWait p r)
  case put r v => exact does (regPut_ne_soft Stop.soft_lockWait p r v)
  case modify r clr set => exact does (regModify_ne_soft Stop.soft_lockWait p r clr set)
  case refuse r => exact does (.refuse r)
  case answer x => exact does (.upd _)
  case updInst d f => exact does (.upd _)
  case unlock x => exact does (NeverWaits.bind (.upd _) fun _ => .upd _)
  case clockOn => exact does (.upd _)
  case pulsed => exact does (.upd _)
  case pins m => exact does (.upd _)
  case irqs x => exact does (.upd _)
  case clockOff => exact does (.upd _)
  case driven l v => exact does (.upd _)
  case readPin l =>
    exact one (NeverWaits.bind (.of_ok fun s => ⟨_, _, run_drawPin s⟩) fun _ => NeverWaits.bind (.upd _) fun _ => .pure _)
  case delay => exact does (.upd _)
  case startWait msgs => exact one (NeverWaits.bind (.upd _) fun _ => .of_ok fun s => ⟨_, _, run_drawWait s⟩)
  case emit ev x => exact does (NeverWaits.whenTracing (.upd _))
  case polledRound =>
    exact one (NeverWaits.bind (engineEntry_ne_wait p) fun _ => NeverWaits.bind (.look _) fun _ => .pure _)
  case takeOrSignal => exact one (NeverWaits.bind (.look _) fun _ => .ite (NeverWaits.bind (.upd _) fun _ => .pure _) (.pure _))
  case lookDone => exact one (.look _)
  case expire =>
    exact one (NeverWaits.bind (.look _) fun _ => .ite (NeverWaits.bind (.upd _) fun _ => .pure _)
      (NeverWaits.bind (.upd _) fun _ => .pure _))
  case install msgs => exact does (.upd _)
  case traceReset => exact does (NeverWaits.whenTracing (NeverWaits.bind (.of_ok fun s => ⟨_, _, run_drawTime s⟩) fun _ => .upd _))
  case frequencyOf d x => exact one (.look _)
  case begun => exact does (.upd _)
  case handshake x => exact does (.upd _)
  case lookStatus => exact one (.look _)
  case saveFsmc => exact one (NeverWaits.bind (.look _) fun _ => NeverWaits.bind (.upd _) fun _ => .pure _)
  case restoreFsmc x => exact does (.upd _)
  case traceDump => exact does (NeverWaits.whenTracing (.upd _))
  case conclude e =>
    exact does (NeverWaits.bind (.upd _) fun _ => NeverWaits.bind (.upd _) fun _ => NeverWaits.bind (.upd _) fun _ => .upd _)
  all_goals exact absurd h (of_decide_eq_false rfl)

/-- A program whose actions never wait never waits: a point between two actions stops it by a fault only. -/
theorem drive_neverWaits {own : Option Port} {x : Prog α} (hx : x.All NeverWaits) : NeverWaits (drive own x) := by
  induction hx with
  | ret a => exact .pure a
  | act hm _ ih =>
    refine NeverWaits.bind (fun s t h => ?_) fun _ => NeverWaits.bind hm fun a => NeverWaits.bind (.upd _) fun _ => ih a
    obtain ⟨p, f, -, hf⟩ := window_error_inv h
    cases hf

/-- With no other call beside it, what follows the instance found never waits where its lock is free or a signal ends the
wait. -/
theorem drive_process_ne_wait {s t : State} (own : Option Port) (c : Config) (d : Nat) (x : Inst) (msgs : List Message)
    (hs : Solo s) (hl : (s.bus x.port).lock = .free ∨ s.noSignal = false) :
    drive own (process c d x msgs) s ≠ .error .lockWait t := by
  have hwin {u v : State} : window own u ≠ .error .lockWait v := fun h => by
    obtain ⟨p, f, -, hf⟩ := window_error_inv h
    cases hf
  by_cases hm : msgs = []
  · rw [hm]
    exact drive_neverWaits (.act (NeverWaits.bind (.refuse _) fun _ => .pure _) fun _ => .ret _) s t
  · rw [process_of_ne_nil hm]
    intro h
    obtain h | ⟨_, u, hw, h⟩ := (bind_wait_iff ..).1 h
    · exact hwin h
    have hmv := (window_moved hs hw).1
    have hlu : (u.bus x.port).lock = .free ∨ u.noSignal = false := by
      rw [State.noSignal, hmv.draws, (hmv.ports x.port).lock]
      exact hl
    obtain h | ⟨_, v, -, h⟩ := (bind_wait_iff ..).1 h
    · obtain h | ⟨_, _, -, h⟩ := (bind_wait_iff ..).1 h
      · exact tryAcquire_ne_wait hlu h
      · cases h
    · obtain h | ⟨_, v', -, h⟩ := (bind_wait_iff ..).1 h
      · cases h
      · refine drive_neverWaits ?_ _ _ h
        have rest (ok : Bool) : (if ok then runTransfer c d x msgs else returnInterrupted c).Uses c x.port
            Op.workKinds := .ite (Prog.Uses.runTransfer d x msgs).mono (.op (.answer _))
        exact Prog.Uses.all (Prog.Uses.andThen (.ret _) rest) fun o ho _ => Op.neverWaits ho

/-! The same call by another name. -/

/-- With no other call beside it, a call acts on the instance its handle is at its start. -/
theorem drive_theInst_andThen {s : State} {d : Nat} {x : Inst} (own : Option Port) (g : Inst → Prog Unit) (hs : Solo s)
    (hx : s.inst d = some x) :
    drive own ((theInst d).andThen g) s = (do window own; remember (.inst x); drive own (g x) : M Unit) s := by
  have hact : drive own ((theInst d).andThen g) =
      (do window own; let a ← (do return Ans.inst (← getInst d) : M Ans); remember a; drive own (g a.toInst) : M Unit) := rfl
  rw [hact, run_bind, run_bind]
  cases hw : window own s with
  | error e t => rfl
  | ok u t =>
    have hxt : t.inst d = some x := by rw [← hx, State.inst, State.inst, (window_moved hs hw).1.instances]
    have hget : getInst d t = .ok x t := by simp [getInst, run_bind, hxt]
    simp [run_bind, hget]
    rfl

/-- Two transfers with one chain are the same call. -/
theorem call_eq_of_isTransfer {s : State} {i j : Instr} {d : Nat} {x : Inst} {msgs : List Message}
    {f f' : Config → Prog Unit} {g g' : Inst → Prog Unit} (hs : Solo s) (hx : s.inst d = some x)
    (hl : (s.bus x.port).lock = .free ∨ s.noSignal = false) (hi : IsTransfer s i d msgs f g)
    (hj : IsTransfer s j d msgs f' g') (hpi : s.portOf i = some x.port) (hpj : s.portOf j = some x.port) :
    exec i s = exec j s := by
  have hs₀ : Solo (s.withPast []) := ⟨hs.threads, hs.requests, hs.stores⟩
  have run {k : Instr} {f₁ : Config → Prog Unit} {g₁ : Inst → Prog Unit} (hk : IsTransfer s k d msgs f₁ g₁)
      (hp : s.portOf k = some x.port) : driveCall k (f₁ s.cfg) (s.withPast []) =
        (do window (some x.port); remember (.inst x); drive (some x.port) (process s.cfg d x msgs) : M Unit)
          (s.withPast []) := by
    rw [driveCall_of_port (p := x.port) (by cases k <;> exact hp), hk.program, drive_theInst_andThen _ _ hs₀ (by simpa using hx),
      hk.process x hx]
  have hwait (t : State) : driveCall i (f s.cfg) (s.withPast []) ≠ .error .lockWait t := by
    rw [run hi hpi]
    intro h
    obtain h | ⟨_, u, hw, h⟩ := (bind_wait_iff ..).1 h
    · obtain ⟨p, e, -, he⟩ := window_error_inv h
      cases he
    · have hmv := (window_moved hs₀ hw).1
      rw [remember, run_bind, run_upd] at h
      refine drive_process_ne_wait  _ _ d x msgs ?_ ?_ h
      · exact ⟨(hmv.solo hs₀).threads, (hmv.solo hs₀).requests, (hmv.solo hs₀).stores⟩
      · rw [State.withPast_bus, (hmv.ports x.port).lock, State.withPast_bus, State.noSignal, State.withPast_draws, hmv.draws]
        exact hl
  rw [hi.exec, hj.exec]
  unfold call
  rw [run hj hpj, ← run hi hpi]
  cases h : driveCall i (f s.cfg) (s.withPast []) with
  | ok a t => rfl
  | error e t =>
    cases e with
    | lockWait => exact absurd h (hwait t)
    | fault f => rfl
    | refusal r => rfl

/-- Settles O38. -/
theorem callersAreProcess : Obligations.CallersAreProcess := by
  refine ⟨fun s d buf n x hs hx hl => ?_, fun s d msgs ha hoff => callsRefused.2.2.2 s d msgs ha hoff⟩
  have hport {i : Instr} (hi : s.portOf i = (s.inst d).map (·.port)) : s.portOf i = some x.port := by rw [hi, hx]; rfl
  have same {i : Instr} {msgs : List Message} (hi : callOf s i = some (d, msgs)) (hp : s.portOf i = (s.inst d).map (·.port)) :
      exec i s = exec (.opProcess d msgs) s := by
    obtain ⟨f, g, hf⟩ := callOf_program hi
    obtain ⟨f', g', hf'⟩ := callOf_program (s := s) (i := .opProcess d msgs) rfl
    exact call_eq_of_isTransfer hs hx hl hf hf' (hport hp) (hport rfl)
  exact ⟨same (by rw [callOf, hx]; rfl) rfl, same (by rw [callOf, hx]; rfl) rfl,
    fun msgs hon => same (by rw [callOf, if_pos hon]) rfl⟩

end Sys2Proof.Machine
end

section
/-! The parts of a transfer where nobody else moves (46_dispatcher R302 to R312): its start, the STOP-settle wait, step 8. -/

namespace Sys2Proof.Machine

/-! What only touches one port. -/

/-- Nothing but one port's Bus State, the draws, the entry's data and the remembered answers may have changed. -/
structure WithinPort (p : Port) (s t : State) : Prop where
  others : OtherPortsKept p s t
  memory : MemoryKept s t
  outside : OutsideKept s t

namespace WithinPort

variable {p : Port} {s t u : State}

theorem refl (p : Port) (s : State) : WithinPort p s s := ⟨fun _ _ => rfl, ⟨fun _ => rfl, rfl⟩, .refl s⟩

theorem trans (h : WithinPort p s t) (k : WithinPort p t u) : WithinPort p s u :=
  ⟨fun q hq => (k.others q hq).trans (h.others q hq),
    ⟨fun a => (k.memory.bytes a).trans (h.memory.bytes a), k.memory.races.trans h.memory.races⟩, h.outside.trans k.outside⟩

theorem changed (s : State) (p : Port) (f : BusState → BusState) : WithinPort p s (s.changed p f) :=
  ⟨(State.setBus_frame _ _ _).1, (State.setBus_frame _ _ _).2.1, (State.setBus_frame _ _ _).2.2⟩

theorem draws (s : State) (p : Port) (x : Draws) : WithinPort p s (s.withDraws x) :=
  ⟨fun _ _ => State.withDraws_bus .., ⟨fun _ => rfl, rfl⟩, by constructor <;> rfl⟩

theorem past (s : State) (p : Port) (xs : List Ans) : WithinPort p s (s.withPast xs) :=
  ⟨fun _ _ => State.withPast_bus .., ⟨fun _ => rfl, rfl⟩, by constructor <;> rfl⟩

theorem gotReg (s : State) (p : Port) (r : Reg) : WithinPort p s (s.gotReg p r) :=
  (changed s p (·.record (.rd r (s.regAt 0)))).trans (draws _ p _)

theorem putReg (s : State) (p : Port) (r : Reg) (v : Half) : WithinPort p s (s.putReg p r v) := changed s p (·.put r v)

theorem modReg (s : State) (p : Port) (r : Reg) (clr set : Half) : WithinPort p s (s.modReg p r clr set) :=
  (gotReg s p r).trans (putReg _ p r _)

theorem emittedEv (s : State) (p : Port) (ev : EvName) (x : Int) : WithinPort p s (s.emittedEv p ev x) := by
  unfold State.emittedEv
  split
  · exact changed s p (·.emitted ev x)
  · exact refl p s

theorem clockDone (s : State) (c : Config) (p : Port) (fp ft : Nat) : WithinPort p s (s.clockDone c p fp ft) :=
  ⟨(s.clockDone_frame c p fp ft).others, s.clockDone_memory c p fp ft, (s.clockDone_frame c p fp ft).outside⟩

end WithinPort

/-! The start (R303 to R306). -/

/-- The state TRACE_RESET leaves (47_lifecycle_trace_ops R345). -/
def State.traceWiped (s : State) (p : Port) : State :=
  if s.cfg.traceOn then
    (s.changed p fun b => { b with trace := b.trace.cleared s.now }).withDraws s.nowDrawn
  else s

theorem traceReset_run (p : Port) (s : State) : traceReset p s = .ok () (s.traceWiped p) := by
  unfold State.traceWiped
  cases hon : s.cfg.traceOn with
  | true =>
    rw [traceReset_run_on p hon]
    rfl
  | false => exact whenTracing_off _ hon

theorem State.traceWiped_withPast (s : State) (p : Port) (xs : List Ans) :
    (s.withPast xs).traceWiped p = (s.traceWiped p).withPast xs := by
  unfold State.traceWiped
  rw [State.withPast_cfg, State.changed_withPast]
  split <;> rfl

theorem WithinPort.traceWiped (s : State) (p : Port) : WithinPort p s (s.traceWiped p) := by
  unfold State.traceWiped
  split
  · exact (WithinPort.changed s p _).trans (.draws _ p _)
  · exact .refl p s

/-- TRACE_RESET changes nothing of the Bus State but the ring. -/
theorem State.traceWiped_bus (s : State) (p : Port) : ∃ t, (s.traceWiped p).bus p = { s.bus p with trace := t } := by
  unfold State.traceWiped
  split
  · exact ⟨(s.bus p).trace.cleared s.now, by simp⟩
  · exact ⟨(s.bus p).trace, rfl⟩

@[simp] theorem State.regAt_traceWiped (s : State) (p : Port) (k : Nat) : (s.traceWiped p).regAt k = s.regAt k := by
  unfold State.traceWiped
  split
  · rfl
  · rfl

theorem Calm.traceWiped {Q : State → Prop} (hQ : Calm Q) {s : State} (h : Q s) (p : Port) : Q (s.traceWiped p) := by
  unfold State.traceWiped
  split
  · exact hQ.draws _ (hQ.changed h rfl rfl rfl rfl)
  · exact h

/-- The state in which the clock programmer starts: SR1 cleared, START, STOP and PEC cleared, the chain installed, the ring
fresh (R303 to R305). -/
def State.installed (s : State) (p : Port) (msgs : List Message) : State :=
  ((((s.putReg p .sr1 0).modReg p .cr1 (startStopPec s.cfg.layout) 0).changed p (·.install msgs)).traceWiped p)

/-- The state after the START (R306). -/
def State.started (s : State) (x : Inst) (msgs : List Message) : State :=
  (((s.installed x.port msgs).clockDone s.cfg x.port s.cfg.pclk x.frequency).changed x.port (·.begun)).modReg x.port .cr1 0
    (bit s.cfg.layout.start)

theorem State.installed_bus (s : State) (p : Port) (msgs : List Message) : ∃ t, (s.installed p msgs).bus p =
    { ((((s.bus p).put .sr1 0).record (.rd .cr1 (s.regAt 0))).put .cr1
        (modified (s.regAt 0) (startStopPec s.cfg.layout) 0)).install msgs with trace := t } := by
  obtain ⟨t, ht⟩ := State.traceWiped_bus
    (((s.putReg p .sr1 0).modReg p .cr1 (startStopPec s.cfg.layout) 0).changed p (·.install msgs)) p
  rw [State.changed_bus, State.modReg_bus, State.putReg_bus, State.regAt_putReg] at ht
  exact ⟨t, ht⟩

theorem WithinPort.installed (s : State) (p : Port) (msgs : List Message) : WithinPort p s (s.installed p msgs) :=
  (((WithinPort.putReg s p .sr1 0).trans (.modReg _ p .cr1 _ 0)).trans (.changed _ p (·.install msgs))).trans (.traceWiped _ p)

@[simp] theorem State.regAt_installed (s : State) (p : Port) (msgs : List Message) (k : Nat) :
    (s.installed p msgs).regAt k = s.regAt (k + 1) := by
  simp [State.installed]

theorem WithinPort.started (s : State) (x : Inst) (msgs : List Message) : WithinPort x.port s (s.started x msgs) :=
  (((WithinPort.installed s x.port msgs).trans (.clockDone ..)).trans (.changed ..)).trans (.modReg ..)

theorem Prog.Ends.startTransfer {Q : State → Prop} (hQ : Calm Q) {s : State} {d : Nat} {x : Inst} (msgs : List Message)
    (h : Q s) (hx : s.inst d = some x) (hc : (s.bus x.port).plat.clkEn = true) (hf : ClockFits s.cfg x.frequency) :
    (Machine.startTransfer s.cfg d x msgs false).Ends s () (s.started x msgs) := by
  have h₁ := hQ.putReg h x.port (r := .sr1) 0 (by decide)
  have h₂ := hQ.modReg h₁ x.port (r := .cr1) (startStopPec s.cfg.layout) 0 (by decide)
  have h₃ : Q (((s.putReg x.port .sr1 0).modReg x.port .cr1 (startStopPec s.cfg.layout) 0).changed x.port (·.install msgs)) :=
    hQ.changed h₂ rfl rfl rfl rfl
  have h₄ : Q (s.installed x.port msgs) := hQ.traceWiped h₃ x.port
  obtain ⟨tr, hb⟩ := s.installed_bus x.port msgs
  have hc₄ : ((s.installed x.port msgs).bus x.port).plat.clkEn = true := by simpa [hb, BusState.install] using hc
  have h₅ : Q ((s.installed x.port msgs).clockDone s.cfg x.port s.cfg.pclk x.frequency) := hQ.clockDone h₄
  have h₆ : Q (((s.installed x.port msgs).clockDone s.cfg x.port s.cfg.pclk x.frequency).changed x.port (·.begun)) :=
    hQ.changed h₅ rfl rfl rfl rfl
  have hi : (s.installed x.port msgs).inst d = some x := by
    rw [← hx, State.inst, State.inst, (WithinPort.installed s x.port msgs).outside.instances]
  refine (Ends.ret () s).andThen <| (Ends.put (hQ.quiet h) rfl (by decide) hc).andThen <|
    (Ends.modify (hQ.quiet h₁) rfl (by simpa using hc)).andThen <| (Ends.write (hQ.quiet h₂)).andThen <|
    (Ends.act (t := s.installed x.port msgs) (hQ.quiet h₃) fun xs => ?_).andThen <|
    (Ends.askNum (v := x.frequency) (t := s.installed x.port msgs) (hQ.quiet h₄) fun xs => ?_).andThen <|
    (Ends.clkProgram hQ h₄ hc₄ (clockRefusal_eq_none hf)).andThen <|
    (Ends.write (hQ.quiet h₅)).andThen (Ends.modify (hQ.quiet h₆) rfl ?_)
  · rw [traceReset_run, State.traceWiped_withPast]
    rfl
  · simp [frequencyOf, hi]
  · simpa [State.clockDone_bus, BusState.begun] using hc₄

/-- Settles O40: the accesses and fields are those of the state the run of `startTransfer` ends in. -/
theorem transferStartAccesses : Obligations.TransferStartAccesses := by
  rintro s p d x msgs ha hx rfl hc hf
  obtain ⟨ys, hrun⟩ := (Prog.Ends.startTransfer calm_alone msgs ha hx hc hf).drive_self (some x.port)
  obtain ⟨tr, hb⟩ := s.installed_bus x.port msgs
  have hw : WithinPort x.port s ((s.started x msgs).withPast ys) := (WithinPort.started s x msgs).trans (.past _ _ ys)
  refine ⟨_, hrun, ?_, ?_, ?_, ?_, ?_, ?_, ?_, ?_, ?_, ?_, ?_, ?_, hw.others, hw.memory, hw.outside⟩
  all_goals simp [State.started, hb, State.clockDone_bus, BusState.install, BusState.begun, clockEvs, modEvs, startStopPec, modified]

end Sys2Proof.Machine
end

section
/-! The STOP-settle wait (46_dispatcher R302, R310) and step 8 (R311, R312) where nobody else moves. -/

namespace Sys2Proof.Machine

/-! The STOP-settle loop. -/

/-- What a round appends to the history where its reads answer `v` and `w`, `es` being what follows it where it goes on. -/
def settleRoundEvs (c : Config) (v w : Half) (es : List Event) : List Event :=
  .rd .cr1 v :: if has v c.layout.stop then .rd .sr1 w :: if has w c.layout.timeout then [] else es else []

/-- What the loop appends with a number of further rounds, the register reads answering `r 0`, `r 1` and so on. -/
def settleEvs (c : Config) (r : Nat → Half) : Nat → List Event
  | 0 => settleRoundEvs c (r 0) (r 1) (evs c .stopSettleTimeout (r 0).toNat)
  | n + 1 => settleRoundEvs c (r 0) (r 1) (settleEvs c (fun k => r (k + 2)) n)

/-- One round of the loop, and what follows it where it goes on. -/
def settleRound (c : Config) (p : Port) (x : Half → Prog Unit) : Prog Unit :=
  (get p .cr1).andThen fun v =>
  if has v c.layout.stop then
    (get p .sr1).andThen fun w => if has w c.layout.timeout then .ret () else x v
  else .ret ()

theorem settleLoop_zero (c : Config) (p : Port) :
    settleLoop c p 0 = settleRound c p fun v => act (emit p .stopSettleTimeout v.toNat) := rfl

theorem settleLoop_succ (c : Config) (p : Port) (n : Nat) :
    settleLoop c p (n + 1) = settleRound c p fun _ => settleLoop c p n := rfl

/-- Nothing written but the history and the recorder, of one port. -/
structure ReadsOnly (p : Port) (es : List Event) (s t : State) : Prop where
  frame : EngineFrame p [] [] s t
  memory : MemoryKept s t
  hist : (t.bus p).hist = (s.bus p).hist ++ es

namespace ReadsOnly

variable {p : Port} {es fs : List Event} {s t u : State}

theorem refl (p : Port) (s : State) : ReadsOnly p [] s s :=
  ⟨⟨KeptBut.of_eq List.prefix_rfl rfl fun f _ => by cases f <;> rfl, fun _ _ => rfl, .refl s⟩, ⟨fun _ => rfl, rfl⟩, by simp⟩

theorem trans (h : ReadsOnly p es s t) (k : ReadsOnly p fs t u) : ReadsOnly p (es ++ fs) s u :=
  ⟨(h.frame.trans k.frame).mono (by simp) (by simp),
    ⟨fun a => (k.memory.bytes a).trans (h.memory.bytes a), k.memory.races.trans h.memory.races⟩,
    by rw [k.hist, h.hist, List.append_assoc]⟩

theorem gotReg (s : State) (p : Port) (r : Reg) : ReadsOnly p [.rd r (s.regAt 0)] s (s.gotReg p r) :=
  ⟨.gotReg s p r, ⟨by simp, by simp⟩, by simp⟩

theorem emittedEv (s : State) (p : Port) (ev : EvName) (x : Int) : ReadsOnly p (evs s.cfg ev x) s (s.emittedEv p ev x) :=
  ⟨.emittedEv s p ev x, ⟨by simp, by simp⟩, by simp⟩

theorem clock (h : ReadsOnly p es s t) (hc : (s.bus p).plat.clkEn = true) : (t.bus p).plat.clkEn = true := by
  rw [h.frame.port.engine.plat, hc]

end ReadsOnly

namespace Prog.Ends

variable {Q : State → Prop} (hQ : Calm Q) {p : Port}
include hQ

theorem settleRound {s : State} {x : Half → Prog Unit} {es : List Event} (h : Q s) (hc : (s.bus p).plat.clkEn = true)
    (hx : Q ((s.gotReg p .cr1).gotReg p .sr1) → ∃ t, (x (s.regAt 0)).Ends ((s.gotReg p .cr1).gotReg p .sr1) () t ∧
      ReadsOnly p es ((s.gotReg p .cr1).gotReg p .sr1) t) :
    ∃ t, (Machine.settleRound s.cfg p x).Ends s () t ∧
      ReadsOnly p (settleRoundEvs s.cfg (s.regAt 0) (s.regAt 1) es) s t := by
  have h₁ := hQ.gotReg h p .cr1
  have r₁ := ReadsOnly.gotReg s p .cr1
  have r₂ := r₁.trans (.gotReg (s.gotReg p .cr1) p .sr1)
  have e₁ := Ends.get (r := .cr1) (hQ.quiet h) rfl hc
  have e₂ := Ends.get (r := .sr1) (hQ.quiet h₁) rfl (r₁.clock hc)
  rw [State.regAt_gotReg] at r₂ e₂
  cases hs : has (s.regAt 0) s.cfg.layout.stop with
  | false =>
    refine ⟨_, e₁.andThen ?_, by simpa [settleRoundEvs, hs] using r₁⟩
    rw [if_neg (by simp [hs])]
    exact .ret () _
  | true =>
    cases ht : has (s.regAt 1) s.cfg.layout.timeout with
    | true =>
      refine ⟨_, e₁.andThen ?_, by simpa [settleRoundEvs, hs, ht] using r₂⟩
      rw [if_pos hs]
      refine e₂.andThen ?_
      rw [if_pos ht]
      exact .ret () _
    | false =>
      obtain ⟨t, hxt, hrt⟩ := hx (hQ.gotReg h₁ p .sr1)
      refine ⟨t, e₁.andThen ?_, by simpa [settleRoundEvs, hs, ht] using r₂.trans hrt⟩
      rw [if_pos hs]
      refine e₂.andThen ?_
      rw [if_neg (by simp [ht])]
      exact hxt

theorem settleLoop (n : Nat) {s : State} (h : Q s) (hc : (s.bus p).plat.clkEn = true) :
    ∃ t, (Machine.settleLoop s.cfg p n).Ends s () t ∧ ReadsOnly p (settleEvs s.cfg s.regAt n) s t := by
  induction n generalizing s with
  | zero =>
    rw [settleLoop_zero]
    refine settleRound hQ h hc fun h₂ => ⟨_, Ends.act (hQ.quiet h₂) fun xs => ?_, 
      by simpa using ReadsOnly.emittedEv ((s.gotReg p .cr1).gotReg p .sr1) p .stopSettleTimeout (s.regAt 0).toNat⟩
    rw [run_emit, State.emittedEv_withPast]
  | succ n ih =>
    rw [settleLoop_succ]
    have hreg : ((s.gotReg p .cr1).gotReg p .sr1).regAt = fun k => s.regAt (k + 2) := by
      funext k
      simp
    refine settleRound hQ h hc fun h₂ => ?_
    simpa [hreg] using ih h₂ (by simpa using hc)

end Prog.Ends

/-! What it appends. -/

/-- The reads of whole rounds, the register reads answering `r 0`, `r 1` and so on. -/
def settleReads (r : Nat → Half) (k : Nat) : List Event :=
  (List.range k).flatMap fun j => [.rd .cr1 (r (2 * j)), .rd .sr1 (r (2 * j + 1))]

theorem settleReads_succ (r : Nat → Half) (k : Nat) :
    settleReads r (k + 1) = .rd .cr1 (r 0) :: .rd .sr1 (r 1) :: settleReads (fun k => r (k + 2)) k := by
  simp only [settleReads, List.range_succ_eq_map, List.flatMap_cons, List.flatMap_map]
  rfl

/-- While the rounds go on, they append their reads. -/
theorem settleEvs_of_settling {c : Config} {r : Nat → Half} {j n : Nat} (hj : j ≤ n)
    (h : ∀ k, k < j → has (r (2 * k)) c.layout.stop = true ∧ has (r (2 * k + 1)) c.layout.timeout = false) :
    settleEvs c r n = settleReads r j ++ settleEvs c (fun k => r (k + 2 * j)) (n - j) := by
  induction j generalizing r n with
  | zero => rfl
  | succ j ih =>
    obtain ⟨m, rfl⟩ : ∃ m, n = m + 1 := ⟨n - 1, by omega⟩
    obtain ⟨hs, ht⟩ := h 0 (by omega)
    have hih := ih (r := fun k => r (k + 2)) (n := m) (by omega) fun k hk => by
      simpa [Nat.mul_add, Nat.add_right_comm] using h (k + 1) (by omega)
    have hshift : (fun k => r (k + 2 * (j + 1))) = fun k => r (k + 2 * j + 2) := by
      funext k
      congr 1
    rw [settleEvs, settleRoundEvs, if_pos hs, if_neg (by simpa using ht), hih, settleReads_succ, hshift,
      Nat.succ_sub_succ]
    rfl

theorem settleEvs_first (c : Config) (r : Nat → Half) (n : Nat) :
    (has (r 0) c.layout.stop = false → settleEvs c r n = [.rd .cr1 (r 0)]) ∧
    (has (r 0) c.layout.stop = true → has (r 1) c.layout.timeout = true →
      settleEvs c r n = [.rd .cr1 (r 0), .rd .sr1 (r 1)]) := by
  cases n <;> exact ⟨fun hs => by simp [settleEvs, settleRoundEvs, hs],
    fun hs ht => by simp [settleEvs, settleRoundEvs, hs, ht]⟩

/-- Every event is a read of CR1 or SR1 but at most one, the last of a wait that expired. -/
theorem settleEvs_kinds (c : Config) (r : Nat → Half) (n : Nat) :
    (∀ e ∈ settleEvs c r n, (∃ v, e = .rd .cr1 v) ∨ (∃ v, e = .rd .sr1 v) ∨ ∃ x, e = .ev .stopSettleTimeout x) ∧
      ((settleEvs c r n).filter fun e => !e.isAccess).length ≤ 1 := by
  have round (v w : Half) {es : List Event}
      (h : (∀ e ∈ es, (∃ v, e = .rd .cr1 v) ∨ (∃ v, e = .rd .sr1 v) ∨ ∃ x, e = .ev .stopSettleTimeout x) ∧
        (es.filter fun e => !e.isAccess).length ≤ 1) :
      (∀ e ∈ settleRoundEvs c v w es,
        (∃ v, e = .rd .cr1 v) ∨ (∃ v, e = .rd .sr1 v) ∨ ∃ x, e = .ev .stopSettleTimeout x) ∧
      ((settleRoundEvs c v w es).filter fun e => !e.isAccess).length ≤ 1 := by
    unfold settleRoundEvs
    split_ifs <;> simp
    exact h
  induction n generalizing r with
  | zero =>
    refine round _ _ ?_
    unfold evs
    split <;> simp [Event.isAccess]
  | succ n ih => exact round _ _ (ih _)

/-- The state in which the wait's rounds start: its deadline set, the number of its rounds drawn. -/
def State.waitStarted (s : State) (p : Port) (msgs : List Message) : State :=
  (s.changed p fun b => { b with deadline := deadlineUs s.cfg msgs }).withDraws
    { s.draws with waits := s.draws.waits.advance }

theorem Calm.waitStarted {Q : State → Prop} (hQ : Calm Q) {s : State} (h : Q s) (p : Port) (msgs : List Message) :
    Q (s.waitStarted p msgs) := hQ.draws _ (hQ.changed h rfl rfl rfl rfl)

theorem WithinPort.waitStarted (s : State) (p : Port) (msgs : List Message) : WithinPort p s (s.waitStarted p msgs) :=
  (WithinPort.changed s p _).trans (.draws _ p _)

@[simp] theorem State.waitStarted_bus (s : State) (p : Port) (msgs : List Message) :
    (s.waitStarted p msgs).bus p = { s.bus p with deadline := deadlineUs s.cfg msgs } := by
  simp [State.waitStarted]

theorem Prog.Ends.startWait {s : State} (p : Port) (msgs : List Message) (hq : othersCanMove s = false) :
    (Machine.startWait s.cfg p msgs).Ends s (s.draws.waits.peek Config.freeWait) (s.waitStarted p msgs) :=
  Ends.askNum hq fun xs => by
    simp [run_bind, State.waitStarted, State.changed]
    rfl

theorem Regs.eq_of_at {x y : Regs} (h : ∀ r, x.at r = y.at r) : x = y := by
  have h₁ := h .cr1
  have h₂ := h .cr2
  have h₃ := h .oar1
  have h₄ := h .dr
  have h₅ := h .sr1
  have h₆ := h .sr2
  have h₇ := h .ccr
  have h₈ := h .trise
  cases x
  cases y
  simp_all [Regs.at]

/-- Settles O41: the rounds of the loop one after another, by how the first that does not go on ends. -/
theorem stopSettleOnlyReads : Obligations.StopSettleOnlyReads := by
  intro s p msgs ha hc
  have h₀ := calm_alone.waitStarted ha p msgs
  obtain ⟨t, hend, hr⟩ := Prog.Ends.settleLoop (p := p) calm_alone (s.draws.waits.peek Config.freeWait) h₀ (by simpa using hc)
  obtain ⟨ys, hrun⟩ := ((Prog.Ends.startWait p msgs ha.quiet).andThen hend).drive_self (some p)
  have hw := WithinPort.waitStarted s p msgs
  have hreg : (s.waitStarted p msgs).regAt = s.regAt := rfl
  have hcfg : (s.waitStarted p msgs).cfg = s.cfg := hw.outside.cfg
  rw [hcfg] at hrun
  rw [hreg, hcfg] at hr
  have hall : WithinPort p s (t.withPast ys) :=
    (hw.trans ⟨hr.frame.others, hr.memory, hr.frame.outside⟩).trans (.past t p ys)
  have hport := hr.frame.port
  rw [State.waitStarted_bus] at hport
  refine ⟨_, settleEvs s.cfg s.regAt (s.draws.waits.peek Config.freeWait), hrun, ?_, fun j hj hk => ?_,
    fun hk => ?_, (settleEvs_kinds _ _ _).1, (settleEvs_kinds _ _ _).2, ?_, fun f => ?_, ?_, ?_, ?_, hall.others, hall.memory,
    hall.outside⟩
  · rw [State.withPast_bus, hr.hist, State.waitStarted_bus]
  · obtain ⟨hstop, htime⟩ := settleEvs_first s.cfg (fun k => s.regAt (k + 2 * j)) (s.draws.waits.peek Config.freeWait - j)
    rw [settleEvs_of_settling hj hk]
    refine ⟨fun hs => ?_, fun hs ht => ?_⟩
    · rw [hstop (by simpa using hs), Nat.zero_add]
      rfl
    · rw [htime (by simpa using hs) (by simpa [Nat.add_comm] using ht), State.settleReads, List.range_succ,
        List.flatMap_append, Nat.zero_add, Nat.add_comm 1]
      rfl
  · obtain ⟨hs, ht⟩ := hk _ (Nat.le_refl _)
    rw [settleEvs_of_settling (Nat.le_refl _) fun k hk' => hk k (by omega), Nat.sub_self, settleEvs, settleRoundEvs,
      Nat.zero_add, Nat.add_comm 1, if_pos hs, if_neg (by simpa using ht), State.settleReads, List.range_succ,
      List.flatMap_append, List.append_assoc]
    rfl
  · rw [State.withPast_bus, hport.engine.deadline]
    rfl
  · have hf := hport.fields f (by simp)
    rw [State.withPast_bus]
    cases f <;> exact hf
  · rw [State.withPast_bus]
    exact Regs.eq_of_at fun r => hport.regs r (by simp)
  · rw [State.withPast_bus, hport.engine.lock]
  · rw [State.withPast_bus, hport.engine.msgs]

/-! Step 8. -/

/-- The state step 8 leaves after a timeout (R311). -/
def State.timedOut (s : State) (p : Port) : State :=
  let t := ((s.gotReg p .sr1).gotReg p .sr2).modReg p .cr1 (startStopPec s.cfg.layout) 0
  if s.cfg.mode == .polled then t.modReg p .cr1 0 (bit s.cfg.layout.stop) else t

theorem Prog.Ends.timeoutStatus {Q : State → Prop} (hQ : Calm Q) {s : State} {p : Port} (h : Q s)
    (hc : (s.bus p).plat.clkEn = true) :
    (Machine.timeoutStatus s.cfg p).Ends s (statusWord (s.regAt 0) (s.regAt 1)) (s.timedOut p) := by
  have h₁ := hQ.gotReg h p .sr1
  have h₂ := hQ.gotReg h₁ p .sr2
  have h₃ := hQ.modReg h₂ p (r := .cr1) (startStopPec s.cfg.layout) 0 (by decide)
  refine (Ends.get (hQ.quiet h) rfl hc).andThen <| (Ends.get (hQ.quiet h₁) rfl (by simpa using hc)).andThen <|
    (Ends.modify (hQ.quiet h₂) rfl (by simpa using hc)).andThen <|
    (Ends.onlyIf (t := s.timedOut p) (fun hm => ?_) fun hm => ?_).andThen (by simpa using .ret _ _)
  · rw [State.timedOut, if_pos hm]
    exact Ends.modify (hQ.quiet h₃) rfl (by simpa using hc)
  · rw [State.timedOut, if_neg (by simp [hm])]

theorem Prog.Ends.capturedStatus {s : State} (p : Port) (hq : othersCanMove s = false) :
    (Machine.capturedStatus p).Ends s ((s.bus p).status &&& 0x0000FFFF) s :=
  Ends.askWord hq fun xs => by simp

theorem State.timedOut_frame (s : State) (p : Port) : EngineFrame p [] [.cr1] s (s.timedOut p) ∧ MemoryKept s (s.timedOut p) := by
  have h := ((EngineFrame.gotReg s p .sr1).trans (.gotReg _ p .sr2)).trans (.modReg _ p .cr1 (startStopPec s.cfg.layout) 0)
  unfold State.timedOut
  split
  · exact ⟨(h.trans (.modReg _ p .cr1 0 _)).mono (by simp) (by simp), by constructor <;> simp⟩
  · exact ⟨h.mono (by simp) (by simp), by constructor <;> simp⟩

/-- Settles O42. -/
theorem transferResultPaths : Obligations.TransferResultPaths := by
  intro s p ha
  refine ⟨?_, fun hc => ?_⟩
  · obtain ⟨ys, hrun⟩ := ((Prog.Ends.capturedStatus p ha.quiet).andThen (f := fun x => .ret (classify s.cfg x .ok))
      (.ret _ _)).drive_self (some p)
    exact ⟨_, hrun, fun q => State.withPast_bus .., (WithinPort.past s p ys).memory, (WithinPort.past s p ys).outside⟩
  · obtain ⟨ys, hrun⟩ := ((Prog.Ends.timeoutStatus calm_alone ha hc).andThen (f := fun x => .ret (classify s.cfg x .timedout))
      (.ret _ _)).drive_self (some p)
    obtain ⟨hf, hm⟩ := s.timedOut_frame p
    refine ⟨_, hrun, ?_, ⟨(hf.withPast ys).port, (hf.withPast ys).others, hm.withPast ys⟩, (hf.withPast ys).outside⟩
    cases hmode : s.cfg.mode <;> simp [State.timedOut, hmode, modEvs, startStopPec, modified]

end Sys2Proof.Machine
end

section
/-! The completion waits (46_dispatcher R307 to R309, 20_memory R94): a wait succeeds only where DONE is set; how its rounds
end. -/

namespace Sys2Proof.Machine

variable {α β : Type}

/-! What a run of a part says about its actions. -/

theorem drive_act_ok_inv {own : Option Port} {m : M Ans} {k : Ans → Prog α} {s t : State} {a : α}
    (h : drive own (.act m k) s = .ok a t) : ∃ u x v, window own s = .ok () u ∧ m u = .ok x v ∧
      drive own (k x) (v.withPast (v.past ++ [x])) = .ok a t := by
  obtain ⟨_, u, hw, h⟩ := bind_ok_inv h
  obtain ⟨x, v, hm, h⟩ := bind_ok_inv h
  exact ⟨u, x, v, hw, hm, h⟩

/-- One action that answers a flag. -/
theorem drive_askFlag_ok_inv {own : Option Port} {m : M Bool} {s t : State} {b : Bool}
    (h : drive own (askFlag m) s = .ok b t) : ∃ u v, window own s = .ok () u ∧ m u = .ok b v ∧
      t = v.withPast (v.past ++ [.flag b]) := by
  obtain ⟨u, x, v, hw, hm, h⟩ := drive_act_ok_inv h
  obtain ⟨c, v', hc, hx⟩ := bind_ok_inv hm
  cases hx
  cases h
  exact ⟨u, v, hw, hc, rfl⟩

theorem drive_andThen_ok_inv {own : Option Port} {x : Prog α} {f : α → Prog β} {s t : State} {b : β}
    (h : drive own (x.andThen f) s = .ok b t) : ∃ a u, drive own x s = .ok a u ∧ drive own (f a) u = .ok b t := by
  rw [drive_andThen] at h
  exact bind_ok_inv h

/-! A wait succeeds only where DONE is set. -/

theorem polledRound_true_inv {p : Port} {s t : State} (h : polledRound p s = .ok true t) : (t.bus p).intstate = .done := by
  obtain ⟨_, u, -, h⟩ := bind_ok_inv h
  simp only [run_bind, run_lookBus] at h
  injection h with h₁ h₂
  subst h₂
  simpa using h₁

theorem expire_true_inv {p : Port} {s t : State} (h : expire p s = .ok true t) : (t.bus p).intstate = .done := by
  simp only [expire, run_bind, run_lookBus] at h
  split at h
  · rename_i hd
    cases h
    simpa [BusState.taken] using hd.2
  · cases h

/-- 46_dispatcher R308. -/
theorem polledLoop_true_done {own : Option Port} {p : Port} {n : Nat} {s t : State}
    (h : drive own (polledLoop p n) s = .ok true t) : (t.bus p).intstate = .done := by
  induction n generalizing s with
  | zero =>
    obtain ⟨u, v, -, hm, rfl⟩ := drive_askFlag_ok_inv h
    simpa using polledRound_true_inv hm
  | succ n ih =>
    obtain ⟨ok, u, hask, h⟩ := drive_andThen_ok_inv h
    cases ok with
    | true =>
      cases h
      obtain ⟨u, v, -, hm, rfl⟩ := drive_askFlag_ok_inv hask
      simpa using polledRound_true_inv hm
    | false => exact ih h

/-- 46_dispatcher R307. -/
theorem takeLoop_true_done {own : Option Port} {p : Port} {n : Nat} {s t : State}
    (h : drive own (takeLoop p n) s = .ok true t) : (t.bus p).intstate = .done := by
  induction n generalizing s with
  | zero =>
    obtain ⟨u, v, -, hm, rfl⟩ := drive_askFlag_ok_inv h
    simpa using expire_true_inv hm
  | succ n ih =>
    obtain ⟨post, u, -, h⟩ := drive_andThen_ok_inv h
    cases post with
    | false => exact ih h
    | true =>
      obtain ⟨done, v, hask, h⟩ := drive_andThen_ok_inv h
      cases done with
      | false => exact ih h
      | true =>
        cases h
        obtain ⟨w, v, -, hm, rfl⟩ := drive_askFlag_ok_inv hask
        rw [run_lookBus] at hm
        injection hm with h₁ h₂
        subst h₂
        simpa using h₁

/-! Its opening, where nobody else moves. -/

/-- The state in which an INTERRUPT wait's rounds start: WAITING, then the enables (R307). -/
def State.waitOpened (s : State) (p : Port) : State :=
  (s.changed p (·.handshake .waiting)).modReg p .cr2 0 (evErrEnables s.cfg.layout)

theorem Prog.Ends.openWait {Q : State → Prop} (hQ : Calm Q) {s : State} {p : Port} (h : Q s)
    (hc : (s.bus p).plat.clkEn = true) : (Machine.openWait s.cfg p).Ends s () (s.waitOpened p) := by
  have h₁ : Q (s.changed p (·.handshake .waiting)) := hQ.changed h rfl rfl rfl rfl
  exact (Ends.write (hQ.quiet h)).andThen (Ends.modify (hQ.quiet h₁) rfl (by simpa [BusState.handshake] using hc))

theorem WithinPort.waitOpened (s : State) (p : Port) : WithinPort p s (s.waitOpened p) :=
  (WithinPort.changed s p _).trans (.modReg _ p .cr2 0 _)

@[simp] theorem State.waitOpened_bus (s : State) (p : Port) : (s.waitOpened p).bus p =
    (((s.bus p).handshake .waiting).record (.rd .cr2 (s.regAt 0))).put .cr2
      (modified (s.regAt 0) 0 (evErrEnables s.cfg.layout)) := by
  simp [State.waitOpened]

/-! An INTERRUPT wait at whose points nobody is drawn. -/

/-- A point at which nobody is drawn changes at most the draws of who moves. -/
theorem window_of_none_drawn (own : Option Port) {s : State} (h : s.draws.turns.peek Config.freeTurns = []) :
    ∃ x, window own s = .ok () (s.withDraws { s.draws with turns := x }) ∧
      (x = s.draws.turns ∨ x = s.draws.turns.advance) := by
  cases hq : othersCanMove s with
  | false => exact ⟨s.draws.turns, window_quiet own hq, .inl rfl⟩
  | true => exact ⟨s.draws.turns.advance, by simp [window, run_bind, hq, h, runAgents], .inr rfl⟩

/-- The state is another one but for the remembered answers and the draws of who moves, of which at most `n` were made. -/
structure TurnsDrawn (n : Nat) (s t : State) : Prop where
  eq : ∃ x ys, t = (s.withDraws { s.draws with turns := x }).withPast ys
  turns : ∃ i, i ≤ n ∧ ∀ k, t.draws.turns.nth Config.freeTurns k = s.draws.turns.nth Config.freeTurns (k + i)

namespace TurnsDrawn

variable {n m : Nat} {s t u : State}

theorem past (s : State) (ys : List Ans) : TurnsDrawn 0 s (s.withPast ys) :=
  ⟨⟨s.draws.turns, ys, rfl⟩, 0, Nat.le_refl _, fun _ => rfl⟩

theorem trans (h : TurnsDrawn n s t) (k : TurnsDrawn m t u) : TurnsDrawn (n + m) s u := by
  obtain ⟨⟨x, ys, rfl⟩, i, hi, hx⟩ := h
  obtain ⟨⟨x', ys', rfl⟩, j, hj, hx'⟩ := k
  exact ⟨⟨x', ys', rfl⟩, j + i, by omega, fun k => by rw [hx', hx, Nat.add_assoc]⟩

theorem bus (h : TurnsDrawn n s t) (p : Port) : t.bus p = s.bus p := by
  obtain ⟨⟨x, ys, rfl⟩, -⟩ := h
  simp

theorem regAt (h : TurnsDrawn n s t) : t.regAt = s.regAt := by
  obtain ⟨⟨x, ys, rfl⟩, -⟩ := h
  rfl

theorem within (h : TurnsDrawn n s t) (p : Port) : WithinPort p s t := by
  obtain ⟨⟨x, ys, rfl⟩, -⟩ := h
  exact (WithinPort.draws s p _).trans (.past _ p ys)

theorem none_drawn (h : TurnsDrawn n s t) {k : Nat} (hs : ∀ j, j ≤ n + k → s.draws.turns.nth Config.freeTurns j = []) :
    ∀ j, j ≤ k → t.draws.turns.nth Config.freeTurns j = [] := by
  obtain ⟨-, i, hi, hx⟩ := h
  intro j hj
  rw [hx, hs _ (by omega)]

end TurnsDrawn

theorem window_turnsDrawn (own : Option Port) {s : State} (h : s.draws.turns.nth Config.freeTurns 0 = []) :
    ∃ t, window own s = .ok () t ∧ TurnsDrawn 1 s t := by
  obtain ⟨x, hw, hx⟩ := window_of_none_drawn own (s := s) (by simpa [Source.nth] using h)
  refine ⟨_, hw, ⟨x, s.past, rfl⟩, ?_⟩
  obtain rfl | rfl := hx
  · exact ⟨0, by omega, fun _ => rfl⟩
  · exact ⟨1, by omega, fun k => by simp [Source.nth]⟩

/-- The rounds of an INTERRUPT wait with nothing posted and nobody drawn. -/
theorem takeLoop_none_drawn (own : Option Port) {p : Port} (n : Nat) {s : State} (hs : (s.bus p).sem = 0)
    (h : ∀ j, j ≤ n → s.draws.turns.nth Config.freeTurns j = []) :
    ∃ t, drive own (takeLoop p n) s = .ok false t ∧ TurnsDrawn (n + 1) s t := by
  obtain ⟨u, hw, hu⟩ := window_turnsDrawn own (h 0 (Nat.zero_le _))
  have hsu : (u.bus p).sem = 0 := by rw [hu.bus, hs]
  induction n generalizing s u with
  | zero =>
    have hself : u.setBus p { u.bus p with sem := 0 } = u := by
      rw [show ({ u.bus p with sem := 0 } : BusState) = u.bus p by rw [← hsu], State.setBus_bus]
    have hrun : drive own (takeLoop p 0) s = .ok false (u.withPast (u.past ++ [.flag false])) := by
      simp only [takeLoop, askFlag, drive_act, run_bind, hw, expire, run_lookBus, id_eq, hsu, Nat.lt_irrefl, false_and,
        if_false, run_updBus, hself]
      rfl
    exact ⟨_, hrun, hu.trans (.past u _)⟩
  | succ n ih =>
    have hrun : drive own (takeLoop p (n + 1)) s = drive own (takeLoop p n) (u.withPast (u.past ++ [.flag false])) := by
      simp only [takeLoop, askFlag, Prog.andThen, drive_act, run_bind, hw, takeOrSignal, run_lookBus, hsu, Nat.lt_irrefl,
        if_false]
      rfl
    have hv := hu.trans (.past u (u.past ++ [.flag false]))
    have hnext := hv.none_drawn (k := n) fun j hj => h j (by omega)
    obtain ⟨v, hwv, hvv⟩ := window_turnsDrawn own (hnext 0 (Nat.zero_le _))
    obtain ⟨t, ht, htt⟩ := ih (by simpa using hsu) hnext v hwv hvv (by rw [hvv.bus]; simpa using hsu)
    exact ⟨t, hrun.trans ht, by simpa [Nat.add_comm, Nat.add_left_comm] using hv.trans htt⟩

/-- A whole INTERRUPT wait with nothing posted and nobody drawn after its opening. -/
theorem waitInterrupt_none_drawn {s : State} {p : Port} (msgs : List Message) (ha : Alone s)
    (hc : (s.bus p).plat.clkEn = true) (hs : (s.bus p).sem = 0)
    (h : ∀ j, j ≤ s.draws.waits.peek Config.freeWait + 1 → s.draws.turns.nth Config.freeTurns j = []) :
    ∃ t u m, TurnsDrawn m ((s.waitStarted p msgs).waitOpened p) t ∧ TurnsDrawn 0 (t.modReg p .cr2 (allInts s.cfg.layout) 0) u ∧
      drive (some p) (waitInterrupt s.cfg p msgs) s = .ok false u := by
  have h₁ := calm_alone.waitStarted ha p msgs
  have hstart := Prog.Ends.startWait p msgs ha.quiet
  have hopen := Prog.Ends.openWait calm_alone (p := p) h₁ (by simpa using hc)
  rw [(WithinPort.waitStarted s p msgs).outside.cfg] at hopen
  obtain ⟨xs, hrun₁⟩ := hstart.drive_self (some p)
  obtain ⟨ys, hrun₂⟩ := hopen.drive (some p) xs
  have h₀ := TurnsDrawn.past ((s.waitStarted p msgs).waitOpened p) ys
  have hturns (j : Nat) : (((s.waitStarted p msgs).waitOpened p).withPast ys).draws.turns.nth Config.freeTurns j =
      s.draws.turns.nth Config.freeTurns j := by
    simp [State.waitOpened, State.waitStarted, State.modReg, State.putReg, State.gotReg, State.changed]
  obtain ⟨v, hv, hvt⟩ := takeLoop_none_drawn (some p) (p := p) (s.draws.waits.peek Config.freeWait)
    (s := ((s.waitStarted p msgs).waitOpened p).withPast ys) (by simpa [BusState.handshake] using hs)
    fun j hj => by rw [hturns, h j (by omega)]
  obtain ⟨t, hw, htt⟩ := window_turnsDrawn (some p) (s := v) (hvt.none_drawn (k := 0) (fun j hj => by
    rw [hturns, h j (by omega)]) 0 (Nat.le_refl _))
  have ht := (h₀.trans hvt).trans htt
  have hct : (t.bus p).plat.clkEn = true := by rw [ht.bus]; simpa [BusState.handshake] using hc
  refine ⟨t, _, _, ht, .past _ (t.past ++ [.unit]), ?_⟩
  have hmod : drive (some p) (modify p .cr2 (allInts s.cfg.layout) 0) v =
      .ok () ((t.modReg p .cr2 (allInts s.cfg.layout) 0).withPast (t.past ++ [.unit])) := by
    simp only [modify, act, drive_act, run_bind, hw, regModify_run (r := .cr2) rfl hct]
    simp [remember, drive]
  rw [waitInterrupt, drive_andThen, run_bind_ok hrun₁, drive_andThen, run_bind_ok hrun₂, drive_andThen, run_bind_ok hv,
    drive_andThen, run_bind_ok hmod]
  rfl

/-! Its rounds where nobody else moves. -/

/-- One round of the POLLED wait is one entry (R308). -/
theorem polledLoop_round {own : Option Port} {s u : State} {p : Port} (n : Nat) (hq : othersCanMove s = false)
    (hu : exec (.engEntry p) s = .next u) :
    drive own (polledLoop p n) s =
      if (u.bus p).intstate = .done then .ok true (u.withPast (s.past ++ [.flag true]))
      else match n with
        | 0 => .ok false (u.withPast (s.past ++ [.flag false]))
        | k + 1 => drive own (polledLoop p k) (u.withPast (s.past ++ [.flag false])) := by
  have he : engineEntry p s = .ok () u := by
    rw [exec_engEntry, finish] at hu
    split at hu
    · cases hu
      assumption
    · cases hu
    · cases hu
    · exact absurd ‹_› (engineEntry_ne_wait p s _)
  have hpast : u.past = s.past := ((EngineMoved.engineEntry p).ok he).past
  have hround (x : Bool) (hx : ((u.bus p).intstate == .done) = x) : polledRound p s = .ok x u := by
    rw [polledRound, run_bind_ok he, run_bind_ok (run_lookBus ..), hx]
    rfl
  by_cases hd : (u.bus p).intstate = .done
  · rw [if_pos hd]
    cases n <;> simp [polledLoop, askFlag, Prog.andThen, drive_act_quiet own _ _ hq, hround true (by simpa using hd), hpast,
      Ans.toFlag, drive]
  · rw [if_neg hd]
    cases n <;> simp [polledLoop, askFlag, Prog.andThen, drive_act_quiet own _ _ hq, hround false (by simpa using hd), hpast,
      Ans.toFlag, drive]

/-- A post that DONE backs ends the INTERRUPT wait (R307). -/
theorem Prog.Ends.takeLoop_post {Q : State → Prop} (hQ : Calm Q) {s : State} {p : Port} (n : Nat) (h : Q s)
    (hs : 0 < (s.bus p).sem) (hd : (s.bus p).intstate = .done) : (takeLoop p n).Ends s true (s.changed p (·.taken)) := by
  have h₁ : Q (s.changed p (·.taken)) := hQ.changed h rfl rfl rfl rfl
  cases n with
  | zero => exact Ends.askFlag (hQ.quiet h) fun xs => by simp [expire, run_bind, hs, hd, State.changed]
  | succ n =>
    refine (Ends.askFlag (v := true) (t := s.changed p (·.taken)) (hQ.quiet h) fun xs => ?_).andThen <|
      (Ends.askFlag (v := true) (hQ.quiet h₁) fun xs => ?_).andThen (.ret true _)
    · simp [takeOrSignal, run_bind, hs, State.changed]
    · simp [BusState.taken, hd]

/-- A round that finds no post that DONE backs goes on (R307). -/
theorem takeLoop_round (own : Option Port) {s : State} {p : Port} (n : Nat) (ha : Alone s)
    (h : ¬(0 < (s.bus p).sem ∧ (s.bus p).intstate = .done)) :
    ∃ ys, drive own (takeLoop p (n + 1)) s = drive own (takeLoop p n) ((s.changed p (·.taken)).withPast ys) := by
  by_cases hs : 0 < (s.bus p).sem
  · have hd : (s.bus p).intstate ≠ .done := fun hd => h ⟨hs, hd⟩
    have h₁ : Alone (s.changed p (·.taken)) := calm_alone.changed ha rfl rfl rfl rfl
    have hq (ys : List Ans) : othersCanMove ((s.changed p (·.taken)).withPast ys) = false := by simpa using h₁.quiet
    have hpost : takeOrSignal p s = .ok true (s.changed p (·.taken)) := by simp [takeOrSignal, run_bind, hs, State.changed]
    have hlook (ys : List Ans) : lookBus p (fun b => b.intstate == .done) ((s.changed p (·.taken)).withPast ys) =
        .ok false ((s.changed p (·.taken)).withPast ys) := by simp [BusState.taken, hd]
    refine ⟨s.past ++ [.flag true] ++ [.flag false], ?_⟩
    simp only [takeLoop, askFlag, Prog.andThen, drive_act_quiet own _ _ ha.quiet, run_bind, hpost, run_pure, Ans.toFlag,
      if_true, drive_act_quiet own _ _ (hq _), hlook, Bool.false_eq_true, if_false]
    simp [State.changed]
  · have h0 : (s.bus p).sem = 0 := by omega
    have hself : s.changed p (·.taken) = s := by
      have hb : (s.bus p).taken = s.bus p := by
        rw [BusState.taken, show (s.bus p).sem - 1 = (s.bus p).sem by omega]
      rw [State.changed, hb, State.setBus_bus]
    refine ⟨s.past ++ [.flag false], ?_⟩
    rw [hself]
    simp [takeLoop, askFlag, Prog.andThen, drive_act_quiet own _ _ ha.quiet, run_bind, takeOrSignal, h0, Ans.toFlag]

/-- The deadline passes with no post that DONE backs (R307). -/
theorem Prog.Ends.takeLoop_expired {s : State} {p : Port} (hq : othersCanMove s = false)
    (h : ¬(0 < (s.bus p).sem ∧ (s.bus p).intstate = .done)) :
    (takeLoop p 0).Ends s false (s.changed p fun b => { b with sem := 0 }) :=
  Ends.askFlag hq fun xs => by simp [expire, run_bind, h, State.changed]

/-- Agents drawn at the last point may leave a post and DONE. -/
theorem takeLoop_zero_of_window {own : Option Port} {s a : State} {p : Port} (hw : window own s = .ok () a)
    (hs : 0 < (a.bus p).sem) (hd : (a.bus p).intstate = .done) :
    drive own (takeLoop p 0) s = .ok true ((a.changed p (·.taken)).withPast (a.past ++ [.flag true])) := by
  simp [takeLoop, askFlag, drive_act, run_bind, hw, expire, hs, hd, remember, State.changed, drive, Ans.toFlag]

/-- Step 7 is the wait of the mode, then the handshake IDLE (R307 to R309). -/
theorem completionWait_ok_inv {own : Option Port} {c : Config} {p : Port} {msgs : List Message} {s t : State} {ok : Bool}
    (h : drive own (completionWait c p msgs) s = .ok ok t) : ∃ u, drive own (modeWait c p msgs) s = .ok ok u ∧
      drive own (write p (·.handshake .idle)) u = .ok () t ∧ (t.bus p).intstate = .idle := by
  obtain ⟨ok', u, hw, h⟩ := drive_andThen_ok_inv h
  obtain ⟨_, v, hi, h⟩ := drive_andThen_ok_inv h
  cases h
  refine ⟨u, hw, hi, ?_⟩
  obtain ⟨w, x, v, -, hm, h⟩ := drive_act_ok_inv hi
  obtain ⟨_, v', hm', hx⟩ := bind_ok_inv hm
  cases hx
  cases h
  rw [run_updBus] at hm'
  cases hm'
  simp [BusState.handshake]

/-- Settles O43: each clause is the matching fact about the loops, the opening and the whole waits. -/
theorem completionNeedsDone : Obligations.CompletionNeedsDone := by
  refine ⟨fun own s t p n => ⟨takeLoop_true_done, polledLoop_true_done⟩, fun s p ha hc => ?_,
    fun s p msgs ha hc hs hn => ?_, fun own s u p n hm hu => polledLoop_round n hm.quiet hu, fun own s p n ha => ⟨?_, ?_⟩,
    fun own s a p hw hs hd => ⟨_, takeLoop_zero_of_window hw hs hd, by simp [BusState.taken]⟩,
    fun own s t p msgs ok => ⟨fun h => ?_, fun h => ?_, fun h => ?_⟩, fun own s p msgs ha => ?_⟩
  · obtain ⟨ys, hrun⟩ := (Prog.Ends.openWait calm_alone ha hc).drive_self (some p)
    have hw := (WithinPort.waitOpened s p).trans (.past _ p ys)
    refine ⟨_, s.waitOpened p, hrun, ?_, fun q => by simp, by simp [BusState.handshake],
      by simp [modified, evErrEnables], hw.others, hw.memory, hw.outside⟩
    exact finish_ok (regModify_run rfl (by simpa using hc))
  · obtain ⟨t, u, m, ht, hu, hrun⟩ := waitInterrupt_none_drawn msgs ha hc hs hn
    have hw := (((WithinPort.waitStarted s p msgs).trans (.waitOpened _ p)).trans (ht.within p)).trans
      ((WithinPort.modReg t p .cr2 (allInts s.cfg.layout) 0).trans (hu.within p))
    have hcfg := (WithinPort.waitStarted s p msgs).outside.cfg
    have hreg (k : Nat) : (s.waitStarted p msgs).regAt k = s.regAt k := rfl
    refine ⟨u, hrun, ?_, ?_, ?_, hw.others, hw.memory, hw.outside⟩
    · simp [hu.bus, ht.bus, ht.regAt, State.waitOpened, hcfg, hreg, modEvs, modified, evErrEnables, BusState.handshake]
    · simp [hu.bus, ht.bus, BusState.handshake]
    · simp [hu.bus, ht.bus, BusState.handshake, hs]
  · intro hs hd
    obtain ⟨ys, hrun⟩ := (Prog.Ends.takeLoop_post calm_alone n ha hs hd).drive_self own
    have hw := (WithinPort.changed s p (·.taken)).trans (.past _ p ys)
    exact ⟨_, hrun, by simp [BusState.taken], hw.others, hw.memory, hw.outside⟩
  · intro h
    obtain ⟨ys, hrun⟩ := (Prog.Ends.takeLoop_expired ha.quiet h).drive_self own
    obtain ⟨zs, hround⟩ := takeLoop_round own n ha h
    have hw := (WithinPort.changed s p fun b => { b with sem := 0 }).trans (.past _ p ys)
    have hw' := (WithinPort.changed s p (·.taken)).trans (.past _ p zs)
    exact ⟨⟨_, hrun, by simp, hw.others, hw.memory, hw.outside⟩, _, hround, by simp [BusState.taken], hw'.others, hw'.memory,
      hw'.outside⟩
  · obtain ⟨n, a, hstart, h⟩ := drive_andThen_ok_inv h
    exact ⟨n, a, hstart, h⟩
  · obtain ⟨n, a, hstart, h⟩ := drive_andThen_ok_inv h
    obtain ⟨_, b, hopen, h⟩ := drive_andThen_ok_inv h
    obtain ⟨ok', u, htake, h⟩ := drive_andThen_ok_inv h
    obtain ⟨_, v, hmod, h⟩ := drive_andThen_ok_inv h
    cases h
    exact ⟨n, a, b, u, hstart, hopen, htake, hmod⟩
  · obtain ⟨u, hw, hi, hd⟩ := completionWait_ok_inv h
    refine ⟨u, ?_, hi, hd⟩
    cases hm : s.cfg.mode <;> simpa [modeWait, hm] using hw
  · obtain ⟨ys, hrun⟩ := (Prog.Ends.startWait p msgs ha.quiet).drive_self own
    have hw := (WithinPort.waitStarted s p msgs).trans (.past _ p ys)
    exact ⟨_, hrun, by simp, hw.others, hw.memory, hw.outside⟩

end Sys2Proof.Machine
end

section
/-! Bring-up, shut-down, opening and releasing a handle (47_lifecycle_trace_ops R340 to R342) where nobody else moves. -/

namespace Sys2Proof.Machine

/-! LIFE_UP (R342). -/

theorem Masked.within {p : Port} {s t : State} (h : Masked s) (k : WithinPort p s t) : Masked t :=
  h.congr k.outside.intsOff k.outside.cfg k.outside.threads k.outside.requests k.outside.stores

theorem TransferKept.trans {b b' b'' : BusState} (h : TransferKept b b') (k : TransferKept b' b'') : TransferKept b b'' where
  sem := k.sem.trans h.sem
  intstate := k.intstate.trans h.intstate
  dcnt := k.dcnt.trans h.dcnt
  msgc := k.msgc.trans h.msgc
  msgv := k.msgv.trans h.msgv
  ptr := k.ptr.trans h.ptr
  totalMsgLen := k.totalMsgLen.trans h.totalMsgLen
  flags := k.flags.trans h.flags
  checkAddrAck := k.checkAddrAck.trans h.checkAddrAck
  status := k.status.trans h.status
  curAddr := k.curAddr.trans h.curAddr
  msgs := k.msgs.trans h.msgs
  count := k.count.trans h.count

namespace LifecycleKeeps

variable {b b' b'' : BusState}

theorem trans (h : LifecycleKeeps b b') (k : LifecycleKeeps b' b'') : LifecycleKeeps b b'' where
  transfer := h.transfer.trans k.transfer
  lock := k.lock.trans h.lock
  faulted := k.faulted.trans h.faulted
  refused := k.refused.trans h.refused
  trace := k.trace.trans h.trace
  log := k.log.trans h.log
  deadline := k.deadline.trans h.deadline
  curBuf := k.curBuf.trans h.curBuf
  owning := k.owning.trans h.owning

/-- A change of `refs`, the registers, the platform, the history or the last value written to CR2. -/
theorem fields (b : BusState) (refs : Nat) (regs : Regs) (plat : Platform) (hist : List Event) (cr2 : Half) :
    LifecycleKeeps b { b with refs := refs, regs := regs, plat := plat, hist := hist, cr2Written := cr2 } :=
  ⟨by constructor <;> rfl, rfl, rfl, rfl, rfl, rfl, rfl, rfl, rfl⟩

theorem put (b : BusState) (r : Reg) (v : Half) : LifecycleKeeps b (b.put r v) := fields b _ _ _ _ _

theorem record (b : BusState) (e : Event) : LifecycleKeeps b (b.record e) := fields b _ _ _ _ _

theorem clockOn (b : BusState) : LifecycleKeeps b b.clockOn := fields b _ _ _ _ _

theorem pulsed (b : BusState) : LifecycleKeeps b b.pulsed := fields b _ _ _ _ _

theorem pins (b : BusState) (m : PinMode) : LifecycleKeeps b (b.pins m) := fields b _ _ _ _ _

theorem irqs (b : BusState) (x : Bool) : LifecycleKeeps b (b.irqs x) := fields b _ _ _ _ _

theorem clockOff (b : BusState) : LifecycleKeeps b b.clockOff := fields b _ _ _ _ _

end LifecycleKeeps

/-- The state with the port's clock on, reset, its pins and IRQ lines configured. -/
def State.platformUp (s : State) (p : Port) : State :=
  let t := ((s.changed p (·.clockOn)).changed p (·.pulsed)).changed p (·.pins .afOd)
  if s.cfg.mode == .interrupt then t.changed p (·.irqs true) else t

/-- The state LIFE_UP leaves. -/
def State.broughtUp (s : State) (p : Port) : State :=
  (((s.platformUp p).putReg p .cr2 (place s.cfg.layout.freq (s.cfg.pclk / 1000000))).clockDone s.cfg p s.cfg.pclk
    100000).modReg p .cr1 0 (bit s.cfg.layout.pe)

theorem WithinPort.platformUp (s : State) (p : Port) : WithinPort p s (s.platformUp p) := by
  have h := ((WithinPort.changed s p (·.clockOn)).trans (.changed _ p (·.pulsed))).trans (.changed _ p (·.pins .afOd))
  unfold State.platformUp
  split
  · exact h.trans (.changed _ p (·.irqs true))
  · exact h

theorem WithinPort.broughtUp (s : State) (p : Port) : WithinPort p s (s.broughtUp p) :=
  (((WithinPort.platformUp s p).trans (.putReg ..)).trans (.clockDone ..)).trans (.modReg ..)

@[simp] theorem State.regAt_platformUp (s : State) (p : Port) (k : Nat) : (s.platformUp p).regAt k = s.regAt k := by
  unfold State.platformUp
  split <;> simp

theorem State.platformUp_bus (s : State) (p : Port) : (s.platformUp p).bus p =
    let b := (((s.bus p).clockOn).pulsed).pins .afOd
    if s.cfg.mode = .interrupt then b.irqs true else b := by
  unfold State.platformUp
  cases s.cfg.mode <;> simp

@[simp] theorem State.platformUp_hist (s : State) (p : Port) : ((s.platformUp p).bus p).hist = (s.bus p).hist := by
  rw [State.platformUp_bus]
  dsimp only
  split <;> simp [BusState.irqs, BusState.pins, BusState.pulsed, BusState.clockOn]

@[simp] theorem State.platformUp_refs (s : State) (p : Port) : ((s.platformUp p).bus p).refs = (s.bus p).refs := by
  rw [State.platformUp_bus]
  dsimp only
  split <;> simp [BusState.irqs, BusState.pins, BusState.pulsed, BusState.clockOn]

/-- R342: the platform after the set-up. -/
@[simp] theorem State.platformUp_plat (s : State) (p : Port) : ((s.platformUp p).bus p).plat =
    { (s.bus p).plat with
      clkEn := true
      rstPulses := (s.bus p).plat.rstPulses + 1
      scl := { (s.bus p).plat.scl with mode := .afOd }
      sda := { (s.bus p).plat.sda with mode := .afOd }
      evIrq := if s.cfg.mode = .interrupt then ⟨true, true⟩ else (s.bus p).plat.evIrq
      erIrq := if s.cfg.mode = .interrupt then ⟨true, true⟩ else (s.bus p).plat.erIrq } := by
  rw [State.platformUp_bus]
  cases s.cfg.mode <;> rfl

theorem LifecycleKeeps.platformUp (s : State) (p : Port) : LifecycleKeeps (s.bus p) ((s.platformUp p).bus p) := by
  have h := ((LifecycleKeeps.clockOn (s.bus p)).trans (.pulsed _)).trans (.pins _ .afOd)
  rw [State.platformUp_bus]
  cases s.cfg.mode with
  | polled => exact h
  | interrupt => exact h.trans (.irqs _ true)

/-- Up to its test of the clock, LIFE_UP only sets up the platform. -/
theorem Prog.Ends.platformUp {s : State} {p : Port} (h : Masked s) :
    ((Machine.write p (·.clockOn)).andThen fun _ => (Machine.write p (·.pulsed)).andThen fun _ =>
      (Machine.write p (·.pins .afOd)).andThen fun _ =>
      Prog.onlyIf (s.cfg.mode == .interrupt) (Machine.write p (·.irqs true))).Ends s () (s.platformUp p) := by
  have w₁ := WithinPort.changed s p (·.clockOn)
  have w₂ := w₁.trans (.changed _ p (·.pulsed))
  have w₃ := w₂.trans (.changed _ p (·.pins .afOd))
  refine (Ends.write h.quiet).andThen <| (Ends.write (h.within w₁).quiet).andThen <|
    (Ends.write (h.within w₂).quiet).andThen <| Ends.onlyIf (fun hm => ?_) fun hm => ?_
  · rw [State.platformUp, if_pos hm]
    exact Ends.write (h.within w₃).quiet
  · rw [State.platformUp, if_neg (by simp [hm])]

/-- LIFE_UP as its set-up and the rest. -/
theorem lifeUp_eq (c : Config) (p : Port) : lifeUp c p =
    ((write p (·.clockOn)).andThen fun _ => (write p (·.pulsed)).andThen fun _ => (write p (·.pins .afOd)).andThen fun _ =>
      Prog.onlyIf (c.mode == .interrupt) (write p (·.irqs true))).andThen fun _ =>
    (demand (c.pclk / 1000000 < 2 ^ c.layout.freq.width) .freqFieldOverflow).andThen fun _ =>
    (put p .cr2 (place c.layout.freq (c.pclk / 1000000))).andThen fun _ =>
    (clkProgram c p c.pclk 100000).andThen fun _ =>
    modify p .cr1 0 (bit c.layout.pe) := by
  cases hm : c.mode <;> simp [lifeUp, hm, write, act, Prog.andThen, Prog.onlyIf]

theorem Prog.Ends.lifeUp {s : State} {p : Port} (h : Masked s) (hf : BringUpFits s.cfg) :
    (Machine.lifeUp s.cfg p).Ends s () (s.broughtUp p) := by
  have h₁ := h.within (WithinPort.platformUp s p)
  have h₂ := h₁.within (.putReg _ p .cr2 (place s.cfg.layout.freq (s.cfg.pclk / 1000000)))
  have h₃ := calm_masked.clockDone (c := s.cfg) (p := p) (fp := s.cfg.pclk) (ft := 100000) h₂
  have hd : (Machine.demand (decide (s.cfg.pclk / 1000000 < 2 ^ s.cfg.layout.freq.width)) .freqFieldOverflow).Ends
      (s.platformUp p) () (s.platformUp p) := by
    rw [demand, if_pos (decide_eq_true hf.1)]
    exact .ret () _
  rw [lifeUp_eq]
  exact (Ends.platformUp h).andThen <| hd.andThen <|
    (Ends.put h₁.quiet rfl (by decide) (by simp)).andThen <|
    (Ends.clkProgram calm_masked h₂ (by simp) (clockRefusal_eq_none hf.2)).andThen <|
    Ends.modify h₃.quiet rfl (by simp [State.clockDone_bus])

theorem Prog.Fails.lifeUp {s : State} {p : Port} (h : Masked s)
    (hf : 2 ^ s.cfg.layout.freq.width ≤ s.cfg.pclk / 1000000) :
    (Machine.lifeUp s.cfg p).Fails s (.refusal .freqFieldOverflow) := by
  have h₁ := h.within (WithinPort.platformUp s p)
  rw [lifeUp_eq]
  refine (Ends.platformUp h).fails (Fails.andThen ?_)
  rw [demand, if_neg (by simpa using hf)]
  exact .refuse h₁.quiet _

/-- The Bus State LIFE_UP leaves. -/
theorem State.broughtUp_bus (s : State) (p : Port) : (s.broughtUp p).bus p =
    ((((((((((s.platformUp p).bus p).put .cr2 (place s.cfg.layout.freq (s.cfg.pclk / 1000000))).record
      (.rd .cr1 (s.regAt 0))).put .cr1 (s.regAt 0 &&& ~~~(bit s.cfg.layout.pe))).put .ccr
      (ccrWord s.cfg.layout (clockWords s.cfg.duty169 s.cfg.pclk 100000))).put .trise
      (place s.cfg.layout.trise (clockWords s.cfg.duty169 s.cfg.pclk 100000).trise)).put .oar1 0x4000).put .cr1
      (s.regAt 0)).record (.rd .cr1 (s.regAt 1))).put .cr1 (modified (s.regAt 1) 0 (bit s.cfg.layout.pe)) := by
  simp [State.broughtUp, State.clockDone_bus]

/-- R183 at 100 kHz, where it fits. -/
theorem clockWords_bringUp {c : Config} (hf : BringUpFits c) :
    ccrWord c.layout (clockWords c.duty169 c.pclk 100000) = place c.layout.ccr (max 4 (c.pclk / 200000)) ∧
      place c.layout.trise (clockWords c.duty169 c.pclk 100000).trise = place c.layout.trise (c.pclk / 1000000 + 1) := by
  obtain ⟨-, -, h, -⟩ := hf
  simp only [clockWords, Nat.le_refl, if_true, clockStandard] at h
  simp [clockWords, clockStandard, ccrWord, Nat.mod_eq_of_lt h]

theorem State.broughtUp_hist {s : State} (p : Port) (hf : BringUpFits s.cfg) :
    ((s.broughtUp p).bus p).hist = (s.bus p).hist ++ s.bringUpEvs := by
  obtain ⟨hccr, htrise⟩ := clockWords_bringUp hf
  simp [State.broughtUp_bus, hccr, htrise, State.bringUpEvs, clockEvs, modEvs, modified]

theorem LifecycleKeeps.broughtUp (s : State) (p : Port) : LifecycleKeeps (s.bus p) ((s.broughtUp p).bus p) := by
  rw [State.broughtUp_bus]
  exact (LifecycleKeeps.platformUp s p).trans <| (LifecycleKeeps.put _ _ _).trans <| (LifecycleKeeps.record _ _).trans <|
    (LifecycleKeeps.put _ _ _).trans <| (LifecycleKeeps.put _ _ _).trans <| (LifecycleKeeps.put _ _ _).trans <|
    (LifecycleKeeps.put _ _ _).trans <| (LifecycleKeeps.put _ _ _).trans <| (LifecycleKeeps.record _ _).trans (.put _ _ _)

/-! LIFE_DOWN (R341). -/

/-- The state LIFE_DOWN leaves. -/
def State.shutDown (s : State) (p : Port) : State :=
  (((s.putReg p .cr1 0).changed p (·.irqs false)).changed p (·.pins .unconf)).changed p (·.clockOff)

theorem WithinPort.shutDown (s : State) (p : Port) : WithinPort p s (s.shutDown p) :=
  (((WithinPort.putReg s p .cr1 0).trans (.changed ..)).trans (.changed ..)).trans (.changed ..)

theorem Prog.Ends.lifeDown {s : State} {p : Port} (h : Masked s) (hc : (s.bus p).plat.clkEn = true) :
    (Machine.lifeDown p).Ends s () (s.shutDown p) := by
  have w₁ := WithinPort.putReg s p .cr1 0
  have w₂ := w₁.trans (.changed _ p (·.irqs false))
  have w₃ := w₂.trans (.changed _ p (·.pins .unconf))
  exact (Ends.put h.quiet rfl (by decide) hc).andThen <| (Ends.write (h.within w₁).quiet).andThen <|
    (Ends.write (h.within w₂).quiet).andThen <| Ends.write (h.within w₃).quiet

theorem State.shutDown_bus (s : State) (p : Port) :
    (s.shutDown p).bus p = ((((s.bus p).put .cr1 0).irqs false).pins .unconf).clockOff := by
  simp [State.shutDown]

theorem LifecycleKeeps.shutDown (s : State) (p : Port) : LifecycleKeeps (s.bus p) ((s.shutDown p).bus p) := by
  rw [State.shutDown_bus]
  exact (((LifecycleKeeps.put _ _ _).trans (.irqs _ _)).trans (.pins _ _)).trans (.clockOff _)

/-- Settles O50. -/
theorem lifeUpAndDown : Obligations.LifeUpAndDown := by
  intro s p hm
  refine ⟨fun hf => ?_, fun hf => (Prog.Fails.lifeUp hm hf).refused (f := (lifeUp · p)) hm.quiet, fun hc => ?_⟩
  · obtain ⟨hccr, htrise⟩ := clockWords_bringUp hf
    have hw := (WithinPort.broughtUp s p).trans (.past _ p [])
    have hlife := LifecycleKeeps.broughtUp s p
    refine ⟨_, (Prog.Ends.lifeUp hm hf).call (i := .lifeUp p) (f := (lifeUp · p)) hm.quiet, ?_, ?_, ?_, ?_, ?_, ?_, ?_, ?_, ?_, ?_, ?_, ?_,
      ?_, by simpa using hlife, hw.others, hw.memory, hw.outside⟩
    · rw [State.withPast_bus, State.broughtUp_hist p hf]
    all_goals simp [State.broughtUp_bus, modified, hccr, htrise]
  · have hw := (WithinPort.shutDown s p).trans (.past _ p [])
    have hlife := LifecycleKeeps.shutDown s p
    refine ⟨_, (Prog.Ends.lifeDown hm hc).call (i := .lifeDown p) (f := fun _ => lifeDown p) hm.quiet, ?_, ?_, ?_, ?_, ?_, ?_, ?_, ?_,
      by simpa using hlife, hw.others, hw.memory, hw.outside⟩
    all_goals simp [State.shutDown_bus, BusState.irqs, BusState.pins, BusState.clockOff]

end Sys2Proof.Machine
end

section
/-! OP_INIT and OP_UNINIT (47_lifecycle_trace_ops R340, R341) where nobody else moves, and the transfer fields under every
operation of the lifecycle (70_reset_and_hazards R455). -/

namespace Sys2Proof.Machine

/-! The `interrupts_off` region of OP_INIT. -/

theorem masked_intsOff (s : State) : Masked (s.withIntsOff true) := .inl rfl

/-- The state in the region of `init` after its bring-up (R340). -/
def State.portUp (s : State) (p : Port) : State :=
  if (s.bus p).refs == 0 then (s.withIntsOff true).broughtUp p else s.withIntsOff true

/-- The state OP_INIT leaves. -/
def State.inited (s : State) (p : Port) : State :=
  ((((s.portUp p).changed p fun b => { b with refs := b.refs + 1 }).withIntsOff false).withInstances
    (s.instances ++ [some (Inst.fresh p)])).withRet s.instances.length

theorem WithinPort.portUp (s : State) (p : Port) : WithinPort p (s.withIntsOff true) (s.portUp p) := by
  unfold State.portUp
  split
  · exact .broughtUp _ p
  · exact .refl p _

theorem openPort_run {s : State} {p : Port} (hf : (s.bus p).refs = 0 → BringUpFits s.cfg) (xs : List Ans) :
    openPort s.cfg p (s.withPast xs) = .ok () ((s.inited p).withPast xs) := by
  have hup : onlyIf ((s.bus p).refs == 0) (lifeUp s.cfg p).direct ((s.withIntsOff true).withPast xs) =
      .ok () ((s.portUp p).withPast xs) := by
    unfold State.portUp
    cases hr : (s.bus p).refs == 0 with
    | false => rfl
    | true => exact (Prog.Ends.lifeUp (p := p) (masked_intsOff s) (hf (by simpa using hr))).direct xs
  have hi : ((s.portUp p).changed p fun b => { b with refs := b.refs + 1 }).instances = s.instances :=
    ((WithinPort.portUp s p).trans (.changed ..)).outside.instances
  rw [openPort, run_bind_ok (show setIntsOff true (s.withPast xs) = .ok () ((s.withIntsOff true).withPast xs) from rfl),
    run_bind_ok (run_lookBus ..), State.withPast_bus, State.withIntsOff_bus, run_bind_ok hup, run_bind_ok (run_updBus ..),
    run_bind_ok (show setIntsOff false _ = .ok () _ from rfl), run_bind_ok (show openInst p _ = .ok _ _ from rfl)]
  simp only [State.inited, answer, run_upd, ← hi]
  rw [State.withPast_bus, State.withPast_setBus]
  rfl

theorem State.inited_bus (s : State) (p q : Port) : (s.inited p).bus q =
    ((s.portUp p).changed p fun b => { b with refs := b.refs + 1 }).bus q := by
  simp [State.inited]

theorem State.inited_others (s : State) {p q : Port} (h : q ≠ p) : (s.inited p).bus q = s.bus q := by
  rw [State.inited_bus, State.changed_bus_of_ne _ _ h, (WithinPort.portUp s p).others q h, State.withIntsOff_bus]

theorem State.inited_memory (s : State) (p : Port) : MemoryKept s (s.inited p) := by
  have h := ((WithinPort.portUp s p).trans (.changed _ p fun b => { b with refs := b.refs + 1 })).memory
  exact ⟨h.bytes, h.races⟩

theorem exec_opInit_of_absent {s : State} {p : Port} (ha : Alone s) (hp : p ∉ s.cfg.ports) :
    exec (.opInit p) s = .refused .portAbsent := by
  refine Prog.Fails.refused (f := (opInit · p)) ha.quiet ?_
  rw [opInit, offered, if_neg (by simpa using hp)]
  exact .refuse ha.quiet _

theorem exec_opInit {s : State} {p : Port} (ha : Alone s) (hp : p ∈ s.cfg.ports)
    (hf : (s.bus p).refs = 0 → BringUpFits s.cfg) : exec (.opInit p) s = .next ((s.inited p).withPast []) := by
  refine Prog.Ends.call (i := .opInit p) (f := (opInit · p)) ha.quiet ?_
  rw [opInit, offered, if_pos (by simpa using hp)]
  exact .act ha.quiet (openPort_run hf)

/-- Settles O48. -/
theorem initOpensAHandle : Obligations.InitOpensAHandle := by
  intro s p ha
  refine ⟨exec_opInit_of_absent ha, fun hp hr hf => ?_, fun hp hr => ?_⟩
  · have hup : s.portUp p = (s.withIntsOff true).broughtUp p := if_pos (by simpa using hr)
    have hlife : LifecycleKeeps (s.bus p) ((s.inited p).bus p) := by
      have h := LifecycleKeeps.broughtUp (s.withIntsOff true) p
      rw [State.withIntsOff_bus] at h
      rw [State.inited_bus, State.changed_bus, hup]
      exact h.trans (.fields _ _ _ _ _ _)
    have hhist := State.broughtUp_hist (s := s.withIntsOff true) p hf
    have hbus : ∀ q, ((s.inited p).withPast []).bus q = (s.inited p).bus q := fun q => State.withPast_bus ..
    refine ⟨_, exec_opInit ha hp fun _ => hf, ?_, ?_, ?_, ?_, ?_, fun hm => ?_, by rw [hbus]; exact hlife,
      fun q hq => (hbus q).trans (s.inited_others hq), (s.inited_memory p).withPast [], rfl, rfl, rfl⟩
    all_goals rw [hbus, State.inited_bus, State.changed_bus, hup]
    · simp [State.broughtUp_bus, hr]
    · rw [State.withIntsOff_bus] at hhist
      exact hhist
    all_goals simp [State.broughtUp_bus]
    exact ⟨fun h => absurd hm h, fun h => absurd hm h⟩
  · have hup : s.portUp p = s.withIntsOff true := if_neg (by simpa using Nat.pos_iff_ne_zero.1 hr)
    have hbus : ∀ q, ((s.inited p).withPast []).bus q = (s.inited p).bus q := fun q => State.withPast_bus ..
    refine ⟨_, exec_opInit ha hp fun h0 => absurd h0 (by omega), ?_, fun q hq => (hbus q).trans (s.inited_others hq),
      (s.inited_memory p).withPast [], rfl, rfl, rfl⟩
    rw [hbus, State.inited_bus, State.changed_bus, hup, State.withIntsOff_bus]

/-! OP_UNINIT. -/

/-- The tests of OP_UNINIT change nothing (R341). -/
theorem uninitTests_run (s : State) (d : Nat) : uninitTests d s =
    match s.inst d with
    | none => .error (.refusal .notOpen) s
    | some x =>
      if (s.bus x.port).refs = 0 then .error (.refusal .notOpen) s
      else if (s.bus x.port).lock = .free then .ok x s
      else .error (.refusal .uninitDuringTransfer) s := by
  rw [uninitTests, run_bind_ok (run_look ..)]
  cases s.inst d with
  | none => rfl
  | some x =>
    by_cases hr : (s.bus x.port).refs = 0
    · simp [run_bind, run_require, hr]
    · by_cases hl : (s.bus x.port).lock = .free <;> simp [run_bind, run_require, hr, hl]

/-- The state in the region of `uninit` after its shut-down (R341). -/
def State.portDown (s : State) (p : Port) : State :=
  let t := (s.withIntsOff true).changed p fun b => { b with refs := b.refs - 1 }
  if (s.bus p).refs - 1 == 0 then t.shutDown p else t

theorem WithinPort.portDown (s : State) (p : Port) : WithinPort p (s.withIntsOff true) (s.portDown p) := by
  have h := WithinPort.changed (s.withIntsOff true) p fun b => { b with refs := b.refs - 1 }
  unfold State.portDown
  dsimp only
  split
  · exact h.trans (.shutDown _ p)
  · exact h

/-- The state OP_UNINIT leaves. -/
def State.uninited (s : State) (d : Nat) (p : Port) : State :=
  (((s.portDown p).withIntsOff false).withInstances (s.instances.set d none)).withRet 0

/-- The region of `uninit` after its test and its count. -/
theorem closePort_region {s : State} {p : Port} (hr : (s.bus p).refs ≠ 0) (xs : List Ans) :
    closePort p (s.withPast xs) =
      (do onlyIf ((s.bus p).refs - 1 == 0) (lifeDown p).direct; setIntsOff false : M Unit)
        (((s.withIntsOff true).changed p fun b => { b with refs := b.refs - 1 }).withPast xs) := by
  have hreq : require ((s.bus p).refs != 0) .notOpen (s.withPast xs) = .ok () (s.withPast xs) := by simp [run_require, hr]
  rw [closePort, run_bind_ok (run_lookBus ..), State.withPast_bus, run_bind_ok hreq,
    run_bind_ok (show setIntsOff true (s.withPast xs) = .ok () ((s.withIntsOff true).withPast xs) from rfl),
    run_bind_ok (run_updBus ..), State.withPast_bus, State.withPast_setBus, run_bind_ok (run_lookBus ..), State.withPast_bus,
    State.bus_setBus_same, State.withIntsOff_bus]
  rfl

theorem closePort_run {s : State} {p : Port} (hr : (s.bus p).refs ≠ 0)
    (hc : (s.bus p).refs = 1 → (s.bus p).plat.clkEn = true) (xs : List Ans) :
    closePort p (s.withPast xs) = .ok () (((s.portDown p).withIntsOff false).withPast xs) := by
  have hdown : onlyIf ((s.bus p).refs - 1 == 0) (lifeDown p).direct
      (((s.withIntsOff true).changed p fun b => { b with refs := b.refs - 1 }).withPast xs) = .ok () ((s.portDown p).withPast xs) := by
    unfold State.portDown
    cases h1 : (s.bus p).refs - 1 == 0 with
    | false => rfl
    | true =>
      have h1' : (s.bus p).refs = 1 := by
        have : (s.bus p).refs - 1 = 0 := by simpa using h1
        omega
      exact (Prog.Ends.lifeDown ((masked_intsOff s).within (.changed _ p _)) (by simpa using hc h1')).direct xs
  rw [closePort_region hr]
  exact (run_bind_ok hdown).trans rfl

theorem exec_opUninit_refused {s : State} {d : Nat} {r : Refusal} (ha : Alone s)
    (h : ∀ xs, uninitTests d (s.withPast xs) = .error (.refusal r) (s.withPast xs)) : exec (.opUninit d) s = .refused r :=
  Prog.Fails.refused (f := fun _ => opUninit d) ha.quiet (Prog.Fails.andThen (.askInst ha.quiet fun xs => ⟨_, h xs⟩))

theorem State.uninited_bus (s : State) (d : Nat) (p q : Port) : (s.uninited d p).bus q = (s.portDown p).bus q := by
  simp [State.uninited]

/-- What the release leaves of the port: one reference less, and shut down with the last. -/
theorem State.portDown_bus (s : State) (p : Port) : (s.portDown p).bus p =
    let b := { s.bus p with refs := (s.bus p).refs - 1 }
    if (s.bus p).refs - 1 = 0 then (((b.put .cr1 0).irqs false).pins .unconf).clockOff else b := by
  unfold State.portDown
  by_cases h : (s.bus p).refs - 1 = 0 <;> simp [h, State.shutDown_bus]

theorem State.portDown_others (s : State) {p q : Port} (h : q ≠ p) : (s.portDown p).bus q = s.bus q := by
  rw [(WithinPort.portDown s p).others q h, State.withIntsOff_bus]

/-- A release lets no entry start: it only detaches lines. -/
theorem Alone.portDown {s : State} (ha : Alone s) (p : Port) : Alone ((s.portDown p).withIntsOff false) := by
  have hw := (WithinPort.portDown s p).outside
  refine ⟨⟨hw.threads.trans ha.threads, hw.requests.trans ha.requests, hw.stores.trans ha.stores⟩, fun q => ?_⟩
  have same (h : (s.portDown p).bus q = { s.bus q with refs := ((s.portDown p).bus q).refs }) :
      Machine.canEnter (((s.portDown p).withIntsOff false).withIntsOff false) q = false := by
    refine (canEnter_congr (s := s.withIntsOff false) (t := ((s.portDown p).withIntsOff false).withIntsOff false) hw.cfg rfl ?_ ?_ ?_ ?_).trans (ha.entries q)
    all_goals
      simp only [State.withIntsOff_bus]
      rw [h]
  by_cases hq : q = p
  · subst hq
    by_cases h0 : (s.bus q).refs - 1 = 0
    · simp [Machine.canEnter, State.portDown_bus, h0, BusState.irqs, BusState.pins, BusState.clockOff]
    · exact same (by simp [State.portDown_bus, h0])
  · exact same (by rw [State.portDown_others s hq])

theorem exec_opUninit {s : State} {d : Nat} {x : Inst} (ha : Alone s) (hx : s.inst d = some x)
    (hr : (s.bus x.port).refs ≠ 0) (hl : (s.bus x.port).lock = .free)
    (hc : (s.bus x.port).refs = 1 → (s.bus x.port).plat.clkEn = true) :
    exec (.opUninit d) s = .next ((s.uninited d x.port).withPast []) := by
  have hinst : ((s.portDown x.port).withIntsOff false).instances = s.instances := (WithinPort.portDown s x.port).outside.instances
  refine Prog.Ends.call (i := .opUninit d) (f := fun _ => opUninit d) ha.quiet ?_
  refine (Prog.Ends.askInst (v := x) ha.quiet fun xs => ?_).andThen <|
    (Prog.Ends.act ha.quiet (closePort_run hr hc)).andThen (Prog.Ends.act (ha.portDown x.port).quiet fun xs => ?_)
  · rw [uninitTests_run]
    simp [hx, hr, hl]
  · rw [State.uninited, ← hinst]
    rfl

theorem State.uninited_inst (s : State) (d : Nat) (p : Port) :
    (s.uninited d p).inst d = none ∧ ∀ e, e ≠ d → (s.uninited d p).inst e = s.inst e := by
  refine ⟨?_, fun e he => ?_⟩
  · simp only [State.inst, State.uninited, State.withRet_instances, State.withInstances_instances, List.getElem?_set_self']
    cases s.instances[d]? <;> rfl
  · simp [State.inst, State.uninited, List.getElem?_set_ne (Ne.symm he)]

theorem State.uninited_memory (s : State) (d : Nat) (p : Port) : MemoryKept s (s.uninited d p) := by
  have h := (WithinPort.portDown s p).memory
  exact ⟨h.bytes, h.races⟩

/-- Settles O49. -/
theorem uninitReleasesAHandle : Obligations.UninitReleasesAHandle := by
  refine ⟨fun s d ha hd => exec_opUninit_refused ha fun xs => ?_, fun s d x ha hx => ⟨fun hr => ?_, fun o hr hl => ?_,
    fun hr hl => ?_, fun hr hl hc => ?_⟩⟩
  · simp [uninitTests_run, hd]
  · exact exec_opUninit_refused ha fun xs => by simp [uninitTests_run, hx, hr]
  · exact exec_opUninit_refused ha fun xs => by simp [uninitTests_run, hx, Nat.pos_iff_ne_zero.1 hr, hl]
  · have h1 : (s.bus x.port).refs - 1 ≠ 0 := by omega
    have hbus (q : Port) : ((s.uninited d x.port).withPast []).bus q = (s.portDown x.port).bus q := by
      rw [State.withPast_bus, State.uninited_bus]
    refine ⟨_, exec_opUninit ha hx (by omega) hl (fun h => by omega), ?_, fun q hq => (hbus q).trans (s.portDown_others hq),
      (s.uninited_memory d x.port).withPast [], (s.uninited_inst d x.port).1, (s.uninited_inst d x.port).2, rfl, rfl⟩
    rw [hbus, State.portDown_bus]
    exact if_neg h1
  · have h1 : (s.bus x.port).refs - 1 = 0 := by omega
    have hbus (q : Port) : ((s.uninited d x.port).withPast []).bus q = (s.portDown x.port).bus q := by
      rw [State.withPast_bus, State.uninited_bus]
    have hb : (s.portDown x.port).bus x.port =
        (((({ s.bus x.port with refs := (s.bus x.port).refs - 1 } : BusState).put .cr1 0).irqs false).pins .unconf).clockOff := by
      rw [State.portDown_bus]
      exact if_pos h1
    have hlife : LifecycleKeeps (s.bus x.port) ((s.portDown x.port).bus x.port) := by
      rw [hb]
      exact (LifecycleKeeps.fields _ _ _ _ _ _).trans <| (LifecycleKeeps.put _ _ _).trans <|
        (LifecycleKeeps.irqs _ _).trans <| (LifecycleKeeps.pins _ _).trans (.clockOff _)
    refine ⟨_, exec_opUninit ha hx (by omega) hl (fun _ => hc), ?_, ?_, ?_, ?_, ?_, ?_, ?_, by rw [hbus]; exact hlife,
      fun q hq => (hbus q).trans (s.portDown_others hq), (s.uninited_memory d x.port).withPast [],
      (s.uninited_inst d x.port).1, (s.uninited_inst d x.port).2, rfl, rfl⟩
    all_goals
      rw [hbus, hb]
      simp [BusState.irqs, BusState.pins, BusState.clockOff, h1]

end Sys2Proof.Machine
end

section
/-! The transfer fields under every operation of the lifecycle, where nobody else moves (70_reset_and_hazards R455). -/

namespace Sys2Proof.Machine

variable {α β : Type}

theorem TransferKept.refl (b : BusState) : TransferKept b b := by constructor <;> rfl

/-- No transfer field of any port changed, nor anything that lets another agent move while nobody else can. -/
structure LifeStep (s t : State) : Prop where
  ports : ∀ q, TransferKept (s.bus q) (t.bus q)
  cfg : t.cfg = s.cfg
  intsOff : t.intsOff = s.intsOff
  threads : t.threads = s.threads
  requests : t.requests = s.requests
  stores : t.stores = s.stores

namespace LifeStep

theorem chain : Chain LifeStep where
  refl _ := ⟨fun _ => .refl _, rfl, rfl, rfl, rfl, rfl⟩
  trans h k := ⟨fun q => (h.ports q).trans (k.ports q), k.cfg.trans h.cfg, k.intsOff.trans h.intsOff,
    k.threads.trans h.threads, k.requests.trans h.requests, k.stores.trans h.stores⟩

theorem masked {s t : State} (h : LifeStep s t) (hm : Masked s) : Masked t :=
  hm.congr h.intsOff h.cfg h.threads h.requests h.stores

/-- The kinds of actions of OP_RESET, LIFE_UP and LIFE_DOWN. -/
def kinds : List Op.Kind := .find :: .lock :: .unlock :: .answer :: Prog.Uses.recoveryKinds

end LifeStep

/-- No transfer field of any port changed. -/
def TransfersKept (s t : State) : Prop := ∀ q, TransferKept (s.bus q) (t.bus q)

theorem TransfersKept.chain : Chain TransfersKept := ⟨fun _ _ => .refl _, fun h k q => (h q).trans (k q)⟩

/-- Each single change of a Bus State that such an action makes, or a bring-up. -/
theorem BusStep.transferKept {c : Config} {k : Op.Kind} {b b' : BusState} (h : BusStep c k b b')
    (hk : k ∈ .openPort :: LifeStep.kinds) : TransferKept b b' := by
  cases h with
  | driven _ l => cases l <;> constructor <;> rfl
  | deadline | emitted | taken | drained | install | cleared | begun | handshake | dumped | released =>
    exact absurd hk (of_decide_eq_false rfl)
  | _ => constructor <;> rfl

theorem OpStep.transfersKept {c : Config} {p : Port} {k : Op.Kind} {s t : State} (h : OpStep c p k s t)
    (hk : k ∈ .openPort :: LifeStep.kinds) : TransfersKept s t := fun q => by
  cases h with
  | bus h =>
    by_cases hq : q = p
    · subst hq
      rw [State.bus_setBus_same]
      exact h.transferKept hk
    · rw [State.bus_setBus_of_ne _ _ hq]
      exact .refl _
  | _ => simp [TransferKept.refl]

namespace LifeStep

theorem ofStep {c : Config} {p : Port} {k : Op.Kind} {s t : State} (h : OpStep c p k s t) (hk : k ∈ kinds) : LifeStep s t := by
  refine ⟨h.transfersKept (List.mem_cons_of_mem _ hk), ?_, ?_, ?_, ?_, ?_⟩ <;> cases h with
  | intsOff _ h => obtain rfl | rfl := h <;> exact absurd hk (of_decide_eq_false rfl)
  | _ => simp

theorem op {c : Config} {p : Port} {o : Op} (h : o.kind ∈ kinds) (ha : o.Allowed c) : Keeps LifeStep (o.run c p) :=
  Op.keeps chain (fun e => absurd (e ▸ h) (of_decide_eq_false rfl)) ha fun e => ofStep e h

/-- A program of such actions with nobody able to move. -/
theorem drive {own : Option Port} {x : Prog α} (hx : x.All (Keeps LifeStep)) {s : State} (hm : Masked s) :
    (∀ {a t}, drive own x s = .ok a t → LifeStep s t) ∧ ∀ {e t}, drive own x s = .error e t → LifeStep s t := by
  induction hx generalizing s with
  | ret b => exact ⟨fun h => by cases h; exact chain.refl _, fun h => by cases h⟩
  | @act m k hk _ ih =>
    rw [drive_act_quiet own m k hm.quiet]
    cases hr : m s with
    | error e v => exact ⟨fun h => (by cases h), fun h => by cases h; exact hk.error hr⟩
    | ok y v =>
      have hp : LifeStep v (v.withPast (v.past ++ [y])) :=
        ⟨fun q => by rw [State.withPast_bus]; exact .refl _, rfl, rfl, rfl, rfl, rfl⟩
      have h := chain.trans (hk.ok hr) hp
      obtain ⟨hok, herr⟩ := ih y (h.masked hm)
      exact ⟨fun e => chain.trans h (hok e), fun e => chain.trans h (herr e)⟩

/-- So does a call of such a program. -/
theorem call {i : Instr} {f : Config → Prog Unit} {s t : State} (hm : Masked s) (hx : (f s.cfg).All (Keeps LifeStep))
    (h : call i f s = .next t) (q : Port) : TransferKept (s.bus q) (t.bus q) := by
  have hm₀ : Masked (s.withPast []) := hm.congr rfl rfl rfl rfl rfl
  obtain ⟨hok, herr⟩ := drive (own := (s.withPast []).portOf i) hx hm₀
  rw [← driveCall_quiet hm₀.quiet] at hok herr
  unfold Machine.call at h
  split at h <;> cases h
  · simpa using (hok ‹_›).ports q
  · simpa using (herr ‹_›).ports q

end LifeStep

theorem opReset_lifeStep (c : Config) (d : Nat) : (opReset c d).All (Keeps LifeStep) := by
  refine Prog.All.ite ?_ (.act (LifeStep.op (c := c) (p := .i2c1) (o := .refuse .optionOff) (by decide) trivial) fun _ => .ret _)
  refine Prog.All.andThen (.act (LifeStep.op (c := c) (p := .i2c1) (o := .getInst d) (of_decide_eq_true rfl) trivial) fun _ => .ret _) fun x => ?_
  have rest (ok : Bool) : (if ok then (recoverBus c x.port).andThen fun _ => releaseAndReturn x.port 0
      else returnInterrupted c).Uses c x.port LifeStep.kinds :=
    .ite (Prog.Uses.andThen Prog.Uses.recoverBus.mono fun _ => .op (.unlock 0)) (.op (.answer _))
  exact Prog.Uses.all (Prog.Uses.andThen (.op (.tryAcquire d)) rest) fun _ => LifeStep.op

/-! The two operations that count references. -/

theorem TransfersKept.openPort (c : Config) (p : Port) : Keeps TransfersKept (openPort c p) :=
  OpStep.keeps_openPort chain fun h => h.transfersKept (List.mem_cons_self ..)

/-- Where the last reference goes, the shut-down faults with the port's clock off. -/
theorem exec_opUninit_clockOff {s : State} {d : Nat} {x : Inst} (ha : Alone s) (hx : s.inst d = some x)
    (hr : (s.bus x.port).refs = 1) (hl : (s.bus x.port).lock = .free) (hc : (s.bus x.port).plat.clkEn = false) :
    exec (.opUninit d) s = .fault .portDown := by
  have htests (xs : List Ans) : uninitTests d (s.withPast xs) = .ok x (s.withPast xs) := by
    rw [uninitTests_run]
    simp [hx, hr, hl]
  have hfails : (opUninit d).Fails s (.fault .portDown) := by
    refine (Prog.Ends.askInst ha.quiet htests).fails (Prog.Fails.andThen (.act ha.quiet fun xs => ?_))
    have hput : (lifeDown x.port).direct (((s.withIntsOff true).changed x.port fun b => { b with refs := b.refs - 1 }).withPast xs) =
        .error (.fault .portDown) (((s.withIntsOff true).changed x.port fun b => { b with refs := b.refs - 1 }).withPast xs) :=
      run_bind_error (run_bind_error (regPut_portDown rfl (by decide) (by simpa using hc)))
    rw [closePort_region (by omega), hr]
    exact ⟨_, run_bind_error hput⟩
  obtain ⟨t, ht⟩ := hfails.driveCall (i := .opUninit d) ha.quiet
  exact call_fault (f := fun _ => opUninit d) ht

theorem exec_opInit_eq (p : Port) (s : State) : exec (.opInit p) s = call (.opInit p) (opInit · p) s := rfl

/-- Where OP_INIT goes on it kept every transfer field. -/
theorem opInit_transfersKept {s t : State} {p : Port} (ha : Alone s) (h : exec (.opInit p) s = .next t) : TransfersKept s t := by
  by_cases hp : p ∈ s.cfg.ports
  · have hk : Keeps TransfersKept (do openPort s.cfg p; return Ans.unit : M Ans) :=
      Keeps.bind TransfersKept.chain (TransfersKept.openPort _ _) fun _ => Keeps.pure TransfersKept.chain _
    have hq : othersCanMove (s.withPast []) = false := by simpa using ha.quiet
    have hprog : opInit s.cfg p = act (openPort s.cfg p) := if_pos (by simpa using hp)
    rw [exec_opInit_eq] at h
    simp only [call] at h
    rw [driveCall_quiet hq, hprog, act, drive_act_quiet _ _ _ hq] at h
    intro q
    cases hm : (do openPort s.cfg p; return Ans.unit : M Ans) (s.withPast []) with
    | ok y v =>
      rw [hm] at h
      cases h
      simpa using hk.ok hm q
    | error e v =>
      rw [hm] at h
      cases e <;> cases h
      simpa using hk.error hm q
  · rw [exec_opInit_of_absent ha hp] at h
    cases h

/-- Where OP_UNINIT goes on its tests held and its release did. -/
theorem opUninit_transfersKept {s t : State} {d : Nat} (ha : Alone s) (h : exec (.opUninit d) s = .next t) :
    TransfersKept s t := by
  have refused {r : Refusal} (hr : ∀ xs, uninitTests d (s.withPast xs) = .error (.refusal r) (s.withPast xs)) : False := by
    rw [exec_opUninit_refused ha hr] at h
    cases h
  cases hx : s.inst d with
  | none => exact (refused (r := .notOpen) fun xs => by simp [uninitTests_run, hx]).elim
  | some x =>
    by_cases hr : (s.bus x.port).refs = 0
    · exact (refused (r := .notOpen) fun xs => by simp [uninitTests_run, hx, hr]).elim
    cases hl : (s.bus x.port).lock with
    | held o => exact (refused (r := .uninitDuringTransfer) fun xs => by simp [uninitTests_run, hx, hr, hl]).elim
    | free =>
      by_cases hc : (s.bus x.port).refs = 1 → (s.bus x.port).plat.clkEn = true
      · rw [exec_opUninit ha hx hr hl hc] at h
        cases h
        intro q
        rw [State.withPast_bus, State.uninited_bus]
        by_cases hq : q = x.port
        · subst hq
          have h := LifecycleKeeps.fields (s.bus x.port) ((s.bus x.port).refs - 1) (s.bus x.port).regs (s.bus x.port).plat
            (s.bus x.port).hist (s.bus x.port).cr2Written
          rw [State.portDown_bus]
          dsimp only
          split
          · exact (h.trans <| (LifecycleKeeps.put _ _ _).trans <| (LifecycleKeeps.irqs _ _).trans <|
              (LifecycleKeeps.pins _ _).trans (.clockOff _)).transfer
          · exact h.transfer
        · rw [State.portDown_others s hq]
          exact .refl _
      · obtain ⟨h1, hc⟩ := Classical.not_imp.1 hc
        rw [exec_opUninit_clockOff ha hx h1 hl (by simpa using hc)] at h
        cases h

/-- Settles O53: opening and releasing by the states they leave, the others because every action of theirs keeps these
fields. -/
theorem lifecycleKeepsTransferFields : Obligations.LifecycleKeepsTransferFields := by
  rintro s t i h (⟨ha, ⟨p, rfl⟩ | ⟨d, rfl⟩⟩ | ⟨hm, ⟨p, rfl⟩ | ⟨p, rfl⟩ | ⟨d, rfl⟩⟩) q
  · exact opInit_transfersKept ha h q
  · exact opUninit_transfersKept ha h q
  · exact LifeStep.call (i := .lifeUp p) (f := (lifeUp · p)) hm
      (Prog.Uses.all (Prog.Uses.mono (ks' := LifeStep.kinds) Prog.Uses.lifeUp) fun _ => LifeStep.op) h q
  · exact LifeStep.call (i := .lifeDown p) (f := fun _ => lifeDown p) hm
      (Prog.Uses.all (c := s.cfg) (Prog.Uses.mono (ks' := LifeStep.kinds) Prog.Uses.lifeDown) fun _ => LifeStep.op) h q
  · exact LifeStep.call (i := .opReset d) (f := (opReset · d)) hm (opReset_lifeStep s.cfg d) h q

end Sys2Proof.Machine
end

section
/-! Bus recovery where nobody else moves (47_lifecycle_trace_ops R343): its accesses for every sequence of pin levels. -/

namespace Sys2Proof.Machine

/-! The pins. -/

/-- The pin looks from here see these levels. -/
def State.Sees (s : State) (l : List Bool) : Prop := ∀ k v, l[k]? = some v → s.pinAt k = v

/-- Events of one port's lines, with a number of pin looks, and nothing else that a recovery comes back to. -/
structure LineStep (p : Port) (es : List Event) (n : Nat) (s t : State) : Prop where
  within : WithinPort p s t
  hist : (t.bus p).hist = (s.bus p).hist ++ es
  pins : ∀ k, t.pinAt k = s.pinAt (k + n)
  regs : t.regAt = s.regAt

namespace LineStep

variable {p : Port} {es fs : List Event} {n m : Nat} {s t u : State}

theorem refl (p : Port) (s : State) : LineStep p [] 0 s s := ⟨.refl p s, by simp, fun _ => rfl, rfl⟩

theorem trans (h : LineStep p es n s t) (k : LineStep p fs m t u) : LineStep p (es ++ fs) (n + m) s u :=
  ⟨h.within.trans k.within, by rw [k.hist, h.hist, List.append_assoc],
    fun j => by rw [k.pins, h.pins, Nat.add_assoc, Nat.add_comm m n], k.regs.trans h.regs⟩

theorem masked (h : LineStep p es n s t) (hm : Masked s) : Masked t := hm.within h.within

/-- The looks after these ones see the levels that follow. -/
theorem sees {l l' : List Bool} (h : LineStep p es l.length s t) (hs : s.Sees (l ++ l')) : t.Sees l' := by
  intro k v hv
  rw [h.pins]
  refine hs _ v ?_
  rw [Nat.add_comm, List.getElem?_append_right (by omega), Nat.add_sub_cancel_left, hv]

end LineStep

theorem State.Sees.left {s : State} {l l' : List Bool} (h : s.Sees (l ++ l')) : s.Sees l := by
  intro k v hv
  obtain ⟨hk, -⟩ := List.getElem?_eq_some_iff.1 hv
  exact h k v (by rw [List.getElem?_append_left hk, hv])

theorem State.Sees.head {s : State} {b : Bool} {l : List Bool} (h : s.Sees (b :: l)) : s.pinAt 0 = b := h 0 b rfl

/-- The state after a look at a line. -/
def State.pinLooked (s : State) (p : Port) (l : Line) : State :=
  (s.changed p (·.record (.pinRead l (s.pinAt 0)))).withDraws { s.draws with pins := s.draws.pins.advance }

theorem LineStep.pinLooked {s : State} {b : Bool} (p : Port) (l : Line) (h : s.pinAt 0 = b) :
    LineStep p [.pinRead l b] 1 s (s.pinLooked p l) := by
  refine ⟨(WithinPort.changed s p _).trans (.draws _ p _), ?_, fun _ => rfl, rfl⟩
  rw [State.pinLooked, State.withDraws_bus, State.changed_bus, h]
  rfl

/-- A change of the port that appends these events and looks at no pin. -/
theorem LineStep.changed (s : State) (p : Port) {f : BusState → BusState} {es : List Event}
    (h : (f (s.bus p)).hist = (s.bus p).hist ++ es) : LineStep p es 0 s (s.changed p f) := by
  refine ⟨.changed s p f, by rw [State.changed_bus, h], fun k => ?_, ?_⟩
  · simp [State.pinAt, State.changed]
  · funext k
    simp

theorem BusState.driven_hist (b : BusState) (l : Line) (v : Bool) : (b.driven l v).hist = b.hist ++ [.pin l v] := by
  cases l <;> rfl

namespace Prog.Ends

variable {p : Port} {s : State}

theorem readPin (l : Line) (h : Masked s) : (Machine.askFlag (Machine.readPin p l)).Ends s (s.pinAt 0) (s.pinLooked p l) :=
  Ends.askFlag h.quiet fun xs => by
    simp [Machine.readPin, run_bind, State.pinLooked, State.changed, State.pinAt, Source.nth]
    rfl

/-- A line driven, then half a period (R343). -/
theorem driveHalf (l : Line) (v : Bool) (h : Masked s) :
    ∃ t, (Machine.driveHalf p l v).Ends s () t ∧ LineStep p [.pin l v, .delay 10] 0 s t := by
  have h₁ := LineStep.changed s p (f := (·.driven l v)) (BusState.driven_hist _ l v)
  have h₂ := h₁.trans (.changed (s.changed p (·.driven l v)) p (f := (·.record (.delay 10))) (es := [.delay 10]) rfl)
  exact ⟨_, (Ends.write h.quiet).andThen (Ends.write (h₁.masked h).quiet), h₂⟩

end Prog.Ends

/-! The stretch wait. -/

/-- What the looks of a stretch wait with `n` delays left see where `w` of them, `n + 1` at most, see SCL low. -/
def stretchSees (n w : Nat) : List Bool := List.replicate w false ++ (if w ≤ n then [true] else [])

/-- What it appends. -/
def stretchLog (n w : Nat) : List Event :=
  (List.replicate (min w n) [.pinRead .scl false, .delay 10]).flatten ++ [.pinRead .scl (decide (w ≤ n))]

theorem Prog.Ends.stretchLoop {p : Port} {n w : Nat} {s : State} (hw : w ≤ n + 1) (h : Masked s) (hs : s.Sees (stretchSees n w)) :
    ∃ t, (Machine.stretchLoop p n).Ends s () t ∧ LineStep p (stretchLog n w) (stretchSees n w).length s t := by
  induction n generalizing s w with
  | zero =>
    obtain rfl | rfl : w = 0 ∨ w = 1 := by omega
    · exact ⟨_, (Ends.readPin .scl h).andThen (.ret () _), LineStep.pinLooked p .scl hs.head⟩
    · exact ⟨_, (Ends.readPin .scl h).andThen (.ret () _), LineStep.pinLooked p .scl hs.head⟩
  | succ n ih =>
    cases w with
    | zero =>
      have hv := hs.head
      refine ⟨_, (Ends.readPin .scl h).andThen ?_, by simpa [stretchLog, stretchSees] using LineStep.pinLooked p .scl hv⟩
      rw [hv]
      exact .ret () _
    | succ w =>
      have hsee : stretchSees (n + 1) (w + 1) = [false] ++ stretchSees n w := by simp [stretchSees, List.replicate_succ]
      have hlog : stretchLog (n + 1) (w + 1) = [.pinRead .scl false, .delay 10] ++ stretchLog n w := by
        simp [stretchLog, List.replicate_succ, Nat.succ_min_succ]
      rw [hsee] at hs
      have h₁ := LineStep.pinLooked p .scl hs.head
      have h₂ := h₁.trans (.changed (s.pinLooked p .scl) p (f := (·.record (.delay 10))) (es := [.delay 10]) rfl)
      obtain ⟨t, ht, hst⟩ := ih (w := w) (by omega) (h₂.masked h) (h₂.sees (l := [false]) hs)
      refine ⟨t, (Ends.readPin .scl h).andThen ?_, ?_⟩
      · rw [hs.head]
        exact (Ends.write (h₁.masked h).quiet).andThen ht
      · rw [hlog, hsee, List.length_append]
        exact h₂.trans hst

/-! The pulse loop. -/

theorem Prog.Ends.sclPulse {p : Port} {w : Nat} {s : State} (hw : w ≤ 11) (h : Masked s) (hs : s.Sees (stretchLooks w)) :
    ∃ t, (Machine.sclPulse p).Ends s () t ∧
      LineStep p (stretchEvs w ++ [.pin .scl false, .delay 10, .pin .scl true, .delay 10]) (stretchLooks w).length s t := by
  obtain ⟨t₁, e₁, h₁⟩ := Prog.Ends.stretchLoop (p := p) (n := 10) hw h hs
  obtain ⟨t₂, e₂, h₂⟩ := Prog.Ends.driveHalf (p := p) .scl false (h₁.masked h)
  obtain ⟨t₃, e₃, h₃⟩ := Prog.Ends.driveHalf (p := p) .scl true (h₂.masked (h₁.masked h))
  exact ⟨t₃, e₁.andThen (e₂.andThen e₃), h₁.trans (h₂.trans h₃)⟩

/-- The loop ends at the first look that finds SDA high, or after its last pulse. -/
theorem Prog.Ends.pulseLoop {p : Port} {n : Nat} {ws : List Nat} {b : Bool} {s : State} (hw : ∀ w ∈ ws, w ≤ 11)
    (hb : ws.length < n ∧ b = true ∨ ws.length = n) (h : Masked s)
    (hs : s.Sees (ws.flatMap (fun w => false :: stretchLooks w) ++ [b])) :
    ∃ t, (Machine.pulseLoop p n).Ends s () t ∧ LineStep p (ws.flatMap pulseEvs ++ [.pinRead .sda b])
      (ws.flatMap (fun w => false :: stretchLooks w) ++ [b]).length s t := by
  induction n generalizing s ws with
  | zero =>
    obtain rfl : ws = [] := List.length_eq_zero_iff.1 (by omega)
    exact ⟨_, (Ends.readPin .sda h).andThen (.ret () _), LineStep.pinLooked p .sda hs.head⟩
  | succ n ih =>
    cases ws with
    | nil =>
      obtain rfl : b = true := by simpa using hb
      refine ⟨_, (Ends.readPin .sda h).andThen ?_, LineStep.pinLooked p .sda hs.head⟩
      rw [show s.pinAt 0 = true from hs.head]
      exact .ret () _
    | cons w ws =>
      have hs' : s.Sees ([false] ++ (stretchLooks w ++ (ws.flatMap (fun w => false :: stretchLooks w) ++ [b]))) := by
        simpa using hs
      have h₁ := LineStep.pinLooked p .sda hs'.head
      have hs₁ := h₁.sees (l := [false]) hs'
      obtain ⟨t₂, e₂, h₂⟩ := Prog.Ends.sclPulse (p := p) (hw w (by simp)) (h₁.masked h) hs₁.left
      obtain ⟨t₃, e₃, h₃⟩ := ih (ws := ws) (fun w hm => hw w (by simp [hm])) (by simpa using hb) (h₂.masked (h₁.masked h))
        (h₂.sees hs₁)
      refine ⟨t₃, (Ends.readPin .sda h).andThen ?_, ?_⟩
      · rw [show s.pinAt 0 = false from hs'.head]
        exact e₂.andThen e₃
      · have hall := h₁.trans (h₂.trans h₃)
        simpa [pulseEvs, Nat.add_assoc, Nat.add_comm, Nat.add_left_comm] using hall

theorem Prog.Ends.manualStartStop {p : Port} {s : State} (h : Masked s) : ∃ t, (Machine.manualStartStop p).Ends s () t ∧
    LineStep p [.pin .sda false, .delay 10, .pin .scl false, .delay 10, .pin .scl true, .delay 10, .pin .sda true, .delay 10]
      0 s t := by
  obtain ⟨t₁, e₁, h₁⟩ := Prog.Ends.driveHalf (p := p) .sda false h
  have m₁ := h₁.masked h
  obtain ⟨t₂, e₂, h₂⟩ := Prog.Ends.driveHalf (p := p) .scl false m₁
  have m₂ := h₂.masked m₁
  obtain ⟨t₃, e₃, h₃⟩ := Prog.Ends.driveHalf (p := p) .scl true m₂
  have m₃ := h₃.masked m₂
  obtain ⟨t₄, e₄, h₄⟩ := Prog.Ends.driveHalf (p := p) .sda true m₃
  exact ⟨t₄, e₁.andThen (e₂.andThen (e₃.andThen e₄)), h₁.trans (h₂.trans (h₃.trans h₄))⟩

/-- A whole recovery (R343). -/
theorem Prog.Ends.recoverBus {p : Port} {ws : List Nat} {b : Bool} {s : State} (h : Masked s) (hf : BringUpFits s.cfg)
    (hc : (s.bus p).plat.clkEn = true) (hw : ∀ w ∈ ws, w ≤ 11) (hb : ws.length < 10 ∧ b = true ∨ ws.length = 10)
    (hs : s.Sees (ws.flatMap (fun w => false :: stretchLooks w) ++ [b])) :
    ∃ t, (Machine.recoverBus s.cfg p).Ends s () t ∧ WithinPort p s t ∧
      (t.bus p).hist = (s.bus p).hist ++ [.wr .cr1 0, .pin .sda true] ++ ws.flatMap pulseEvs
        ++ [.pinRead .sda b, .pin .sda false, .delay 10, .pin .scl false, .delay 10,
          .pin .scl true, .delay 10, .pin .sda true, .delay 10] ++ s.bringUpEvs := by
  have h₁ : LineStep p [.wr .cr1 0] 0 s (s.shutDown p) := by
    refine ⟨.shutDown s p, ?_, fun k => ?_, ?_⟩
    · simp [State.shutDown_bus, BusState.irqs, BusState.pins, BusState.clockOff]
    · simp [State.pinAt, State.shutDown, State.changed, State.putReg]
    · funext k
      simp [State.shutDown]
  have m₁ := h₁.masked h
  have h₂ := LineStep.changed (s.shutDown p) p (f := (·.pins .gpio)) (es := []) (List.append_nil _).symm
  have m₂ := h₂.masked m₁
  have h₃ := LineStep.changed ((s.shutDown p).changed p (·.pins .gpio)) p (f := (·.driven .sda true)) (BusState.driven_hist _ _ _)
  have m₃ := h₃.masked m₂
  have hpre := h₁.trans (h₂.trans h₃)
  obtain ⟨t₄, e₄, h₄⟩ := Prog.Ends.pulseLoop (p := p) hw hb m₃ (hpre.sees (l := []) hs)
  have m₄ := h₄.masked m₃
  obtain ⟨t₅, e₅, h₅⟩ := Prog.Ends.manualStartStop (p := p) m₄
  have m₅ := h₅.masked m₄
  have h₆ := LineStep.changed t₅ p (f := (·.pins .afOd)) (es := []) (List.append_nil _).symm
  have m₆ := h₆.masked m₅
  have hall := hpre.trans (h₄.trans (h₅.trans h₆))
  have hcfg := hall.within.outside.cfg
  have hev : (t₅.changed p (·.pins .afOd)).bringUpEvs = s.bringUpEvs := by
    simp only [State.bringUpEvs, hcfg, hall.regs]
  have e₇ := Prog.Ends.lifeUp (p := p) m₆ (hcfg ▸ hf)
  rw [hcfg] at e₇
  refine ⟨_, (Prog.Ends.lifeDown h hc).andThen <| (Ends.write m₁.quiet).andThen <| (Ends.write m₂.quiet).andThen <|
    e₄.andThen <| e₅.andThen <| (Ends.write m₅.quiet).andThen e₇, hall.within.trans (.broughtUp _ p), ?_⟩
  rw [State.broughtUp_hist p (hcfg ▸ hf), hev, hall.hist]
  simp

theorem exec_opReset_eq (d : Nat) (s : State) : exec (.opReset d) s = call (.opReset d) (opReset · d) s := rfl

theorem opReset_eq {c : Config} (d : Nat) (h : c.recoveryOn = true) : opReset c d = (theInst d).andThen fun x =>
    (acquire x.port d).andThen fun ok =>
    if ok then (recoverBus c x.port).andThen fun _ => releaseAndReturn x.port 0 else returnInterrupted c := by
  rw [opReset, offered, if_pos h]

/-- The accesses of OP_RESET for one sequence of levels. -/
theorem exec_opReset_hist {s : State} {d : Nat} {x : Inst} {ws : List Nat} {b : Bool} (hm : Masked s)
    (hon : s.cfg.recoveryOn = true) (hx : LockTaken s d x) (hf : BringUpFits s.cfg)
    (hc : (s.bus x.port).plat.clkEn = true) (hw : ∀ w ∈ ws, w ≤ 11)
    (hb : ws.length < 10 ∧ b = true ∨ ws.length = 10)
    (hs : s.Sees (ws.flatMap (fun w => false :: stretchLooks w) ++ [b])) :
    ∃ t, exec (.opReset d) s = .next t ∧
      (t.bus x.port).hist = (s.bus x.port).hist
        ++ [.wr .cr1 0, .pin .sda true] ++ ws.flatMap pulseEvs
        ++ [.pinRead .sda b, .pin .sda false, .delay 10, .pin .scl false, .delay 10,
          .pin .scl true, .delay 10, .pin .sda true, .delay 10] ++ s.bringUpEvs := by
  have h₁ := LineStep.changed s x.port (f := (·.locked d)) (es := []) (List.append_nil _).symm
  have m₁ := h₁.masked hm
  have hcfg := h₁.within.outside.cfg
  obtain ⟨t, ht, hwt, hhist⟩ := Prog.Ends.recoverBus (p := x.port) m₁ (hcfg ▸ hf) (by simpa [BusState.locked] using hc) hw hb
    (h₁.sees (l := []) hs)
  have hev : (s.changed x.port (·.locked d)).bringUpEvs = s.bringUpEvs := by
    simp only [State.bringUpEvs, hcfg, h₁.regs]
  rw [hcfg] at ht
  have mt := m₁.within hwt
  have hend : (opReset s.cfg d).Ends s () ((t.changed x.port (·.unlocked)).withRet 0) := by
    rw [opReset_eq d hon]
    refine (Prog.Ends.theInst hm.quiet hx.inst).andThen <| (Prog.Ends.acquire hm.quiet hx.lock).andThen <|
      ht.andThen <| Prog.Ends.act mt.quiet fun xs => ?_
    simp [run_bind, answer, State.changed]
  refine ⟨_, (exec_opReset_eq d s).trans (hend.call (f := (opReset · d)) hm.quiet), ?_⟩
  rw [State.withPast_bus, State.withRet_bus, State.changed_bus, ← hev]
  simpa [BusState.unlocked, BusState.locked] using hhist

end Sys2Proof.Machine
end

section
/-! The bounds on a bus recovery's looks and pulses (47_lifecycle_trace_ops R343): with no other call beside it, whatever entries
start in between. -/

namespace Sys2Proof.Machine

variable {α β : Type}

/-! Counted events. -/

/-- How often the history grew by a low look at SCL, a high one, a delay, and SCL driven low. -/
def Lines (f t d l : Nat) (b b' : BusState) : Prop := ∃ es, b'.hist = b.hist ++ es ∧ es.count (.pinRead .scl false) = f ∧
  es.count (.pinRead .scl true) = t ∧ es.count (.delay 10) = d ∧ es.count (.pin .scl false) = l

theorem Lines.trans {f t d l f' t' d' l' : Nat} {b b' b'' : BusState} (h : Lines f t d l b b') (k : Lines f' t' d' l' b' b'') :
    Lines (f + f') (t + t') (d + d') (l + l') b b'' := by
  obtain ⟨es, he, h₁, h₂, h₃, h₄⟩ := h
  obtain ⟨es', he', h₁', h₂', h₃', h₄'⟩ := k
  exact ⟨es ++ es', by rw [he', he, List.append_assoc], by simp [h₁, h₁'], by simp [h₂, h₂'], by simp [h₃, h₃'],
    by simp [h₄, h₄']⟩

/-- No engine event is counted. -/
theorem GrownByEngine.lines {b b' : BusState} (h : GrownByEngine b b') : Lines 0 0 0 0 b b' := by
  obtain ⟨es, he, hp⟩ := h
  have none {e : Event} (hpin : e.isPin = true) : es.count e = 0 :=
    List.count_eq_zero.2 fun hm => by rw [hp e hm] at hpin; cases hpin
  exact ⟨es, he, none rfl, none rfl, none rfl, none rfl⟩

theorem Lines.record (b : BusState) (e : Event) : Lines (if e = .pinRead .scl false then 1 else 0)
    (if e = .pinRead .scl true then 1 else 0) (if e = .delay 10 then 1 else 0) (if e = .pin .scl false then 1 else 0)
    b (b.record e) :=
  ⟨[e], rfl, by simp [List.count_singleton], by simp [List.count_singleton], by simp [List.count_singleton],
    by simp [List.count_singleton]⟩

/-- A run of a part with no other call beside it. -/
structure LineRun (p : Port) (f t d l : Nat) (s u : State) : Prop where
  solo : Solo u
  lines : Lines f t d l (s.bus p) (u.bus p)

namespace LineRun

variable {p : Port} {f t d l f' t' d' l' : Nat} {s u v : State}

theorem trans (h : LineRun p f t d l s u) (k : LineRun p f' t' d' l' u v) :
    LineRun p (f + f') (t + t') (d + d') (l + l') s v := ⟨k.solo, h.lines.trans k.lines⟩

theorem past (h : LineRun p f t d l s u) (xs : List Ans) : LineRun p f t d l s (u.withPast xs) :=
  ⟨⟨h.solo.threads, h.solo.requests, h.solo.stores⟩, by simpa using h.lines⟩

theorem of_engine (hs : Solo u) (h : GrownByEngine (s.bus p) (u.bus p)) : LineRun p 0 0 0 0 s u := ⟨hs, h.lines⟩

theorem window {own : Option Port} {x : Unit} (p : Port) (hs : Solo s) (h : window own s = .ok x u) : LineRun p 0 0 0 0 s u :=
  of_engine ((window_moved hs h).1.solo hs) ((window_moved hs h).1.ports p).hist

/-- An action that records one event. -/
theorem record (hs : Solo s) (e : Event) : LineRun p (if e = .pinRead .scl false then 1 else 0)
    (if e = .pinRead .scl true then 1 else 0) (if e = .delay 10 then 1 else 0) (if e = .pin .scl false then 1 else 0)
    s (s.changed p (·.record e)) :=
  ⟨⟨by simpa [State.changed] using hs.threads, by simpa [State.changed] using hs.requests,
    by simpa [State.changed] using hs.stores⟩, by rw [State.changed_bus]; exact .record _ e⟩

end LineRun

/-! The parts of a recovery. -/

theorem drive_write_ok_inv {own : Option Port} {p : Port} {f : BusState → BusState} {s t : State} {x : Unit}
    (h : drive own (write p f) s = .ok x t) : ∃ u, window own s = .ok () u ∧ t = (u.changed p f).withPast (u.past ++ [.unit]) := by
  obtain ⟨u, y, v, hw, hm, h⟩ := drive_act_ok_inv h
  obtain ⟨_, v', hm', hx⟩ := bind_ok_inv hm
  cases hx
  cases h
  rw [run_updBus] at hm'
  cases hm'
  exact ⟨u, hw, by simp [State.changed]⟩

theorem LineRun.write {own : Option Port} {p : Port} {g : BusState → BusState} {s t : State} {x : Unit} {f r d l : Nat} (hs : Solo s)
    (h : drive own (write p g) s = .ok x t) (hg : ∀ b, Lines f r d l b (g b)) : LineRun p f r d l s t := by
  obtain ⟨u, hw, rfl⟩ := drive_write_ok_inv h
  have hu := LineRun.window p hs hw
  have hc : LineRun p f r d l u (u.changed p g) := ⟨⟨by simpa [State.changed] using hu.solo.threads,
    by simpa [State.changed] using hu.solo.requests, by simpa [State.changed] using hu.solo.stores⟩,
    by rw [State.changed_bus]; exact hg _⟩
  simpa using (hu.trans hc).past (u.past ++ [.unit])

theorem LineRun.delay {own : Option Port} {p : Port} {s t : State} {x : Unit} (hs : Solo s)
    (h : drive own (delay p) s = .ok x t) : LineRun p 0 0 1 0 s t := LineRun.write hs h fun b => Lines.record b (.delay 10)

theorem LineRun.driveHalf {own : Option Port} {p : Port} {l : Line} {v : Bool} {s t : State} {x : Unit} (hs : Solo s)
    (h : drive own (driveHalf p l v) s = .ok x t) :
    LineRun p 0 0 1 (if l = .scl ∧ v = false then 1 else 0) s t := by
  obtain ⟨_, u, hd, h⟩ := drive_andThen_ok_inv h
  have h₁ : LineRun p 0 0 0 (if l = .scl ∧ v = false then 1 else 0) s u := by
    refine LineRun.write hs hd fun b => ⟨[.pin l v], BusState.driven_hist b l v, ?_⟩
    cases l <;> cases v <;> exact ⟨rfl, rfl, rfl, rfl⟩
  simpa using h₁.trans (LineRun.delay h₁.solo h)

theorem LineRun.readPin {own : Option Port} {p : Port} {l : Line} {v : Bool} {s t : State} (hs : Solo s)
    (h : drive own (askFlag (readPin p l)) s = .ok v t) :
    LineRun p (if l = .scl ∧ v = false then 1 else 0) (if l = .scl ∧ v = true then 1 else 0) 0 0 s t := by
  obtain ⟨u, w, hw, hm, rfl⟩ := drive_askFlag_ok_inv h
  have hu := LineRun.window p hs hw
  simp only [Machine.readPin, run_bind, run_drawPin, run_updBus, run_pure] at hm
  injection hm with hv hw'
  subst hw'
  rw [hv]
  have hd : LineRun p 0 0 0 0 u (u.withDraws { u.draws with pins := u.draws.pins.advance }) :=
    .of_engine ⟨hu.solo.threads, hu.solo.requests, hu.solo.stores⟩ (by rw [State.withDraws_bus]; exact .refl _)
  have hr := (hu.trans (hd.trans (.record hd.solo (.pinRead l v)))).past (u.past ++ [.flag v])
  cases l <;> cases v <;> simpa [State.changed] using hr

/-- The wait before a pulse: at most `n + 1` looks, the last of them high or every one low. -/
theorem LineRun.stretchLoop {own : Option Port} {p : Port} {n : Nat} {s t : State} {x : Unit} (hs : Solo s)
    (h : drive own (stretchLoop p n) s = .ok x t) :
    ∃ f r d, LineRun p f r d 0 s t ∧ f + r ≤ n + 1 ∧ r ≤ 1 ∧ d ≤ n ∧ (r = 0 → f = n + 1) := by
  induction n generalizing s with
  | zero =>
    obtain ⟨v, u, hr, h⟩ := drive_andThen_ok_inv h
    cases h
    refine ⟨_, _, _, LineRun.readPin hs hr, ?_⟩
    cases v <;> simp
  | succ n ih =>
    obtain ⟨v, u, hr, h⟩ := drive_andThen_ok_inv h
    have h₁ := LineRun.readPin hs hr
    cases v with
    | true =>
      cases h
      exact ⟨_, _, _, h₁, by simp⟩
    | false =>
      obtain ⟨_, w, hd, h⟩ := drive_andThen_ok_inv h
      have h₂ := h₁.trans (LineRun.delay h₁.solo hd)
      obtain ⟨f, r, d, h₃, hb⟩ := ih h₂.solo h
      refine ⟨_, _, _, h₂.trans h₃, ?_⟩
      simp only [and_self, if_true, Bool.false_eq_true, and_false, if_false]
      omega

/-- One pulse and the wait before it. -/
theorem LineRun.sclPulse {own : Option Port} {p : Port} {s t : State} {x : Unit} (hs : Solo s)
    (h : drive own (sclPulse p) s = .ok x t) : ∃ f r d, LineRun p f r d 1 s t ∧ f ≤ 11 ∧ r ≤ 1 := by
  obtain ⟨_, u, hw, h⟩ := drive_andThen_ok_inv h
  obtain ⟨_, v, hlow, h⟩ := drive_andThen_ok_inv h
  obtain ⟨f, r, d, h₁, hb⟩ := LineRun.stretchLoop hs hw
  have h₂ := LineRun.driveHalf h₁.solo hlow
  have h₃ := LineRun.driveHalf h₂.solo h
  exact ⟨_, _, _, by simpa using h₁.trans (h₂.trans h₃), by omega, by omega⟩

/-- The pulse loop: at most `n` pulses. -/
theorem LineRun.pulseLoop {own : Option Port} {p : Port} {n : Nat} {s t : State} {x : Unit} (hs : Solo s)
    (h : drive own (pulseLoop p n) s = .ok x t) :
    ∃ f r d l, LineRun p f r d l s t ∧ f ≤ 11 * n ∧ r ≤ n ∧ l ≤ n := by
  induction n generalizing s with
  | zero =>
    obtain ⟨v, u, hr, h⟩ := drive_andThen_ok_inv h
    cases h
    exact ⟨_, _, _, _, LineRun.readPin hs hr, by simp⟩
  | succ n ih =>
    obtain ⟨v, u, hr, h⟩ := drive_andThen_ok_inv h
    have h₁ := LineRun.readPin hs hr
    cases v with
    | true =>
      cases h
      exact ⟨_, _, _, _, h₁, by simp⟩
    | false =>
      obtain ⟨_, w, hp, h⟩ := drive_andThen_ok_inv h
      obtain ⟨f, r, d, h₂, hf, hr⟩ := LineRun.sclPulse h₁.solo hp
      obtain ⟨f', r', d', l', h₃, hb⟩ := ih h₂.solo h
      refine ⟨_, _, _, _, h₁.trans (h₂.trans h₃), ?_⟩
      simp only [reduceCtorEq, false_and, if_false]
      omega

theorem LineRun.manualStartStop {own : Option Port} {p : Port} {s t : State} {x : Unit} (hs : Solo s)
    (h : drive own (manualStartStop p) s = .ok x t) : ∃ d, LineRun p 0 0 d 1 s t := by
  obtain ⟨_, u, h₁, h⟩ := drive_andThen_ok_inv h
  obtain ⟨_, v, h₂, h⟩ := drive_andThen_ok_inv h
  obtain ⟨_, w, h₃, h⟩ := drive_andThen_ok_inv h
  have k₁ := LineRun.driveHalf hs h₁
  have k₂ := LineRun.driveHalf k₁.solo h₂
  have k₃ := LineRun.driveHalf k₂.solo h₃
  have k₄ := LineRun.driveHalf k₃.solo h
  exact ⟨_, by simpa using k₁.trans (k₂.trans (k₃.trans k₄))⟩

/-! The actions that touch no line. -/

/-- With no other call beside it, what the history of the port grew by is no pin's event. -/
def NoPins (p : Port) (s t : State) : Prop := Solo s → Solo t ∧ GrownByEngine (s.bus p) (t.bus p)

namespace NoPins

variable {p : Port}

theorem chain : Chain (NoPins p) := ⟨fun _ hs => ⟨hs, .refl _⟩, fun h k hs => ⟨(k (h hs).1).1, (h hs).2.trans (k (h hs).1).2⟩⟩

/-- The kinds of the actions that touch no line. -/
def kinds : List Op.Kind := [.lock, .unlock, .answer, .plat, .reg, .cr2, .refuse]

end NoPins

/-- Each single change of a Bus State that such an action makes. -/
theorem BusStep.grownByEngine {c : Config} {k : Op.Kind} {b b' : BusState} (h : BusStep c k b b') (hk : k ∈ NoPins.kinds) :
    GrownByEngine b b' := by
  cases h with
  | read | put | readCr2 | putCr2 => exact ⟨[_], rfl, by simp [Event.isPin]⟩
  | emitted | driven | looked | delay => exact absurd hk (of_decide_eq_false rfl)
  | _ => exact ⟨[], (List.append_nil _).symm, nofun⟩

namespace NoPins

theorem op {c : Config} {o : Op} (h : o.kind ∈ kinds) (ha : o.Allowed c) : Keeps (NoPins p) (o.run c p) := by
  refine Op.keeps chain (fun e => absurd (e ▸ h) (of_decide_eq_false rfl)) ha fun {s t} e hs => ?_
  cases e with
  | bus e =>
    refine ⟨⟨by simpa using hs.threads, by simpa using hs.requests, by simpa using hs.stores⟩, ?_⟩
    rw [State.bus_setBus_same]
    exact e.grownByEngine h
  | _ => exact ⟨⟨hs.threads, hs.requests, hs.stores⟩, by simp [GrownByEngine.refl]⟩

theorem drive {own : Option Port} {x : Prog α} (hx : x.All (Keeps (NoPins p))) {s t : State} {a : α} (hs : Solo s)
    (h : drive own x s = .ok a t) : LineRun p 0 0 0 0 s t := by
  induction hx generalizing s with
  | ret b =>
    cases h
    exact .of_engine hs (.refl _)
  | act hk _ ih =>
    obtain ⟨u, y, v, hw, hm, h⟩ := drive_act_ok_inv h
    have h₁ := LineRun.window p hs hw
    obtain ⟨hv, hg⟩ := hk.ok hm h₁.solo
    have h₂ := (h₁.trans (.of_engine hv hg)).past (v.past ++ [y])
    exact h₂.trans (ih y h₂.solo h)

theorem uses {own : Option Port} {c : Config} {ks : List Op.Kind} {x : Prog α} (hx : x.Uses c p ks) {s t : State} {a : α}
    (hs : Solo s) (h : Machine.drive own x s = .ok a t) (hk : ks ⊆ kinds := by decide) : LineRun p 0 0 0 0 s t :=
  drive (hx.all fun _ ho => op (hk ho)) hs h

end NoPins

/-! A whole recovery. -/

theorem LineRun.recoverBus {own : Option Port} {c : Config} {p : Port} {s t : State} {x : Unit} (hs : Solo s)
    (h : drive own (recoverBus c p) s = .ok x t) : ∃ f r d l, LineRun p f r d l s t ∧ f ≤ 110 ∧ r ≤ 10 ∧ l ≤ 11 := by
  obtain ⟨_, s₁, h₁, h⟩ := drive_andThen_ok_inv h
  obtain ⟨_, s₂, h₂, h⟩ := drive_andThen_ok_inv h
  obtain ⟨_, s₃, h₃, h⟩ := drive_andThen_ok_inv h
  obtain ⟨_, s₄, h₄, h⟩ := drive_andThen_ok_inv h
  obtain ⟨_, s₅, h₅, h⟩ := drive_andThen_ok_inv h
  obtain ⟨_, s₆, h₆, h⟩ := drive_andThen_ok_inv h
  have k₁ := NoPins.uses (Prog.Uses.lifeDown (c := c)) hs h₁
  have k₂ := NoPins.uses (Prog.Uses.op (c := c) (.pins .gpio) (ks := [.plat])) k₁.solo h₂
  have k₃ := LineRun.write (f := 0) (r := 0) (d := 0) (l := 0) k₂.solo h₃ fun b => ⟨[.pin .sda true], rfl, rfl, rfl, rfl, rfl⟩
  obtain ⟨f, r, d, l, k₄, hb⟩ := LineRun.pulseLoop k₃.solo h₄
  obtain ⟨d', k₅⟩ := LineRun.manualStartStop k₄.solo h₅
  have k₆ := NoPins.uses (Prog.Uses.op (c := c) (.pins .afOd) (ks := [.plat])) k₅.solo h₆
  have k₇ := NoPins.uses Prog.Uses.lifeUp k₆.solo h
  refine ⟨_, _, _, _, k₁.trans (k₂.trans (k₃.trans (k₄.trans (k₅.trans (k₆.trans k₇))))), ?_⟩
  omega

/-- What OP_RESET does after its instance is found: the try at the lock, then the recovery or the return. -/
theorem LineRun.afterFound {own : Option Port} {c : Config} {d : Nat} {y : Inst} {s t : State} {x : Unit} (hs : Solo s)
    (h : drive own ((acquire y.port d).andThen fun ok =>
      if ok then (Machine.recoverBus c y.port).andThen fun _ => releaseAndReturn y.port 0 else returnInterrupted c) s = .ok x t) :
    ∃ f r d l, LineRun y.port f r d l s t ∧ f ≤ 110 ∧ r ≤ 10 ∧ l ≤ 11 := by
  obtain ⟨ok, u, hl, h⟩ := drive_andThen_ok_inv h
  have k₁ := NoPins.uses (Prog.Uses.op (c := c) (p := y.port) (.tryAcquire d) (ks := [.lock])) hs hl
  cases ok with
  | false =>
    have k₂ := NoPins.uses (Prog.Uses.op (c := c) (p := y.port) (.answer _) (ks := [.answer])) k₁.solo h
    exact ⟨_, _, _, _, k₁.trans k₂, by omega⟩
  | true =>
    obtain ⟨_, v, hr, h⟩ := drive_andThen_ok_inv h
    obtain ⟨f, r, e, l, k₂, hb⟩ := LineRun.recoverBus k₁.solo hr
    have k₃ := NoPins.uses (Prog.Uses.op (c := c) (p := y.port) (.unlock 0) (ks := [.unlock])) k₂.solo h
    exact ⟨_, _, _, _, k₁.trans (k₂.trans k₃), by omega⟩

theorem window_ne_wait (own : Option Port) (s t : State) : window own s ≠ .error .lockWait t := fun h => by
  obtain ⟨p, f, -, hf⟩ := window_error_inv h
  cases hf

/-- Where OP_RESET waits for its lock it has done nothing else. -/
theorem LineRun.afterFound_wait {own : Option Port} {c : Config} {d : Nat} {y : Inst} {s t : State} (hs : Solo s)
    (h : drive own ((acquire y.port d).andThen fun ok =>
      if ok then (Machine.recoverBus c y.port).andThen fun _ => releaseAndReturn y.port 0 else returnInterrupted c) s =
        .error .lockWait t) : LineRun y.port 0 0 0 0 s t := by
  have hrest (ok : Bool) : NeverWaits (drive own (if ok then (Machine.recoverBus c y.port).andThen fun _ => releaseAndReturn y.port 0
      else returnInterrupted c)) := by
    have huses : (if ok then (Machine.recoverBus c y.port).andThen fun _ => releaseAndReturn y.port 0 else returnInterrupted c).Uses c
        y.port Op.workKinds :=
      .ite (Prog.Uses.andThen Prog.Uses.recoverBus.mono fun _ => .op (.unlock 0)) (.op (.answer _))
    exact drive_neverWaits (huses.all fun _ ho _ => Op.neverWaits ho)
  rw [drive_andThen] at h
  obtain h | ⟨ok, u, -, h⟩ := (bind_wait_iff ..).1 h
  · obtain h | ⟨_, u, hw, h⟩ := (bind_wait_iff ..).1 h
    · exact absurd h (window_ne_wait _ _ _)
    have k₁ := LineRun.window y.port hs hw
    obtain h | ⟨_, v, -, h⟩ := (bind_wait_iff ..).1 h
    · obtain ⟨hv, hg⟩ := (NoPins.op (c := c) (o := .tryAcquire d) (of_decide_eq_true rfl) trivial).error h k₁.solo
      exact k₁.trans (.of_engine hv hg)
    · obtain h | ⟨_, w, -, h⟩ := (bind_wait_iff ..).1 h <;> cases h
  · exact absurd h (hrest ok u t)

/-- With no other call beside it, a whole OP_RESET that goes on. -/
theorem exec_opReset_lines {s t : State} {d : Nat} {x : Inst} (hs : Solo s) (hx : s.inst d = some x)
    (h : exec (.opReset d) s = .next t) :
    ∃ f r e l, Lines f r e l (s.bus x.port) (t.bus x.port) ∧ f ≤ 110 ∧ r ≤ 10 ∧ l ≤ 11 := by
  have hs₀ : Solo (s.withPast []) := ⟨hs.threads, hs.requests, hs.stores⟩
  rw [exec_opReset_eq] at h
  simp only [call] at h
  rw [driveCall_of_port (p := x.port) (by simp [State.portOf, hx])] at h
  cases hon : s.cfg.recoveryOn with
  | false =>
    have hoff : opReset s.cfg d = act (refuse .optionOff) := by rw [opReset, offered, hon]; rfl
    rw [hoff] at h
    cases hr : drive (some x.port) (act (refuse .optionOff)) (s.withPast []) with
    | ok a u =>
      obtain ⟨v, y, w, -, hm, -⟩ := drive_act_ok_inv hr
      cases hm
    | error e u =>
      rw [hr] at h
      cases e with
      | fault f => cases h
      | refusal r => cases h
      | lockWait =>
        exact absurd hr (drive_neverWaits (.act (NeverWaits.bind (.refuse _) fun _ => .pure _) fun _ => .ret _) _ _)
  | true =>
    rw [opReset_eq d hon, drive_theInst_andThen _ _ hs₀ (by simpa using hx)] at h
    cases hw : window (some x.port) (s.withPast []) with
    | error e u =>
      rw [run_bind_error hw] at h
      cases e with
      | fault f => cases h
      | refusal r => cases h
      | lockWait => exact absurd hw (window_ne_wait _ _ _)
    | ok a u =>
      have k₁ := (LineRun.window x.port hs₀ hw).past (u.past ++ [.inst x])
      rw [run_bind_ok hw, remember, run_bind_ok (run_upd _ _)] at h
      have ends {v w : State} {f r e l : Nat} (hb : w.bus x.port = v.bus x.port)
          (k : LineRun x.port f r e l (u.withPast (u.past ++ [.inst x])) v) :
          Lines (0 + f) (0 + r) (0 + e) (0 + l) (s.bus x.port) (w.bus x.port) := by
        rw [hb]
        simpa using (k₁.trans k).lines
      split at h
      · rename_i hr
        cases h
        obtain ⟨f, r, e, l, k₂, hb⟩ := LineRun.afterFound k₁.solo hr
        exact ⟨_, _, _, _, ends (State.withPast_bus ..) k₂, by omega⟩
      · cases h
      · cases h
      · rename_i v hr
        cases h
        exact ⟨_, _, _, _, ends (v := v) (by simp) (LineRun.afterFound_wait k₁.solo hr), by omega⟩

/-- Settles O52. -/
theorem recoveryPulsesAreBounded : Obligations.RecoveryPulsesAreBounded := by
  refine ⟨fun s d x ws b hm hon hx hf hc hw hb hs => exec_opReset_hist hm hon hx hf hc hw hb hs, fun s t p hs h => ?_,
    fun s t d x hs hx h => ?_⟩
  · obtain ⟨f, r, d, ⟨-, es, hes, rfl, rfl, rfl, -⟩, h₁, h₂, h₃, h₄⟩ := LineRun.stretchLoop hs h
    exact ⟨es, hes, h₁, h₂, h₃, h₄⟩
  · obtain ⟨f, r, e, l, ⟨es, hes, rfl, rfl, -, rfl⟩, h₁, h₂, h₃⟩ := exec_opReset_lines hs hx h
    exact ⟨es, hes, h₃, h₁, h₂⟩

end Sys2Proof.Machine
end

section
/-! Invariants, whoever moves (20_memory R93, 60_exceptions R403, R406): a property that every action, every entry and every
stop beside an instruction keeps holds after every instruction and every step. -/

namespace Sys2Proof.Machine

variable {α : Type} {c : Config} {J : State → Prop}

/-- What a refused call gives back and the mark of its refusal do not touch each other. -/
theorem State.givenBack_stopped (s : State) (x : Thread) (r : Refusal) (o : Option Port) :
    (s.givenBack x).stopped (.refusal r) o = (s.stopped (.refusal r) o).givenBack x := by
  unfold State.givenBack
  split
  · rename_i p _ _ _ _ _
    cases o with
    | none => cases p <;> rfl
    | some q => cases p <;> cases q <;> rfl
  · rename_i p _ _ _ _ _
    cases o with
    | none => cases p <;> rfl
    | some q => cases p <;> cases q <;> rfl
  · rfl

/-! How a call beside which others move is answered, or goes on waiting. -/

theorem drive_act_wait_inv {own : Option Port} {m : M Ans} {k : Ans → Prog α} {s t : State}
    (h : drive own (.act m k) s = .error .lockWait t) : ∃ u, window own s = .ok () u ∧
      (m u = .error .lockWait t ∨ ∃ y v, m u = .ok y v ∧
        drive own (k y) (v.withPast (v.past ++ [y])) = .error .lockWait t) := by
  rw [drive_act] at h
  obtain h | ⟨_, u, hw, h⟩ := (bind_wait_iff ..).1 h
  · exact absurd h (window_ne_wait _ _ _)
  refine ⟨u, hw, ?_⟩
  obtain h | ⟨y, v, hm, h⟩ := (bind_wait_iff ..).1 h
  · exact .inl h
  obtain h | ⟨_, w, hr, h⟩ := (bind_wait_iff ..).1 h
  · cases h
  · cases hr
    exact .inr ⟨y, v, hm, h⟩

/-- The first action of a call whose handle is open, or is opened before it. -/
theorem driveCall_act_ok_inv {i : Instr} {m : M Ans} {k : Ans → Prog Unit} {s t : State} {a : Unit}
    (h : driveCall i (.act m k) s = .ok a t) : ∃ own own' u y v, window own s = .ok () u ∧ m u = .ok y v ∧
      drive own' (k y) (v.withPast (v.past ++ [y])) = .ok a t := by
  cases hp : s.portOf i with
  | some p =>
    rw [driveCall_of_port hp] at h
    obtain ⟨u, y, v, hw, hm, h⟩ := drive_act_ok_inv h
    exact ⟨_, _, u, y, v, hw, hm, h⟩
  | none =>
    simp only [driveCall, run_bind_ok (run_look _ _), hp, driveUnopened] at h
    obtain ⟨_, u, hw, h⟩ := bind_ok_inv h
    rw [run_bind_ok (run_look _ _), run_bind_ok (run_look _ _)] at h
    obtain ⟨_, v, he, h⟩ := bind_ok_inv h
    obtain ⟨-, rfl⟩ := (ensure_ok_iff ..).1 he
    obtain ⟨y, w, hm, h⟩ := bind_ok_inv h
    exact ⟨_, _, _, y, w, hw, hm, h⟩

theorem driveCall_act_wait_inv {i : Instr} {m : M Ans} {k : Ans → Prog Unit} {s t : State}
    (h : driveCall i (.act m k) s = .error .lockWait t) : ∃ own own' u, window own s = .ok () u ∧
      (m u = .error .lockWait t ∨ ∃ y v, m u = .ok y v ∧
        drive own' (k y) (v.withPast (v.past ++ [y])) = .error .lockWait t) := by
  cases hp : s.portOf i with
  | some p =>
    rw [driveCall_of_port hp] at h
    exact ⟨_, _, drive_act_wait_inv h⟩
  | none =>
    simp only [driveCall, run_bind_ok (run_look _ _), hp, driveUnopened] at h
    obtain h | ⟨_, u, hw, h⟩ := (bind_wait_iff ..).1 h
    · exact absurd h (window_ne_wait _ _ _)
    refine ⟨_, u.portOf i, u, hw, ?_⟩
    rw [run_bind_ok (run_look _ _), run_bind_ok (run_look _ _)] at h
    obtain h | ⟨_, v, he, h⟩ := (bind_wait_iff ..).1 h
    · exact absurd h (ensure_ne_soft Stop.soft_lockWait _ _ _ _)
    obtain ⟨-, rfl⟩ := (ensure_ok_iff ..).1 he
    obtain h | ⟨y, w, hm, h⟩ := (bind_wait_iff ..).1 h
    · exact .inl h
    · exact .inr ⟨y, w, hm, h⟩

/-! The answers so far belong to the running call: no other agent touches them. -/

@[simp] theorem State.givenBack_past (s : State) (x : Thread) : (s.givenBack x).past = s.past := by
  unfold State.givenBack
  split <;> simp

theorem runAgent_past {own : Option Port} {a : Agent} {s t : State} {u : Unit} (h : runAgent own a s = .ok u t) :
    t.past = s.past := by
  cases a with
  | entry p =>
    simp only [runAgent, run_bind, run_look, run_onlyIf] at h
    split at h
    · exact (EntriesMoved.besideEntry h).past
    · cases h
      rfl
  | thread k =>
    obtain rfl | ⟨x, m, rest, -, hn, hmv⟩ := moveThread_ok_inv h
    · rfl
    obtain ⟨p, hk⟩ := (Thread.next_acts hn).moved
    cases hmv with
    | answered a v hm ht =>
      rw [ht, ← (hk.ok hm rfl).past]
      unfold State.answered
      split <;> simp
    | waits hm => exact (hk.error hm rfl).past
    | faulted f v hm ht =>
      rw [ht, ← (hk.error hm rfl).past]
      cases s.threadPort x <;> simp [State.stopped]
    | refused r v hm ht =>
      rw [ht, ← (hk.error hm rfl).past]
      cases s.threadPort x <;> simp [State.stopped]
  | caller =>
    simp only [runAgent, beginCall, run_bind, run_look] at h
    cases hn : s.nextCall with
    | none =>
      rw [hn] at h
      cases h
      rfl
    | some n =>
      rw [hn] at h
      cases h
      rfl
  | store =>
    simp only [runAgent, outsideStore, run_bind, run_look] at h
    cases hc : s.stores with
    | nil =>
      rw [hc] at h
      cases h
      rfl
    | cons x cs =>
      rw [hc] at h
      simp only [run_bind, run_upd, run_look, run_onlyIf] at h
      split at h <;> cases h <;> simp

theorem runAgents_past {own : Option Port} {as : List Agent} {s t : State} {u : Unit} (h : runAgents own as s = .ok u t) :
    t.past = s.past := by
  induction as generalizing s with
  | nil =>
    cases h
    rfl
  | cons a as ih =>
    obtain ⟨_, v, h₁, h₂⟩ := bind_ok_inv h
    exact (ih h₂).trans (runAgent_past h₁)

theorem window_past {own : Option Port} {s t : State} {u : Unit} (h : window own s = .ok u t) : t.past = s.past := by
  simp only [window, run_bind, run_look] at h
  split at h
  · simp only [run_bind, run_drawTurns] at h
    exact (runAgents_past h :)
  · cases h
    rfl

/-! Programs of actions. -/

/-- Every action of the program is one of a call, on some port. -/
def Prog.Acts (c : Config) (x : Prog α) : Prop := x.All fun m => ∃ p o, Op.Allowed c o ∧ m = o.run c p

theorem Prog.Uses.acts {c : Config} {p : Port} {ks : List Op.Kind} {x : Prog α} (h : x.Uses c p ks) : x.Acts c :=
  Prog.All.mono h fun _ ⟨o, _, ha, hm⟩ => ⟨p, o, ha, hm⟩

theorem Prog.FindsFirst.acts {c : Config} {d : Nat} {ks : List Op.Kind} {x : Prog Unit} (h : x.FindsFirst c d ks) :
    x.Acts c := by
  cases h with
  | refused r => exact .act ⟨.i2c1, .refuse r, trivial, rfl⟩ fun _ => .ret _
  | finds hm hg =>
    obtain rfl | rfl := hm
    · exact .act ⟨.i2c1, .getInst d, trivial, rfl⟩ fun y => (hg _).acts
    · exact .act ⟨.i2c1, .uninitTests d, trivial, rfl⟩ fun y => (hg _).acts

/-- Every program of a host operation. -/
theorem programOf_acts {c : Config} {i : Instr} {x : Prog Unit} (h : programOf c i = some x) : x.Acts c := by
  by_cases hi : ∃ p, i = .opInit p
  · obtain ⟨p, rfl⟩ := hi
    cases h
    exact (opInit_uses c p).acts
  · obtain ⟨d, hx, -⟩ := programOf_findsFirst (fun p hp => hi ⟨p, hp⟩) h
    exact hx.acts

theorem exists_subcase_of_isSubcase {i : Instr} (h : i.isSubcase = true) : ∃ c : Subcase, i = c.instr := by
  cases i <;> simp only [Instr.isSubcase, Bool.false_eq_true] at h
  exacts [⟨.advance, rfl⟩, ⟨.sbAddr, rfl⟩, ⟨.sbEmpty, rfl⟩, ⟨.addrNack, rfl⟩, ⟨.raddr1, rfl⟩, ⟨.raddr2, rfl⟩, ⟨.raddrN, rfl⟩,
    ⟨.wByte, rfl⟩, ⟨.wStop, rfl⟩, ⟨.wRestart, rfl⟩, ⟨.wNorestart, rfl⟩, ⟨.wFlagerr, rfl⟩, ⟨.wNone, rfl⟩, ⟨.r1Last, rfl⟩,
    ⟨.r2Wait, rfl⟩, ⟨.r2Final, rfl⟩, ⟨.rnWait, rfl⟩, ⟨.rnByte, rfl⟩, ⟨.rnNackprep, rfl⟩, ⟨.rnFinal, rfl⟩, ⟨.rErr, rfl⟩,
    ⟨.emptyTerm, rfl⟩, ⟨.fallbackPoll, rfl⟩, ⟨.fallbackInt, rfl⟩, ⟨.termPoll, rfl⟩, ⟨.termInt, rfl⟩]

/-- A property of states that every single piece of a run keeps, however it ends, as what it leaves beside an instruction. -/
structure Steady (c : Config) (J : State → Prop) : Prop where
  cfg : ∀ {s}, J s → s.cfg = c
  placed : ∀ {s}, J s → ∀ x ∈ s.threads, x.Placed
  draws : ∀ {s} x, J s → J (s.withDraws x)
  past : ∀ {s} x, J s → J (s.withPast x)
  requests : ∀ {s} x, J s → J (s.withRequests x)
  stores : ∀ {s} x, J s → J (s.withStores x)
  returned : ∀ {s} x, J s → J (s.withReturned x)
  threads : ∀ {s} x, J s → (∀ y ∈ x, y.Placed) → J (s.withThreads x)
  stored : ∀ {s} a v, J s → J (s.stored none a v)
  givenBack : ∀ {s} x, J s → J (s.givenBack x)
  marked : ∀ {s} r o, J s → J (s.stopped (.refusal r) o)
  /-- an action that is answered, or whose wait goes on -/
  op : ∀ {s t p a} {o : Op}, o.Allowed c → J s → o.run c p s = .ok a t → J t
  waits : ∀ {s t p} {o : Op}, o.Allowed c → J s → o.run c p s = .error .lockWait t → J t
  /-- an action that stops, with its port's mark -/
  stopped : ∀ {s t p e} {o : Op}, o.Allowed c → J s → o.run c p s = .error e t → J (t.stopped e (some p))
  sampled : ∀ {s t p w u}, J s → traceSample p w s = .ok u t → J t
  errval : ∀ {s} x, J s → J (s.withErrval x)
  entry : ∀ {s t p u}, J s → engineEntry p s = .ok u t → J t
  entryStopped : ∀ {s t p e}, J s → engineEntry p s = .error e t → J (t.stopped e (some p))

namespace Steady

variable (h : Steady c J)
include h

/-- A thread's action that is answered or waits. -/
theorem acts_ok {x : Thread} {m : M Ans} {rest : Ans → Prog Unit} (hx : x.Acts c m rest) {s : State} (hs : J s) :
    (∀ {a t}, m s = .ok a t → J t) ∧ ∀ {t}, m s = .error .lockWait t → J t := by
  cases hx with
  | opens q _ _ o _ ha hm _ => exact ⟨fun e => h.op ha hs (hm ▸ e), fun e => h.waits ha hs (hm ▸ e)⟩
  | goes _ y _ _ o _ ha hm => exact ⟨fun e => h.op ha hs (hm ▸ e), fun e => h.waits ha hs (hm ▸ e)⟩
  | finds d _ _ _ hm =>
    have hk : Keeps (fun s t : State => t = s) m := hm.keeps ⟨fun _ => rfl, fun i j => j.trans i⟩
    exact ⟨fun e => by rw [hk.ok e]; exact hs, fun e => by rw [hk.error e]; exact hs⟩

/-- A placed thread's action that stops, with the mark of the port the thread acts on. -/
theorem acts_stopped {x : Thread} {m : M Ans} {rest : Ans → Prog Unit} (hx : x.Acts c m rest) (hp : x.Placed) {s t : State}
    {e : Stop} (hs : J s) (hm : m s = .error e t) : J (t.stopped e (s.threadPort x)) := by
  cases hx with
  | opens q hc hpast o _ ha hrun _ =>
    have hport : s.threadPort x = some q := by rw [State.threadPort, hpast, hc]; rfl
    rw [hport]
    exact h.stopped ha hs (hrun ▸ hm)
  | finds d _ _ _ hf =>
    obtain ⟨y, -, hr⟩ | ⟨r, hr⟩ := hf s
    · rw [hr] at hm
      cases hm
    · rw [hr] at hm
      cases hm
      exact h.marked r _ hs
  | goes hcall y ys hpast o _ ha hrun =>
    have hport : s.threadPort x = some y.toInst.port := by
      obtain hnil | ⟨q, hq⟩ := hp
      · rw [hnil] at hpast
        cases hpast
      · obtain ⟨z, zs, hz, hzp⟩ := hq.first hcall (by rw [hpast]; simp)
        rw [hpast] at hz
        cases hz
        rw [State.threadPort, hpast, hq.port]
        exact congrArg some hzp.symm
    rw [hport]
    exact h.stopped ha hs (hrun ▸ hm)

theorem moveThread {own : Option Port} {k : Nat} {s t : State} {u : Unit} (hs : J s) (e : moveThread own k s = .ok u t) : J t := by
  have hth : ∀ y ∈ t.threads, y.Placed := fun y hy => by
    cases hk : s.threads[k]? with
    | none =>
      obtain rfl | ⟨x, m, rest, hk', -⟩ := moveThread_ok_inv e
      · exact h.placed hs y hy
      · rw [hk] at hk'
        cases hk'
    | some x =>
      obtain ⟨-, hp⟩ := moveThread_placed hk (h.placed hs x (List.mem_of_getElem? hk)) e
      obtain hy | ⟨hy, -⟩ := hp y hy
      · exact h.placed hs y hy
      · exact hy
  obtain rfl | ⟨x, m, rest, hk, hn, hmv⟩ := moveThread_ok_inv e
  · exact hs
  rw [h.cfg hs] at hn
  have hacts := Thread.next_acts hn
  have hx := h.placed hs x (List.mem_of_getElem? hk)
  cases hmv with
  | answered a v hm ht =>
    have hv : J v := (h.acts_ok hacts hs).1 hm
    subst ht
    unfold State.answered at hth ⊢
    split
    · rw [if_pos ‹_›] at hth
      exact h.returned _ (h.threads _ hv (by simpa using hth))
    · rw [if_neg ‹_›] at hth
      exact h.threads _ hv (by simpa using hth)
  | waits hm => exact (h.acts_ok hacts hs).2 hm
  | faulted f v hm ht =>
    have hv := h.acts_stopped hacts hx hs hm
    have hcomm : t = (v.stopped (.fault f) (s.threadPort x)).withThreads (v.threads.eraseIdx k) := by
      rw [ht]
      cases s.threadPort x with
      | none => rfl
      | some p => cases p <;> rfl
    rw [hcomm] at hth ⊢
    exact h.threads _ hv (by simpa using hth)
  | refused r v hm ht =>
    have hv := h.givenBack x (h.acts_stopped hacts hx hs hm)
    have hcomm : t = (((v.stopped (.refusal r) (s.threadPort x)).givenBack x).withThreads (v.threads.eraseIdx k)).withReturned
        (v.returned ++ [⟨x.call, .refused r⟩]) := by
      rw [ht, ← State.givenBack_stopped]
      cases s.threadPort x with
      | none => rfl
      | some p => cases p <;> rfl
    rw [hcomm] at hth ⊢
    exact h.returned _ (h.threads _ hv (by simpa using hth))

theorem besideEntry {own : Option Port} {p : Port} {s t : State} {u : Unit} (hs : J s)
    (e : beside own (some p) (engineEntry p) s = .ok u t) : J t := by
  obtain e | ⟨x, v, hv, rfl, -⟩ := besideEntry_inv e
  · exact h.entry hs e
  · exact h.entryStopped hs hv

theorem beginCall {s t : State} {u : Unit} (hs : J s) (e : beginCall s = .ok u t) : J t := by
  simp only [Machine.beginCall, run_bind, run_look] at e
  cases hn : s.nextCall with
  | none =>
    rw [hn] at e
    cases e
    exact hs
  | some n =>
    rw [hn] at e
    cases e
    refine h.threads _ (h.requests _ hs) fun y hy => ?_
    obtain hy | hy := List.mem_append.1 hy
    · exact h.placed hs y hy
    · rw [List.mem_singleton.1 hy]
      exact .inl rfl

theorem outsideStore {s t : State} {u : Unit} (hs : J s) (e : outsideStore s = .ok u t) : J t := by
  simp only [Machine.outsideStore, run_bind, run_look] at e
  cases hc : s.stores with
  | nil =>
    rw [hc] at e
    cases e
    exact hs
  | cons x cs =>
    rw [hc] at e
    simp only [run_bind, run_upd, run_look, run_onlyIf] at e
    split at e
    · cases e
      exact h.stored _ _ (h.stores _ hs)
    · cases e
      exact h.stores _ hs

theorem runAgent {own : Option Port} {a : Agent} {s t : State} {u : Unit} (hs : J s) (e : runAgent own a s = .ok u t) : J t := by
  cases a with
  | entry p =>
    simp only [Machine.runAgent, run_bind, run_look, run_onlyIf] at e
    split at e
    · exact h.besideEntry hs e
    · cases e
      exact hs
  | thread k => exact h.moveThread hs e
  | caller => exact h.beginCall hs e
  | store => exact h.outsideStore hs e

theorem runAgents {own : Option Port} {as : List Agent} {s t : State} {u : Unit} (hs : J s)
    (e : runAgents own as s = .ok u t) : J t := by
  induction as generalizing s with
  | nil =>
    cases e
    exact hs
  | cons a as ih =>
    obtain ⟨_, v, e₁, e₂⟩ := bind_ok_inv e
    exact ih (h.runAgent hs e₁) e₂

theorem window {own : Option Port} {s t : State} {u : Unit} (hs : J s) (e : window own s = .ok u t) : J t := by
  simp only [Machine.window, run_bind, run_look] at e
  split at e
  · simp only [run_bind, run_drawTurns] at e
    exact h.runAgents (h.draws _ hs) e
  · cases e
    exact hs

/-- A program of actions, whoever moves between them. -/
theorem drive {own : Option Port} {x : Prog α} (hx : x.Acts c) {s : State} (hs : J s) :
    (∀ {a t}, drive own x s = .ok a t → J t) ∧ ∀ {t}, drive own x s = .error .lockWait t → J t := by
  induction hx generalizing s with
  | ret a => exact ⟨fun e => by cases e; exact hs, fun e => by cases e⟩
  | act hm _ ih =>
    obtain ⟨p, o, ha, rfl⟩ := hm
    have hnext {u v : State} {y : Ans} (hw : Machine.window own s = .ok () u) (hr : o.run c p u = .ok y v) :=
      ih y (h.past (v.past ++ [y]) (h.op ha (h.window hs hw) hr))
    refine ⟨fun e => ?_, fun e => ?_⟩
    · obtain ⟨u, y, v, hw, hr, e⟩ := drive_act_ok_inv e
      exact (hnext hw hr).1 e
    · obtain ⟨u, hw, e | ⟨y, v, hr, e⟩⟩ := drive_act_wait_inv e
      · exact h.waits ha (h.window hs hw) e
      · exact (hnext hw hr).2 e

theorem driveCall {i : Instr} {x : Prog Unit} (hx : x.Acts c) {s : State} (hs : J s) :
    (∀ {a t}, driveCall i x s = .ok a t → J t) ∧ ∀ {t}, driveCall i x s = .error .lockWait t → J t := by
  cases hx with
  | ret a =>
    have hret : Machine.driveCall i (.ret a) s = .ok a s := by
      cases hp : s.portOf i <;> simp [Machine.driveCall, run_bind, hp, Machine.drive, driveUnopened]
    rw [hret]
    exact ⟨fun e => by cases e; exact hs, fun e => by cases e⟩
  | act hm hk =>
    obtain ⟨p, o, ha, rfl⟩ := hm
    have hnext {own own' : Option Port} {u v : State} {y : Ans} (hw : Machine.window own s = .ok () u)
        (hr : o.run c p u = .ok y v) := h.drive (own := own') (hk y) (h.past (v.past ++ [y]) (h.op ha (h.window hs hw) hr))
    refine ⟨fun e => ?_, fun e => ?_⟩
    · obtain ⟨own, own', u, y, v, hw, hr, e⟩ := driveCall_act_ok_inv e
      exact (hnext hw hr).1 e
    · obtain ⟨own, own', u, hw, e | ⟨y, v, hr, e⟩⟩ := driveCall_act_wait_inv e
      · exact h.waits ha (h.window hs hw) e
      · exact (hnext hw hr).2 e

/-- The answers of a program that waits only grew. -/
theorem drive_wait_past {own : Option Port} {x : Prog α} (hx : x.Acts c) {s t : State} (hs : J s)
    (e : Machine.drive own x s = .error .lockWait t) : ∃ ys, t.past = s.past ++ ys := by
  induction hx generalizing s with
  | ret a => cases e
  | act hm _ ih =>
    obtain ⟨p, o, ha, rfl⟩ := hm
    obtain ⟨u, hw, e | ⟨y, v, hr, e⟩⟩ := drive_act_wait_inv e
    · have hu := h.window hs hw
      refine ⟨[], ?_⟩
      rw [((OpMoved.op o ha).error e (h.cfg hu)).past, window_past hw, List.append_nil]
    · have hu := h.window hs hw
      obtain ⟨ys, hys⟩ := ih y (h.past (v.past ++ [y]) (h.op ha hu hr)) e
      refine ⟨y :: ys, ?_⟩
      rw [hys, State.withPast_past, ((OpMoved.op o ha).ok hr (h.cfg hu)).past, window_past hw, List.append_assoc]
      rfl

/-- The thread of a call that waits for its lock is placed. -/
theorem driveCall_wait_placed {i : Instr} {x : Prog Unit} (hx : programOf c i = some x) {s t : State} (hs : J s)
    (hp : s.past = []) (e : Machine.driveCall i x s = .error .lockWait t) :
    (⟨i, portFound t.past, t.past⟩ : Thread).Placed := by
  have waits {own : Option Port} {m : M Ans} {p : Port} {u : State} (hm : Keeps (OpMoved.Under c p) m)
      (hw : Machine.window own s = .ok () u) (hr : m u = .error .lockWait t) : t.past = [] := by
    rw [(hm.error hr (h.cfg (h.window hs hw))).past, window_past hw, hp]
  by_cases hi : ∃ p, i = .opInit p
  · obtain ⟨p, rfl⟩ := hi
    cases hx
    unfold Machine.opInit offered act at e
    split at e
    · obtain ⟨own, own', u, hw, e | ⟨y, v, hr, e⟩⟩ := driveCall_act_wait_inv e
      · exact .inl (waits (OpMoved.op .openPort trivial) hw e)
      · cases e
    · obtain ⟨own, own', u, hw, e | ⟨y, v, hr, e⟩⟩ := driveCall_act_wait_inv e
      · exact .inl (waits (p := p) (OpMoved.op (.refuse .portAbsent) trivial) hw e)
      · cases e
  · have hne : ∀ q, i ≠ .opInit q := fun q hq => hi ⟨q, hq⟩
    obtain ⟨d, hf, -⟩ := programOf_findsFirst hne hx
    obtain ⟨m, k, rfl, hm, hk⟩ := hf.first
    obtain ⟨own, own', u, hw, e | ⟨y, v, hr, e⟩⟩ := driveCall_act_wait_inv e
    · exact .inl (waits (p := .i2c1) (hm.keeps OpMoved.chain) hw e)
    · obtain ⟨z, -, hz⟩ | ⟨r, hz⟩ := hm u
      · rw [hz] at hr
        cases hr
        have hu := h.window hs hw
        obtain ⟨ys, hys⟩ := h.drive_wait_past (hk z).acts (h.past _ hu) e
        have hpast : t.past = .inst z :: ys := by
          rw [hys, State.withPast_past, window_past hw, hp]
          rfl
        rw [hpast]
        exact .inr ⟨z.port, rfl, fun q hq => absurd hq (hne q), fun _ _ => ⟨z, ys, rfl, rfl⟩⟩
      · rw [hz] at hr
        cases hr

/-- A host operation, whoever moves beside it. -/
theorem call {i : Instr} {f : Config → Prog Unit} (hf : programOf c i = some (f c)) {s t : State} (hs : J s)
    (e : call i f s = .next t) : J t := by
  have hs₀ : J (s.withPast []) := h.past _ hs
  have hd := h.driveCall (programOf_acts hf) (i := i) hs₀
  obtain rfl := h.cfg hs
  unfold Machine.call at e
  split at e <;> cases e
  · exact h.past _ (hd.1 ‹_›)
  · have hp := h.driveCall_wait_placed hf hs₀ rfl ‹_›
    refine h.past _ (h.threads _ (hd.2 ‹_›) fun y hy => ?_)
    obtain hy | hy := List.mem_append.1 hy
    · exact h.placed (hd.2 ‹_›) y hy
    · rw [List.mem_singleton.1 hy]
      exact hp

/-- A call on a port of its own that never waits for a lock, whoever moves beside it. -/
theorem callFree {i : Instr} {f : Config → Prog Unit} {p : Port} {ks : List Op.Kind} (hf : (f c).Uses c p ks)
    (hk : ks ⊆ Op.workKinds) {s t : State}
    (hi : ∀ s : State, s.portOf i = some p) (hs : J s) (e : Machine.call i f s = .next t) : J t := by
  have hs₀ : J (s.withPast []) := h.past _ hs
  have hd := h.driveCall hf.acts (i := i) hs₀
  obtain rfl := h.cfg hs
  have hw : (f s.cfg).All NeverWaits := hf.all fun o ho _ => Op.neverWaits (hk ho)
  unfold Machine.call at e
  split at e <;> cases e
  · exact h.past _ (hd.1 ‹_›)
  · rename_i v he
    rw [driveCall_of_port (hi _)] at he
    exact absurd he (drive_neverWaits hw _ v)

/-- An instruction that is one action. -/
theorem finish {p : Port} {o : Op} {β : Type} {m : M β} {f : β → Ans} (ho : o.run c p = do return f (← m))
    (ha : o.Allowed c) {g : β → M Unit} {s t : State} (hs : J s)
    (hg : ∀ {b u}, J u → (g b u = .ok () t → J t) ∧ g b u ≠ .error .lockWait t)
    (e : Machine.finish (m >>= g) s = .next t) : J t := by
  have hok {b : β} {u : State} (hm : m s = .ok b u) : J u := h.op ha hs (ho ▸ run_bind_ok hm)
  obtain e | e := finish_next_inv e
  · obtain ⟨b, u, hm, e⟩ := bind_ok_inv e
    exact (hg (hok hm)).1 e
  · obtain e | ⟨b, u, hm, e⟩ := (bind_wait_iff ..).1 e
    · exact h.waits ha hs (ho ▸ run_bind_error e)
    · exact absurd e (hg (hok hm)).2

/-- An instruction that is one action with no answer of its own. -/
theorem finishUnit {p : Port} {o : Op} {m : M Unit} (ho : o.run c p = do m; return .unit) (ha : o.Allowed c) {s t : State}
    (hs : J s) (e : Machine.finish m s = .next t) : J t := by
  obtain e | e := finish_next_inv e
  · exact h.op ha hs (ho ▸ run_bind_ok e)
  · exact h.waits ha hs (ho ▸ run_bind_error e)

theorem withRet {s : State} (x : Int) (hs : J s) : J (s.withRet x) :=
  h.op (p := .i2c1) (o := .answer x) (a := .unit) trivial hs rfl

/-- Every instruction but a sub-case on its own. -/
theorem exec {i : Instr} (hi : i.isSubcase = false) {s t : State} (hs : J s) (e : exec i s = .next t) : J t := by
  have hc := h.cfg hs
  cases i
  case regGet p r =>
    exact h.finish (o := .get r) (p := p) (g := fun v => answer v.toNat) rfl trivial hs
      (fun hu => ⟨fun e => by cases e; exact h.withRet _ hu, nofun⟩) e
  case regPut p r v => exact h.finishUnit (o := .put r v) (p := p) rfl trivial hs e
  case regModify p r x v => exact h.finishUnit (o := .modify r x v) (p := p) rfl trivial hs e
  case traceEvent p ev x => exact h.finishUnit (o := .emit ev x) (p := p) rfl trivial hs e
  case traceReset p => exact h.finishUnit (o := .traceReset) (p := p) rfl trivial hs e
  case traceDump p => exact h.finishUnit (o := .traceDump) (p := p) rfl trivial hs e
  case traceSample p w =>
    obtain e | e := finish_next_inv e
    · exact h.sampled hs e
    · rw [(traceSample_run p w s).1] at e
      cases e
  case engEntry p =>
    obtain e | e := finish_next_inv e
    · exact h.entry hs e
    · exact absurd e (engineEntry_ne_wait p s t)
  case errClassify w k =>
    cases e
    exact h.withRet _ (h.errval _ hs)
  case clkProgram p fp ft => exact h.callFree (i := .clkProgram p fp ft) (f := (clkProgram · p fp ft)) (Prog.Uses.clkProgram fp ft) (by decide) (fun _ => rfl) hs e
  case lifeUp p => exact h.callFree (i := .lifeUp p) (f := (lifeUp · p)) Prog.Uses.lifeUp (by decide) (fun _ => rfl) hs e
  case lifeDown p => exact h.callFree (i := .lifeDown p) (f := fun _ => lifeDown p) Prog.Uses.lifeDown (by decide) (fun _ => rfl) hs e
  case opInit p => exact h.call (f := (opInit · p)) rfl hs e
  case opUninit d => exact h.call (f := fun _ => opUninit d) rfl hs e
  case opReset d => exact h.call (f := (opReset · d)) rfl hs e
  case opSetfrequency d f => exact h.call (f := (setFrequency · d f)) rfl hs e
  case opSetaddress d a n => exact h.call (f := (setAddress · d a n)) rfl hs e
  case opWrite d b n => exact h.call (f := (opWrite · d b n)) rfl hs e
  case opRead d b n => exact h.call (f := (opRead · d b n)) rfl hs e
  case opTransfer d ms => exact h.call (f := (opTransfer · d ms)) rfl hs e
  case opProcess d ms => exact h.call (f := (opProcess · d ms)) rfl hs e
  all_goals cases hi

/-- The point between two requests. -/
theorem between {s : State} (hs : J s) : J s.settled := by
  have e := betweenRequests_ok s
  simp only [betweenRequests, run_bind, run_look] at e
  split at e
  · simp only [run_bind, run_drawTurns] at e
    exact h.runAgents (h.draws _ hs) e
  · obtain ⟨-, e⟩ := EStateM.Result.ok.inj e
    rw [← e]
    exact hs

/-- A step, if a sub-case on its own keeps the property too. -/
theorem step (hsub : ∀ {x : Subcase} {s t : State}, J s → Machine.exec x.instr s = .next t → J t) {s t : State} (hs : J s)
    (e : step s = .next t) : J t := by
  obtain ⟨-, rfl⟩ | ⟨q, qs, i, -, -, -, e⟩ := step_next_inv e
  · exact h.between hs
  · have hq := h.requests qs (h.between hs)
    cases hi : i.isSubcase with
    | false => exact h.exec hi hq e
    | true =>
      obtain ⟨x, rfl⟩ := exists_subcase_of_isSubcase hi
      exact hsub hq e

end Steady

end Sys2Proof.Machine
end

section
/-! The invariant of every run (10_state section 3, 60_exceptions R412) and the coherence of the transfer fields, by every
action, entry and stop. -/

namespace Sys2Proof.Machine

variable {α : Type} {c : Config} {p : Port}

/-! An `interrupts_off` region (60_exceptions R412): only the two actions that count references open one, and they close it. -/

theorem Prog.All.direct_neverWaits {x : Prog α} (h : x.All NeverWaits) : NeverWaits x.direct := by
  induction h with
  | ret a => exact .pure a
  | act hm _ ih => exact hm.bind ih

theorem recoveryKinds_neverWait : Prog.Uses.recoveryKinds ⊆
    Op.workKinds := by decide

theorem openPort_neverWaits (c : Config) (p : Port) : NeverWaits (openPort c p) := by
  have hup : (lifeUp c p).All NeverWaits := (Prog.Uses.lifeUp.mono (ks' := Prog.Uses.recoveryKinds)).all fun o ho _ =>
    Op.neverWaits (recoveryKinds_neverWait ho)
  exact NeverWaits.bind (.upd _) fun _ => NeverWaits.bind (.look _) fun _ =>
    NeverWaits.bind (NeverWaits.onlyIf _ hup.direct_neverWaits) fun _ => NeverWaits.bind (.upd _) fun _ =>
    NeverWaits.bind (.upd _) fun _ => NeverWaits.bind (.of_ok fun _ => ⟨_, _, rfl⟩) fun _ => .upd _

theorem closePort_neverWaits (p : Port) : NeverWaits (closePort p) := by
  have hdown : (lifeDown p).All NeverWaits :=
    (Prog.Uses.lifeDown.mono (c := .standard) (ks' := Prog.Uses.recoveryKinds)).all fun o ho _ =>
      Op.neverWaits (recoveryKinds_neverWait ho)
  exact NeverWaits.bind (.look _) fun _ => NeverWaits.bind (.ite (.pure _) (.refuse _)) fun _ => NeverWaits.bind (.upd _) fun _ =>
    NeverWaits.bind (.upd _) fun _ => NeverWaits.bind (.look _) fun _ =>
    NeverWaits.bind (NeverWaits.onlyIf _ hdown.direct_neverWaits) fun _ => .upd _

theorem openPort_intsOff {s t : State} {u : Unit} (h : openPort c p s = .ok u t) : t.intsOff = false := by
  obtain ⟨_, _, -, h⟩ := bind_ok_inv h
  obtain ⟨_, _, -, h⟩ := bind_ok_inv h
  obtain ⟨_, _, -, h⟩ := bind_ok_inv h
  obtain ⟨_, _, -, h⟩ := bind_ok_inv h
  cases h
  rfl

theorem closePort_intsOff {s t : State} {u : Unit} (h : closePort p s = .ok u t) : t.intsOff = false := by
  obtain ⟨_, _, -, h⟩ := bind_ok_inv h
  obtain ⟨_, _, -, h⟩ := bind_ok_inv h
  obtain ⟨_, _, -, h⟩ := bind_ok_inv h
  obtain ⟨_, _, -, h⟩ := bind_ok_inv h
  obtain ⟨_, _, -, h⟩ := bind_ok_inv h
  obtain ⟨_, _, -, h⟩ := bind_ok_inv h
  cases h
  rfl

/-- Outside a region no other action opens or closes one. -/
theorem Op.keeps_intsOff {o : Op} (ha : o.Allowed c) (h₁ : o.kind ≠ .openPort) (h₂ : o.kind ≠ .closePort) :
    Keeps (fun s t => t.intsOff = s.intsOff) (o.run c p) := by
  have hR : Chain fun s t : State => t.intsOff = s.intsOff := ⟨fun _ => rfl, fun h k => k.trans h⟩
  by_cases hr : o.kind = .round
  · rw [Op.eq_polledRound hr]
    refine Keeps.bind hR (Keeps.bind hR ?_ fun _ => Keeps.bind hR (Keeps.lookBus hR p _) fun _ => Keeps.pure hR _) fun _ =>
      Keeps.pure hR _
    exact ⟨fun e => ((EngineMoved.engineEntry p).ok e).outside.intsOff, fun e => ((EngineMoved.engineEntry p).error e).outside.intsOff⟩
  · refine Op.keeps hR hr ha fun e => ?_
    cases e with
    | bus => simp
    | intsOff _ h => exact absurd h (not_or.2 ⟨h₁, h₂⟩)
    | _ => rfl

/-- An action that is answered, or whose wait goes on, leaves no region open. -/
theorem Op.region_closed {o : Op} (ha : o.Allowed c) {s t : State} (hs : s.intsOff = false) :
    (∀ {a}, o.run c p s = .ok a t → t.intsOff = false) ∧ (o.run c p s = .error .lockWait t → t.intsOff = false) := by
  by_cases h₁ : o.kind = .openPort
  · rw [Op.eq_openPort h₁]
    refine ⟨fun e => ?_, fun e => absurd e ((openPort_neverWaits c p).bind (fun _ => .pure _) _ _)⟩
    obtain ⟨_, u, e, h⟩ := bind_ok_inv e
    cases h
    exact openPort_intsOff e
  by_cases h₂ : o.kind = .closePort
  · rw [Op.eq_closePort h₂]
    refine ⟨fun e => ?_, fun e => absurd e ((closePort_neverWaits p).bind (fun _ => .pure _) _ _)⟩
    obtain ⟨_, u, e, h⟩ := bind_ok_inv e
    cases h
    exact closePort_intsOff e
  have hk := Op.keeps_intsOff (p := p) ha h₁ h₂
  exact ⟨fun e => (hk.ok e).trans hs, fun e => (hk.error e).trans hs⟩

/-! The invariant of every run. -/

/-- What the invariant says of a port. -/
structure BusSound (c : Config) (b : BusState) : Prop where
  count : b.count = b.msgs.length
  ring : TraceShape c b.trace
  lines : b.plat.evIrq = b.plat.erIrq
  mode : b.plat.evIrq.attached = true → c.mode = .interrupt

theorem sound_iff {s : State} : Sound s ↔
    s.mem.wf = true ∧ s.intsOff = false ∧ (∀ q, BusSound s.cfg (s.bus q)) ∧ ∀ x ∈ s.threads, x.Placed :=
  ⟨fun h => ⟨h.memory, h.region, fun q => ⟨h.count q, h.ring q, h.lines q, h.mode q⟩, h.threads⟩,
    fun ⟨h₁, h₂, h₃, h₄⟩ => ⟨h₁, h₂, fun q => (h₃ q).count, fun q => (h₃ q).ring, fun q => (h₃ q).lines,
      fun q => (h₃ q).mode, h₄⟩⟩

theorem OpWrote.busSound {b b' : BusState} (h : OpWrote c b b') (hb : BusSound c b) : BusSound c b' :=
  ⟨h.count hb.count, h.ring hb.ring, h.lines hb.lines, h.mode hb.mode⟩

/-- A move on a port that leaves no region open. -/
theorem OpMoved.sound {s t : State} (h : OpMoved p s t) (hs : Sound s) (hr : t.intsOff = false) : Sound t := by
  obtain ⟨hm, -, hb, hth⟩ := sound_iff.1 hs
  refine sound_iff.2 ⟨h.memory hm, hr, fun q => ?_, h.threads ▸ hth⟩
  rw [h.cfg]
  by_cases hq : q = p
  · subst hq
    exact h.own.busSound (hb q)
  · rw [h.others q hq]
    exact hb q

theorem BusSound.stopped {b : BusState} (h : BusSound c b) (e : Stop) : BusSound c (b.stopped e) := by
  cases e <;> exact ⟨h.count, h.ring, h.lines, h.mode⟩

/-- The mark of a stop, and the end of its region. -/
theorem Sound.stopped {s : State} (h : Sound (s.withIntsOff false)) (e : Stop) (o : Option Port) : Sound (s.stopped e o) := by
  obtain ⟨hm, -, hb, hth⟩ := sound_iff.1 h
  cases o with
  | none => exact h
  | some p =>
    refine sound_iff.2 ⟨by simpa [State.stopped] using hm, by simp [State.stopped], fun q => ?_, by simpa using hth⟩
    by_cases hq : q = p
    · subst hq
      simpa [State.stopped] using (hb q).stopped e
    · simpa [State.stopped, hq] using hb q

/-- A move on a port that stops. -/
theorem OpMoved.sound_stopped {s t : State} (h : OpMoved p s t) (hs : Sound s) (e : Stop) (o : Option Port) :
    Sound (t.stopped e o) :=
  Sound.stopped (OpMoved.sound (t := t.withIntsOff false)
    ⟨fun q hq => by simpa using h.others q hq, by simpa using h.own, h.cfg, h.threads, h.requests, h.stores, h.returned, h.past,
      h.memory⟩ hs rfl) e o

/-- The lock given up with its buffers, and the end of its races. -/
theorem Sound.released {s : State} (h : Sound s) (p : Port) : Sound (s.setBus p (s.bus p).released).decided := by
  obtain ⟨hm, hr, hb, hth⟩ := sound_iff.1 h
  refine sound_iff.2 ⟨Memory.decided_wf _ _ (by simpa using hm), by simpa using hr, fun q => ?_, by simpa using hth⟩
  by_cases hq : q = p
  · subst hq
    obtain ⟨h₁, h₂, h₃, h₄⟩ := hb q
    simpa using ⟨h₁, h₂, h₃, h₄⟩
  · simpa [hq] using hb q

theorem Sound.givenBack {s : State} (h : Sound s) (x : Thread) : Sound (s.givenBack x) := by
  unfold State.givenBack
  split
  · exact { h.released _ with }
  · exact h.released _
  · exact h

/-- A change outside the ports, the threads and memory. -/
theorem Sound.congr {s t : State} (h : Sound s) (hm : t.mem = s.mem) (hr : t.intsOff = s.intsOff) (hc : t.cfg = s.cfg)
    (hb : ∀ q, t.bus q = s.bus q) (hth : ∀ x ∈ t.threads, x.Placed) : Sound t := by
  obtain ⟨h₁, h₂, h₃, -⟩ := sound_iff.1 h
  exact sound_iff.2 ⟨hm ▸ h₁, hr ▸ h₂, fun q => hc ▸ hb q ▸ h₃ q, hth⟩

@[simp] theorem State.givenBack_cfg (s : State) (x : Thread) : (s.givenBack x).cfg = s.cfg := by
  unfold State.givenBack
  split <;> simp

@[simp] theorem State.givenBack_threads (s : State) (x : Thread) : (s.givenBack x).threads = s.threads := by
  unfold State.givenBack
  split <;> simp

@[simp] theorem State.stopped_cfg (s : State) (e : Stop) (o : Option Port) : (s.stopped e o).cfg = s.cfg := by
  cases o <;> simp [State.stopped]

theorem steady_sound (c : Config) : Steady c fun s => s.cfg = c ∧ Sound s where
  cfg h := h.1
  placed h := h.2.threads
  draws x h := ⟨h.1, { h.2 with }⟩
  past x h := ⟨h.1, { h.2 with }⟩
  requests x h := ⟨h.1, { h.2 with }⟩
  stores x h := ⟨h.1, { h.2 with }⟩
  returned x h := ⟨h.1, { h.2 with }⟩
  threads x h hx := ⟨h.1, { h.2 with threads := hx }⟩
  stored a v h := by
    obtain ⟨hm, hr, hb, hth⟩ := sound_iff.1 h.2
    exact ⟨by simpa using h.1, sound_iff.2 ⟨by simpa using Memory.write_wf a v hm, by simpa using hr, by simpa using hb, by simpa using hth⟩⟩
  givenBack x h := ⟨by simpa using h.1, h.2.givenBack x⟩
  marked r o h := ⟨by simpa using h.1, Sound.stopped { h.2 with region := rfl } _ o⟩
  op ha h e := ⟨((OpMoved.op _ ha).ok e h.1).cfg.trans h.1,
    ((OpMoved.op _ ha).ok e h.1).sound h.2 ((Op.region_closed ha h.2.region).1 e)⟩
  waits ha h e := ⟨((OpMoved.op _ ha).error e h.1).cfg.trans h.1,
    ((OpMoved.op _ ha).error e h.1).sound h.2 ((Op.region_closed ha h.2.region).2 e)⟩
  stopped {_ _ p e _} ha h k := ⟨by simpa using ((OpMoved.op _ ha).error k h.1).cfg.trans h.1,
    ((OpMoved.op _ ha).error k h.1).sound_stopped h.2 e (some p)⟩
  sampled {_ _ p w _} h e := ⟨((EngineStage.traceSample (p := p) w).ok e).outside.cfg.trans h.1,
    ((EngineStage.traceSample w).ok e).opMoved.sound h.2 (((EngineStage.traceSample w).ok e).outside.intsOff.trans h.2.region)⟩
  errval x h := ⟨h.1, { h.2 with }⟩
  entry {_ _ p _} h e := ⟨((EngineMoved.engineEntry p).ok e).outside.cfg.trans h.1,
    ((EngineMoved.engineEntry p).ok e).opMoved.sound h.2 (((EngineMoved.engineEntry p).ok e).outside.intsOff.trans h.2.region)⟩
  entryStopped {_ _ p e} h k := ⟨by simpa using ((EngineMoved.engineEntry p).error k).outside.cfg.trans h.1,
    ((EngineMoved.engineEntry p).error k).opMoved.sound_stopped h.2 e (some p)⟩

/-- A sub-case on its own acts on the entry's port. -/
theorem exec_subcase_sound {x : Subcase} {s t : State} (hs : Sound s) (h : exec x.instr s = .next t) :
    t.cfg = s.cfg ∧ Sound t := by
  rw [exec_subcase] at h
  obtain h | h := finish_next_inv h
  · have hm := (EngineStage.runSubcase (p := s.entry.port) x).ok h rfl
    exact ⟨hm.outside.cfg, hm.opMoved.sound hs (hm.outside.intsOff.trans hs.region)⟩
  · exact absurd h (runSubcase_ne_wait x s t)

/-- Every instruction keeps the invariant, whoever moves beside it. -/
theorem exec_sound {i : Instr} {s t : State} (hs : Sound s) (h : exec i s = .next t) : Sound t := by
  cases hi : i.isSubcase with
  | false => exact ((steady_sound s.cfg).exec hi ⟨rfl, hs⟩ h).2
  | true =>
    obtain ⟨x, rfl⟩ := exists_subcase_of_isSubcase hi
    exact (exec_subcase_sound hs h).2

theorem step_sound {s t : State} (hs : Sound s) (h : step s = .next t) : Sound t :=
  ((steady_sound s.cfg).step (fun hu e => ⟨(exec_subcase_sound hu.2 e).1.trans hu.1, (exec_subcase_sound hu.2 e).2⟩)
    ⟨rfl, hs⟩ h).2

/-! The transfer fields. -/

/-- Each single change of a Bus State leaves them coherent: a chain installed stands before its first message. -/
theorem BusStep.coherent {k : Op.Kind} {b b' : BusState} (h : BusStep c k b b') (hb : Coherent b) : Coherent b' := by
  cases h with
  | install msgs => exact { hb with next := fun _ => ⟨0, rfl, Nat.zero_add _⟩, count := rfl }
  | begun => exact ⟨Int.le_refl _, hb.next, hb.count, fun h => absurd h (show ¬(0 : Int) < -1 by decide),
      fun _ _ h => absurd h (show ¬(0 : Int) ≤ -1 by decide)⟩
  | driven _ l => cases l <;> exact { hb with }
  | _ => exact { hb with }

/-! An entry: each stage. -/

theorem State.entered_coherent {s : State} (h : Coherent (s.bus p)) : Coherent ((s.entered p).bus p) := by
  obtain ⟨t, log, hb⟩ := s.entered_bus p
  rw [hb]
  exact { h with }

theorem State.preluded_coherent {s : State} (h : Coherent (s.bus p)) : Coherent ((s.preluded p).bus p) := by
  unfold State.preluded
  split
  · exact Subcase.done_coherent h ‹_›
  · exact h

theorem State.terminated_coherent {s : State} (h : Coherent (s.bus p)) : Coherent ((s.terminated p).bus p) := by
  unfold State.terminated
  split
  · exact Subcase.done_coherent h (terminalOf_fits (And.right ‹_›))
  · exact h

theorem State.entryDone_coherent {s : State} (h : Coherent (s.bus p)) : Coherent ((s.entryDone p).bus p) := by
  simpa [State.entryDone, State.branched] using
    State.terminated_coherent (Subcase.done_coherent (State.preluded_coherent (State.entered_coherent h)) (State.branch_fits _ p))

/-- An entry that goes on or is refused leaves the fields coherent. -/
theorem engineEntry_coherent {s : State} (h : Coherent (s.bus p)) :
    (∀ {u t}, engineEntry p s = .ok u t → Coherent (t.bus p)) ∧
      ∀ {e t}, engineEntry p s = .error e t → e.Soft → Coherent (t.bus p) := by
  refine ⟨fun e => ?_, fun e he => ?_⟩
  · rw [(engineEntry_iff.1 e).2]
    exact State.entryDone_coherent h
  · rw [(engineEntry_soft he e).1]
    exact State.entered_coherent h

/-- So does every action. -/
theorem Op.coherent {o : Op} (ha : o.Allowed c) {s : State} (h : Coherent (s.bus p)) :
    (∀ {a t}, o.run c p s = .ok a t → Coherent (t.bus p)) ∧
      ∀ {e t}, o.run c p s = .error e t → e.Soft → Coherent (t.bus p) := by
  by_cases hr : o.kind = .round
  · rw [Op.eq_polledRound hr]
    refine ⟨fun e => ?_, fun e he => ?_⟩
    · obtain ⟨_, u, e, h₁⟩ := bind_ok_inv e
      cases h₁
      obtain ⟨_, v, e', h₂⟩ := bind_ok_inv e
      cases h₂
      exact (engineEntry_coherent h).1 e'
    · obtain e | ⟨_, u, -, e⟩ := bind_error_inv e
      · obtain e | ⟨_, v, -, e⟩ := bind_error_inv e
        · exact (engineEntry_coherent h).2 e he
        · cases e
      · cases e
  · have hR : Chain fun s t : State => Coherent (s.bus p) → Coherent (t.bus p) := ⟨fun _ => id, fun h k => k ∘ h⟩
    have hk : Keeps (fun s t : State => Coherent (s.bus p) → Coherent (t.bus p)) (o.run c p) := Op.keeps hR hr ha fun e hs => by
      cases e with
      | bus e =>
        rw [State.bus_setBus_same]
        exact e.coherent hs
      | _ => simpa using hs
    exact ⟨fun e => hk.ok e h, fun e _ => hk.error e h⟩

/-! Every port that no fault stopped. -/

/-- The transfer fields of the ports that go on are coherent. -/
def Coheres (s : State) : Prop := ∀ p, (s.bus p).live = true → Coherent (s.bus p)

theorem Coheres.congr {s t : State} (h : Coheres s) (hb : ∀ q, t.bus q = s.bus q) : Coheres t := fun q hl => by
  rw [hb] at hl ⊢
  exact h q hl

/-- A change of one port's Bus State. -/
theorem Coheres.of_port {s t : State} (h : Coheres s) (ho : OtherPortsKept p s t)
    (hp : (t.bus p).live = true → (s.bus p).live = true ∧ (Coherent (s.bus p) → Coherent (t.bus p))) : Coheres t := fun q hl => by
  by_cases hq : q = p
  · subst hq
    exact (hp hl).2 (h q (hp hl).1)
  · rw [ho q hq] at hl ⊢
    exact h q hl

theorem Coheres.stopped {s : State} (h : Coheres s) (e : Stop) (o : Option Port) : Coheres (s.stopped e o) := by
  cases o with
  | none => exact h.congr fun q => by simp [State.stopped]
  | some p =>
    refine h.of_port (p := p) (fun q hq => State.stopped_bus_of_ne _ _ fun k => hq (Option.some.inj k).symm) fun hl => ?_
    rw [State.stopped_bus] at hl ⊢
    cases e with
    | fault f => cases hl
    | refusal r => exact ⟨hl, fun hc => { hc with }⟩
    | lockWait => exact ⟨hl, id⟩

/-- An action or an entry that goes on, or stops with its port's mark. -/
theorem Coheres.moved {s t : State} (h : Coheres s) (hm : OpMoved p s t) (hc : Coherent (s.bus p) → Coherent (t.bus p)) :
    Coheres t := h.of_port hm.others fun hl => ⟨by simpa [BusState.live, hm.own.faulted] using hl, hc⟩

theorem Coheres.moved_stopped {s t : State} {e : Stop} (h : Coheres s) (hm : OpMoved p s t)
    (hc : e.Soft → Coherent (s.bus p) → Coherent (t.bus p)) : Coheres (t.stopped e (some p)) := by
  cases e with
  | fault f =>
    refine h.of_port (p := p) (fun q hq => ?_) fun hl => ?_
    · rw [State.stopped_bus_of_ne _ _ fun k => hq (Option.some.inj k).symm, hm.others q hq]
    · rw [State.stopped_bus] at hl
      cases hl
  | refusal r => exact (h.moved hm (hc (Stop.soft_refusal r))).stopped _ _
  | lockWait => exact (h.moved hm (hc Stop.soft_lockWait)).stopped _ _

theorem Coheres.givenBack {s : State} (h : Coheres s) (x : Thread) : Coheres (s.givenBack x) := by
  have hb (p : Port) : Coheres (s.setBus p (s.bus p).released).decided :=
    h.of_port (p := p) (fun q hq => by simp [hq]) fun hl => by
      rw [State.decided_bus, State.bus_setBus_same] at hl ⊢
      exact ⟨hl, fun hc => { hc with }⟩
  unfold State.givenBack
  split
  · exact (hb _).congr fun q => State.withFsmc_bus _ _ _
  · exact hb _
  · exact h

theorem steady_coheres (c : Config) : Steady c fun s => s.cfg = c ∧ (∀ x ∈ s.threads, x.Placed) ∧ Coheres s where
  cfg h := h.1
  placed h := h.2.1
  draws x h := ⟨h.1, h.2.1, h.2.2.congr fun q => by simp⟩
  past x h := ⟨h.1, h.2.1, h.2.2.congr fun q => by simp⟩
  requests x h := ⟨h.1, h.2.1, h.2.2.congr fun q => by simp⟩
  stores x h := ⟨h.1, h.2.1, h.2.2.congr fun q => by simp⟩
  returned x h := ⟨h.1, h.2.1, h.2.2.congr fun q => by simp⟩
  threads x h hx := ⟨h.1, hx, h.2.2.congr fun q => by simp⟩
  stored a v h := ⟨by simpa using h.1, by simpa using h.2.1, h.2.2.congr fun q => by simp⟩
  givenBack x h := ⟨by simpa using h.1, by simpa using h.2.1, h.2.2.givenBack x⟩
  marked r o h := ⟨by simpa using h.1, by simpa using h.2.1, h.2.2.stopped _ o⟩
  op ha h e :=
    have hm := (OpMoved.op _ ha).ok e h.1
    ⟨hm.cfg.trans h.1, hm.threads ▸ h.2.1, h.2.2.moved hm fun hc => (Op.coherent ha hc).1 e⟩
  waits ha h e :=
    have hm := (OpMoved.op _ ha).error e h.1
    ⟨hm.cfg.trans h.1, hm.threads ▸ h.2.1, h.2.2.moved hm fun hc => (Op.coherent ha hc).2 e Stop.soft_lockWait⟩
  stopped ha h k :=
    have hm := (OpMoved.op _ ha).error k h.1
    ⟨by simpa using hm.cfg.trans h.1, by simpa using hm.threads ▸ h.2.1,
      h.2.2.moved_stopped hm fun he hc => (Op.coherent ha hc).2 k he⟩
  sampled {s _ p w _} h e := by
    have hm := ((EngineStage.traceSample (p := p) w).ok e).opMoved
    refine ⟨hm.cfg.trans h.1, hm.threads ▸ h.2.1, h.2.2.moved hm fun hc => ?_⟩
    obtain ⟨hrun, d, tr, log, -, hs⟩ := traceSample_run p w s
    rw [hrun, hs] at e
    cases e
    rw [State.recorded_bus]
    exact { hc with }
  errval x h := ⟨h.1, h.2.1, h.2.2.congr fun q => by simp⟩
  entry {_ _ p _} h e :=
    have hm := ((EngineMoved.engineEntry p).ok e).opMoved
    ⟨hm.cfg.trans h.1, hm.threads ▸ h.2.1, h.2.2.moved hm fun hc => (engineEntry_coherent hc).1 e⟩
  entryStopped {_ _ p _} h k :=
    have hm := ((EngineMoved.engineEntry p).error k).opMoved
    ⟨by simpa using hm.cfg.trans h.1, by simpa using hm.threads ▸ h.2.1,
      h.2.2.moved_stopped hm fun he hc => (engineEntry_coherent hc).2 k he⟩

/-- Settles O58: coherence is kept by every single piece of a run. -/
theorem coherenceKept : Obligations.CoherenceKept := fun s _ _ hi hx hs e => ((steady_coheres s.cfg).exec hi ⟨rfl, hx, hs⟩ e).2.2

end Sys2Proof.Machine
end

section
/-! What holds of a port with no call in the middle (10_state R34, 46_dispatcher R321, 47_lifecycle_trace_ops R341, R342): every
instruction with no other call beside it keeps it. -/

namespace Sys2Proof.Machine

variable {α β : Type} {c : Config} {p : Port} {R : State → State → Prop}

/-! A relation that entries and the answers kept respect, along a program with no other call beside it. -/

/-- A relation that what entries leave respects, and the answers kept while a call runs. -/
structure SoloChain (R : State → State → Prop) : Prop extends Chain R where
  entries : ∀ {s t}, EntriesMoved s t → t.intsOff = s.intsOff → R s t
  past : ∀ s x, R s (s.withPast x)

/-- What every such step keeps: nobody else comes, and the parameters stay. -/
structure Beside (c : Config) (s : State) : Prop extends Solo s where
  cfg : s.cfg = c

theorem EntriesMoved.beside {s t : State} (h : EntriesMoved s t) (hs : Beside c s) : Beside c t :=
  ⟨h.solo hs.toSolo, h.cfg.trans hs.cfg⟩

theorem OpMoved.beside {s t : State} (h : OpMoved p s t) (hs : Beside c s) : Beside c t :=
  ⟨⟨h.threads.trans hs.threads, h.requests.trans hs.requests, h.stores.trans hs.stores⟩, h.cfg.trans hs.cfg⟩

theorem Beside.withPast {s : State} (h : Beside c s) (x : List Ans) : Beside c (s.withPast x) :=
  ⟨⟨h.threads, h.requests, h.stores⟩, h.cfg⟩

theorem window_beside {own : Option Port} {s t : State} {u : Unit} (hs : Beside c s) (h : window own s = .ok u t) :
    EntriesMoved s t ∧ Beside c t := ⟨(window_moved hs.toSolo h).1, (window_moved hs.toSolo h).1.beside hs⟩

/-- A program of actions that keep the relation. -/
theorem SoloChain.drive (hR : SoloChain R) {own : Option Port} {x : Prog α}
    (hx : x.All fun m => Keeps R m ∧ ∃ o : Op, o.Allowed c ∧ m = o.run c p) {s t : State} {a : α} (hs : Beside c s)
    (h : drive own x s = .ok a t) : R s t ∧ Beside c t := by
  induction hx generalizing s with
  | ret b =>
    cases h
    exact ⟨hR.refl _, hs⟩
  | act hm _ ih =>
    obtain ⟨hk, o, ha, rfl⟩ := hm
    obtain ⟨u, y, v, hw, hr, h⟩ := drive_act_ok_inv h
    obtain ⟨hmv, hu⟩ := window_beside hs hw
    obtain ⟨hrest, ht⟩ := ih y ((((OpMoved.op o ha).ok hr hu.cfg).beside hu).withPast _) h
    exact ⟨hR.trans (hR.entries hmv (window_moved hs.toSolo hw).2) (hR.trans (hk.ok hr) (hR.trans (hR.past _ _) hrest)), ht⟩

theorem SoloChain.uses (hR : SoloChain R) {own : Option Port} {x : Prog α} {ks : List Op.Kind} (hx : x.Uses c p ks)
    (hk : ∀ o : Op, o.kind ∈ ks → o.Allowed c → Keeps R (o.run c p)) {s t : State} {a : α} (hs : Beside c s)
    (h : Machine.drive own x s = .ok a t) : R s t ∧ Beside c t :=
  hR.drive (hx.all fun o ho ha => ⟨hk o ho ha, o, ha, rfl⟩) hs h

/-! The books of a port: its lock, its references, its handles, and its clock where its lines are attached. -/

/-- A port's references and handles are the same, its lock where `L`, its lines and clock where `C`, and it was not marked
before. -/
structure Books (q : Port) (L C : Prop) (s t : State) : Prop where
  live : (t.bus q).live = true → (s.bus q).live = true
  refs : (t.bus q).refs = (s.bus q).refs
  handles : t.handles q = s.handles q
  lock : L → (t.bus q).lock = (s.bus q).lock
  clock : C → (t.bus q).plat.evIrq = (s.bus q).plat.evIrq ∧ (t.bus q).plat.clkEn = (s.bus q).plat.clkEn

namespace Books

variable {q : Port} {L C L' C' : Prop}

theorem refl (s : State) : Books q L C s s := ⟨id, rfl, rfl, fun _ => rfl, fun _ => ⟨rfl, rfl⟩⟩

theorem trans {s t u : State} (h : Books q L C s t) (k : Books q L C t u) : Books q L C s u where
  live := h.live ∘ k.live
  refs := k.refs.trans h.refs
  handles := k.handles.trans h.handles
  lock := fun hl => (k.lock hl).trans (h.lock hl)
  clock := fun hc => ⟨(k.clock hc).1.trans (h.clock hc).1, (k.clock hc).2.trans (h.clock hc).2⟩

theorem mono {s t : State} (h : Books q L C s t) (hl : L' → L) (hc : C' → C) : Books q L' C' s t :=
  ⟨h.live, h.refs, h.handles, h.lock ∘ hl, h.clock ∘ hc⟩

theorem congr {s t : State} (hb : t.bus q = s.bus q) (hi : t.instances = s.instances) : Books q L C s t := by
  refine ⟨?_, ?_, ?_, fun _ => ?_, fun _ => ?_⟩
  · rw [hb]; exact id
  · rw [hb]
  · rw [State.handles, hi]; rfl
  · rw [hb]
  · rw [hb]; exact ⟨rfl, rfl⟩

theorem entries {s t : State} (h : EntriesMoved s t) : Books q L C s t where
  live := fun hl => by
    by_contra hn
    have hf := (h.ports q).faulted (by simpa [BusState.live] using hn)
    simp [BusState.live, hf] at hl
  refs := (h.ports q).refs
  handles := by rw [State.handles, h.instances]; rfl
  lock := fun _ => (h.ports q).lock
  clock := fun _ => by rw [(h.ports q).plat]; exact ⟨rfl, rfl⟩

theorem soloChain : SoloChain (Books q L C) := ⟨⟨refl, trans⟩, fun h _ => entries h, fun s x => congr (by simp) rfl⟩

/-- The kinds of actions that count references or free handles. -/
def counting : List Op.Kind := [.openPort, .closePort, .free]

/-- The kinds of actions that take or give back the lock. -/
def locking : List Op.Kind := [.lock, .lockRestart, .unlock, .conclude]

theorem length_filter_modify {P : α → Bool} {f : α → α} (hf : ∀ x, P (f x) = P x) (l : List α) (d : Nat) :
    ((l.modify d f).filter P).length = (l.filter P).length := by
  induction l generalizing d with
  | nil => cases d <;> rfl
  | cons x l ih =>
    cases d with
    | zero => simp [List.filter_cons, hf, apply_ite List.length]
    | succ d => simp [List.filter_cons, ih, apply_ite List.length]

theorem updated (s : State) (d : Nat) {f : Inst → Inst} (hf : ∀ y, (f y).port = y.port) :
    (s.withInstances (s.instances.modify d (·.map f))).handles q = s.handles q :=
  length_filter_modify (fun o => by cases o <;> simp [hf]) _ _

/-- Each single change of an action that counts nothing. -/
theorem ofStep {k : Op.Kind} {s t : State} (h : OpStep c p k s t) (hk : k ∉ counting) :
    Books q (q ≠ p ∨ k ∉ locking) (q ≠ p ∨ k ≠ .plat) s t := by
  cases h with
  | @bus b h =>
    by_cases hq : q = p
    · subst hq
      refine ⟨?_, ?_, by rw [State.handles, State.setBus_instances, State.handles], fun hl => ?_, fun hc => ?_⟩
      · rw [State.bus_setBus_same, BusState.live, h.opWrote.faulted]
        exact id
      all_goals
        rw [State.bus_setBus_same]
      · cases h with
        | refs _ _ h => obtain rfl | rfl := h <;> exact absurd (by decide) hk
        | driven _ l => cases l <;> rfl
        | _ => rfl
      · have hl := hl.resolve_left (not_not_intro rfl)
        cases h with
        | locked | lockedRestart | unlocked | released => exact absurd (by decide) hl
        | driven _ l => cases l <;> rfl
        | _ => rfl
      · have hc := hc.resolve_left (not_not_intro rfl)
        have hno {k' : Op.Kind} (h : k.Does k') (hk' : k' = .plat) : False := by
          obtain rfl | rfl | rfl := h
          · exact hc hk'
          all_goals exact absurd (by decide) hk
        cases h with
        | clockOn _ h | pulsed _ h | pins _ _ h | irqs _ _ _ h | clockOff _ h => exact (hno h rfl).elim
        | driven _ l => cases l <;> exact ⟨rfl, rfl⟩
        | _ => exact ⟨rfl, rfl⟩
    · exact congr (State.bus_setBus_of_ne _ _ hq) (State.setBus_instances _ _ _)
  | updated d f hf h =>
    obtain ⟨h₁, h₂, -, h₃, h₄⟩ := refl (q := q) (L := True) (C := True) s
    exact ⟨by simp, by simp, updated s d hf, fun _ => by simp, fun _ => by simp⟩
  | freed _ h | opened h => subst h; exact absurd (by decide) hk
  | _ => exact congr (by simp) rfl

theorem op {o : Op} (hk : o.kind ∉ counting) (ha : o.Allowed c) :
    Keeps (Books q (q ≠ p ∨ o.kind ∉ locking) (q ≠ p ∨ o.kind ≠ .plat)) (o.run c p) := by
  have hR := (soloChain (q := q) (L := q ≠ p ∨ o.kind ∉ locking) (C := q ≠ p ∨ o.kind ≠ .plat)).toChain
  by_cases hr : o.kind = .round
  · rw [Op.eq_polledRound hr] at hR ⊢
    refine Keeps.bind hR (Keeps.bind hR ?_ fun _ => Keeps.bind hR (Keeps.lookBus hR p _) fun _ => Keeps.pure hR _) fun _ =>
      Keeps.pure hR _
    exact ⟨fun e => .entries ((EngineMoved.engineEntry p).ok e).entriesMoved,
      fun e => .entries ((EngineMoved.engineEntry p).error e).entriesMoved⟩
  · exact Op.keeps hR hr ha fun e => ofStep e hk

/-- A program of such actions. -/
theorem uses {own : Option Port} {x : Prog α} {ks : List Op.Kind} (hx : x.Uses c p ks) {s t : State} {a : α}
    (hs : Beside c s) (h : drive own x s = .ok a t) (hk : ∀ k ∈ ks, k ∉ counting := by decide) :
    Books q (q ≠ p ∨ ∀ k ∈ ks, k ∉ locking) (q ≠ p ∨ .plat ∉ ks) s t ∧ Beside c t := by
  refine soloChain.uses hx (fun o ho ha => ?_) hs h
  have hop := op (q := q) (hk _ ho) ha (p := p)
  have hl : (q ≠ p ∨ ∀ k ∈ ks, k ∉ locking) → q ≠ p ∨ o.kind ∉ locking := Or.imp id fun h => h _ ho
  have hc : (q ≠ p ∨ .plat ∉ ks) → q ≠ p ∨ o.kind ≠ .plat := Or.imp id fun h e => h (e ▸ ho)
  exact ⟨fun e => (hop.ok e).mono hl hc, fun e => (hop.error e).mono hl hc⟩

end Books

/-! What an instruction does to settled ports. -/

/-- A port that goes on did so before, and is settled if it was. -/
def Settles (s t : State) : Prop :=
  ∀ q, (t.bus q).live = true → (s.bus q).live = true ∧ (PortSettled s q → PortSettled t q)

theorem Settles.trans {s t u : State} (h : Settles s t) (k : Settles t u) : Settles s u := fun q hl =>
  ⟨(h q (k q hl).1).1, (k q hl).2 ∘ (h q (k q hl).1).2⟩

/-- A port whose references still match its handles is settled where its lock is as before or free, and its clock as before or
on. -/
theorem Books.settled {q : Port} {L C : Prop} {s t : State} (h : Books q L C s t) (hl : L ∨ (t.bus q).lock = .free)
    (hc : C ∨ ((t.bus q).plat.evIrq.attached = true → (t.bus q).plat.clkEn = true)) (hs : PortSettled s q) :
    PortSettled t q where
  lock := hl.elim (fun hl => (h.lock hl).trans hs.lock) id
  refs := by rw [h.refs, h.handles, hs.refs]
  clock := hc.elim (fun hc => by rw [(h.clock hc).1, (h.clock hc).2]; exact hs.clock) id

theorem Settles.of_books {s t : State} (h : ∀ q, Books q True True s t) : Settles s t := fun q hl =>
  ⟨(h q).live hl, (h q).settled (.inl trivial) (.inl trivial)⟩

/-- A call on a port that leaves its lock as it was or free, and its clock as it was or on. -/
theorem Settles.of_port {L C : Prop} {s t : State} (h : ∀ q, Books q (q ≠ p ∨ L) (q ≠ p ∨ C) s t)
    (hl : L ∨ (t.bus p).lock = .free) (hc : C ∨ ((t.bus p).plat.evIrq.attached = true → (t.bus p).plat.clkEn = true)) :
    Settles s t := fun q hq => by
  refine ⟨(h q).live hq, (h q).settled ?_ ?_⟩
  · by_cases hp : q = p
    · exact hl.imp .inr (hp ▸ id)
    · exact .inl (.inl hp)
  · by_cases hp : q = p
    · exact hc.imp .inr (hp ▸ id)
    · exact .inl (.inl hp)

/-! Programs that take their port's lock. -/

/-- Where the program ends its port's lock is free. -/
def Prog.Frees (p : Port) (x : Prog α) : Prop := ∀ own s t a, drive own x s = .ok a t → (t.bus p).lock = .free

/-- Where the program ends, with no other call beside it, its port's clock is on. -/
def Prog.EndsClocked (c : Config) (p : Port) (x : Prog α) : Prop :=
  ∀ own s t a, Beside c s → drive own x s = .ok a t → (t.bus p).plat.clkEn = true

/-- What is done under a lock: nothing waits again or counts, and in the end the lock is free. -/
structure Prog.Works (c : Config) (p : Port) (ks : List Op.Kind) (x : Prog Unit) : Prop where
  uses : x.Uses c p ks
  frees : x.Frees p
  clocked : .plat ∉ ks ∨ x.EndsClocked c p

/-- A program that is refused at once, or first takes its port's lock. -/
inductive Prog.LocksFirst (c : Config) (p : Port) : Prog Unit → Prop where
  | refused (r : Refusal) : LocksFirst c p (Machine.act (refuse r))
  | acquire (d : Nat) {x : Prog Unit} {ks : List Op.Kind} (hks : ks ⊆ Op.workKinds) (hx : x.Works c p ks) :
    LocksFirst c p ((Machine.acquire p d).andThen fun ok => if ok then x else returnInterrupted c)
  | restart (d : Nat) {x : Prog Unit} {ks : List Op.Kind} (hks : ks ⊆ Op.workKinds) (hx : x.Works c p ks) :
    LocksFirst c p ((acquireRestart p d).andThen fun _ => x)

theorem Prog.Works.neverWaits {x : Prog Unit} {ks : List Op.Kind} (h : x.Works c p ks) (hks : ks ⊆ Op.workKinds) :
    x.All NeverWaits := h.uses.all fun _ ho _ => Op.neverWaits (hks ho)

/-- A try at a lock that did not take it only drew a signal. -/
theorem tryAcquire_inv {s : State} (d : Nat) :
    (∀ {t}, tryAcquire p d s = .ok false t → t = s.signalDrawn) ∧ ∀ {t e}, tryAcquire p d s = .error e t → t = s.signalDrawn := by
  cases hl : (s.bus p).lock with
  | free =>
    rw [tryAcquire_run d hl]
    exact ⟨fun h => (by cases h), fun h => (by cases h)⟩
  | held o =>
    cases hs : s.noSignal with
    | true =>
      rw [tryAcquire_waits d hl hs]
      exact ⟨fun h => (by cases h), fun h => by cases h; rfl⟩
    | false =>
      rw [tryAcquire_interrupted d hl hs]
      exact ⟨fun h => by cases h; rfl, fun h => (by cases h)⟩

theorem tryAcquireRestart_error {s t : State} {d : Nat} {e : Stop} (h : tryAcquireRestart p d s = .error e t) : t = s := by
  cases hl : (s.bus p).lock with
  | free => simp [tryAcquireRestart, run_bind, hl] at h
  | held o =>
    rw [tryAcquireRestart_waits d hl] at h
    cases h
    rfl

theorem drive_first_wait_inv {own : Option Port} {m : M Ans} {k : Ans → Prog α} {s t : State}
    (hk : ∀ y, (k y).All NeverWaits) (h : drive own (.act m k) s = .error .lockWait t) :
    ∃ u, window own s = .ok () u ∧ m u = .error .lockWait t := by
  obtain ⟨u, hw, h | ⟨y, v, -, h⟩⟩ := drive_act_wait_inv h
  · exact ⟨u, hw, h⟩
  · exact absurd h (drive_neverWaits (hk y) _ _)

/-- What is done under the lock settles its port again. -/
theorem Prog.Works.settles {own : Option Port} {x : Prog Unit} {ks : List Op.Kind} (hx : x.Works c p ks) (hks : ks ⊆ Op.workKinds)
    {s u t : State} {a : Unit} (hu : Beside c u) (hb : ∀ q, Books q (q ≠ p) True s u) (h : drive own x u = .ok a t) :
    Settles s t := by
  have hcount : ∀ k ∈ Op.workKinds, k ∉ Books.counting := by decide
  have hrest (q : Port) := (Books.uses (q := q) hx.uses hu h fun k hk => hcount k (hks hk)).1
  exact .of_port (p := p) (L := False) (C := .plat ∉ ks)
    (fun q => ((hb q).mono (Or.rec id nofun) fun _ => trivial).trans ((hrest q).mono (Or.imp id nofun) id)) (.inr (hx.frees _ _ _ _ h))
    (hx.clocked.imp id fun hc _ => hc _ _ _ _ hu h)

theorem Prog.LocksFirst.settles {own : Option Port} {x : Prog Unit} (hx : x.LocksFirst c p) {s : State} (hs : Beside c s) :
    (∀ {t a}, drive own x s = .ok a t → Settles s t) ∧ ∀ {t}, drive own x s = .error .lockWait t → Settles s t := by
  have past {q : Port} (v : State) (xs : List Ans) : Books q True True v (v.withPast xs) := .congr (by simp) rfl
  have drawn {q : Port} (v : State) : Books q True True v v.signalDrawn := .congr (by simp [State.signalDrawn]) rfl
  cases hx with
  | refused r =>
    refine ⟨fun h => ?_, fun h => ?_⟩
    · obtain ⟨u, y, v, -, hm, -⟩ := drive_act_ok_inv h
      cases hm
    · obtain ⟨u, -, h | ⟨y, v, hm, -⟩⟩ := drive_act_wait_inv h
      · cases h
      · cases hm
  | @acquire d x ks hks hx =>
    refine ⟨fun h => ?_, fun h => ?_⟩
    · obtain ⟨b, u, h₁, h₂⟩ := drive_andThen_ok_inv h
      cases b with
      | true =>
        have hacq (q : Port) := Books.uses (q := q) (Prog.Uses.op (.tryAcquire d) (ks := [.lock])) hs h₁
        exact hx.settles hks (hacq p).2 (fun q => (hacq q).1.mono .inl fun _ => .inr (by decide)) h₂
      | false =>
        obtain ⟨u', v, hw, hm, rfl⟩ := drive_askFlag_ok_inv h₁
        obtain ⟨hmv, hu⟩ := window_beside hs hw
        obtain rfl := (tryAcquire_inv d).1 hm
        have hu' : Beside c (u'.signalDrawn.withPast (u'.signalDrawn.past ++ [.flag false])) :=
          ⟨⟨hu.threads, hu.requests, hu.stores⟩, hu.cfg⟩
        have hans (q : Port) :=
          (Books.uses (q := q) (Prog.Uses.op (c := c) (p := p) (.answer (returnValue c .interrupted)) (ks := [.answer])) hu' h₂).1
        exact .of_books fun q => (Books.entries hmv).trans ((drawn u').trans ((past _ _).trans
          ((hans q).mono (fun _ => .inr (by decide)) fun _ => .inr (by decide))))
    · have hrest (b : Bool) : (if b then x else returnInterrupted c).All NeverWaits :=
        .ite (hx.neverWaits hks) (Prog.Uses.all (c := c) (p := p) (.op (.answer _) (ks := Op.workKinds)) fun _ ho _ => Op.neverWaits ho)
      obtain ⟨u, hw, hm⟩ := drive_first_wait_inv (fun y => hrest y.toFlag) h
      obtain hm | ⟨_, _, -, hm⟩ := (bind_wait_iff ..).1 hm
      · obtain rfl := (tryAcquire_inv d).2 hm
        exact .of_books fun q => (Books.entries (window_beside hs hw).1).trans (drawn u)
      · cases hm
  | @restart d x ks hks hx =>
    refine ⟨fun h => ?_, fun h => ?_⟩
    · obtain ⟨_, u, h₁, h₂⟩ := drive_andThen_ok_inv h
      have hacq (q : Port) := Books.uses (q := q) (Prog.Uses.op (.tryAcquireRestart d) (ks := [.lockRestart])) hs h₁
      exact hx.settles hks (hacq p).2 (fun q => (hacq q).1.mono .inl fun _ => .inr (by decide)) h₂
    · obtain ⟨u, hw, hm⟩ := drive_first_wait_inv (fun y => hx.neverWaits hks) h
      obtain hm | ⟨_, _, -, hm⟩ := (bind_wait_iff ..).1 hm
      · obtain rfl := tryAcquireRestart_error hm
        exact .of_books fun q => Books.entries (window_beside hs hw).1
      · cases hm

/-! What frees the lock. -/

theorem Prog.Frees.andThen {x : Prog α} {f : α → Prog Unit} (h : ∀ a, (f a).Frees p) : (x.andThen f).Frees p := fun _ _ _ _ e => by
  obtain ⟨a, u, -, e⟩ := drive_andThen_ok_inv e
  exact h a _ _ _ _ e

theorem Prog.Frees.releaseAndReturn (x : Int) : (releaseAndReturn p x).Frees p := fun _ _ _ _ e => by
  obtain ⟨u, y, v, -, hm, e⟩ := drive_act_ok_inv e
  cases hm
  cases e
  simp [BusState.unlocked]

theorem Prog.Frees.closeTransfer (e : ErrVal) : (closeTransfer c p e).Frees p := .andThen fun _ _ _ _ _ h => by
  obtain ⟨u, y, v, -, hm, h⟩ := drive_act_ok_inv h
  cases hm
  cases h
  simp [BusState.released]

theorem Prog.Frees.runTransfer (d : Nat) (x : Inst) (msgs : List Message) : (runTransfer c d x msgs).Frees x.port :=
  .andThen fun _ => .andThen fun _ => .andThen fun _ => .andThen fun _ => .andThen fun _ => .closeTransfer _

/-! What leaves the clock on. -/

/-- The port's clock stays on. -/
def ClockStays (p : Port) (s t : State) : Prop := (s.bus p).plat.clkEn = true → (t.bus p).plat.clkEn = true

theorem ClockStays.soloChain : SoloChain (ClockStays p) :=
  ⟨⟨fun _ => id, fun h k => k ∘ h⟩, fun h _ => by rw [ClockStays, (h.ports p).plat]; exact id, fun s x => by simp [ClockStays]⟩

/-- An action that counts nothing and gates no clock. -/
def Op.NeverOff (o : Op) : Prop := o.kind ∉ Books.counting ∧ o ≠ .clockOff

theorem ClockStays.op {o : Op} (h : o.NeverOff) (ha : o.Allowed c) : Keeps (ClockStays p) (o.run c p) := by
  by_cases hk : o.kind = .plat
  · have plat {f : BusState → BusState} (hf : ∀ b, b.plat.clkEn = true → (f b).plat.clkEn = true) :
        Keeps (ClockStays p) (do updBus p f; return Ans.unit) :=
      Keeps.bind soloChain.toChain (Keeps.updBus fun s => by rw [ClockStays, State.bus_setBus_same]; exact hf _) fun _ =>
        Keeps.pure soloChain.toChain _
    cases o with
    | clockOn => exact plat fun _ _ => rfl
    | pulsed => exact plat fun _ => id
    | pins m => exact plat fun _ => id
    | irqs x => exact plat fun _ => id
    | clockOff => exact absurd rfl h.2
    | put r v => simp only [Op.kind] at hk; split at hk <;> cases hk
    | modify r x v => simp only [Op.kind] at hk; split at hk <;> cases hk
    | _ => cases hk
  · have hop := Books.op (q := p) (p := p) h.1 ha
    have stays {s t : State} (h : Books p (p ≠ p ∨ o.kind ∉ Books.locking) (p ≠ p ∨ o.kind ≠ .plat) s t) : ClockStays p s t := by
      rw [ClockStays, (h.clock (.inr hk)).2]
      exact id
    exact ⟨fun e => stays (hop.ok e), fun e => stays (hop.error e)⟩

/-- Every action of the program is of this sort. -/
def Prog.NeverOff (c : Config) (p : Port) (x : Prog α) : Prop :=
  x.All fun m => ∃ o : Op, o.NeverOff ∧ o.Allowed c ∧ m = o.run c p

namespace Prog.NeverOff

theorem uses {ks : List Op.Kind} {x : Prog α} (h : x.Uses c p ks) (hk : ∀ k ∈ ks, k ∉ .plat :: Books.counting := by decide) :
    x.NeverOff c p := Prog.All.mono h fun m ⟨o, ho, ha, hm⟩ => by
  have hk := hk _ ho
  exact ⟨o, ⟨fun e => hk (List.mem_cons_of_mem _ e), fun e => hk (e ▸ List.mem_cons_self ..)⟩, ha, hm⟩

theorem op (o : Op) {f : Ans → α} (h : o.NeverOff) (ha : o.Allowed c) :
    (Prog.act (o.run c p) fun x => .ret (f x)).NeverOff c p := .act ⟨o, h, ha, rfl⟩ fun _ => .ret _

theorem andThen {x : Prog α} {f : α → Prog β} (hx : x.NeverOff c p) (hf : ∀ a, (f a).NeverOff c p) :
    (x.andThen f).NeverOff c p := Prog.All.andThen hx hf

theorem ite {a : Prop} [Decidable a] {x y : Prog α} (hx : x.NeverOff c p) (hy : y.NeverOff c p) :
    (if a then x else y).NeverOff c p := Prog.All.ite hx hy

theorem clockStays {own : Option Port} {x : Prog α} (hx : x.NeverOff c p) {s t : State} {a : α} (hs : Beside c s)
    (h : drive own x s = .ok a t) : ClockStays p s t :=
  (ClockStays.soloChain.drive (Prog.All.mono hx fun _ ⟨o, ho, ha, hm⟩ => ⟨hm ▸ ClockStays.op ho ha, o, ha, hm⟩) hs h).1

end Prog.NeverOff

/-- What a bring-up does after it enabled the clock. -/
theorem lifeUp_rest_neverOff : ((write p (·.pulsed)).andThen fun _ => (write p (·.pins .afOd)).andThen fun _ =>
    (Prog.onlyIf (c.mode == .interrupt) (write p (·.irqs true))).andThen fun _ =>
    (demand (c.pclk / 1000000 < 2 ^ c.layout.freq.width) .freqFieldOverflow).andThen fun _ =>
    (put p .cr2 (place c.layout.freq (c.pclk / 1000000))).andThen fun _ =>
    (clkProgram c p c.pclk 100000).andThen fun _ => modify p .cr1 0 (bit c.layout.pe)).NeverOff c p := by
  have hirqs : (Prog.onlyIf (c.mode == .interrupt) (write p (·.irqs true))).NeverOff c p := by
    unfold Prog.onlyIf
    split
    · rename_i hm
      exact .op (.irqs true) ⟨by decide, nofun⟩ fun _ => by simpa using hm
    · exact .ret _
  exact .andThen (.op .pulsed ⟨by decide, nofun⟩ trivial) fun _ => .andThen (.op (.pins _) ⟨by decide, nofun⟩ trivial) fun _ =>
    .andThen hirqs fun _ => .andThen (.ite (.ret _) (.op (.refuse _) ⟨by decide, nofun⟩ trivial)) fun _ =>
    .andThen (.uses (.op (.put .cr2 _) (ks := [.cr2]))) fun _ => .andThen (.uses (.clkProgram _ _)) fun _ =>
    .uses (.op (.modify .cr1 _ _) (ks := [.reg]))

theorem Prog.EndsClocked.lifeUp : (lifeUp c p).EndsClocked c p := fun own s t a hs h => by
  obtain ⟨_, u, h₁, h₂⟩ := drive_andThen_ok_inv h
  have hu := (Books.uses (q := p) (Prog.Uses.op (c := c) (p := p) .clockOn (ks := [.plat])) hs h₁).2
  obtain ⟨v, y, w, -, hm, h₁⟩ := drive_act_ok_inv h₁
  cases hm
  cases h₁
  refine lifeUp_rest_neverOff.clockStays hu h₂ ?_
  simp [BusState.clockOn]

/-! The programs of the calls. -/

theorem Prog.EndsClocked.andThen {x : Prog α} {f : α → Prog β} {ks : List Op.Kind} (hx : x.Uses c p ks)
    (hf : ∀ a, (f a).EndsClocked c p) (hk : ∀ k ∈ ks, k ∉ Books.counting := by decide) : (x.andThen f).EndsClocked c p :=
  fun _ _ _ _ hs h => by
    obtain ⟨a, u, h₁, h₂⟩ := drive_andThen_ok_inv h
    exact hf a _ _ _ _ (Books.uses (q := p) hx hs h₁ hk).2 h₂

theorem Prog.EndsClocked.recoverBus : (recoverBus c p).EndsClocked c p :=
  .andThen Prog.Uses.lifeDown fun _ => .andThen (.op (.pins .gpio) (ks := [.plat])) fun _ =>
    .andThen (.op (.driven .sda true) (ks := [.line])) fun _ => .andThen (Prog.Uses.pulseLoop _) fun _ =>
    .andThen Prog.Uses.manualStartStop fun _ => .andThen (.op (.pins .afOd) (ks := [.plat])) fun _ => .lifeUp

theorem Prog.Works.runTransfer (d : Nat) (x : Inst) (msgs : List Message) :
    (runTransfer c d x msgs).Works c x.port Prog.Uses.transferKinds :=
  ⟨Prog.Uses.runTransfer d x msgs, Prog.Frees.runTransfer d x msgs, .inl (by decide)⟩

theorem Prog.Works.recover : ((recoverBus c p).andThen fun _ => releaseAndReturn p 0).Works c p
    (.unlock :: Prog.Uses.recoveryKinds) where
  uses := Prog.Uses.andThen Prog.Uses.recoverBus.mono fun _ => .op (.unlock 0)
  frees := .andThen fun _ => .releaseAndReturn 0
  clocked := .inr fun _ _ _ _ hs h => by
    obtain ⟨a, u, h₁, h₂⟩ := drive_andThen_ok_inv h
    have hu := (Books.uses (q := p) Prog.Uses.recoverBus hs h₁).2
    have hlast := Prog.NeverOff.clockStays (.uses (Prog.Uses.op (p := p) (.unlock 0) (ks := [.unlock]))) hu h₂
    exact hlast (Prog.EndsClocked.recoverBus _ _ _ _ hs h₁)

theorem Prog.Works.store (d : Nat) (f : Inst → Inst) (x : Int) (hf : ∀ y, (f y).port = y.port := by exact fun _ => rfl) :
    ((Machine.act (updInst d f)).andThen fun _ => releaseAndReturn p x).Works c p [.store, .unlock] where
  uses := Prog.Uses.andThen (.op (.updInst d f) (ha := hf)) fun _ => .op (.unlock x)
  frees := .andThen fun _ => .releaseAndReturn x
  clocked := .inl (by decide)

theorem Prog.LocksFirst.process (d : Nat) (y : Inst) (msgs : List Message) : (process c d y msgs).LocksFirst c y.port := by
  unfold Machine.process offered
  split
  · exact .acquire d (by decide) (.runTransfer d y msgs)
  · exact .refused _

/-- A program that finds its instance, then takes its port's lock; or which is refused at once. -/
inductive Prog.LocksCall (c : Config) : Prog Unit → Prop
  | refused (r : Refusal) : LocksCall c (Machine.act (refuse r))
  | finds (d : Nat) {g : Inst → Prog Unit} (hg : ∀ y : Inst, (g y).LocksFirst c y.port) : LocksCall c ((theInst d).andThen g)

theorem Prog.LocksCall.offered {x : Prog Unit} (a : Bool) (r : Refusal) (hx : x.LocksCall c) : (Machine.offered a r x).LocksCall c := by
  unfold Machine.offered
  split
  · exact hx
  · exact .refused r

/-- Every host operation that counts no reference. -/
theorem programOf_locksCall {i : Instr} {x : Prog Unit} (hi : ∀ p, i ≠ .opInit p) (hu : ∀ d, i ≠ .opUninit d)
    (h : programOf c i = some x) : x.LocksCall c := by
  cases i <;> simp only [programOf, Option.some.injEq, reduceCtorEq] at h <;> subst h
  case opInit p => exact absurd rfl (hi p)
  case opUninit d => exact absurd rfl (hu d)
  case opReset d => exact .offered _ _ (.finds d fun y => .acquire d (by decide) .recover)
  case opSetfrequency d f => exact .finds d fun y => .restart d (ks := [.store, .unlock]) (by decide) (.store d _ _)
  case opSetaddress d a n => exact .finds d fun y => .acquire d (ks := [.store, .unlock]) (by decide) (.store d _ _)
  case opWrite d b n => exact .finds d fun y => .process d y _
  case opRead d b n => exact .finds d fun y => .process d y _
  case opTransfer d ms => exact .offered _ _ (.finds d fun y => .process d y ms)
  case opProcess d ms => exact .finds d fun y => .process d y ms

/-! A call with no other call beside it. -/

/-- Where it goes on, its program ended, or it waits as a thread. -/
theorem call_next_cases {i : Instr} {f : Config → Prog Unit} {s t : State} (h : call i f s = .next t) :
    (∃ u, driveCall i (f s.cfg) (s.withPast []) = .ok () u ∧ t = u.withPast []) ∨
      ∃ u, driveCall i (f s.cfg) (s.withPast []) = .error .lockWait u ∧
        t = (u.withThreads (u.threads ++ [⟨i, portFound u.past, u.past⟩])).withPast [] := by
  unfold call at h
  split at h <;> cases h
  · exact .inl ⟨_, ‹_›, rfl⟩
  · exact .inr ⟨_, ‹_›, rfl⟩

/-- A call that finds its instance first: what follows ended, or waits. -/
theorem driveCall_finds {i : Instr} {d : Nat} {m : M Inst} {g : Inst → Prog Unit} {s : State} (hs : Beside c s)
    (hm : Finds d (do return .inst (← m))) :
    (∀ {t a}, driveCall i ((askInst m).andThen g) s = .ok a t → ∃ own u y, EntriesMoved s u ∧ Beside c u ∧ s.inst d = some y ∧
      m u = .ok y u ∧ drive own (g y) (u.withPast (u.past ++ [.inst y])) = .ok a t) ∧
    ∀ {t}, driveCall i ((askInst m).andThen g) s = .error .lockWait t → ∃ own u y, EntriesMoved s u ∧ Beside c u ∧
      s.inst d = some y ∧ m u = .ok y u ∧ drive own (g y) (u.withPast (u.past ++ [.inst y])) = .error .lockWait t := by
  have found {u v : State} {y : Ans} (hmv : EntriesMoved s u) (h : (do return .inst (← m) : M Ans) u = .ok y v) :
      ∃ z, y = .inst z ∧ v = u ∧ s.inst d = some z ∧ m u = .ok z u := by
    obtain ⟨z, hz, hr⟩ | ⟨r, hr⟩ := hm u
    · rw [hr] at h
      cases h
      obtain ⟨w, v, hw, hv⟩ := bind_ok_inv hr
      cases hv
      exact ⟨z, rfl, rfl, by rw [← hz, State.inst, State.inst, hmv.instances], hw⟩
    · rw [hr] at h
      cases h
  refine ⟨fun h => ?_, fun h => ?_⟩
  · obtain ⟨own, own', u, y, v, hw, hr, h⟩ := driveCall_act_ok_inv h
    obtain ⟨hmv, hu⟩ := window_beside hs hw
    obtain ⟨z, rfl, rfl, hz, hmu⟩ := found hmv hr
    exact ⟨own', v, z, hmv, hu, hz, hmu, h⟩
  · obtain ⟨own, own', u, hw, hr | ⟨y, v, hr, h⟩⟩ := driveCall_act_wait_inv h
    · obtain ⟨z, -, hz⟩ | ⟨r, hz⟩ := hm u
      all_goals
        rw [hz] at hr
        cases hr
    · obtain ⟨hmv, hu⟩ := window_beside hs hw
      obtain ⟨z, rfl, rfl, hz, hmu⟩ := found hmv hr
      exact ⟨own', v, z, hmv, hu, hz, hmu, h⟩

theorem Settles.of_bus_eq {s t : State} (hb : ∀ q, t.bus q = s.bus q) (hi : t.instances = s.instances) : Settles s t :=
  .of_books fun q => .congr (hb q) hi

/-- A call of such a program. -/
theorem call_settles {i : Instr} {f : Config → Prog Unit} {s t : State} (hs : Beside c s) (hf : (f c).LocksCall c)
    (h : call i f s = .next t) : Settles s t := by
  have hs₀ := hs.withPast []
  have hcase := call_next_cases h
  clear h
  obtain rfl := hs.cfg
  have start : Settles s (s.withPast []) := .of_bus_eq (fun q => by simp) rfl
  generalize f s.cfg = x at hf hcase
  cases hf with
  | refused r =>
    obtain ⟨u, h, -⟩ | ⟨u, h, -⟩ := hcase
    · obtain ⟨_, _, v, y, w, -, hm, -⟩ := driveCall_act_ok_inv h
      cases hm
    · obtain ⟨_, _, v, -, hm | ⟨y, w, hm, -⟩⟩ := driveCall_act_wait_inv h <;> cases hm
  | @finds d g hg =>
    have hcall := driveCall_finds (i := i) (g := g) hs₀ (finds_getInst d)
    have middle {u : State} {y : Inst} (hmv : EntriesMoved (s.withPast []) u) : Settles (s.withPast []) (u.withPast (u.past ++ [.inst y])) :=
      .of_books fun q => (Books.entries hmv).trans (.congr (by simp) rfl)
    obtain ⟨u, h, rfl⟩ | ⟨u, h, rfl⟩ := hcase
    · obtain ⟨own, v, y, hmv, hv, -, -, hd⟩ := hcall.1 h
      exact start.trans ((middle hmv).trans ((((hg y).settles (hv.withPast _)).1 hd).trans (.of_bus_eq (fun q => by simp) rfl)))
    · obtain ⟨own, v, y, hmv, hv, -, -, hd⟩ := hcall.2 h
      exact start.trans ((middle hmv).trans ((((hg y).settles (hv.withPast _)).2 hd).trans (.of_bus_eq (fun q => by simp) rfl)))

/-! The two operations that count references (R340, R341). -/

theorem Prog.direct_andThen (x : Prog α) (f : α → Prog β) : (x.andThen f).direct = (x.direct >>= fun a => (f a).direct) := by
  induction x with
  | ret a => rfl
  | act m k ih => simp [Prog.andThen, Prog.direct, ih]

/-- What a bring-up or shut-down in its region leaves of the books. -/
theorem Books.direct {q : Port} {ks : List Op.Kind} {x : Prog α} (hx : x.Uses c p ks)
    (hk : ∀ k ∈ ks, k ∉ counting ∧ k ∉ locking) {s t : State} {a : α} (h : x.direct s = .ok a t) :
    Books q True (q ≠ p) s t :=
  (Prog.All.direct soloChain.toChain (hx.all fun _ ho ha =>
    have hop := op (q := q) (p := p) (hk _ ho).1 ha
    ⟨fun e => (hop.ok e).mono (fun _ => .inr (hk _ ho).2) .inl,
      fun e => (hop.error e).mono (fun _ => .inr (hk _ ho).2) .inl⟩)).ok h

/-- In its region a bring-up leaves the clock on. -/
theorem lifeUp_direct_clocked {s t : State} {a : Unit} (h : (lifeUp c p).direct s = .ok a t) : (t.bus p).plat.clkEn = true := by
  rw [lifeUp, Prog.direct_andThen] at h
  obtain ⟨_, u, h₁, h₂⟩ := bind_ok_inv h
  cases h₁
  refine (Prog.All.direct ClockStays.soloChain.toChain (Prog.All.mono lifeUp_rest_neverOff fun _ ⟨o, ho, ha, hm⟩ =>
    hm ▸ ClockStays.op ho ha)).ok h₂ ?_
  simp [BusState.clockOn]

/-- In its region a shut-down leaves the lines detached. -/
theorem lifeDown_direct_detached {s t : State} {a : Unit} (h : (lifeDown p).direct s = .ok a t) :
    (t.bus p).plat.evIrq.attached = false := by
  rw [lifeDown, Prog.direct_andThen] at h
  obtain ⟨_, u, -, h⟩ := bind_ok_inv h
  cases h
  simp [BusState.irqs, BusState.pins, BusState.clockOff]

theorem drive_write_inv {own : Option Port} {f : BusState → BusState} {s t : State} {a : Unit} (hs : Beside c s)
    (h : drive own (write p f) s = .ok a t) : ∃ u, EntriesMoved s u ∧ t.bus p = f (u.bus p) ∧ Beside c t := by
  obtain ⟨u, y, v, hw, hm, h⟩ := drive_act_ok_inv h
  obtain ⟨hmv, hu⟩ := window_beside hs hw
  cases hm
  cases h
  exact ⟨u, hmv, by simp, ⟨⟨by simpa using hu.threads, by simpa using hu.requests, by simpa using hu.stores⟩, by simpa using hu.cfg⟩⟩

/-- So too where others move. -/
theorem lifeDown_detached {own : Option Port} {s t : State} {a : Unit} (hs : Beside c s)
    (h : drive own (lifeDown p) s = .ok a t) : (t.bus p).plat.evIrq.attached = false := by
  obtain ⟨_, u₀, h₀, h⟩ := drive_andThen_ok_inv h
  have hb₀ := (Books.uses (q := p) (Prog.Uses.op (c := c) (p := p) (.put .cr1 0) (ks := [.reg])) hs h₀).2
  obtain ⟨_, u₁, h₁, h⟩ := drive_andThen_ok_inv h
  obtain ⟨v₁, -, hd₁, hs₁⟩ := drive_write_inv hb₀ h₁
  obtain ⟨_, u₂, h₂, h⟩ := drive_andThen_ok_inv h
  obtain ⟨v₂, hm₂, hd₂, hs₂⟩ := drive_write_inv hs₁ h₂
  obtain ⟨v₃, hm₃, hd₃, -⟩ := drive_write_inv hs₂ h
  rw [hd₃]
  change (v₃.bus p).plat.evIrq.attached = false
  rw [(hm₃.ports p).plat, hd₂]
  change (v₂.bus p).plat.evIrq.attached = false
  rw [(hm₂.ports p).plat, hd₁]
  rfl

theorem State.handles_opened (s : State) (p q : Port) :
    (s.withInstances (s.instances ++ [some (Inst.fresh p)])).handles q = s.handles q + if q = p then 1 else 0 := by
  have hp : (Inst.fresh p).port = p := rfl
  simp only [State.handles, State.withInstances_instances, List.filter_append, List.length_append, List.filter_cons,
    Option.any_some, hp, beq_iff_eq, List.filter_nil]
  by_cases h : q = p
  · simp [h]
  · simp [h, Ne.symm h]

theorem State.handles_freed {s : State} {d : Nat} {y : Inst} (h : s.inst d = some y) (q : Port) :
    (s.withInstances (s.instances.set d none)).handles q = s.handles q - if q = y.port then 1 else 0 := by
  have hd : s.instances[d]? = some (some y) := by
    unfold State.inst at h
    cases hd : s.instances[d]? with
    | none => simp [hd] at h
    | some o => rw [hd] at h; exact congrArg some h
  obtain ⟨hlt, hd⟩ := List.getElem?_eq_some_iff.1 hd
  simp only [State.handles, State.withInstances_instances, ← List.countP_eq_length_filter, List.countP_set hlt, hd, Option.any_some,
    Option.any_none, beq_iff_eq]
  by_cases hq : q = y.port
  · simp [hq]
  · simp [hq, Ne.symm hq]

/-- A port whose references are counted anew, and no other port's. -/
theorem Settles.of_counted {s t : State} (hothers : ∀ q, q ≠ p → Books q True True s t)
    (hlive : (t.bus p).live = true → (s.bus p).live = true) (hown : PortSettled s p → PortSettled t p) : Settles s t := fun q hl => by
  by_cases hq : q = p
  · subst hq
    exact ⟨hlive hl, hown⟩
  · exact ⟨(hothers q hq).live hl, (hothers q hq).settled (.inl trivial) (.inl trivial)⟩

/-- What a region of `init` that goes on did: the bring-up where there was no reference, the count, the new instance. -/
theorem openPort_ok_inv {s t : State} {a : Unit} (h : openPort c p s = .ok a t) : ∃ u,
    (if (s.bus p).refs == 0 then (lifeUp c p).direct (s.withIntsOff true) = .ok () u else u = s.withIntsOff true) ∧
    t = ((((u.changed p fun b => { b with refs := b.refs + 1 }).withIntsOff false).withInstances
      (u.instances ++ [some (Inst.fresh p)])).withRet u.instances.length) := by
  rw [openPort, run_bind_ok (show setIntsOff true s = .ok () (s.withIntsOff true) from rfl), run_bind_ok (run_lookBus ..),
    State.withIntsOff_bus] at h
  obtain ⟨_, u, hup, h⟩ := bind_ok_inv h
  refine ⟨u, onlyIf_ok_iff.1 hup, ?_⟩
  have hi : (u.changed p fun b => { b with refs := b.refs + 1 }).instances = u.instances := State.setBus_instances _ _ _
  rw [run_bind_ok (run_updBus ..), run_bind_ok (show setIntsOff false _ = .ok () _ from rfl),
    run_bind_ok (show openInst p _ = .ok _ _ from rfl), answer, run_upd] at h
  cases h
  rw [← hi]
  rfl

/-- What a region of `uninit` that goes on did: the count, and the shut-down where no reference is left. -/
theorem closePort_ok_inv {s t : State} {a : Unit} (h : closePort p s = .ok a t) : (s.bus p).refs ≠ 0 ∧ ∃ u,
    (if (s.bus p).refs - 1 == 0 then
      (lifeDown p).direct ((s.withIntsOff true).changed p fun b => { b with refs := b.refs - 1 }) = .ok () u
    else u = (s.withIntsOff true).changed p fun b => { b with refs := b.refs - 1 }) ∧ t = u.withIntsOff false := by
  have hr : (s.bus p).refs ≠ 0 := fun hr => by
    simp [closePort, run_bind, run_require, hr] at h
  have hrun := closePort_region hr s.past
  rw [State.changed, ← State.withPast_setBus] at hrun
  rw [show s = s.withPast s.past from rfl, hrun] at h
  obtain ⟨_, u, hdown, h⟩ := bind_ok_inv h
  cases h
  exact ⟨hr, u, onlyIf_ok_iff.1 hdown, rfl⟩

/-- R340: one reference and one handle more, and the clock on where there was none. -/
theorem openPort_settles {s t : State} {a : Unit} (h : openPort c p s = .ok a t) : Settles s t := by
  obtain ⟨u, hup, rfl⟩ := openPort_ok_inv h
  obtain ⟨hb, hclk⟩ : (∀ q, Books q True (q ≠ p) s u) ∧ (PortSettled s p → (u.bus p).plat.evIrq.attached = true →
      (u.bus p).plat.clkEn = true) := by
    have start (q : Port) : Books q True (q ≠ p) s (s.withIntsOff true) := .congr (by simp) rfl
    split at hup
    · exact ⟨fun q => (start q).trans (.direct Prog.Uses.lifeUp (by decide) hup), fun _ _ => lifeUp_direct_clocked hup⟩
    · rw [hup]
      exact ⟨start, fun hs => by simpa using hs.clock⟩
  have hh (q : Port) : ((((u.changed p fun b => { b with refs := b.refs + 1 }).withIntsOff false).withInstances
      (u.instances ++ [some (Inst.fresh p)])).withRet u.instances.length).handles q = u.handles q + if q = p then 1 else 0 :=
    State.handles_opened u p q
  refine .of_counted (p := p) (fun q hq => ?_) (fun hl => (hb p).live (by simpa [BusState.live] using hl)) fun hs => ⟨?_, ?_, ?_⟩
  · obtain ⟨h₁, h₂, h₃, h₄, h₅⟩ := hb q
    refine ⟨by simpa [State.changed, hq] using h₁, by simpa [State.changed, hq] using h₂, ?_,
      fun _ => by simpa [State.changed, hq] using h₄ trivial, fun _ => by simpa [State.changed, hq] using h₅ hq⟩
    rw [hh, if_neg hq, h₃]
    rfl
  · simpa [State.changed] using ((hb p).lock trivial).trans hs.lock
  · rw [hh, if_pos rfl, (hb p).handles]
    simp [State.changed, (hb p).refs, hs.refs]
  · simpa [State.changed] using hclk hs

/-- What the region of a release leaves of its own port. -/
structure PortClosed (p : Port) (s t : State) : Prop where
  others : ∀ q, q ≠ p → Books q True True s t
  handles : t.handles p = s.handles p
  live : (t.bus p).live = true → (s.bus p).live = true
  lock : (t.bus p).lock = (s.bus p).lock
  refs : (t.bus p).refs + 1 = (s.bus p).refs
  clock : PortSettled s p → (t.bus p).plat.evIrq.attached = true → (t.bus p).plat.clkEn = true

/-- R341: one reference less, and the lines detached where it was the last. -/
theorem closePort_closed {s t : State} {a : Unit} (h : closePort p s = .ok a t) : PortClosed p s t := by
  obtain ⟨hr, u, hdown, rfl⟩ := closePort_ok_inv h
  obtain ⟨hb, hclk⟩ : (∀ q, Books q True (q ≠ p) ((s.withIntsOff true).changed p fun b => { b with refs := b.refs - 1 }) u) ∧
      (PortSettled s p → (u.bus p).plat.evIrq.attached = true → (u.bus p).plat.clkEn = true) := by
    split at hdown
    · exact ⟨fun q => .direct Prog.Uses.lifeDown (c := s.cfg) (by decide) hdown,
        fun _ h => by rw [lifeDown_direct_detached hdown] at h; cases h⟩
    · rw [hdown]
      exact ⟨fun q => .refl _, fun hs => by simpa [State.changed] using hs.clock⟩
  have hown := hb p
  have hp : (((s.withIntsOff true).changed p fun b => { b with refs := b.refs - 1 }).bus p) =
      { s.bus p with refs := (s.bus p).refs - 1 } := by simp [State.changed]
  refine ⟨fun q hq => ?_, ?_, fun hl => ?_, ?_, ?_, fun hs => by simpa using hclk hs⟩
  · have hq' : ((s.withIntsOff true).changed p fun b => { b with refs := b.refs - 1 }).bus q = s.bus q := by simp [State.changed, hq]
    exact ((Books.congr hq' (State.setBus_instances ..)).trans ((hb q).mono id fun _ => hq)).trans (.congr (by simp) rfl)
  · exact hown.handles.trans (by simp [State.handles, State.changed])
  · have := hown.live (by simpa using hl)
    rw [hp] at this
    exact this
  · rw [State.withIntsOff_bus, hown.lock trivial, hp]
  · rw [State.withIntsOff_bus, hown.refs, hp]
    exact Nat.succ_pred_eq_of_ne_zero hr

/-- It keeps the handles. -/
theorem closePort_instances {s t : State} {a : Unit} (h : closePort p s = .ok a t) : t.instances = s.instances := by
  refine (OpStep.keeps_closePort (c := s.cfg) (R := fun s t : State => t.instances = s.instances)
    ⟨fun _ => rfl, fun i j => j.trans i⟩ fun e => ?_).ok h
  cases e with
  | updated _ _ _ h | freed _ h | opened h => cases h
  | _ => simp

theorem opInit_settles {s t : State} (hs : Beside c s) (h : call (.opInit p) (opInit · p) s = .next t) : Settles s t := by
  have hs₀ := hs.withPast []
  have hcase := call_next_cases h
  clear h
  obtain rfl := hs.cfg
  have past {v : State} (xs : List Ans) : Settles v (v.withPast xs) := .of_bus_eq (fun q => by simp) rfl
  simp only [opInit, offered] at hcase
  split at hcase
  · obtain ⟨u, h, rfl⟩ | ⟨u, h, -⟩ := hcase
    · obtain ⟨own, own', v, y, w, hw, hm, h⟩ := driveCall_act_ok_inv h
      obtain ⟨_, w, hm, hy⟩ := bind_ok_inv hm
      cases hy
      cases h
      exact (past _).trans ((Settles.of_books fun q => .entries (window_beside hs₀ hw).1).trans
        ((openPort_settles hm).trans ((past _).trans (past _))))
    · obtain ⟨_, _, v, -, hm | ⟨y, w, hm, h⟩⟩ := driveCall_act_wait_inv h
      · exact absurd hm ((openPort_neverWaits _ p).bind (fun _ => .pure _) _ _)
      · cases h
  · obtain ⟨u, h, -⟩ | ⟨u, h, -⟩ := hcase
    · obtain ⟨_, _, v, y, w, -, hm, -⟩ := driveCall_act_ok_inv h
      cases hm
    · obtain ⟨_, _, v, -, hm | ⟨y, w, hm, -⟩⟩ := driveCall_act_wait_inv h <;> cases hm

/-- The release once its handle is found: the port counted down, then the handle freed. -/
theorem opUninit_rest_settles {own : Option Port} {d : Nat} {y : Inst} {s t : State} {a : Unit} (hs : Beside c s)
    (hy : s.inst d = some y) (h : drive own ((act (closePort y.port)).andThen fun _ => act (freeHandle d)) s = .ok a t) :
    Settles s t := by
  obtain ⟨_, u, h₁, h₂⟩ := drive_andThen_ok_inv h
  obtain ⟨v, _, w, hw, hm, h₁⟩ := drive_act_ok_inv h₁
  obtain ⟨hmv, hv⟩ := window_beside hs hw
  obtain ⟨_, w, hc, hx⟩ := bind_ok_inv hm
  cases hx
  cases h₁
  have hu := (((OpMoved.op .closePort trivial).ok hm hv.cfg).beside hv).withPast (w.past ++ [.unit])
  obtain ⟨x, _, z, hw', hf, h₂⟩ := drive_act_ok_inv h₂
  cases hf
  cases h₂
  have hmx := (window_beside hu hw').1
  have hinst : x.inst d = some y := by
    rw [State.inst, hmx.instances, State.withPast_instances, closePort_instances hc, hmv.instances]
    exact hy
  have hclosed := closePort_closed hc
  have hfreed (q : Port) (xs : List Ans) (r : Int) : ((((x.withInstances (x.instances.set d none)).withRet r).withPast xs).handles q) =
      x.handles q - if q = y.port then 1 else 0 := State.handles_freed hinst q
  have before (q : Port) : Books q True True s v := .entries hmv
  have after (q : Port) : Books q True True w x := (Books.congr (s := w) (t := w.withPast (w.past ++ [.unit])) (by simp) rfl).trans (.entries hmx)
  refine .of_counted (p := y.port) (fun q hq => ?_) (fun hl => ?_) fun hset => ⟨?_, ?_, fun hl => ?_⟩
  · refine ((before q).trans ((hclosed.others q hq).trans (after q))).trans ⟨by simp, by simp, ?_, by simp, by simp⟩
    rw [hfreed, if_neg hq]
    rfl
  · exact (before _).live (hclosed.live ((after _).live (by simpa using hl)))
  · simpa using ((after _).lock trivial).trans (hclosed.lock.trans (((before _).lock trivial).trans hset.lock))
  · have hv := (before y.port).settled (.inl trivial) (.inl trivial) hset
    have hrefs := hclosed.refs
    rw [hfreed, if_pos rfl, (after _).handles, hclosed.handles, ← hv.refs, ← hrefs]
    simpa using (after y.port).refs
  · have hv := (before y.port).settled (.inl trivial) (.inl trivial) hset
    obtain ⟨h₁, h₂⟩ := (after y.port).clock trivial
    simp only [State.withPast_bus, State.withRet_bus, State.withInstances_bus] at hl ⊢
    rw [h₁] at hl
    rw [h₂]
    exact hclosed.clock hv hl

theorem opUninit_settles {d : Nat} {s t : State} (hs : Beside c s) (h : call (.opUninit d) (fun _ => opUninit d) s = .next t) :
    Settles s t := by
  have hs₀ := hs.withPast []
  have past {v : State} (xs : List Ans) : Settles v (v.withPast xs) := .of_bus_eq (fun q => by simp) rfl
  have hcall := driveCall_finds (i := .opUninit d) (g := fun x => (act (closePort x.port)).andThen fun _ => act (freeHandle d)) hs₀
    (finds_uninitTests d)
  have hcase := call_next_cases h
  clear h
  obtain ⟨u, h, rfl⟩ | ⟨u, h, -⟩ := hcase
  · obtain ⟨own, v, y, hmv, hv, hy, -, hd⟩ := hcall.1 h
    have hvy : (v.withPast (v.past ++ [.inst y])).inst d = some y := by
      rw [← hy, State.inst, State.withPast_instances, hmv.instances]
      rfl
    exact (past _).trans ((Settles.of_books fun q => .entries hmv).trans ((past _).trans
      ((opUninit_rest_settles (hv.withPast _) hvy hd).trans (past _))))
  · obtain ⟨own, v, y, -, -, -, -, hd⟩ := hcall.2 h
    refine absurd hd (drive_neverWaits ?_ _ _)
    exact .act ((closePort_neverWaits _).bind fun _ => .pure _) fun _ => .act (fun _ _ e => by cases e) fun _ => .ret _

/-! The calls on a port, and the instructions that are one action. -/

/-- A call on a port that takes no lock. -/
theorem call_portOf_settles {i : Instr} {f : Config → Prog Unit} {ks : List Op.Kind} {s t : State} (hs : Beside c s)
    (hi : ∀ s : State, s.portOf i = some p) (hx : (f c).Uses c p ks) (hks : ks ⊆ Op.workKinds)
    (hl : ∀ k ∈ ks, k ∉ Books.locking)
    (hc : .plat ∉ ks ∨ ∀ own u v a, Beside c u → drive own (f c) u = .ok a v →
      (v.bus p).plat.evIrq.attached = true → (v.bus p).plat.clkEn = true)
    (h : call i f s = .next t) : Settles s t := by
  have hs₀ := hs.withPast []
  have hcase := call_next_cases h
  clear h
  obtain rfl := hs.cfg
  have past {v : State} (xs : List Ans) : Settles v (v.withPast xs) := .of_bus_eq (fun q => by simp) rfl
  rw [driveCall_of_port (hi _)] at hcase
  obtain ⟨u, h, rfl⟩ | ⟨u, h, -⟩ := hcase
  · have hcount : ∀ k ∈ Op.workKinds, k ∉ Books.counting := by decide
    have hb (q : Port) := (Books.uses (q := q) hx hs₀ h fun k hk => hcount k (hks hk)).1
    exact (past _).trans ((Settles.of_port (p := p) (L := True) (C := .plat ∉ ks)
      (fun q => (hb q).mono (fun _ => .inr hl) id) (.inl trivial) (hc.imp id fun hc => hc _ _ _ _ hs₀ h)).trans (past _))
  · exact absurd h (drive_neverWaits (hx.all fun o ho _ => Op.neverWaits (hks ho)) _ _)

/-- The kinds of the actions that are instructions of their own. -/
def Op.plainKinds : List Op.Kind := [.reg, .cr2, .answer, .emit, .traceReset, .dump]

theorem Op.kind_put (r : Reg) (v : Half) : (Op.put r v).kind ∈ Op.plainKinds := by
  simp only [Op.kind]
  split <;> decide

theorem Op.kind_modify (r : Reg) (x v : Half) : (Op.modify r x v).kind ∈ Op.plainKinds := by
  simp only [Op.kind]
  split <;> decide

/-- What an action keeps, its body keeps. -/
theorem Keeps.of_answer {m : M β} {f : β → Ans} (h : Keeps R (do return f (← m))) : Keeps R m :=
  ⟨fun e => h.ok (run_bind_ok e), fun e => h.error (run_bind_error e)⟩

/-- The instructions that are no call of a port or a handle: one action, or one move of the engine. -/
def plainInstr (i : Instr) : Bool :=
  i.isSubcase || match i with
  | .regGet _ _ | .regPut _ _ _ | .regModify _ _ _ _ | .traceSample _ _ | .traceEvent _ _ _ | .traceReset _ | .traceDump _
  | .engEntry _ | .errClassify _ _ => true
  | _ => false

/-- What entries leave and these actions keep, such an instruction leaves. -/
theorem exec_plain (hR : SoloChain R) (hop : ∀ {p : Port} (o : Op), o.kind ∈ Op.plainKinds → o.Allowed c → Keeps R (o.run c p))
    (hconclude : ∀ s e x, R s ((State.withErrval s e).withRet x)) {i : Instr} (hi : plainInstr i = true) {s t : State}
    (h : exec i s = .next t) : R s t := by
  have engine {p : Port} {m : M Unit} (hm : Keeps (EngineMoved p) m) : Keeps R m :=
    ⟨fun e => hR.entries (hm.ok e).entriesMoved (hm.ok e).outside.intsOff,
      fun e => hR.entries (hm.error e).entriesMoved (hm.error e).outside.intsOff⟩
  have unit {p : Port} {m : M Unit} (o : Op) (ho : o.run c p = do m; return .unit) (hk : o.kind ∈ Op.plainKinds)
      (ha : o.Allowed c) : Keeps R m := Keeps.of_answer (f := fun _ => .unit) (ho ▸ hop o hk ha)
  cases hs : i.isSubcase with
  | true =>
    obtain ⟨x, rfl⟩ := exists_subcase_of_isSubcase hs
    rw [exec_subcase] at h
    obtain h | h := finish_next_inv h
    · have hm := (EngineStage.runSubcase (p := s.entry.port) x).ok h rfl
      exact hR.entries hm.entriesMoved hm.outside.intsOff
    · exact absurd h (runSubcase_ne_wait x s t)
  | false =>
    cases i
    case regGet p r =>
      exact Keeps.finish (Keeps.bind hR.toChain (Keeps.of_answer (hop (p := p) (.get r) (by simp [Op.kind, Op.plainKinds]) trivial))
        fun v => unit (p := p) (.answer _) rfl (by simp [Op.kind, Op.plainKinds]) trivial) h
    case regPut p r v => exact Keeps.finish (unit (.put r v) rfl (Op.kind_put r v) trivial) h
    case regModify p r x v => exact Keeps.finish (unit (.modify r x v) rfl (Op.kind_modify r x v) trivial) h
    case traceEvent p ev x => exact Keeps.finish (unit (.emit ev x) rfl (by simp [Op.kind, Op.plainKinds]) trivial) h
    case traceReset p => exact Keeps.finish (unit .traceReset rfl (by decide) trivial) h
    case traceDump p => exact Keeps.finish (unit .traceDump rfl (by decide) trivial) h
    case traceSample p w =>
      have hw := EngineStage.traceSample (p := p) w
      exact Keeps.finish (engine ⟨fun e => (hw.ok e).toEngineMoved, fun e => (hw.error e).toEngineMoved⟩) h
    case engEntry p => exact Keeps.finish (engine (EngineMoved.engineEntry p)) h
    case errClassify w k =>
      cases h
      exact hconclude s _ _
    all_goals simp_all [plainInstr, Instr.isSubcase]

/-- The action of such an instruction leaves the books as they are. -/
theorem Books.plain {q : Port} {o : Op} (hk : o.kind ∈ Op.plainKinds) (ha : o.Allowed c) :
    Keeps (Books q True True) (o.run c p) := by
  have hplain : ∀ k ∈ Op.plainKinds, k ∉ counting ∧ k ∉ locking ∧ k ≠ .plat := by decide
  obtain ⟨h₁, h₂, h₃⟩ := hplain _ hk
  have hop := Books.op (q := q) h₁ ha (p := p)
  exact ⟨fun e => (hop.ok e).mono (fun _ => .inr h₂) fun _ => .inr h₃, fun e => (hop.error e).mono (fun _ => .inr h₂) fun _ => .inr h₃⟩

/-- Every instruction with no other call beside it. -/
theorem exec_settles {i : Instr} {s t : State} (hs : Solo s) (h : exec i s = .next t) : Settles s t := by
  have hb : Beside s.cfg s := ⟨hs, rfl⟩
  cases hi : plainInstr i with
  | true =>
    exact .of_books fun q => exec_plain (c := s.cfg) Books.soloChain (fun _ hk ha => Books.plain hk ha) (fun _ _ _ => .congr (by simp) rfl) hi h
  | false =>
    cases i
    case clkProgram p fp ft =>
      exact call_portOf_settles (f := (clkProgram · p fp ft)) hb (fun _ => rfl) (Prog.Uses.clkProgram fp ft) (by decide) (by decide)
        (.inl (by decide)) h
    case lifeUp p =>
      exact call_portOf_settles (f := (lifeUp · p)) hb (fun _ => rfl) Prog.Uses.lifeUp (by decide) (by decide)
        (.inr fun _ _ _ _ hu h _ => Prog.EndsClocked.lifeUp _ _ _ _ hu h) h
    case lifeDown p =>
      refine call_portOf_settles (f := fun _ => lifeDown p) hb (fun _ => rfl) Prog.Uses.lifeDown (by decide) (by decide)
        (.inr fun _ _ _ _ hu h hl => ?_) h
      rw [lifeDown_detached hu h] at hl
      cases hl
    case opInit p => exact opInit_settles hb h
    case opUninit d => exact opUninit_settles hb h
    case opReset d => exact call_settles (f := (opReset · d)) hb (programOf_locksCall (i := .opReset d) nofun nofun rfl) h
    case opSetfrequency d f => exact call_settles (f := (setFrequency · d f)) hb (programOf_locksCall (i := .opSetfrequency d f) nofun nofun rfl) h
    case opSetaddress d a n => exact call_settles (f := (setAddress · d a n)) hb (programOf_locksCall (i := .opSetaddress d a n) nofun nofun rfl) h
    case opWrite d b n => exact call_settles (f := (opWrite · d b n)) hb (programOf_locksCall (i := .opWrite d b n) nofun nofun rfl) h
    case opRead d b n => exact call_settles (f := (opRead · d b n)) hb (programOf_locksCall (i := .opRead d b n) nofun nofun rfl) h
    case opTransfer d ms => exact call_settles (f := (opTransfer · d ms)) hb (programOf_locksCall (i := .opTransfer d ms) nofun nofun rfl) h
    case opProcess d ms => exact call_settles (f := (opProcess · d ms)) hb (programOf_locksCall (i := .opProcess d ms) nofun nofun rfl) h
    all_goals cases hi

/-- Settles O57: whoever moves, every change of a step keeps `Sound`; with no other call beside it an instruction gives back the
lock it took, counts a reference with each handle, and never leaves lines attached without the clock. -/
theorem soundKeptByStep : Obligations.SoundKeptByStep :=
  ⟨fun _ _ hs h => step_sound hs h, fun _ _ _ hs hset h => ⟨exec_sound hset.sound h, fun p hl =>
    have hp := exec_settles hs h p hl
    hp.2 (hset.ports p hp.1)⟩⟩

end Sys2Proof.Machine
end

section
/-! A transfer with no other call beside it: its stages in order, and the FSMC clock bit (46_dispatcher R300, R331). -/

namespace Sys2Proof.Machine

variable {α β : Type} {c : Config} {p : Port} {R : State → State → Prop}

/-! What a program leaves, however it goes on: it ends, or it waits. -/

/-- With no other call beside it, what the program leaves, where it ends or waits, stands in the relation. -/
structure Prog.Moves (c : Config) (R : State → State → Prop) (x : Prog α) : Prop where
  ok : ∀ {own s a t}, Beside c s → drive own x s = .ok a t → R s t ∧ Beside c t
  waits : ∀ {own s t}, Beside c s → drive own x s = .error .lockWait t → R s t

namespace Prog.Moves

theorem ret (hR : SoloChain R) (a : α) : (Prog.ret a).Moves c R :=
  ⟨fun hs h => by cases h; exact ⟨hR.refl _, hs⟩, fun _ h => by cases h⟩

theorem andThen (hR : SoloChain R) {x : Prog α} {f : α → Prog β} (hx : x.Moves c R) (hf : ∀ a, (f a).Moves c R) :
    (x.andThen f).Moves c R := by
  refine ⟨fun hs h => ?_, fun hs h => ?_⟩
  · obtain ⟨a, u, h₁, h₂⟩ := drive_andThen_ok_inv h
    obtain ⟨hr, hu⟩ := hx.ok hs h₁
    exact ⟨hR.trans hr ((hf a).ok hu h₂).1, ((hf a).ok hu h₂).2⟩
  · rw [drive_andThen] at h
    obtain h | ⟨a, u, h₁, h₂⟩ := (bind_wait_iff ..).1 h
    · exact hx.waits hs h
    · obtain ⟨hr, hu⟩ := hx.ok hs h₁
      exact hR.trans hr ((hf a).waits hu h₂)

theorem act (hR : SoloChain R) {m : M Ans} {k : Ans → Prog α} (hm : Keeps R m) (ho : ∃ q o, Op.Allowed c o ∧ m = o.run c q)
    (hk : ∀ y, (k y).Moves c R) : (Prog.act m k).Moves c R := by
  obtain ⟨q, o, ha, rfl⟩ := ho
  refine ⟨fun hs h => ?_, fun hs h => ?_⟩
  · obtain ⟨u, y, v, hw, hr, h⟩ := drive_act_ok_inv h
    obtain ⟨hmv, hu⟩ := window_beside hs hw
    obtain ⟨hrest, ht⟩ := (hk y).ok ((((OpMoved.op o ha).ok hr hu.cfg).beside hu).withPast _) h
    exact ⟨hR.trans (hR.entries hmv (window_moved hs.toSolo hw).2) (hR.trans (hm.ok hr) (hR.trans (hR.past _ _) hrest)), ht⟩
  · obtain ⟨u, hw, h⟩ := drive_act_wait_inv h
    obtain ⟨hmv, hu⟩ := window_beside hs hw
    obtain h | ⟨y, v, hr, h⟩ := h
    · exact hR.trans (hR.entries hmv (window_moved hs.toSolo hw).2) (hm.error h)
    · have hrest := (hk y).waits ((((OpMoved.op o ha).ok hr hu.cfg).beside hu).withPast _) h
      exact hR.trans (hR.entries hmv (window_moved hs.toSolo hw).2) (hR.trans (hm.ok hr) (hR.trans (hR.past _ _) hrest))

theorem ite {a : Prop} [Decidable a] {x y : Prog α} (hx : x.Moves c R) (hy : y.Moves c R) : (if a then x else y).Moves c R := by
  split
  · exact hx
  · exact hy

theorem uses (hR : SoloChain R) {ks : List Op.Kind} {x : Prog α} (hx : x.Uses c p ks)
    (hk : ∀ o : Op, o.kind ∈ ks → o.Allowed c → Keeps R (o.run c p)) : x.Moves c R := by
  induction hx with
  | ret a => exact ret hR a
  | act hm _ ih =>
    obtain ⟨o, ho, ha, rfl⟩ := hm
    exact act hR (hk o ho ha) ⟨p, o, ha, rfl⟩ ih

/-- A program that only ends. -/
theorem of_ok {x : Prog α} (hw : x.All NeverWaits) (h : ∀ {own s a t}, Beside c s → drive own x s = .ok a t → R s t ∧ Beside c t) :
    x.Moves c R := ⟨h, fun _ e => absurd e (drive_neverWaits hw _ _)⟩

end Prog.Moves

/-- What a call leaves whose first action respects the relation, and whatever follows an answer of it too. -/
theorem SoloChain.call (hR : SoloChain R) (hthreads : ∀ s x, R s (s.withThreads x)) {i : Instr} {f : Config → Prog Unit}
    {m : M Ans} {k : Ans → Prog Unit} (hf : f c = .act m k) (hm : Keeps R m) (ho : ∃ q o, Op.Allowed c o ∧ m = o.run c q)
    (hk : ∀ {u y v}, m u = .ok y v → (k y).Moves c R) {s t : State} (hs : Beside c s) (h : Machine.call i f s = .next t) :
    R s t := by
  have hs₀ := hs.withPast []
  have hcase := call_next_cases h
  clear h
  rw [hs.cfg, hf] at hcase
  obtain ⟨q, o, ha, rfl⟩ := ho
  have first {own : Option Port} {u : State} (hw : window own (s.withPast []) = .ok () u) : R s u :=
    hR.trans (hR.past _ _) (hR.entries (window_beside hs₀ hw).1 (window_moved hs₀.toSolo hw).2)
  have then' {own : Option Port} {u v : State} {y : Ans} (hw : window own (s.withPast []) = .ok () u)
      (hr : o.run c q u = .ok y v) : R s (v.withPast (v.past ++ [y])) ∧ Beside c (v.withPast (v.past ++ [y])) :=
    ⟨hR.trans (first hw) (hR.trans (hm.ok hr) (hR.past _ _)),
      (((OpMoved.op o ha).ok hr (window_beside hs₀ hw).2.cfg).beside (window_beside hs₀ hw).2).withPast _⟩
  obtain ⟨u, h, rfl⟩ | ⟨u, h, rfl⟩ := hcase
  · obtain ⟨own, own', v, y, w, hw, hr, h⟩ := driveCall_act_ok_inv h
    obtain ⟨hv, hb⟩ := then' hw hr
    exact hR.trans hv (hR.trans ((hk hr).ok hb h).1 (hR.past _ _))
  · refine hR.trans ?_ (hR.trans (hthreads u _) (hR.past _ _))
    obtain ⟨own, own', v, hw, h | ⟨y, w, hr, h⟩⟩ := driveCall_act_wait_inv h
    · exact hR.trans (first hw) (hm.error h)
    · obtain ⟨hv, hb⟩ := then' hw hr
      exact hR.trans hv ((hk hr).waits hb h)

/-! The clock bit. -/

/-- The clock bit is the same. -/
def BitKept (s t : State) : Prop := t.fsmcEn = s.fsmcEn

theorem BitKept.soloChain : SoloChain BitKept := ⟨⟨fun _ => rfl, fun h k => k.trans h⟩, fun h _ => h.outside.fsmcEn, fun _ _ => rfl⟩

/-- Only the saving and the restoring of the bit write it. -/
theorem BitKept.op {o : Op} (ho : o.kind ∉ [.save, .restore]) (ha : o.Allowed c) : Keeps BitKept (o.run c p) := by
  have hR := BitKept.soloChain.toChain
  by_cases hr : o.kind = .round
  · rw [Op.eq_polledRound hr]
    refine Keeps.bind hR (Keeps.bind hR ?_ fun _ => Keeps.bind hR (Keeps.lookBus hR p _) fun _ => Keeps.pure hR _) fun _ =>
      Keeps.pure hR _
    exact ⟨fun e => ((EngineMoved.engineEntry p).ok e).outside.fsmcEn, fun e => ((EngineMoved.engineEntry p).error e).outside.fsmcEn⟩
  · refine Op.keeps hR hr ha fun e => ?_
    cases e with
    | fsmc x h => simp [h] at ho
    | _ => simp [BitKept, State.decided]

theorem Prog.Uses.keepsBit {x : Prog α} {ks : List Op.Kind} (h : x.Uses c p ks)
    (hk : ∀ k ∈ ks, k ∉ [Op.Kind.save, .restore] := by decide) : x.Moves c BitKept :=
  Prog.Moves.uses BitKept.soloChain h fun _ ho ha => BitKept.op (hk _ ho) ha

/-! The stages of a transfer. -/

/-- The return of a transfer: the error kind, the value for it, the lock. -/
theorem closeTransfer_ok_inv {own : Option Port} {e : ErrVal} {s t : State} {a : Unit}
    (h : drive own (closeTransfer c p e) s = .ok a t) :
    t.errval = e ∧ t.ret = returnValue c e ∧ (t.bus p).lock = .free := by
  obtain ⟨_, u, -, h⟩ := drive_andThen_ok_inv h
  obtain ⟨v, y, w, -, hm, h⟩ := drive_act_ok_inv h
  cases hm
  cases h
  exact ⟨rfl, rfl, by simp [BusState.released]⟩

/-- Its steps in order. -/
theorem runTransfer_ok_inv {own : Option Port} {d : Nat} {x : Inst} {msgs : List Message} {s t : State} {u : Unit}
    (h : drive own (runTransfer c d x msgs) s = .ok u t) : ∃ saved ok e s₁ s₂ s₃ s₄ s₅,
      drive own (openFsmc (fsmcActive c x.port)) s = .ok saved s₁ ∧
      drive own (startTransfer c d x msgs (!fsmcActive c x.port)) s₁ = .ok () s₂ ∧
      drive own (completionWait c x.port msgs) s₂ = .ok ok s₃ ∧
      drive own (transferResult c x.port ok) s₃ = .ok e s₄ ∧
      drive own (closeFsmc c x.port msgs (fsmcActive c x.port) saved) s₄ = .ok () s₅ ∧
      drive own (closeTransfer c x.port e) s₅ = .ok u t := by
  obtain ⟨saved, s₁, h₁, h⟩ := drive_andThen_ok_inv h
  obtain ⟨_, s₂, h₂, h⟩ := drive_andThen_ok_inv h
  obtain ⟨ok, s₃, h₃, h⟩ := drive_andThen_ok_inv h
  obtain ⟨e, s₄, h₄, h⟩ := drive_andThen_ok_inv h
  obtain ⟨_, s₅, h₅, h⟩ := drive_andThen_ok_inv h
  exact ⟨saved, ok, e, s₁, s₂, s₃, s₄, s₅, h₁, h₂, h₃, h₄, h₅, h⟩

/-- The workaround's opening: the bit's value answered, the bit clear. -/
theorem openFsmc_ok_inv {own : Option Port} {s t : State} {saved : Bool} (hs : Beside c s)
    (h : drive own (openFsmc true) s = .ok saved t) : saved = s.fsmcEn ∧ t.fsmcEn = false ∧ Beside c t := by
  obtain ⟨u, v, hw, hm, rfl⟩ := drive_askFlag_ok_inv h
  obtain ⟨hmv, hu⟩ := window_beside hs hw
  cases hm
  exact ⟨hmv.outside.fsmcEn, rfl, ⟨⟨hu.threads, hu.requests, hu.stores⟩, hu.cfg⟩⟩

/-- The bit restored, with what entries did before. -/
theorem restoreFsmc_ok_inv {own : Option Port} {saved : Bool} {s t : State} {a : Unit} (hs : Beside c s)
    (h : drive own (act (restoreFsmc saved)) s = .ok a t) : t.fsmcEn = saved ∧ Beside c t := by
  obtain ⟨u, y, v, hw, hm, h⟩ := drive_act_ok_inv h
  obtain ⟨hmv, hu⟩ := window_beside hs hw
  cases hm
  cases h
  exact ⟨rfl, ⟨⟨hu.threads, hu.requests, hu.stores⟩, hu.cfg⟩⟩

/-- What a transfer does to the bit where the workaround acts: clear from the opening until it is restored. -/
structure BitStages (c : Config) (own : Option Port) (d : Nat) (x : Inst) (msgs : List Message) (ok : Bool) (e : ErrVal)
    (s a b u v w y t : State) : Prop where
  opened : drive own (openFsmc true) s = .ok s.fsmcEn a
  started : drive own (startTransfer c d x msgs false) a = .ok () b
  waited : drive own (completionWait c x.port msgs) b = .ok ok u
  result : drive own (transferResult c x.port ok) u = .ok e v
  settled : drive own (stopSettle c x.port msgs) v = .ok () w
  restored : drive own (act (restoreFsmc s.fsmcEn)) w = .ok () y
  closed : drive own (closeTransfer c x.port e) y = .ok () t
  clear : a.fsmcEn = false ∧ b.fsmcEn = false ∧ u.fsmcEn = false ∧ v.fsmcEn = false ∧ w.fsmcEn = false
  same : y.fsmcEn = s.fsmcEn ∧ t.fsmcEn = s.fsmcEn
  beside : Beside c t

theorem runTransfer_bit {own : Option Port} {d : Nat} {x : Inst} {msgs : List Message} {s t : State} {r : Unit}
    (ha : fsmcActive c x.port = true) (hs : Beside c s) (h : drive own (runTransfer c d x msgs) s = .ok r t) :
    ∃ a b u v w y ok e, BitStages c own d x msgs ok e s a b u v w y t := by
  obtain ⟨saved, ok, e, a, b, u, v, y, h₁, h₂, h₃, h₄, h₅, h₆⟩ := runTransfer_ok_inv h
  rw [ha] at h₁ h₂ h₅
  obtain ⟨rfl, hba, hsa⟩ := openFsmc_ok_inv hs h₁
  obtain ⟨hbb, hsb⟩ := (Prog.Uses.startTransfer d x msgs _).keepsBit.ok hsa h₂
  obtain ⟨hbu, hsu⟩ := (Prog.Uses.completionWait msgs).keepsBit.ok hsb h₃
  obtain ⟨hbv, hsv⟩ := (Prog.Uses.transferResult ok).keepsBit.ok hsu h₄
  obtain ⟨_, w, hw, hy⟩ := drive_andThen_ok_inv h₅
  obtain ⟨hbw, hsw⟩ := (Prog.Uses.stopSettle msgs).keepsBit.ok hsv hw
  obtain ⟨hby, hsy⟩ := restoreFsmc_ok_inv hsw hy
  obtain ⟨hbt, hst⟩ := (Prog.Uses.closeTransfer e).keepsBit.ok hsy h₆
  have b₁ : b.fsmcEn = false := hbb.trans hba
  have b₂ : u.fsmcEn = false := hbu.trans b₁
  have b₃ : v.fsmcEn = false := hbv.trans b₂
  exact ⟨a, b, u, v, w, y, ok, e, h₁, h₂, h₃, h₄, hw, hy, h₆, ⟨hba, b₁, b₂, b₃, hbw.trans b₃⟩, ⟨hby, hbt.trans hby⟩, hst⟩

/-- Without the workaround: the settle wait first, then steps 3 to 10. -/
theorem runTransfer_plain {own : Option Port} {d : Nat} {x : Inst} {msgs : List Message} {s t : State} {r : Unit}
    (ha : fsmcActive c x.port = false) (h : drive own (runTransfer c d x msgs) s = .ok r t) : ∃ a b u v ok e,
      drive own (stopSettle c x.port msgs) s = .ok () a ∧ drive own (startTransfer c d x msgs false) a = .ok () b ∧
      drive own (completionWait c x.port msgs) b = .ok ok u ∧ drive own (transferResult c x.port ok) u = .ok e v ∧
      drive own (closeTransfer c x.port e) v = .ok () t := by
  obtain ⟨saved, ok, e, s₁, b, u, v, y, h₁, h₂, h₃, h₄, h₅, h₆⟩ := runTransfer_ok_inv h
  rw [ha] at h₁ h₂ h₅
  cases h₁
  cases h₅
  obtain ⟨_, a, ha, hb⟩ := drive_andThen_ok_inv (x := stopSettle c x.port msgs) (f := fun _ => startTransfer c d x msgs false) h₂
  exact ⟨a, b, u, v, ok, e, ha, hb, h₃, h₄, h₆⟩

/-- Whatever a transfer did to the bit, it is restored. -/
theorem Prog.Moves.runTransfer_bit (d : Nat) (x : Inst) (msgs : List Message) : (runTransfer c d x msgs).Moves c BitKept := by
  refine .of_ok (Prog.Uses.all (Prog.Uses.runTransfer d x msgs)
    fun o ho _ => Op.neverWaits ((by decide : Prog.Uses.transferKinds ⊆ Op.workKinds) ho)) fun hs h => ?_
  cases ha : fsmcActive c x.port with
  | true =>
    obtain ⟨_, _, _, _, _, _, _, _, hb⟩ := Machine.runTransfer_bit ha hs h
    exact ⟨hb.same.2, hb.beside⟩
  | false =>
    obtain ⟨a, b, u, v, ok, e, h₁, h₂, h₃, h₄, h₅⟩ := runTransfer_plain ha h
    obtain ⟨b₁, hs₁⟩ := (Prog.Uses.stopSettle msgs).keepsBit.ok hs h₁
    obtain ⟨b₂, hs₂⟩ := (Prog.Uses.startTransfer d x msgs _).keepsBit.ok hs₁ h₂
    obtain ⟨b₃, hs₃⟩ := (Prog.Uses.completionWait msgs).keepsBit.ok hs₂ h₃
    obtain ⟨b₄, hs₄⟩ := (Prog.Uses.transferResult ok).keepsBit.ok hs₃ h₄
    obtain ⟨b₅, hs₅⟩ := (Prog.Uses.closeTransfer e).keepsBit.ok hs₄ h₅
    exact ⟨b₅.trans (b₄.trans (b₃.trans (b₂.trans b₁))), hs₅⟩

theorem Prog.Moves.process_bit (d : Nat) (x : Inst) (msgs : List Message) : (process c d x msgs).Moves c BitKept := by
  unfold Machine.process offered
  refine .ite (.andThen BitKept.soloChain (Prog.Uses.keepsBit (p := x.port) (.op (.tryAcquire d) (ks := [.lock]))) fun ok =>
    .ite (.runTransfer_bit d x msgs) ?_) ?_
  · exact Prog.Uses.keepsBit (p := x.port) (.op (.answer _) (ks := [.answer]))
  · exact Prog.Uses.keepsBit (p := x.port) (.op (.refuse _) (ks := [.refuse]))

/-! Every instruction. -/

/-- A call that is refused, or finds its instance first. -/
theorem SoloChain.call_finds (hR : SoloChain R) (hthreads : ∀ s x, R s (s.withThreads x)) {i : Instr} {f : Config → Prog Unit} {d : Nat}
    {m : M Inst} {g : Inst → Prog Unit} {s t : State} (a : Bool) (r : Refusal) (hf : f c = offered a r ((askInst m).andThen g))
    (hm : Finds d (do return .inst (← m))) (ho : ∃ o : Op, o.Allowed c ∧ (do return .inst (← m)) = o.run c p)
    (hg : ∀ x, (g x).Moves c R) (hs : Beside c s) (h : Machine.call i f s = .next t) : R s t := by
  cases a with
  | true => exact hR.call hthreads hf (hm.keeps hR.toChain) ⟨p, ho⟩ (fun _ => hg _) hs h
  | false =>
    exact hR.call hthreads hf ((finds_refuse d r).keeps hR.toChain) ⟨p, .refuse r, trivial, rfl⟩ (fun e => by cases e) hs h

/-- So of the clock bit. -/
theorem call_finds_bit {i : Instr} {f : Config → Prog Unit} {d : Nat} {m : M Inst} {g : Inst → Prog Unit} {s t : State}
    (a : Bool) (r : Refusal) (hf : f c = offered a r ((askInst m).andThen g)) (hm : Finds d (do return .inst (← m)))
    (ho : ∃ o : Op, o.Allowed c ∧ (do return .inst (← m)) = o.run c p) (hg : ∀ x, (g x).Moves c BitKept) (hs : Beside c s)
    (h : call i f s = .next t) : BitKept s t := BitKept.soloChain.call_finds (fun _ _ => rfl) a r hf hm ho hg hs h

theorem call_portOf_bit {i : Instr} {f : Config → Prog Unit} {ks : List Op.Kind} {s t : State}
    (hi : ∀ s : State, s.portOf i = some p) (hx : (f c).Uses c p ks) (hk : ∀ k ∈ ks, k ∉ [Op.Kind.save, .restore])
    (hs : Beside c s) (h : call i f s = .next t) : BitKept s t := by
  have hcase := call_next_cases h
  clear h
  rw [hs.cfg, driveCall_of_port (hi _)] at hcase
  obtain ⟨u, h, rfl⟩ | ⟨u, h, rfl⟩ := hcase
  · exact ((hx.keepsBit hk).ok (hs.withPast []) h).1
  · exact (Prog.Moves.waits (hx.keepsBit hk) (hs.withPast []) h :)

theorem exec_bit {i : Instr} {s t : State} (hs : Solo s) (h : exec i s = .next t) : t.fsmcEn = s.fsmcEn := by
  have hb : Beside s.cfg s := ⟨hs, rfl⟩
  change BitKept s t
  have hplain : ∀ k ∈ Op.plainKinds, k ∉ [Op.Kind.save, .restore] := by decide
  have finds {d : Nat} : ∃ o : Op, o.Allowed s.cfg ∧ (do return Ans.inst (← getInst d) : M Ans) = o.run s.cfg .i2c1 :=
    ⟨.getInst d, trivial, rfl⟩
  cases hi : plainInstr i with
  | true =>
    exact exec_plain (c := s.cfg) BitKept.soloChain (fun _ hk ha => BitKept.op (hplain _ hk) ha) (fun _ _ _ => rfl) hi h
  | false =>
    cases i
    case clkProgram p fp ft =>
      exact call_portOf_bit (f := (clkProgram · p fp ft)) (fun _ => rfl) (Prog.Uses.clkProgram fp ft) (by decide) hb h
    case lifeUp p => exact call_portOf_bit (f := (lifeUp · p)) (fun _ => rfl) Prog.Uses.lifeUp (by decide) hb h
    case lifeDown p => exact call_portOf_bit (f := fun _ => lifeDown p) (fun _ => rfl) Prog.Uses.lifeDown (by decide) hb h
    case opInit p => exact call_portOf_bit (f := (opInit · p)) (fun _ => rfl) (opInit_uses _ p) (by decide) hb h
    case opUninit d =>
      exact call_finds_bit true .noInstance (f := fun _ => opUninit d) rfl (finds_uninitTests d) ⟨.uninitTests d, trivial, rfl⟩ (p := .i2c1)
        (fun x => Prog.Uses.keepsBit (p := x.port) (ks := [.closePort, .free])
          (Prog.Uses.andThen (.op .closePort) fun _ => .op (.freeHandle d))) hb h
    case opReset d =>
      exact call_finds_bit s.cfg.recoveryOn .optionOff (f := (opReset · d)) rfl (finds_getInst d) finds
        (fun x => Prog.Uses.keepsBit (p := x.port) (ks := .lock :: .unlock :: .answer :: Prog.Uses.recoveryKinds)
          (Prog.Uses.andThen (.op (.tryAcquire d)) fun _ => .ite
            (Prog.Uses.andThen Prog.Uses.recoverBus.mono fun _ => .op (.unlock _)) (.op (.answer _)))) hb h
    case opSetfrequency d f =>
      exact call_finds_bit true .noInstance (f := (setFrequency · d f)) rfl (finds_getInst d) finds
        (fun x => Prog.Uses.keepsBit (p := x.port) (ks := [.lockRestart, .store, .unlock])
          (Prog.Uses.andThen (.op (.tryAcquireRestart d)) fun _ => Prog.Uses.andThen (.op (.updInst d _) (ha := fun _ => rfl))
            fun _ => .op (.unlock _))) hb h
    case opSetaddress d a n =>
      exact call_finds_bit true .noInstance (f := (setAddress · d a n)) rfl (finds_getInst d) finds
        (fun x => Prog.Uses.keepsBit (p := x.port) (ks := [.lock, .store, .unlock, .answer])
          (Prog.Uses.andThen (.op (.tryAcquire d)) fun _ => .ite (Prog.Uses.andThen (.op (.updInst d _) (ha := fun _ => rfl))
            fun _ => .op (.unlock _)) (.op (.answer _)))) hb h
    case opWrite d b n => exact call_finds_bit true .noInstance (f := (opWrite · d b n)) rfl (finds_getInst d) finds (fun x => .process_bit d x _) hb h
    case opRead d b n => exact call_finds_bit true .noInstance (f := (opRead · d b n)) rfl (finds_getInst d) finds (fun x => .process_bit d x _) hb h
    case opTransfer d ms =>
      exact call_finds_bit s.cfg.transferOn .optionOff (f := (opTransfer · d ms)) rfl (finds_getInst d) finds
        (fun x => .process_bit d x ms) hb h
    case opProcess d ms => exact call_finds_bit true .noInstance (f := (opProcess · d ms)) rfl (finds_getInst d) finds (fun x => .process_bit d x ms) hb h
    all_goals cases hi

/-! A transfer's call. -/

/-- With no other call beside it, a free lock is taken. -/
theorem acquire_free_inv {own : Option Port} {d : Nat} {s t : State} {ok : Bool} (hs : Beside c s) (hl : (s.bus p).lock = .free)
    (h : drive own (acquire p d) s = .ok ok t) : ok = true ∧ (t.bus p).lock = .held d := by
  obtain ⟨u, v, hw, hm, rfl⟩ := drive_askFlag_ok_inv h
  have hlu : (u.bus p).lock = .free := by rw [((window_beside hs hw).1.ports p).lock, hl]
  rw [tryAcquire_run d hlu] at hm
  cases hm
  exact ⟨rfl, by simp [BusState.locked]⟩

/-- With no other call beside it, a transfer that finds its lock free is: the instance found, the lock taken, steps 2 to 10. -/
structure TransferRan (d : Nat) (x : Inst) (msgs : List Message) (s a b u t : State) : Prop where
  nonempty : msgs ≠ []
  found : drive (some x.port) (theInst d) (s.withPast []) = .ok x a
  taken : drive (some x.port) (acquire x.port d) a = .ok true b
  held : (b.bus x.port).lock = .held d
  ran : drive (some x.port) (runTransfer s.cfg d x msgs) b = .ok () u
  eq : t = u.withPast []
  beside : Beside s.cfg a ∧ Beside s.cfg b

theorem portOf_of_callOf {s : State} {i : Instr} {d : Nat} {msgs : List Message} (h : callOf s i = some (d, msgs)) :
    s.portOf i = (s.inst d).map (·.port) := by
  cases i with
  | opProcess e ms =>
    cases h
    rfl
  | opTransfer e ms =>
    simp only [callOf, Option.ite_none_right_eq_some, Option.some.injEq, Prod.mk.injEq] at h
    obtain ⟨-, rfl, -⟩ := h
    rfl
  | opWrite | opRead =>
    simp only [callOf, Option.map_eq_some_iff, Prod.mk.injEq] at h
    obtain ⟨-, -, rfl, -⟩ := h
    rfl
  | _ => cases h

theorem exec_transfer_inv {s t : State} {i : Instr} {d : Nat} {msgs : List Message} {x : Inst} (hs : Solo s)
    (hc : callOf s i = some (d, msgs)) (hl : LockTaken s d x) (h : exec i s = .next t) :
    ∃ a b u, TransferRan d x msgs s a b u t := by
  obtain ⟨f, g, hi⟩ := callOf_program hc
  have hs₀ : Beside s.cfg (s.withPast []) := (⟨hs, rfl⟩ : Beside s.cfg s).withPast []
  have hport : (s.withPast []).portOf i = some x.port := by
    rw [show (s.withPast []).portOf i = s.portOf i by cases i <;> rfl, portOf_of_callOf hc, hl.inst]
    rfl
  rw [hi.exec] at h
  have hcase := call_next_cases h
  clear h
  rw [driveCall_of_port hport, hi.program, drive_andThen] at hcase
  -- the instance is the one the handle was at the start
  have found {y : Inst} {a : State} (h : drive (some x.port) (theInst d) (s.withPast []) = .ok y a) :
      y = x ∧ (a.bus x.port).lock = .free ∧ Beside s.cfg a := by
    obtain ⟨w, z, v, hw, hm, hr⟩ := drive_act_ok_inv h
    obtain ⟨hmv, hb⟩ := window_beside hs₀ hw
    have hxw : w.inst d = some x := by
      rw [State.inst, hmv.instances]
      exact hl.inst
    obtain ⟨y', hy', hrun⟩ | ⟨r, hrun⟩ := finds_getInst d w
    · rw [hrun] at hm
      cases hm
      cases hr
      rw [hxw] at hy'
      cases hy'
      refine ⟨rfl, ?_, hb.withPast _⟩
      rw [State.withPast_bus, (hmv.ports x.port).lock, State.withPast_bus]
      exact hl.lock
    · rw [hrun] at hm
      cases hm
  obtain ⟨u, h, rfl⟩ | ⟨u, h, -⟩ := hcase
  · obtain ⟨y, a, ha, h⟩ := bind_ok_inv h
    obtain ⟨rfl, hla, hba⟩ := found ha
    rw [hi.process y hl.inst] at h
    by_cases hm : msgs = []
    · rw [hm] at h
      obtain ⟨_, _, _, -, hr, -⟩ := drive_act_ok_inv h
      cases hr
    · rw [process_of_ne_nil hm] at h
      obtain ⟨ok, b, hb, h⟩ := drive_andThen_ok_inv h
      obtain ⟨rfl, hheld⟩ := acquire_free_inv hba hla hb
      have hbb := ((Prog.Uses.op (.tryAcquire d) (p := y.port) (c := s.cfg) (ks := [.lock])).keepsBit.ok hba hb).2
      exact ⟨a, b, u, hm, ha, hb, hheld, h, rfl, hba, hbb⟩
  · obtain h | ⟨y, a, ha, h⟩ := (bind_wait_iff ..).1 h
    · obtain ⟨w, -, h | ⟨y, v, -, h⟩⟩ := drive_act_wait_inv h
      · obtain ⟨y, -, hy⟩ | ⟨r, hy⟩ := finds_getInst d w
        all_goals
          rw [hy] at h
          cases h
      · cases h
    · obtain ⟨rfl, hla, hba⟩ := found ha
      rw [hi.process y hl.inst] at h
      exact absurd h (drive_process_ne_wait _ _ _ _ _ hba.toSolo (.inl hla))

/-- Settles O46: the steps are read off the program; the bit is written by the saving and the restoring only. -/
theorem fsmcClockBitRestored : Obligations.FsmcClockBitRestored := by
  refine ⟨fun s t i hs h => exec_bit hs h, fun s t d x msgs hs hf hp h => ?_, fun own s t d x msgs hf h => ?_,
    fun s t d x msgs hs hl _ h => ?_⟩
  · obtain ⟨a, b, u, v, w, y, ok, e, k⟩ := runTransfer_bit (by simp [fsmcActive, hf, hp]) ⟨hs, rfl⟩ h
    have hcl := closeTransfer_ok_inv k.closed
    obtain ⟨c₁, c₂, c₃, c₄, c₅⟩ := k.clear
    rw [← hp]
    exact ⟨a, b, u, v, w, y, ok, e, hp ▸ k.opened, hp ▸ k.started, hp ▸ k.waited, hp ▸ k.result, hp ▸ k.settled, hp ▸ k.restored,
      hp ▸ k.closed, c₁, c₂, c₃, c₄, c₅, k.same.1, k.same.2, hcl.1⟩
  · have hoff : fsmcActive s.cfg x.port = false := by
      obtain h | h := hf <;> simp [fsmcActive, h]
    obtain ⟨a, b, u, v, ok, e, h₁, h₂, h₃, h₄, h₅⟩ := runTransfer_plain hoff h
    exact ⟨a, b, u, v, ok, e, h₁, h₂, h₃, h₄, h₅, closeTransfer_ok_inv h₅⟩
  · obtain ⟨a, b, u, k⟩ := exec_transfer_inv hs (i := .opProcess d msgs) rfl hl h
    exact ⟨a, b, u, k.found, k.taken, k.held, k.ran, k.eq⟩

end Sys2Proof.Machine
end

section
/-! What entries cannot undo of a transfer's port, with no other call beside it: at rest after success
(45_engine_termination R289), its enables clear after an INTERRUPT mode transfer (46_dispatcher R307, R321, 60_exceptions R410). -/

namespace Sys2Proof.Machine

variable {α β : Type} {c : Config} {p : Port} {Q : BusState → Prop}

/-! A property that entries keep, along a program with no other call beside it. -/

theorem EntryStable.drive {own : Option Port} {P : State → Prop} (hP : EntryStable own fun s => s.cfg = c ∧ P s)
    (hpast : ∀ {s} x, P s → P (s.withPast x)) {x : Prog α}
    (hx : x.All fun m => (∃ q o, Op.Allowed c o ∧ m = o.run c q) ∧ ∀ {s t a}, s.cfg = c → P s → m s = .ok a t → P t)
    {s t : State} {a : α} (hs : Beside c s) (hp : P s) (e : Machine.drive own x s = .ok a t) : P t ∧ Beside c t := by
  induction hx generalizing s with
  | ret b =>
    cases e
    exact ⟨hp, hs⟩
  | act hm _ ih =>
    obtain ⟨⟨q, o, ha, rfl⟩, hkeep⟩ := hm
    obtain ⟨u, y, v, hw, hr, e⟩ := drive_act_ok_inv e
    have hu := (window_beside hs hw).2
    have hpu := (hP.window hs.toSolo ⟨hs.cfg, hp⟩ hw).1.2
    exact ih y ((((OpMoved.op o ha).ok hr hu.cfg).beside hu).withPast _) (hpast _ (hkeep hu.cfg hpu hr)) e

/-! A property of a port's Bus State that its own entries keep. -/

/-- What an entry of the port keeps, beside an instruction of that port, where it may start; and the port's mark. -/
structure PortHeld (c : Config) (p : Port) (Q : BusState → Prop) : Prop where
  refused : ∀ {b}, Q b → Q { b with refused := true }
  runs : ∀ {s t : State}, s.cfg = c → Q (s.bus p) → canEnter s p = true → engineEntry p s = .ok () t → Q (t.bus p)
  entered : ∀ {s : State}, s.cfg = c → Q (s.bus p) → Q ((s.entered p).bus p)

theorem PortHeld.stable (h : PortHeld c p Q) : EntryStable (some p) fun s => s.cfg = c ∧ Q (s.bus p) where
  draw := fun hs => hs
  entry := by
    intro s t q _ ⟨hc, hq⟩ hcan hb
    refine ⟨(EntriesMoved.besideEntry hb).cfg.trans hc, ?_⟩
    obtain e | ⟨e, v, he, rfl, hown⟩ := besideEntry_inv hb
    · by_cases hqp : q = p
      · subst hqp
        exact h.runs hc hq hcan e
      · rwa [((EngineMoved.engineEntry q).ok e).others p (Ne.symm hqp)]
    · by_cases hqp : q = p
      · subst hqp
        have hsoft : e.Soft := fun f hf => hown f hf rfl
        obtain ⟨rfl, hne⟩ := engineEntry_soft hsoft he
        cases e with
        | fault f => exact absurd rfl (hsoft f)
        | lockWait => exact absurd rfl hne
        | refusal r => simpa [State.stopped, BusState.stopped] using h.refused (h.entered hc hq)
      · rw [State.stopped_bus_of_ne _ _ (by simpa using hqp), ((EngineMoved.engineEntry q).error he).others p (Ne.symm hqp)]
        exact hq

/-- An action of the port keeps the property where it goes on. -/
def Op.Holds (c : Config) (p : Port) (Q : BusState → Prop) (o : Op) : Prop :=
  ∀ {s t a}, s.cfg = c → Q (s.bus p) → o.run c p s = .ok a t → Q (t.bus p)

/-- An action whose single changes keep it. -/
theorem Op.Holds.of_steps {o : Op} (ho : o.kind ≠ .round) (ha : o.Allowed c) (h : ∀ {b b'}, BusStep c o.kind b b' → Q b → Q b') :
    o.Holds c p Q := fun {s t a} _ hq e => by
  refine (Op.keeps (R := fun s t : State => Q (s.bus p) → Q (t.bus p)) ⟨fun _ => id, fun i j => j ∘ i⟩ ho ha fun k hq => ?_).ok e hq
  cases k with
  | bus k => rw [State.bus_setBus_same]; exact h k hq
  | _ => simpa [State.decided] using hq

theorem PortHeld.drive (h : PortHeld c p Q) {x : Prog α} {ks : List Op.Kind} (hx : x.Uses c p ks)
    (hk : ∀ o : Op, o.kind ∈ ks → o.Allowed c → o.Holds c p Q) {s t : State} {a : α} (hs : Beside c s) (hq : Q (s.bus p))
    (e : Machine.drive (some p) x s = .ok a t) : Q (t.bus p) ∧ Beside c t :=
  EntryStable.drive (P := fun s => Q (s.bus p)) h.stable (fun x hp => by simpa using hp)
    (hx.all fun o ho ha => ⟨⟨p, o, ha, rfl⟩, fun hc hp hm => hk o ho ha hc hp hm⟩) hs hq e

/-- A program of actions whose single changes keep the property. -/
theorem PortHeld.uses (h : PortHeld c p Q) {x : Prog α} {ks : List Op.Kind} (hx : x.Uses c p ks)
    (hk : ∀ k ∈ ks, k ≠ .round ∧ ∀ {b b'}, BusStep c k b b' → Q b → Q b') {s t : State} {a : α} (hs : Beside c s)
    (hq : Q (s.bus p)) (e : Machine.drive (some p) x s = .ok a t) : Q (t.bus p) ∧ Beside c t :=
  h.drive hx (fun _ ho ha => Op.Holds.of_steps (hk _ ho).1 ha (hk _ ho).2) hs hq e

/-! The enables of CR2. -/

/-- The enables an entry needs are clear in the last value written to CR2 (60_exceptions R406). -/
def BusState.NoEnables (c : Config) (b : BusState) : Prop :=
  has b.cr2Written c.layout.iterren = false ∧ has b.cr2Written c.layout.itevten = false

theorem BusState.NoEnables.canEnter {s : State} (h : (s.bus p).NoEnables s.cfg) : canEnter s p = false := by
  rw [Bool.eq_false_iff]
  intro hc
  obtain ⟨-, -, -, -, -, he⟩ := (canEnter_iff s p).1 hc
  rw [h.1, h.2] at he
  simp at he

/-- No entry of the port starts, so none sets them. -/
theorem noEnables_held : PortHeld c p (·.NoEnables c) where
  refused := id
  runs := fun {s _} hc h hcan => by
    subst hc
    rw [h.canEnter] at hcan
    cases hcan
  entered := fun {s} _ h => by
    obtain ⟨t, log, hb⟩ := s.entered_bus p
    rw [hb]
    exact h

/-- The kinds of actions that write CR2. -/
def Op.cr2Kinds : List Op.Kind := [.cr2, .openPort, .closePort]

theorem BusStep.noEnables {k : Op.Kind} {b b' : BusState} (h : BusStep c k b b') (hk : k ∉ Op.cr2Kinds) (hb : b.NoEnables c) :
    b'.NoEnables c := by
  cases h with
  | put _ _ hr _ => simpa [BusState.NoEnables, BusState.put, hr] using hb
  | putCr2 _ _ h =>
    obtain rfl | rfl | rfl := h
    all_goals exact absurd (by decide) hk
  | driven _ l => cases l <;> exact hb
  | _ => exact hb

/-- What a transfer does after the INTERRUPT wait closed leaves them clear. -/
theorem noEnables_uses {x : Prog α} {ks : List Op.Kind} (hx : x.Uses c p ks) {s t : State} {a : α} (hs : Beside c s)
    (hq : (s.bus p).NoEnables c) (e : drive (some p) x s = .ok a t) (hk : ∀ k ∈ ks, k ∉ .round :: Op.cr2Kinds := by decide) :
    (t.bus p).NoEnables c ∧ Beside c t :=
  noEnables_held.uses hx (fun k h => ⟨fun hr => hk k h (hr ▸ List.mem_cons_self ..),
    fun hb => hb.noEnables fun hm => hk k h (List.mem_cons_of_mem _ hm)⟩) hs hq e

/-- A Modify that goes on, with what entries did before it. -/
theorem drive_modify_inv {own : Option Port} {r : Reg} {clr set : Half} {s t : State} {a : Unit}
    (h : drive own (modify p r clr set) s = .ok a t) : ∃ u, window own s = .ok () u ∧
      t.bus p = ((u.bus p).record (.rd r (u.regAt 0))).put r (modified (u.regAt 0) clr set) := by
  obtain ⟨u, y, v, hw, hm, h⟩ := drive_act_ok_inv h
  obtain ⟨_, w, hm, hy⟩ := bind_ok_inv hm
  obtain ⟨-, -, rfl⟩ := regModify_inv hm
  cases hy
  cases h
  exact ⟨u, hw, by simp⟩

/-- The INTERRUPT wait clears the enables last. -/
theorem waitInterrupt_noEnables {own : Option Port} {msgs : List Message} {s t : State} {ok : Bool}
    (h : drive own (waitInterrupt c p msgs) s = .ok ok t) : (t.bus p).NoEnables c := by
  obtain ⟨n, s₁, -, h⟩ := drive_andThen_ok_inv h
  obtain ⟨_, s₂, -, h⟩ := drive_andThen_ok_inv h
  obtain ⟨_, s₃, -, h⟩ := drive_andThen_ok_inv h
  obtain ⟨_, s₄, h₄, h⟩ := drive_andThen_ok_inv h
  cases h
  obtain ⟨u, -, hb⟩ := drive_modify_inv h₄
  rw [hb]
  simp [BusState.NoEnables, BusState.put, has, modified, allInts, evErrEnables, bit]

/-- With no other call beside a program, none is beside it at its end. -/
theorem Prog.Uses.beside {own : Option Port} {x : Prog α} {ks : List Op.Kind} (hx : x.Uses c p ks) {s t : State} {a : α}
    (hs : Beside c s) (h : drive own x s = .ok a t) : Beside c t :=
  (SoloChain.uses (R := fun _ _ => True) ⟨⟨fun _ => trivial, fun _ _ => trivial⟩, fun _ _ => trivial, fun _ _ => trivial⟩ hx
    (fun _ _ _ => ⟨fun _ => trivial, fun _ => trivial⟩) hs h).2

/-- After step 7 of a transfer in INTERRUPT mode the enables stay clear. -/
theorem runTransfer_noEnables {d : Nat} {x : Inst} {msgs : List Message} {s t : State} {a : Unit} (hm : c.mode = .interrupt)
    (hs : Beside c s) (h : drive (some x.port) (runTransfer c d x msgs) s = .ok a t) : (t.bus x.port).NoEnables c := by
  obtain ⟨saved, ok, e, s₁, s₂, s₃, s₄, s₅, h₁, h₂, h₃, h₄, h₅, h₆⟩ := runTransfer_ok_inv h
  have hs₂ := (Prog.Uses.startTransfer d x msgs _).beside ((Prog.Uses.openFsmc (p := x.port) _).beside hs h₁) h₂
  obtain ⟨u, hwait, hidle, -⟩ := completionWait_ok_inv h₃
  have hu := (Prog.Uses.modeWait msgs).beside hs₂ hwait
  rw [modeWait, hm] at hwait
  have k₃ := noEnables_uses (Prog.Uses.op (.handshake .idle) (ks := [.handshake])) hu (waitInterrupt_noEnables hwait) hidle
  have k₄ := noEnables_uses (Prog.Uses.transferResult ok) k₃.2 k₃.1 h₄
  have k₅ := noEnables_uses (Prog.Uses.closeFsmc msgs _ saved) k₄.2 k₄.1 h₅
  exact (noEnables_uses (Prog.Uses.closeTransfer e) k₅.2 k₅.1 h₆).1

/-- Settles O44: the INTERRUPT wait clears the enables last, and from then on no entry of the port starts that could set one. -/
theorem lateInterruptIsNoOp : Obligations.LateInterruptIsNoOp := by
  intro s t i d msgs x hs hc hl hm h
  obtain ⟨a, b, u, k⟩ := exec_transfer_inv hs hc hl h
  have hu := runTransfer_noEnables hm k.beside.2 k.ran
  have hcfg : t.cfg = s.cfg := by
    rw [k.eq]
    exact ((Prog.Uses.runTransfer d x msgs).beside k.beside.2 k.ran).cfg
  have ht : (t.bus x.port).NoEnables s.cfg := by
    rw [k.eq, State.withPast_bus]
    exact hu
  exact ⟨ht.1, ht.2, BusState.NoEnables.canEnter (hcfg ▸ ht)⟩

/-! The port at rest. -/

/-- Nothing left to do (45_engine_termination R289). -/
def BusState.AtRest (b : BusState) : Prop := b.dcnt = -1 ∧ b.msgc = 0 ∧ b.msgv = none

/-- With no byte left of its message, only the prelude gives a port bytes to do. -/
theorem Subcase.done_dcnt {x : Subcase} {s : State} (hx : x ≠ .advance) (hf : (s.bus p).Fits x) (hd : (s.bus p).dcnt = -1) :
    ((x.done s p).bus p).dcnt = -1 := by
  have same (hw : Field.dcnt ∉ x.written) : ((x.done s p).bus p).dcnt = -1 :=
    Eq.trans ((Subcase.done_frame x s p).port.fields .dcnt hw) hd
  cases x
  case advance => exact absurd rfl hx
  case raddr1 | wByte | wStop | wRestart | wFlagerr | r1Last | r2Final | rnByte | rnNackprep | rnFinal =>
    simp [BusState.Fits, hd] at hf
  case sbEmpty | addrNack | wNorestart | rErr | fallbackInt => simp [Subcase.done]
  all_goals exact same (by decide)

/-- A sub-case whose condition holds of a port at rest leaves it at rest. -/
theorem Subcase.done_atRest {x : Subcase} {s : State} (h : (s.bus p).AtRest) (hf : (s.bus p).Fits x) :
    ((x.done s p).bus p).AtRest := by
  obtain ⟨hd, hm, hv⟩ := h
  have hx : x ≠ .advance := fun hx => by simp [hx, BusState.Fits, hm] at hf
  have fields := (Subcase.done_frame x s p).port.fields
  have msgc (hw : Field.msgc ∉ x.written) : ((x.done s p).bus p).msgc = 0 := Eq.trans (fields .msgc hw) hm
  have msgv (hw : Field.msgv ∉ x.written) : ((x.done s p).bus p).msgv = none := Eq.trans (fields .msgv hw) hv
  refine ⟨Subcase.done_dcnt hx hf hd, ?_, ?_⟩
  · cases x
    case advance => exact absurd rfl hx
    case addrNack | rErr | fallbackInt => simp [Subcase.done]
    all_goals exact msgc (by decide)
  · cases x
    case advance => exact absurd rfl hx
    case termPoll | termInt => simp [Subcase.done, State.captured, BusState.signalled_eq]
    all_goals exact msgv (by decide)

theorem Subcase.done_intstate {x : Subcase} {s : State} (hx : Field.intstate ∉ x.written) :
    ((x.done s p).bus p).intstate = (s.bus p).intstate := (Subcase.done_frame x s p).port.fields .intstate hx

theorem ite_of {P : α → Prop} {a : Prop} [Decidable a] {x y : α} (h : P x) (k : P y) : P (if a then x else y) := by
  split <;> assumption

/-- Only terminal handling writes the handshake. -/
theorem State.branch_intstate (s : State) (p : Port) : Field.intstate ∉ (s.branch p).written := by
  unfold State.branch branchInWords
  repeat refine ite_of (P := fun x : Subcase => Field.intstate ∉ x.written) (by decide) ?_
  decide

/-- What every stage keeps, an entry keeps. -/
theorem State.entryDone_of_stages {s : State} (h : Q ((s.entered p).bus p))
    (hstage : ∀ {u : State} {x : Subcase}, (u.bus p).Fits x → Q (u.bus p) → Q ((x.done u p).bus p)) : Q ((s.entryDone p).bus p) := by
  have h₁ : Q (((s.entered p).preluded p).bus p) := by
    unfold State.preluded
    split
    · exact hstage (x := .advance) ‹_› h
    · exact h
  rw [State.entryDone, State.withEntry_bus, State.terminated]
  split
  · exact hstage (terminalOf_fits (And.right ‹_›)) (hstage (State.branch_fits _ p) h₁)
  · exact hstage (State.branch_fits _ p) h₁

/-- Where terminal handling runs, nothing is left to do. -/
theorem State.terminated_atRest {s : State} (h : (s.bus p).dcnt = -1 ∧ (s.bus p).msgc = 0) : ((s.terminated p).bus p).AtRest := by
  rw [State.terminated, if_pos h]
  unfold terminalOf
  split <;> simp [BusState.AtRest, Subcase.done, State.captured, BusState.signalled_eq, h.1, h.2]

/-- DONE is set only where nothing is left to do. -/
def BusState.DoneAtRest (b : BusState) : Prop := b.intstate = .done → b.AtRest

theorem State.entryDone_doneAtRest {s : State} (h : (s.bus p).DoneAtRest) : ((s.entryDone p).bus p).DoneAtRest := by
  have h₀ : ((s.entered p).bus p).DoneAtRest := by
    obtain ⟨t, log, hb⟩ := s.entered_bus p
    rw [hb]
    exact h
  have stage {u : State} {x : Subcase} (hx : Field.intstate ∉ x.written) (hf : (u.bus p).Fits x) (hu : (u.bus p).DoneAtRest) :
      ((x.done u p).bus p).DoneAtRest := fun hd => Subcase.done_atRest (hu (Subcase.done_intstate hx ▸ hd)) hf
  have h₁ : (((s.entered p).preluded p).bus p).DoneAtRest := by
    unfold State.preluded
    split
    · exact stage (x := .advance) (by decide) ‹_› h₀
    · exact h₀
  have h₂ := stage (State.branch_intstate _ p) (State.branch_fits _ p) h₁
  rw [State.entryDone, State.withEntry_bus]
  intro hd
  by_cases he : ((((s.entered p).preluded p).branched p).bus p).dcnt = -1 ∧
      ((((s.entered p).preluded p).branched p).bus p).msgc = 0
  · exact State.terminated_atRest he
  · rw [State.terminated, if_neg he] at hd ⊢
    exact h₂ hd

theorem State.entered_atRest {s : State} (h : (s.bus p).AtRest) : ((s.entered p).bus p).AtRest := by
  obtain ⟨t, log, hb⟩ := s.entered_bus p
  rw [hb]
  exact h

theorem State.entryDone_atRest {s : State} (h : (s.bus p).AtRest) : ((s.entryDone p).bus p).AtRest :=
  State.entryDone_of_stages (Q := BusState.AtRest) (State.entered_atRest h) fun hf hu => Subcase.done_atRest hu hf

/-- A port at rest stays at rest whatever entries come. -/
theorem atRest_held : PortHeld c p BusState.AtRest where
  refused := id
  runs := fun _ h _ e => by
    rw [(engineEntry_iff.1 e).2]
    exact State.entryDone_atRest h
  entered := fun _ h => State.entered_atRest h

theorem doneAtRest_held : PortHeld c p BusState.DoneAtRest where
  refused := id
  runs := fun _ h _ e => by
    rw [(engineEntry_iff.1 e).2]
    exact State.entryDone_doneAtRest h
  entered := fun {s} _ h => by
    obtain ⟨t, log, hb⟩ := s.entered_bus p
    rw [hb]
    exact h

/-- In POLLED mode any property of the port that marks and trace do not change is kept by entries: there are none. -/
theorem polled_held {Q : BusState → Prop} (hm : c.mode = .polled) (hr : ∀ {b}, Q b → Q { b with refused := true })
    (he : ∀ {s : State}, Q (s.bus p) → Q ((s.entered p).bus p)) : PortHeld c p Q where
  refused := hr
  runs := fun {s _} hc _ hcan => by
    obtain ⟨hi, -⟩ := (canEnter_iff s p).1 hcan
    rw [hc, hm] at hi
    cases hi
  entered := fun _ h => he h

theorem notDone_held (hm : c.mode = .polled) : PortHeld c p (·.intstate ≠ .done) :=
  polled_held hm id fun {s} h => by
    obtain ⟨t, log, hb⟩ := s.entered_bus p
    rw [hb]
    exact h

theorem BusStep.atRest {k : Op.Kind} {b b' : BusState} (h : BusStep c k b b') (hk : k ≠ .install) (hb : b.AtRest) : b'.AtRest := by
  cases h with
  | install => exact absurd rfl hk
  | begun => exact ⟨rfl, hb.2⟩
  | driven _ l => cases l <;> exact hb
  | _ => exact hb

theorem BusStep.intstate {k : Op.Kind} {b b' : BusState} (h : BusStep c k b b') (hk : k ≠ .handshake) :
    b'.intstate = b.intstate := by
  cases h with
  | handshake => exact absurd rfl hk
  | driven _ l => cases l <;> rfl
  | _ => rfl

theorem BusStep.doneAtRest {k : Op.Kind} {b b' : BusState} (h : BusStep c k b b') (hk : k ≠ .install ∧ k ≠ .handshake)
    (hb : b.DoneAtRest) : b'.DoneAtRest := fun hd => h.atRest hk.1 (hb (h.intstate hk.2 ▸ hd))

theorem atRest_uses {x : Prog α} {ks : List Op.Kind} (hx : x.Uses c p ks) {s t : State} {a : α} (hs : Beside c s)
    (hq : (s.bus p).AtRest) (e : drive (some p) x s = .ok a t) (hk : ∀ k ∈ ks, k ∉ [.round, .install] := by decide) :
    (t.bus p).AtRest ∧ Beside c t :=
  atRest_held.uses hx (fun k h => ⟨fun hr => hk k h (by simp [hr]), fun hb => hb.atRest fun hr => hk k h (by simp [hr])⟩) hs hq e

theorem notDone_uses (hm : c.mode = .polled) {x : Prog α} {ks : List Op.Kind} (hx : x.Uses c p ks) {s t : State} {a : α}
    (hs : Beside c s) (hq : (s.bus p).intstate ≠ .done) (e : drive (some p) x s = .ok a t)
    (hk : ∀ k ∈ ks, k ∉ [.round, .handshake] := by decide) : (t.bus p).intstate ≠ .done :=
  ((notDone_held hm).uses hx (fun k h => ⟨fun hr => hk k h (by simp [hr]), fun hb hq => by
    rwa [hb.intstate fun hr => hk k h (by simp [hr])]⟩) hs hq e).1

/-- A round of the polled loop is an entry. -/
theorem Op.Holds.round_doneAtRest {o : Op} (hr : o.kind = .round) : o.Holds c p BusState.DoneAtRest := by
  intro s t a hc hq e
  rw [Op.eq_polledRound hr] at e
  obtain ⟨b, v, e, hv⟩ := bind_ok_inv e
  cases hv
  obtain ⟨_, w, he, hw⟩ := bind_ok_inv e
  rw [run_bind, run_lookBus] at hw
  cases hw
  rw [(engineEntry_iff.1 he).2]
  exact State.entryDone_doneAtRest hq

/-- A POLLED wait that succeeds: the entry that set DONE left nothing to do. -/
theorem waitPolled_atRest {msgs : List Message} {s t : State} (hs : Beside c s) (hn : (s.bus p).DoneAtRest)
    (h : drive (some p) (waitPolled c p msgs) s = .ok true t) : (t.bus p).AtRest := by
  obtain ⟨n, u, h₁, h₂⟩ := drive_andThen_ok_inv h
  have hd := polledLoop_true_done h₂
  refine (doneAtRest_held.drive (Prog.Uses.waitPolled msgs) (fun o ho ha => ?_) hs hn h).1 hd
  obtain ho | ho : o.kind = .startWait ∨ o.kind = .round := by simpa using ho
  · exact Op.Holds.of_steps (by simp [ho]) ha fun hb => hb.doneAtRest (by simp [ho])
  · exact Op.Holds.round_doneAtRest ho

/-- An INTERRUPT wait that succeeds: so did the entry that posted. -/
theorem waitInterrupt_atRest {msgs : List Message} {s t : State} (hs : Beside c s)
    (h : drive (some p) (waitInterrupt c p msgs) s = .ok true t) : (t.bus p).AtRest := by
  obtain ⟨n, s₁, h₁, h⟩ := drive_andThen_ok_inv h
  have hb₁ := (Prog.Uses.startWait (p := p) msgs).beside hs h₁
  obtain ⟨_, s₂, h₂, h⟩ := drive_andThen_ok_inv h
  obtain ⟨ok, s₃, h₃, h⟩ := drive_andThen_ok_inv h
  obtain ⟨_, s₄, h₄, h⟩ := drive_andThen_ok_inv h
  cases h
  obtain ⟨_, v, hw, hmod⟩ := drive_andThen_ok_inv h₂
  obtain ⟨u, -, hbus, hv⟩ := drive_write_inv hb₁ hw
  have hv₀ : (v.bus p).DoneAtRest := by
    rw [hbus]
    exact nofun
  have hsteps {k : Op.Kind} (hk : k ∈ [Op.Kind.cr2, .take, .look]) : k ≠ .round ∧ k ≠ .install ∧ k ≠ .handshake := by
    revert hk
    revert k
    decide
  have held {β : Type} {x : Prog β} {ks : List Op.Kind} (hx : x.Uses c p ks) (hk : ks ⊆ [Op.Kind.cr2, .take, .look]) {s t : State}
      {a : β} (hs : Beside c s) (hq : (s.bus p).DoneAtRest) (e : drive (some p) x s = .ok a t) :
      (t.bus p).DoneAtRest ∧ Beside c t :=
    doneAtRest_held.uses hx (fun k h => ⟨(hsteps (hk h)).1, fun hb => hb.doneAtRest (hsteps (hk h)).2⟩) hs hq e
  obtain ⟨hq₂, hb₂⟩ := held (Prog.Uses.op (.modify .cr2 0 _) (ks := [.cr2])) (by decide) hv hv₀ hmod
  obtain ⟨hq₃, hb₃⟩ := held (Prog.Uses.takeLoop n) (by decide) hb₂ hq₂ h₃
  exact (atRest_uses (Prog.Uses.op (.modify .cr2 _ 0) (ks := [.cr2])) hb₃ (hq₃ (takeLoop_true_done h₃)) h₄).1

/-- Step 7 that succeeds leaves nothing to do. -/
theorem completionWait_atRest {msgs : List Message} {s t : State} (hs : Beside c s)
    (hn : c.mode = .polled → (s.bus p).intstate ≠ .done) (h : drive (some p) (completionWait c p msgs) s = .ok true t) :
    (t.bus p).AtRest := by
  obtain ⟨u, hwait, hidle, -⟩ := completionWait_ok_inv h
  have hu := (Prog.Uses.modeWait msgs).beside hs hwait
  have hrest : (u.bus p).AtRest := by
    unfold modeWait at hwait
    split at hwait
    · exact waitInterrupt_atRest hs hwait
    · exact waitPolled_atRest hs (fun hd => absurd hd (hn ‹_›)) hwait
  exact (atRest_uses (Prog.Uses.op (.handshake .idle) (ks := [.handshake])) hu hrest hidle).1

theorem afErrVal_ne_ok (x : AfError) : afErrVal x ≠ .ok := by cases x <;> decide

/-- The timeout path returns no success. -/
theorem classify_timedout_ne_ok (c : Config) (x : Word32) : classify c x .timedout ≠ .ok := by
  unfold classify
  exact ite_ne nofun (ite_ne nofun (ite_ne (afErrVal_ne_ok _) (ite_ne nofun (ite_ne nofun (ite_ne nofun (ite_ne nofun nofun))))))

theorem transferResult_ok_inv {own : Option Port} {ok : Bool} {s t : State} (h : drive own (transferResult c p ok) s = .ok .ok t) :
    ok = true := by
  cases ok with
  | true => rfl
  | false =>
    obtain ⟨x, u, -, h⟩ := drive_andThen_ok_inv (x := timeoutStatus c p) h
    injection h with h
    exact absurd h (classify_timedout_ne_ok c x)

/-- From a handshake that is not DONE a transfer that returns success leaves its port at rest. -/
theorem runTransfer_atRest {d : Nat} {x : Inst} {msgs : List Message} {s t : State} {a : Unit} (hs : Beside c s)
    (hn : c.mode = .polled → (s.bus x.port).intstate ≠ .done) (h : drive (some x.port) (runTransfer c d x msgs) s = .ok a t)
    (ht : t.errval = .ok) : (t.bus x.port).AtRest := by
  obtain ⟨saved, ok, e, s₁, s₂, s₃, s₄, s₅, h₁, h₂, h₃, h₄, h₅, h₆⟩ := runTransfer_ok_inv h
  obtain rfl : e = .ok := (closeTransfer_ok_inv h₆).1.symm.trans ht
  obtain rfl := transferResult_ok_inv h₄
  have hs₁ := (Prog.Uses.openFsmc (p := x.port) _).beside hs h₁
  have hs₂ := (Prog.Uses.startTransfer d x msgs _).beside hs₁ h₂
  have hs₃ := (Prog.Uses.completionWait msgs).beside hs₂ h₃
  have hn₂ (hm : c.mode = .polled) : (s₂.bus x.port).intstate ≠ .done := by
    have hn₁ := notDone_uses hm (Prog.Uses.openFsmc (p := x.port) _) hs (hn hm) h₁
    exact notDone_uses hm (Prog.Uses.startTransfer d x msgs _) hs₁ hn₁ h₂
  have hr₄ := atRest_uses (Prog.Uses.transferResult true) hs₃ (completionWait_atRest hs₂ hn₂ h₃) h₄
  have hr₅ := atRest_uses (Prog.Uses.closeFsmc msgs _ saved) hr₄.2 hr₄.1 h₅
  exact (atRest_uses (Prog.Uses.closeTransfer _) hr₅.2 hr₅.1 h₆).1

/-- Settles O37: DONE is set only by terminal handling, which leaves nothing to do, and nothing after the wait changes that. -/
theorem successLeavesThePortIdle : Obligations.SuccessLeavesThePortIdle := by
  intro s t i d msgs x hs hc hl he hn h hret
  obtain ⟨a, b, u, k⟩ := exec_transfer_inv hs hc hl h
  have hs₀ : Beside s.cfg (s.withPast []) := (⟨hs, rfl⟩ : Beside s.cfg s).withPast []
  have herr : u.errval = .ok := by
    obtain ⟨_, _, e, _, _, _, _, _, -, -, -, -, -, h₆⟩ := runTransfer_ok_inv k.ran
    obtain ⟨h₁, h₂, -⟩ := closeTransfer_ok_inv h₆
    have hu : u.ret = 0 := by rw [← hret, k.eq]; rfl
    rw [h₁]
    by_contra hne
    have := he e hne
    rw [h₂, returnValue] at hu
    omega
  have hb (hm : s.cfg.mode = .polled) : (b.bus x.port).intstate ≠ .done := by
    have ha := notDone_uses hm (Prog.Uses.op (p := x.port) (c := s.cfg) (.getInst d) (ks := [.find])) hs₀ (by simpa using hn) k.found
    exact notDone_uses hm (Prog.Uses.op (p := x.port) (c := s.cfg) (.tryAcquire d) (ks := [.lock])) k.beside.1 ha k.taken
  rw [k.eq, State.withPast_bus]
  exact runTransfer_atRest k.beside.2 hb k.ran herr

end Sys2Proof.Machine
end

section
/-! The frame of a transfer with no other call beside it (10_state R44, 20_memory R81, 60_exceptions R406,
70_reset_and_hazards R461). -/

namespace Sys2Proof.Machine

variable {α β : Type} {c : Config} {p : Port}

/-! What a transfer keeps in either mode. -/

/-- What neither entries nor the actions of a transfer of the port change. -/
structure TransferKeeps (p : Port) (s t : State) : Prop where
  instances : t.instances = s.instances
  region : t.intsOff = s.intsOff
  refs : ∀ q, (t.bus q).refs = (s.bus q).refs
  plat : ∀ q, (t.bus q).plat = (s.bus q).plat
  owning : ∀ q, q ≠ p → (t.bus q).owning = (s.bus q).owning

namespace TransferKeeps

theorem soloChain : SoloChain (TransferKeeps p) where
  refl _ := ⟨rfl, rfl, fun _ => rfl, fun _ => rfl, fun _ _ => rfl⟩
  trans h k := ⟨k.instances.trans h.instances, k.region.trans h.region, fun q => (k.refs q).trans (h.refs q),
    fun q => (k.plat q).trans (h.plat q), fun q hq => (k.owning q hq).trans (h.owning q hq)⟩
  entries h hi := ⟨h.instances, hi, fun q => (h.ports q).refs, fun q => (h.ports q).plat, fun q _ => (h.ports q).owning⟩
  past _ _ := ⟨rfl, rfl, fun _ => by simp, fun _ => by simp, fun _ _ => by simp⟩

/-- The kinds of the actions of a transfer's call. -/
def kinds : List Op.Kind := .find :: .lock :: Prog.Uses.transferKinds

theorem ofBus {s : State} {b : BusState} (hr : b.refs = (s.bus p).refs) (hp : b.plat = (s.bus p).plat) :
    TransferKeeps p s (s.setBus p b) where
  instances := State.setBus_instances ..
  region := State.setBus_intsOff ..
  refs q := by
    by_cases hq : q = p
    · subst hq; simpa using hr
    · simp [hq]
  plat q := by
    by_cases hq : q = p
    · subst hq; simpa using hp
    · simp [hq]
  owning q hq := by simp [hq]

theorem op {o : Op} (ho : o.kind ∈ kinds) (ha : o.Allowed c) : Keeps (TransferKeeps p) (o.run c p) := by
  have hR := (soloChain (p := p)).toChain
  by_cases hr : o.kind = .round
  · rw [Op.eq_polledRound hr]
    refine Keeps.bind hR (Keeps.bind hR ?_ fun _ => Keeps.bind hR (Keeps.lookBus hR p _) fun _ => Keeps.pure hR _) fun _ =>
      Keeps.pure hR _
    have hm := EngineMoved.engineEntry p
    exact ⟨fun e => soloChain.entries (hm.ok e).entriesMoved (hm.ok e).outside.intsOff,
      fun e => soloChain.entries (hm.error e).entriesMoved (hm.error e).outside.intsOff⟩
  · have hno : ∀ k ∈ kinds, k ≠ .plat ∧ k ≠ .openPort ∧ k ≠ .closePort ∧ k ≠ .line ∧ k ≠ .store ∧ k ≠ .free := by decide
    obtain ⟨hplat, hopen, hclose, hline, hstore, hfree⟩ := hno _ ho
    have lifecycle (h : o.kind.Does .plat) : False := by
      obtain h | h | h := h
      · exact hplat h
      · exact hopen h
      · exact hclose h
    refine Op.keeps hR hr ha fun e => ?_
    cases e with
    | bus h =>
      refine ofBus ?_ ?_
      all_goals
        generalize o.kind = k at h hline hopen hclose lifecycle
        cases h with
        | clockOn _ h | pulsed _ h | pins _ _ h | irqs _ _ _ h | clockOff _ h => exact (lifecycle h).elim
        | refs _ _ h => obtain h | h := h <;> exact absurd h ‹_›
        | driven => exact absurd rfl hline
        | _ => rfl
    | updated _ _ _ h => exact absurd h hstore
    | freed _ h => exact absurd h hfree
    | opened h => exact absurd h hopen
    | intsOff _ h => obtain h | h := h <;> exact absurd h ‹_›
    | _ => exact ⟨rfl, rfl, fun _ => by simp, fun _ => by simp, fun _ _ => by simp⟩

theorem uses {own : Option Port} {x : Prog α} {ks : List Op.Kind} (hx : x.Uses c p ks) {s t : State} {a : α}
    (hs : Beside c s) (h : drive own x s = .ok a t) (hk : ks ⊆ kinds := by decide) : TransferKeeps p s t :=
  (soloChain.uses hx (fun _ ho ha => op (hk ho) ha) hs h).1

end TransferKeeps

/-- So of the whole call. -/
theorem TransferRan.keeps {d : Nat} {x : Inst} {msgs : List Message} {s a b u t : State} (hs : Solo s)
    (k : TransferRan d x msgs s a b u t) : TransferKeeps x.port s t := by
  have hs₀ : Beside s.cfg (s.withPast []) := (⟨hs, rfl⟩ : Beside s.cfg s).withPast []
  have h₁ := TransferKeeps.uses (Prog.Uses.op (p := x.port) (c := s.cfg) (.getInst d) (ks := [.find])) hs₀ k.found
  have h₂ := TransferKeeps.uses (Prog.Uses.op (p := x.port) (c := s.cfg) (.tryAcquire d) (ks := [.lock])) k.beside.1 k.taken
  have h₃ := TransferKeeps.uses (Prog.Uses.runTransfer d x msgs) k.beside.2 k.ran
  have hR := TransferKeeps.soloChain (p := x.port)
  rw [k.eq]
  exact hR.trans (hR.past s []) (hR.trans h₁ (hR.trans h₂ (hR.trans h₃ (hR.past u []))))

/-! The races at its end. -/

theorem State.owned_eq_false {s : State} (h : ∀ q, (s.bus q).owning = false) (a : Nat) : s.owned a = false := by
  have h₁ := h .i2c1
  have h₂ := h .i2c2
  have h₃ := h .i2c3
  simp only [State.bus] at h₁ h₂ h₃
  simp [State.owned, BusState.owns, h₁, h₂, h₃]

/-- With no transfer under way elsewhere the return of a transfer ends every race. -/
theorem closeTransfer_races {own : Option Port} {e : ErrVal} {s t : State} {a : Unit}
    (h : drive own (closeTransfer c p e) s = .ok a t) (ho : ∀ q, q ≠ p → (t.bus q).owning = false) : t.races = [] := by
  obtain ⟨_, u, -, h⟩ := drive_andThen_ok_inv h
  obtain ⟨v, y, w, -, hm, h⟩ := drive_act_ok_inv h
  cases hm
  cases h
  have hall (q : Port) : ((v.setBus p (v.bus p).released).bus q).owning = false := by
    by_cases hq : q = p
    · subst hq
      simp [BusState.released]
    · simpa [hq] using ho q hq
  change ((v.setBus p (v.bus p).released).races.filter fun c => (v.setBus p (v.bus p).released).owned c.1) = []
  simp [State.owned_eq_false hall]

/-! Where an entry stores. -/

/-- The chain installed, and the current message one of it as long as bytes of it are left. -/
structure BusState.Within (msgs : List Message) (b : BusState) : Prop where
  chain : b.msgs = msgs
  current : b.dcnt = -1 ∨ ∃ m ∈ msgs, m.buffer = b.curBuf ∧ m.length = b.totalMsgLen ∧ m.flags = b.flags

theorem message_mem {b : BusState} {m : Message} (h : b.message = some m) : m ∈ b.msgs := by
  unfold BusState.message at h
  split at h
  · cases h
  · split at h
    · exact List.mem_of_getElem? h
    · cases h

theorem State.entered_within {msgs : List Message} {s : State} (h : (s.bus p).Within msgs) : ((s.entered p).bus p).Within msgs := by
  obtain ⟨t, log, hb⟩ := s.entered_bus p
  rw [hb]
  exact ⟨h.chain, h.current⟩

/-- The prelude latches a message of the chain. -/
theorem State.preluded_within {msgs : List Message} {s : State} (h : (s.bus p).Within msgs) (hp : s.Preludes p) :
    ((s.preluded p).bus p).Within msgs := by
  unfold State.preluded
  split
  · obtain ⟨m, hm, -⟩ := hp.2 ‹_›
    refine ⟨(Subcase.done_frame .advance s p).port.engine.msgs.trans h.chain, .inr ⟨m, h.chain ▸ message_mem hm, ?_⟩⟩
    simp [Subcase.done, State.advanced, BusState.messageOr, hm, BusState.latch]
  · exact h

/-- Every other sub-case leaves the current message, or no bytes of it where none were left. -/
theorem Subcase.done_within {msgs : List Message} {x : Subcase} {s : State} (hx : x ≠ .advance) (hf : (s.bus p).Fits x)
    (h : (s.bus p).Within msgs) : ((x.done s p).bus p).Within msgs := by
  obtain ⟨hcb, hln, hfl⟩ := Subcase.done_buffer hx s p
  refine ⟨(Subcase.done_frame x s p).port.engine.msgs.trans h.chain, h.current.imp (Subcase.done_dcnt hx hf) ?_⟩
  rw [hcb, hln, hfl]
  exact id

/-- Bytes are stored only where bytes are left. -/
theorem Subcase.stores_dcnt {x : Subcase} {b : BusState} {a : Nat} (hf : b.Fits x) (ha : a ∈ x.stores b) : b.dcnt ≠ -1 := by
  cases x
  case r1Last | r2Final | rnFinal | rnNackprep =>
    obtain ⟨-, -, hd⟩ := hf
    rw [hd]
    decide
  case rnByte =>
    obtain ⟨-, -, hd⟩ := hf
    omega
  all_goals cases ha

/-- An entry stores only in buffers of READ messages of the chain. -/
theorem engineEntry_within {msgs : List Message} {s t : State} (h : (s.bus p).Within msgs) (e : engineEntry p s = .ok () t) :
    (t.bus p).Within msgs ∧ ∃ as, StoresAt as s t ∧ ∀ a ∈ as, InReadBuffer msgs a := by
  obtain ⟨⟨-, hp, -, hr, -⟩, rfl⟩ := engineEntry_iff.1 e
  have hpre := State.preluded_within (State.entered_within h) hp
  have hbranch : ((s.entered p).preluded p).branch p ≠ .advance := branchInWords_ne_advance _ _ _
  have hfits := State.branch_fits ((s.entered p).preluded p) p
  have hdone : ((((s.entered p).preluded p).branched p).bus p).Within msgs := Subcase.done_within hbranch hfits hpre
  refine ⟨?_, _, StoresAt.entryDone s p, fun a ha => ?_⟩
  · rw [State.entryDone, State.withEntry_bus, State.terminated]
    split
    · exact Subcase.done_within (by unfold terminalOf; split <;> decide) (terminalOf_fits (And.right ‹_›)) hdone
    · exact hdone
  · obtain ⟨hread, hlo, hhi⟩ := Subcase.stores_of_fits hfits hr ha
    obtain ⟨m, hm, h₁, h₂, h₃⟩ := hpre.current.resolve_left (Subcase.stores_dcnt hfits ha)
    exact ⟨m, hm, h₃ ▸ hread, h₁ ▸ hlo, by rw [h₁, h₂]; exact hhi⟩

/-! In POLLED mode. -/

/-- No entry comes in POLLED mode, so a property that a draw of turns keeps is kept between two actions. -/
theorem entryStable_polled {own : Option Port} {P : State → Prop} (hm : c.mode = .polled)
    (hd : ∀ {s} x, P s → P (State.withDraws s x)) : EntryStable own fun s => s.cfg = c ∧ P s where
  draw := fun ⟨hc, hp⟩ => ⟨hc, hd _ hp⟩
  entry := fun {s t q} _ ⟨hc, _⟩ hcan _ => by
    obtain ⟨hi, -⟩ := (canEnter_iff s q).1 hcan
    rw [hc, hm] at hi
    cases hi

/-- Every other port is as before, and, where no race was left over, every byte outside the READ buffers of the chain. -/
structure PolledFrame (p : Port) (msgs : List Message) (s t : State) : Prop where
  others : OtherPortsKept p s t
  bytes : s.races = [] → ∀ a, ¬InReadBuffer msgs a → t.mem.read a = s.mem.read a ∧ ∀ x ∈ t.races, x.1 ≠ a

namespace PolledFrame

variable {msgs : List Message}

theorem refl (s : State) : PolledFrame p msgs s s := ⟨fun _ _ => rfl, fun h _ _ => ⟨rfl, by simp [h]⟩⟩

theorem congr {s t u : State} (h : PolledFrame p msgs s t) (hb : OtherPortsKept p t u) (hm : u.mem = t.mem) (hr : u.races = t.races) :
    PolledFrame p msgs s u :=
  ⟨fun q hq => (hb q hq).trans (h.others q hq), fun h₀ a ha => by rw [hm, hr]; exact h.bytes h₀ a ha⟩

theorem stores {s t u : State} {as : List Nat} (h : PolledFrame p msgs s t) (hb : OtherPortsKept p t u) (hs : StoresAt as t u)
    (has : ∀ a ∈ as, InReadBuffer msgs a) : PolledFrame p msgs s u where
  others q hq := (hb q hq).trans (h.others q hq)
  bytes h₀ a ha := by
    have hno : a ∉ as := fun hm => ha (has a hm)
    obtain ⟨hm, hr⟩ := h.bytes h₀ a ha
    obtain ⟨cs, hcs, hin⟩ := hs.races
    refine ⟨(hs.bytes a hno).trans hm, fun x hx => ?_⟩
    rw [hcs] at hx
    obtain hx | hx := List.mem_append.1 hx
    · exact hr x hx
    · exact fun hxa => hno (hxa ▸ hin x hx)

theorem decided {s t : State} (h : PolledFrame p msgs s t) : PolledFrame p msgs s t.decided where
  others q hq := by simpa using h.others q hq
  bytes h₀ a ha := by
    obtain ⟨hm, hr⟩ := h.bytes h₀ a ha
    refine ⟨?_, fun x hx => hr x (List.mem_filter.1 (State.decided_races t ▸ hx)).1⟩
    rw [← hm]
    exact Memory.read_decided_ne _ fun x hx => hr x (List.mem_of_mem_filter hx)

/-- Every action but a round of the engine. -/
theorem op {s₀ : State} {o : Op} (ho : o.kind ≠ .round) (ha : o.Allowed c) {s t : State} {a : Ans}
    (h : PolledFrame p msgs s₀ s) (e : o.run c p s = .ok a t) : PolledFrame p msgs s₀ t := by
  refine (Op.keeps (R := fun s t : State => PolledFrame p msgs s₀ s → PolledFrame p msgs s₀ t) ⟨fun _ => id, fun i j => j ∘ i⟩
    ho ha fun k h => ?_).ok e h
  cases k with
  | decided => exact h.decided
  | bus => exact h.congr (fun q hq => State.bus_setBus_of_ne _ _ hq) (State.setBus_mem ..) (State.setBus_races ..)
  | _ => exact h.congr (fun q _ => by simp) rfl rfl

theorem withDraws {s t : State} (x : Draws) (h : PolledFrame p msgs s t) : PolledFrame p msgs s (t.withDraws x) :=
  h.congr (fun q _ => by simp) rfl rfl

theorem withPast {s t : State} (x : List Ans) (h : PolledFrame p msgs s t) : PolledFrame p msgs s (t.withPast x) :=
  h.congr (fun q _ => by simp) rfl rfl

/-- A part of a transfer without a round. -/
theorem uses {own : Option Port} {x : Prog α} {ks : List Op.Kind} (hm : c.mode = .polled) (hx : x.Uses c p ks) {s₀ s t : State}
    {a : α} (hs : Beside c s) (h : PolledFrame p msgs s₀ s) (e : drive own x s = .ok a t)
    (hk : .round ∉ ks := by decide) : PolledFrame p msgs s₀ t :=
  ((entryStable_polled hm fun x hp => hp.withDraws x).drive (P := PolledFrame p msgs s₀) (fun x hp => hp.withPast x)
    (hx.all fun o ho ha => ⟨⟨p, o, ha, rfl⟩, fun _ hp e => op (fun hr => hk (hr ▸ ho)) ha hp e⟩) hs h e).1

end PolledFrame

/-- The kinds of actions that leave the installed chain and its current message as they are. -/
theorem BusStep.within {msgs : List Message} {k : Op.Kind} {b b' : BusState} (h : BusStep c k b b') (hk : k ≠ .install)
    (hb : b.Within msgs) : b'.Within msgs := by
  cases h with
  | install => exact absurd rfl hk
  | begun => exact ⟨hb.chain, .inl rfl⟩
  | driven _ l => cases l <;> exact ⟨hb.chain, hb.current⟩
  | _ => exact ⟨hb.chain, hb.current⟩

theorem BusStep.msgs {k : Op.Kind} {b b' : BusState} (h : BusStep c k b b') (hk : k ≠ .install) : b'.msgs = b.msgs := by
  cases h with
  | install => exact absurd rfl hk
  | driven _ l => cases l <;> rfl
  | _ => rfl

theorem BusStep.dcnt {k : Op.Kind} {b b' : BusState} (h : BusStep c k b b') (hk : k ≠ .begun) : b'.dcnt = b.dcnt := by
  cases h with
  | begun => exact absurd rfl hk
  | driven _ l => cases l <;> rfl
  | _ => rfl

/-- The port's chain is the same. -/
def ChainKept (p : Port) (s t : State) : Prop := (t.bus p).msgs = (s.bus p).msgs

theorem ChainKept.soloChain : SoloChain (ChainKept p) :=
  ⟨⟨fun _ => rfl, fun h k => k.trans h⟩, fun h _ => (h.ports p).msgs, fun _ _ => by simp [ChainKept]⟩

theorem ChainKept.op {o : Op} (ho : o.kind ≠ .install) (ha : o.Allowed c) : Keeps (ChainKept p) (o.run c p) := by
  have hR := (ChainKept.soloChain (p := p)).toChain
  by_cases hr : o.kind = .round
  · rw [Op.eq_polledRound hr]
    refine Keeps.bind hR (Keeps.bind hR ?_ fun _ => Keeps.bind hR (Keeps.lookBus hR p _) fun _ => Keeps.pure hR _) fun _ =>
      Keeps.pure hR _
    exact ⟨fun e => ((EngineMoved.engineEntry p).ok e).own.engine.msgs, fun e => ((EngineMoved.engineEntry p).error e).own.engine.msgs⟩
  · refine Op.keeps hR hr ha fun e => ?_
    cases e with
    | bus h => simpa [ChainKept] using h.msgs ho
    | _ => simp [ChainKept, State.decided]

theorem chain_uses {msgs : List Message} {own : Option Port} {x : Prog α} {ks : List Op.Kind} (hx : x.Uses c p ks) {s t : State} {a : α}
    (hs : Beside c s) (hq : (s.bus p).msgs = msgs) (e : drive own x s = .ok a t) (hk : .install ∉ ks := by decide) :
    (t.bus p).msgs = msgs ∧ Beside c t :=
  have h := ChainKept.soloChain.uses hx (fun _ ho ha => ChainKept.op (fun hi => hk (hi ▸ ho)) ha) hs e
  ⟨h.1.trans hq, h.2⟩

/-- What a program leaves of its port, whatever it starts from. -/
def Prog.Establishes (c : Config) (p : Port) (Q : BusState → Prop) (x : Prog α) : Prop :=
  ∀ s t a, Beside c s → drive (some p) x s = .ok a t → Q (t.bus p)

theorem Prog.Establishes.after {Q : BusState → Prop} {x : Prog α} {f : α → Prog β} {ks : List Op.Kind} (hx : x.Uses c p ks)
    (hf : ∀ a, (f a).Establishes c p Q) : (x.andThen f).Establishes c p Q := fun s t b hs h => by
  obtain ⟨a, u, h₁, h₂⟩ := drive_andThen_ok_inv h
  exact hf a u t b (hx.beside hs h₁) h₂

/-- A write, and whatever keeps what it wrote. -/
theorem Prog.Establishes.write {Q : BusState → Prop} {g : BusState → BusState} {f : Unit → Prog β} (hg : ∀ b, Q (g b))
    (hf : ∀ {s t b}, Beside c s → Q (s.bus p) → drive (some p) (f ()) s = .ok b t → Q (t.bus p)) :
    ((Machine.write p g).andThen f).Establishes c p Q := fun s t b hs h => by
  obtain ⟨_, u, h₁, h₂⟩ := drive_andThen_ok_inv h
  obtain ⟨_, -, hb, hu⟩ := drive_write_inv hs h₁
  exact hf hu (hb ▸ hg _) h₂

/-- Steps 3 to 6 install the chain. -/
theorem startTransfer_chain (d : Nat) (x : Inst) (msgs : List Message) (settle : Bool) :
    (startTransfer c d x msgs settle).Establishes c x.port (·.msgs = msgs) :=
  .after (Prog.Uses.onlyIf settle (Prog.Uses.stopSettle msgs)) fun _ => .after (.op (.put .sr1 0) (ks := [.reg])) fun _ =>
    .after (.op (.modify .cr1 _ _) (ks := [.reg])) fun _ => .write (fun _ => rfl) fun hs hq e =>
    (chain_uses (ks := [.traceReset, .look, .reg, .refuse, .begun]) (Prog.Uses.andThen (.op .traceReset) fun _ =>
      Prog.Uses.andThen (.op (.frequencyOf d x)) fun _ => Prog.Uses.andThen (Prog.Uses.clkProgram _ _).mono fun _ =>
      Prog.Uses.andThen (.op .begun) fun _ => .op (.modify .cr1 _ _)) hs hq e).1

/-- In POLLED mode nothing of it is latched then. -/
theorem startTransfer_within (hm : c.mode = .polled) {d : Nat} {x : Inst} {msgs : List Message} {settle : Bool} :
    (startTransfer c d x msgs settle).Establishes c x.port (·.Within msgs) := fun s t a hs h => by
  have hchain := startTransfer_chain d x msgs settle s t a hs h
  have hheld : PortHeld c x.port (·.dcnt = -1) := polled_held hm id fun {s} h => by
    obtain ⟨t, log, hb⟩ := s.entered_bus x.port
    rw [hb]
    exact h
  have hdcnt : (startTransfer c d x msgs settle).Establishes c x.port (·.dcnt = -1) :=
    .after (Prog.Uses.onlyIf settle (Prog.Uses.stopSettle msgs)) fun _ => .after (.op (.put .sr1 0) (ks := [.reg])) fun _ =>
      .after (.op (.modify .cr1 _ _) (ks := [.reg])) fun _ => .after (.op (.install msgs) (ks := [.install])) fun _ =>
      .after (.op .traceReset (ks := [.traceReset])) fun _ => .after (.op (.frequencyOf d x) (ks := [.look])) fun _ =>
      .after (Prog.Uses.clkProgram _ _) fun _ => .write (fun _ => rfl) fun hs hq e =>
      (hheld.uses (Prog.Uses.op (.modify .cr1 0 _) (ks := [.reg])) (fun k hk => ⟨by simp_all, fun hb hq => (hb.dcnt (by simp_all)).trans hq⟩)
        hs hq e).1
  exact ⟨hchain, .inl (hdcnt s t a hs h)⟩

/-- A POLLED wait stores only in buffers of READ messages of the chain. -/
theorem completionWait_frame (hm : c.mode = .polled) {own : Option Port} {msgs : List Message} {s₀ s t : State} {ok : Bool}
    (hs : Beside c s) (hw : (s.bus p).Within msgs) (h : PolledFrame p msgs s₀ s)
    (e : drive own (completionWait c p msgs) s = .ok ok t) : PolledFrame p msgs s₀ t := by
  refine ((entryStable_polled (own := own) (P := fun s => (s.bus p).Within msgs ∧ PolledFrame p msgs s₀ s) hm
    fun x hp => ⟨by simpa using hp.1, hp.2.withDraws x⟩).drive (fun x hp => ⟨by simpa using hp.1, hp.2.withPast x⟩)
    ((Prog.Uses.completionWait msgs).all fun o ho ha => ⟨⟨p, o, ha, rfl⟩, fun {s t a} hc ⟨hw, hp⟩ e => ?_⟩) hs ⟨hw, h⟩ e).1.2
  by_cases hr : o.kind = .round
  · rw [Op.eq_polledRound hr] at e
    obtain ⟨b, v, e, hv⟩ := bind_ok_inv e
    cases hv
    obtain ⟨_, w, he, hb⟩ := bind_ok_inv e
    rw [run_bind, run_lookBus] at hb
    cases hb
    obtain ⟨hw', as, hst, has⟩ := engineEntry_within hw he
    exact ⟨hw', hp.stores ((EngineMoved.engineEntry p).ok he).others hst has⟩
  · have hi : o.kind ≠ .install := fun hi => absurd (hi ▸ ho) (by decide)
    exact ⟨Op.Holds.of_steps hr ha (fun hb hw => hb.within hi hw) hc hw e, hp.op hr ha e⟩

/-- So a whole transfer. -/
theorem runTransfer_frame (hm : c.mode = .polled) {d : Nat} {x : Inst} {msgs : List Message} {s₀ s t : State} {a : Unit}
    (hs : Beside c s) (h : PolledFrame x.port msgs s₀ s) (e : drive (some x.port) (runTransfer c d x msgs) s = .ok a t) :
    PolledFrame x.port msgs s₀ t := by
  obtain ⟨saved, ok, r, s₁, s₂, s₃, s₄, s₅, h₁, h₂, h₃, h₄, h₅, h₆⟩ := runTransfer_ok_inv e
  have b₁ := (Prog.Uses.openFsmc (p := x.port) _).beside hs h₁
  have b₂ := (Prog.Uses.startTransfer d x msgs _).beside b₁ h₂
  have b₃ := (Prog.Uses.completionWait msgs).beside b₂ h₃
  have b₄ := (Prog.Uses.transferResult ok).beside b₃ h₄
  have b₅ := (Prog.Uses.closeFsmc msgs _ saved).beside b₄ h₅
  have f₂ := (h.uses hm (Prog.Uses.openFsmc (p := x.port) _) hs h₁).uses hm (Prog.Uses.startTransfer d x msgs _) b₁ h₂
  have f₃ := completionWait_frame hm b₂ (startTransfer_within hm _ _ _ b₁ h₂) f₂ h₃
  have f₄ := f₃.uses hm (Prog.Uses.transferResult ok) b₃ h₄
  exact (f₄.uses hm (Prog.Uses.closeFsmc msgs _ saved) b₄ h₅).uses hm (Prog.Uses.closeTransfer r) b₅ h₆

/-- Settles O45: entries and the actions of a transfer change no more; the return ends every race; in POLLED mode only the entries
of the polled loop store, each in the buffer of the READ message it has latched. -/
theorem transferFrame : Obligations.TransferFrame := by
  intro s t i d msgs x hs hc hl h
  obtain ⟨a, b, u, k⟩ := exec_transfer_inv hs hc hl h
  have hs₀ : Beside s.cfg (s.withPast []) := (⟨hs, rfl⟩ : Beside s.cfg s).withPast []
  have hu := (Prog.Uses.runTransfer d x msgs).beside k.beside.2 k.ran
  have hk := k.keeps hs
  refine ⟨hk.instances, exec_bit hs h, hk.region, ?_, fun q => ⟨hk.refs q, hk.plat q⟩, fun ho => ?_, fun hm => ?_⟩
  · rw [k.eq]
    exact (hu.withPast []).toSolo
  · obtain ⟨_, _, _, _, _, _, _, _, -, -, -, -, -, h₆⟩ := runTransfer_ok_inv k.ran
    rw [k.eq]
    refine (closeTransfer_races h₆ fun q hq => ?_ : u.races = [])
    have := (hk.owning q hq).trans (ho q hq)
    rwa [k.eq, State.withPast_bus] at this
  · have f₁ := ((PolledFrame.refl (msgs := msgs) s).withPast []).uses hm
      (Prog.Uses.op (p := x.port) (c := s.cfg) (.getInst d) (ks := [.find])) hs₀ k.found
    have f₂ := f₁.uses hm (Prog.Uses.op (p := x.port) (c := s.cfg) (.tryAcquire d) (ks := [.lock])) k.beside.1 k.taken
    have f₃ := (runTransfer_frame hm k.beside.2 f₂ k.ran).withPast []
    rw [← k.eq] at f₃
    exact ⟨f₃.others, fun hr a ha => (f₃.bytes hr a ha).1⟩

end Sys2Proof.Machine
end

section
/-! That a call runs to its end from a ready machine (46_dispatcher R300, 47_lifecycle_trace_ops R343): every action goes on, and
every entry between two actions does (45_engine_termination R280). -/

namespace Sys2Proof.Machine

variable {α β : Type} {c : Config} {p : Port} {insts : List (Option Inst)} {Z Z' : BusState → Prop}

/-! The invariant. -/

/-- A port on which an entry that may start runs to its end. -/
structure BusReady (c : Config) (b : BusState) : Prop where
  entry : EntryReady c b
  clock : b.plat.evIrq.attached = true → b.plat.clkEn = true

/-- What holds at every point of a call of the port with no other call beside it: every port is ready, the handles are those of
the start, and the port itself has a property that entries keep. -/
structure Served (c : Config) (p : Port) (insts : List (Option Inst)) (Z : BusState → Prop) (s : State) : Prop where
  ready : ∀ q, BusReady c (s.bus q)
  beside : Beside c s
  instances : s.instances = insts
  port : Z (s.bus p)

/-- A property of a port that entries keep. -/
def EntriesKeep (Z : BusState → Prop) : Prop := ∀ {c b b'}, PortMoved c b b' → Z b → Z b'

/-- The port's clock is on. -/
def BusState.Clocked (b : BusState) : Prop := b.plat.clkEn = true

/-- The port's lines are detached. -/
def BusState.Detached (b : BusState) : Prop := b.plat.evIrq.attached = false

theorem clocked_kept : EntriesKeep BusState.Clocked := fun h k => by rwa [BusState.Clocked, h.plat]

theorem detached_kept : EntriesKeep BusState.Detached := fun h k => by rwa [BusState.Detached, h.plat]

theorem Served.toReady {s : State} (h : Served c p insts Z s) : Ready s where
  entry q := by rw [h.beside.cfg]; exact (h.ready q).entry
  clock q := (h.ready q).clock

theorem Served.mono {s : State} (h : Served c p insts Z s) (hz : Z (s.bus p) → Z' (s.bus p)) : Served c p insts Z' s :=
  ⟨h.ready, h.beside, h.instances, hz h.port⟩

theorem Served.withPast {s : State} (h : Served c p insts Z s) (x : List Ans) : Served c p insts Z (s.withPast x) :=
  ⟨fun q => by simpa using h.ready q, h.beside.withPast x, h.instances, by simpa using h.port⟩

/-- What a move of the port leaves. -/
theorem Served.moved {s t : State} (h : Served c p insts Z s) (hm : OpMoved p s t) (hi : t.instances = s.instances)
    (hb : BusReady c (t.bus p)) (hz : Z' (t.bus p)) : Served c p insts Z' t where
  ready q := by
    by_cases hq : q = p
    · subst hq
      exact hb
    · rw [hm.others q hq]
      exact h.ready q
  beside := hm.beside h.beside
  instances := hi.trans h.instances
  port := hz

/-! Entries. -/

/-- An entry of a ready port with its clock on runs to its end and leaves the invariant. -/
theorem Served.entry {s : State} (hz : EntriesKeep Z) (h : Served c p insts Z s) {q : Port} (hc : (s.bus q).plat.clkEn = true) :
    engineEntry q s = .ok () (s.entryDone q) ∧ Served c p insts Z (s.entryDone q) := by
  have hs : s.StageReady q := ⟨by rw [h.beside.cfg]; exact (h.ready q).entry, hc⟩
  have hrun := engineEntry_run_of_ready hs
  have hm := (EngineMoved.engineEntry q).ok hrun
  have hmv := hm.entriesMoved
  refine ⟨hrun, ⟨fun r => ?_, hmv.beside h.beside, hmv.instances.trans h.instances, hz (hmv.ports p) h.port⟩⟩
  by_cases hr : r = q
  · subst hr
    refine ⟨?_, ?_⟩
    · have := hs.entryDone.1
      rwa [hmv.cfg, h.beside.cfg] at this
    · rw [(hmv.ports r).plat]
      exact (h.ready r).clock
  · rw [hm.others r hr]
    exact h.ready r

theorem Served.runAgent {s : State} (hz : EntriesKeep Z) (h : Served c p insts Z s) (own : Option Port) (a : Agent) :
    ∃ t, runAgent own a s = .ok () t ∧ Served c p insts Z t := by
  cases a with
  | entry q =>
    cases hq : canEnter s q with
    | false => exact ⟨s, by simp [Machine.runAgent, run_bind, run_onlyIf, hq], h⟩
    | true =>
      obtain ⟨-, -, -, he, -⟩ := (canEnter_iff s q).1 hq
      obtain ⟨hrun, ht⟩ := h.entry hz ((h.ready q).clock he)
      exact ⟨_, by simp [Machine.runAgent, run_bind, run_onlyIf, hq, Machine.beside, hrun], ht⟩
  | thread k => exact ⟨s, by simp [Machine.runAgent, moveThread, run_bind, h.beside.threads], h⟩
  | caller => exact ⟨s, by simp [Machine.runAgent, beginCall, run_bind, State.nextCall, h.beside.requests], h⟩
  | store => exact ⟨s, by simp [Machine.runAgent, outsideStore, run_bind, h.beside.stores], h⟩

theorem Served.runAgents {s : State} (hz : EntriesKeep Z) (h : Served c p insts Z s) (own : Option Port) (as : List Agent) :
    ∃ t, runAgents own as s = .ok () t ∧ Served c p insts Z t := by
  induction as generalizing s with
  | nil => exact ⟨s, rfl, h⟩
  | cons a as ih =>
    obtain ⟨u, h₁, hu⟩ := h.runAgent hz own a
    obtain ⟨t, h₂, ht⟩ := ih hu
    exact ⟨t, (run_bind_ok h₁).trans h₂, ht⟩

/-- A point between two actions goes on. -/
theorem Served.window (hz : EntriesKeep Z) (own : Option Port) : Completes (Served c p insts Z) (window own) := fun s h => by
  unfold Machine.window
  cases ho : othersCanMove s with
  | false => exact ⟨(), s, by simp [run_bind, ho], h⟩
  | true =>
    have hd : Served c p insts Z (s.withDraws { s.draws with turns := s.draws.turns.advance }) :=
      ⟨h.ready, ⟨⟨h.beside.threads, h.beside.requests, h.beside.stores⟩, h.beside.cfg⟩, h.instances, h.port⟩
    obtain ⟨t, hrun, ht⟩ := hd.runAgents hz own (s.draws.turns.peek Config.freeTurns)
    exact ⟨(), t, by simpa [run_bind, ho, run_drawTurns] using hrun, ht⟩

/-! Programs. -/

/-- From a state with `P` the program ends, with `P'` of its answer and the state it leaves. -/
def Prog.Goes (own : Option Port) (P : State → Prop) (P' : α → State → Prop) (x : Prog α) : Prop :=
  ∀ s, P s → ∃ a t, drive own x s = .ok a t ∧ P' a t

theorem Prog.Goes.andThen {own : Option Port} {P : State → Prop} {P' : α → State → Prop} {P'' : β → State → Prop} {x : Prog α}
    {f : α → Prog β} (hx : x.Goes own P P') (hf : ∀ a, (f a).Goes own (P' a) P'') : (x.andThen f).Goes own P P'' := fun s h => by
  obtain ⟨a, u, h₁, hu⟩ := hx s h
  obtain ⟨b, t, h₂, ht⟩ := hf a u hu
  exact ⟨b, t, by rw [drive_andThen]; exact (run_bind_ok h₁).trans h₂, ht⟩

/-- One action, where a point before it keeps its premise. -/
theorem Prog.Goes.act {own : Option Port} {P : State → Prop} {P' : α → State → Prop} {m : M Ans} {f : Ans → α}
    (hw : Completes P (window own)) (hm : ∀ s, P s → ∃ a t, m s = .ok a t ∧ ∀ xs, P' (f a) (t.withPast xs)) :
    (Prog.act m fun a => .ret (f a)).Goes own P P' := fun s h => by
  obtain ⟨_, u, h₁, hu⟩ := hw s h
  obtain ⟨a, t, h₂, ht⟩ := hm u hu
  exact ⟨f a, _, (run_bind_ok h₁).trans ((run_bind_ok h₂).trans rfl), ht _⟩

/-- An action that keeps the invariant. -/
def Sure (c : Config) (p : Port) (insts : List (Option Inst)) (Z : BusState → Prop) (m : M Ans) : Prop :=
  Completes (Served c p insts Z) m

theorem Prog.All.goes (hz : EntriesKeep Z) {own : Option Port} {x : Prog α} (hx : x.All (Sure c p insts Z)) :
    x.Goes own (Served c p insts Z) fun _ => Served c p insts Z := by
  induction hx with
  | ret a => exact fun s h => ⟨a, s, rfl, h⟩
  | act hm _ ih =>
    intro s h
    obtain ⟨_, u, h₁, hu⟩ := Served.window hz own s h
    obtain ⟨y, v, h₂, hv⟩ := hm u hu
    obtain ⟨a, t, h₃, ht⟩ := ih y _ (hv.withPast _)
    exact ⟨a, t, (run_bind_ok h₁).trans ((run_bind_ok h₂).trans h₃), ht⟩

/-! Actions. -/

/-- The kinds of actions that always go on, gate no clock, attach no line and install no chain. -/
def Op.totalKinds : List Op.Kind := [.unlock, .answer, .startWait, .emit, .take, .look, .traceReset, .begun, .handshake, .save,
  .restore, .dump, .conclude, .line]

/-- Those and the register accesses, which go on where the port's clock is on. -/
def Op.calmKinds : List Op.Kind := .reg :: .cr2 :: Op.totalKinds

/-- The current buffer's fields are the engine's. -/
theorem BusStep.buffer {k : Op.Kind} {b b' : BusState} (h : BusStep c k b b') :
    b'.curBuf = b.curBuf ∧ b'.totalMsgLen = b.totalMsgLen := by
  cases h with
  | driven _ l => cases l <;> exact ⟨rfl, rfl⟩
  | _ => exact ⟨rfl, rfl⟩

/-- Lines and clock change with the platform's actions only. -/
theorem BusStep.lines {k : Op.Kind} {b b' : BusState} (h : BusStep c k b b') (hk : k ∈ Op.calmKinds) :
    b'.plat.evIrq = b.plat.evIrq ∧ b'.plat.clkEn = b.plat.clkEn := by
  have hno (h : k.Does .plat) : False := by
    obtain rfl | rfl | rfl := h <;> exact absurd hk (by decide)
  cases h with
  | clockOn _ h | pulsed _ h | pins _ _ h | irqs _ _ _ h | clockOff _ h => exact (hno h).elim
  | driven _ l => cases l <;> exact ⟨rfl, rfl⟩
  | _ => exact ⟨rfl, rfl⟩

theorem BusStep.entryReady {k : Op.Kind} {b b' : BusState} (h : BusStep c k b b') (hk : k ≠ .install) (hb : EntryReady c b) :
    EntryReady c b' := hb.congr (h.coherent hb.coherent) (h.msgs hk) h.buffer.1 h.buffer.2

theorem BusStep.busReady {k : Op.Kind} {b b' : BusState} (h : BusStep c k b b') (hk : k ∈ Op.calmKinds) (hb : BusReady c b) :
    BusReady c b' :=
  ⟨h.entryReady (fun e => absurd (e ▸ hk) (by decide)) hb.entry, by rw [(h.lines hk).1, (h.lines hk).2]; exact hb.clock⟩

/-- Actions of these kinds leave the instances. -/
theorem Op.keeps_instances {o : Op} (hk : o.kind ∉ [.store, .free, .openPort]) (ha : o.Allowed c) :
    Keeps (fun s t : State => t.instances = s.instances) (o.run c p) := by
  have hR : Chain fun s t : State => t.instances = s.instances := ⟨fun _ => rfl, fun h k => k.trans h⟩
  by_cases hr : o.kind = .round
  · rw [Op.eq_polledRound hr]
    refine Keeps.bind hR (Keeps.bind hR ?_ fun _ => Keeps.bind hR (Keeps.lookBus hR p _) fun _ => Keeps.pure hR _) fun _ =>
      Keeps.pure hR _
    exact ⟨fun e => ((EngineMoved.engineEntry p).ok e).outside.instances, fun e => ((EngineMoved.engineEntry p).error e).outside.instances⟩
  · refine Op.keeps hR hr ha fun e => ?_
    cases e with
    | updated _ _ _ h | freed _ h | opened h => simp [h] at hk
    | _ => simp [State.decided]

/-- A property of the port that these actions do not touch. -/
def CalmKeeps (Z : BusState → Prop) : Prop := ∀ {c k b b'}, BusStep c k b b' → k ∈ Op.calmKinds → Z b → Z b'

theorem clocked_calm : CalmKeeps BusState.Clocked := fun h hk hz => by rwa [BusState.Clocked, (h.lines hk).2]

theorem detached_calm : CalmKeeps BusState.Detached := fun h hk hz => by rwa [BusState.Detached, (h.lines hk).1]

/-- Such an action is sure where it always goes on. -/
theorem Sure.op (hz : CalmKeeps Z) {o : Op} (hk : o.kind ∈ Op.calmKinds) (ha : o.Allowed c)
    (hok : ∀ s, Served c p insts Z s → ∃ a t, o.run c p s = .ok a t) : Sure c p insts Z (o.run c p) := fun s h => by
  obtain ⟨a, t, e⟩ := hok s h
  have hr : o.kind ≠ .round := fun e => absurd (e ▸ hk) (by decide)
  have hi : o.kind ∉ [.store, .free, .openPort] := by
    intro hm
    simp only [List.mem_cons, List.not_mem_nil, or_false] at hm
    obtain e | e | e := hm <;> exact absurd (e ▸ hk) (by decide)
  have hbus : BusReady c (t.bus p) ∧ Z (t.bus p) :=
    Op.Holds.of_steps (Q := fun b => BusReady c b ∧ Z b) hr ha (fun hb hq => ⟨hb.busReady hk hq.1, hz hb hk hq.2⟩) h.beside.cfg
      ⟨h.ready p, h.port⟩ e
  exact ⟨a, t, e, h.moved ((OpMoved.op o ha).ok e h.beside.cfg) ((Op.keeps_instances hi ha).ok e) hbus.1 hbus.2⟩

theorem Completes.whenTracing {P : State → Prop} {m : M Unit} (hm : Completes P m) : Completes P (whenTracing m) :=
  Completes.bind (Completes.look _) fun _ => Completes.onlyIf _ hm

/-- A piece that always goes on. -/
theorem Completes.of_run {m : M α} (hm : ∀ s, ∃ a t, m s = .ok a t) : Completes (fun _ => True) m := fun s _ => by
  obtain ⟨a, t, h⟩ := hm s
  exact ⟨a, t, h, trivial⟩

theorem Op.completes {o : Op} (h : o.kind ∈ Op.totalKinds) : Completes (fun _ => True) (o.run c p) := by
  have one {β : Type} {m : M β} {f : β → Ans} (hm : Completes (fun _ => True) m) : Completes (fun _ => True) (do return f (← m) : M Ans) :=
    hm.bind fun _ => .pure _
  have does {m : M Unit} (hm : Completes (fun _ => True) m) : Completes (fun _ => True) (do m; return Ans.unit : M Ans) := one hm
  have upd (f : State → State) : Completes (fun _ => True) (upd f) := .upd fun _ _ => trivial
  have bus (f : BusState → BusState) : Completes (fun _ => True) (updBus p f) := upd _
  cases o
  case answer x => exact does (upd _)
  case unlock x => exact does ((bus _).bind fun _ => upd _)
  case driven l v => exact does (bus _)
  case delay => exact does (bus _)
  case begun => exact does (bus _)
  case handshake x => exact does (bus _)
  case restoreFsmc x => exact does (upd _)
  case readPin l => exact one ((Completes.of_run fun s => ⟨_, _, run_drawPin s⟩).bind fun _ => (bus _).bind fun _ => .pure _)
  case startWait msgs => exact one ((bus _).bind fun _ => .of_run fun s => ⟨_, _, run_drawWait s⟩)
  case emit ev x => exact does (bus _).whenTracing
  case traceReset => exact does (Completes.whenTracing ((Completes.of_run fun s => ⟨_, _, run_drawTime s⟩).bind fun _ => bus _))
  case traceDump => exact does (bus _).whenTracing
  case lookDone => exact one (.look _)
  case lookStatus => exact one (.look _)
  case frequencyOf d x => exact one (.look _)
  case takeOrSignal => exact one ((Completes.look _).bind fun _ => .ite ((bus _).bind fun _ => .pure _) (.pure _))
  case expire => exact one ((Completes.look _).bind fun _ => .ite ((bus _).bind fun _ => .pure _) ((bus _).bind fun _ => .pure _))
  case saveFsmc => exact one ((Completes.look _).bind fun _ => (upd _).bind fun _ => .pure _)
  case conclude e => exact does ((bus _).bind fun _ => (upd _).bind fun _ => (upd _).bind fun _ => upd _)
  case put r v | modify r x v =>
    simp only [Op.kind] at h
    split at h <;> exact absurd h (by decide)
  all_goals exact absurd h (of_decide_eq_false rfl)

/-- What the invariant at the points of a call with the port's clock on says of the port. -/
abbrev On (c : Config) (p : Port) (insts : List (Option Inst)) : M Ans → Prop := Sure c p insts BusState.Clocked

namespace On

theorem total (o : Op) (hk : decide (o.kind ∈ Op.totalKinds) = true := by rfl) (ha : o.Allowed c := by trivial) : On c p insts (o.run c p) :=
  Sure.op clocked_calm (List.mem_cons_of_mem _ (List.mem_cons_of_mem _ (of_decide_eq_true hk))) ha fun s _ => by
    obtain ⟨a, t, h, -⟩ := Op.completes (of_decide_eq_true hk) s trivial
    exact ⟨a, t, h⟩

theorem reg {o : Op} (hk : o.kind = .reg ∨ o.kind = .cr2) (ha : o.Allowed c)
    (hok : ∀ s : State, (s.bus p).plat.clkEn = true → ∃ a t, o.run c p s = .ok a t) : On c p insts (o.run c p) :=
  Sure.op clocked_calm (by obtain h | h := hk <;> rw [h] <;> decide) ha fun s h => hok s h.port

theorem get (r : Reg) (hr : mapped r = true := by rfl) : On c p insts ((Op.get r).run c p) :=
  reg (.inl rfl) trivial fun _ hc => ⟨_, _, run_bind_ok (regGet_run hr hc)⟩

theorem put (r : Reg) (v : Half) (hm : mapped r = true := by rfl) (hr : r ≠ .sr2 := by decide) : On c p insts ((Op.put r v).run c p) :=
  reg (by simp only [Op.kind]; split <;> simp) trivial fun _ hc => ⟨_, _, run_bind_ok (regPut_run hm hr hc)⟩

theorem modify (r : Reg) (x v : Half) (hr : isControl r = true := by rfl) : On c p insts ((Op.modify r x v).run c p) :=
  reg (by simp only [Op.kind]; split <;> simp) trivial fun _ hc => ⟨_, _, run_bind_ok (regModify_run hr hc)⟩

/-- A round of the polled loop: the entry runs to its end. -/
theorem polledRound : On c p insts (Op.polledRound.run c p) := fun s h => by
  obtain ⟨hrun, ht⟩ := h.entry clocked_kept h.port
  exact ⟨_, _, run_bind_ok (run_bind_ok hrun), ht⟩

end On

/-! The parts of a transfer. -/

/-- Every action of the program keeps the invariant. -/
abbrev Prog.Sure (c : Config) (p : Port) (insts : List (Option Inst)) (x : Prog α) : Prop := x.All (On c p insts)

namespace Prog.Sure

theorem op {m : M Ans} {f : Ans → α} (h : On c p insts m) : (Prog.act m fun x => .ret (f x)).Sure c p insts := .act h fun _ => .ret _

theorem andThen {x : Prog α} {f : α → Prog β} (hx : x.Sure c p insts) (hf : ∀ a, (f a).Sure c p insts) :
    (x.andThen f).Sure c p insts := Prog.All.andThen hx hf

theorem ite {a : Prop} [Decidable a] {x y : Prog α} (hx : x.Sure c p insts) (hy : y.Sure c p insts) :
    (if a then x else y).Sure c p insts := Prog.All.ite hx hy

theorem onlyIf (a : Bool) {x : Prog Unit} (hx : x.Sure c p insts) : (Prog.onlyIf a x).Sure c p insts := ite hx (.ret _)

theorem startWait (msgs : List Message) : (startWait c p msgs).Sure c p insts := op (On.total (.startWait msgs))

theorem settleLoop (n : Nat) : (settleLoop c p n).Sure c p insts := by
  induction n with
  | zero => exact andThen (op (On.get .cr1)) fun v => ite (andThen (op (On.get .sr1)) fun _ => ite (.ret _)
      (op (On.total (.emit .stopSettleTimeout v.toNat)))) (.ret _)
  | succ n ih => exact andThen (op (On.get .cr1)) fun _ => ite (andThen (op (On.get .sr1)) fun _ => ite (.ret _) ih) (.ret _)

theorem stopSettle (msgs : List Message) : (stopSettle c p msgs).Sure c p insts := andThen (startWait msgs) settleLoop

/-- R190: a frequency that fits is not refused. -/
theorem clkProgram {fp ft : Nat} (h : clockRefusal c.layout c.duty169 fp ft = none) : (clkProgram c p fp ft).Sure c p insts := by
  refine andThen (op (On.get .cr1)) fun v => andThen (op (On.put .cr1 _)) fun _ => ?_
  rw [h]
  exact andThen (op (On.put .ccr _)) fun _ => andThen (op (On.put .trise _)) fun _ => andThen (op (On.put .oar1 _)) fun _ =>
    op (On.put .cr1 _)

theorem polledLoop (n : Nat) : (polledLoop p n).Sure c p insts := by
  induction n with
  | zero => exact op On.polledRound
  | succ n ih => exact andThen (op On.polledRound) fun _ => ite (.ret _) ih

theorem takeLoop (n : Nat) : (takeLoop p n).Sure c p insts := by
  induction n with
  | zero => exact op (On.total .expire)
  | succ n ih =>
    exact andThen (op (On.total .takeOrSignal)) fun _ => ite (andThen (op (On.total .lookDone)) fun _ => ite (.ret _) ih) ih

theorem modeWait (msgs : List Message) : (modeWait c p msgs).Sure c p insts := by
  unfold Machine.modeWait
  cases c.mode with
  | interrupt =>
    exact andThen (startWait msgs) fun n => andThen (andThen (op (On.total (.handshake .waiting))) fun _ => op (On.modify .cr2 _ _))
      fun _ => andThen (takeLoop n) fun _ => andThen (op (On.modify .cr2 _ _)) fun _ => .ret _
  | polled => exact andThen (startWait msgs) polledLoop

theorem completionWait (msgs : List Message) : (completionWait c p msgs).Sure c p insts :=
  andThen (modeWait msgs) fun _ => andThen (op (On.total (.handshake .idle))) fun _ => .ret _

theorem transferResult (ok : Bool) : (transferResult c p ok).Sure c p insts :=
  ite (andThen (op (On.total .lookStatus)) fun _ => .ret _)
    (andThen (andThen (op (On.get .sr1)) fun _ => andThen (op (On.get .sr2)) fun _ => andThen (op (On.modify .cr1 _ _)) fun _ =>
      andThen (onlyIf _ (op (On.modify .cr1 _ _))) fun _ => .ret _) fun _ => .ret _)

theorem openFsmc (active : Bool) : (openFsmc active).Sure c p insts := ite (op (On.total .saveFsmc)) (.ret _)

theorem closeFsmc (msgs : List Message) (active saved : Bool) : (closeFsmc c p msgs active saved).Sure c p insts :=
  onlyIf _ (andThen (stopSettle msgs) fun _ => op (On.total (.restoreFsmc saved)))

theorem closeTransfer (e : ErrVal) : (closeTransfer c p e).Sure c p insts :=
  andThen (op (On.total .traceDump)) fun _ => op (On.total (.conclude e))

end Prog.Sure

/-- R305: a chain of admissible messages leaves the port ready. -/
theorem On.install {msgs : List Message} (hm : ∀ m ∈ msgs, Admissible c m) : On c p insts ((Op.install msgs).run c p) := fun s h => by
  have hb := h.ready p
  have hin : BusReady c ((s.bus p).install msgs) := ⟨⟨(BusStep.install (c := c) _ _).coherent hb.entry.coherent, hm, hb.entry.buffer⟩, hb.clock⟩
  have hrun : (Op.install msgs).run c p s = .ok .unit (s.setBus p ((s.bus p).install msgs)) := rfl
  exact ⟨_, _, hrun, h.moved ((OpMoved.op (.install msgs) trivial).ok hrun h.beside.cfg) (State.setBus_instances ..)
    (by rw [State.bus_setBus_same]; exact hin) (by rw [State.bus_setBus_same]; exact h.port)⟩

/-- Steps 2 to 6 end where the instance's frequency fits. -/
theorem Prog.Goes.startTransfer {own : Option Port} {d : Nat} {x : Inst} {msgs : List Message} (settle : Bool)
    (hx : ∀ s : State, s.instances = insts → s.inst d = some x) (hm : ∀ m ∈ msgs, Admissible c m)
    (hf : clockRefusal c.layout c.duty169 c.pclk x.frequency = none) :
    (startTransfer c d x msgs settle).Goes own (Served c x.port insts BusState.Clocked) fun _ => Served c x.port insts BusState.Clocked := by
  have sure {γ : Type} {y : Prog γ} (hy : y.Sure c x.port insts) := Prog.All.goes clocked_kept (own := own) hy
  refine (sure (.onlyIf settle (.stopSettle msgs))).andThen fun _ => (sure (.op (On.put .sr1 0))).andThen fun _ =>
    (sure (.op (On.modify .cr1 _ _))).andThen fun _ => (sure (.op (On.install hm))).andThen fun _ =>
    (sure (.op (On.total .traceReset))).andThen fun _ => ?_
  refine Prog.Goes.andThen (P' := fun f s => f = x.frequency ∧ Served c x.port insts BusState.Clocked s)
    (.act (Served.window clocked_kept own) fun s h => ⟨_, _, rfl, fun xs => ⟨?_, h.withPast xs⟩⟩) fun f s ⟨hfx, h⟩ => ?_
  · simp [Ans.toNum, hx s h.instances]
  · rw [hfx]
    exact (sure (.andThen (.clkProgram hf) fun _ => .andThen (.op (On.total .begun)) fun _ => .op (On.modify .cr1 _ _))) s h

/-- A transfer with the lock held. -/
theorem Prog.Goes.runTransfer {own : Option Port} {d : Nat} {x : Inst} {msgs : List Message}
    (hx : ∀ s : State, s.instances = insts → s.inst d = some x) (hm : ∀ m ∈ msgs, Admissible c m)
    (hf : clockRefusal c.layout c.duty169 c.pclk x.frequency = none) :
    (runTransfer c d x msgs).Goes own (Served c x.port insts BusState.Clocked) fun _ => Served c x.port insts BusState.Clocked := by
  have sure {γ : Type} {y : Prog γ} (hy : y.Sure c x.port insts) := Prog.All.goes clocked_kept (own := own) hy
  exact (sure (.openFsmc _)).andThen fun _ => (Prog.Goes.startTransfer _ hx hm hf).andThen fun _ => sure <|
    .andThen (.completionWait msgs) fun _ => .andThen (.transferResult _) fun _ => .andThen (.closeFsmc msgs _ _) fun _ =>
    .closeTransfer _

/-! A call that finds its lock free. -/

/-- The port's clock is on and its lock free. -/
def BusState.Free (b : BusState) : Prop := b.Clocked ∧ b.lock = .free

theorem free_kept : EntriesKeep BusState.Free := fun h k => ⟨clocked_kept h k.1, h.lock.trans k.2⟩

theorem Prog.Goes.theInst {own : Option Port} {d : Nat} {x : Inst} (hx : ∀ s : State, s.instances = insts → s.inst d = some x) :
    (theInst d).Goes own (Served c p insts BusState.Free) fun y s => y = x ∧ Served c p insts BusState.Free s :=
  .act (Served.window free_kept own) fun s h => by
    have hrun : getInst d s = .ok x s := by simp [getInst, run_bind, hx s h.instances]
    exact ⟨_, _, run_bind_ok hrun, fun xs => ⟨rfl, h.withPast xs⟩⟩

theorem Prog.Goes.acquire {own : Option Port} {d : Nat} :
    (acquire p d).Goes own (Served c p insts BusState.Free) fun ok s => ok = true ∧ Served c p insts BusState.Clocked s :=
  .act (Served.window free_kept own) fun s h => by
    have hrun : (Op.tryAcquire d).run c p s = .ok (.flag true) (s.changed p (·.locked d)) := run_bind_ok (tryAcquire_run d h.port.2)
    have hb := h.ready p
    have hl : BusReady c ((s.bus p).locked d) := ⟨(BusStep.locked (c := c) _ d).entryReady (by decide) hb.entry, hb.clock⟩
    refine ⟨_, _, hrun, fun xs => ⟨rfl, Served.withPast ?_ xs⟩⟩
    exact h.moved ((OpMoved.op (.tryAcquire d) trivial).ok hrun h.beside.cfg) (State.setBus_instances ..)
      (by simpa using hl) (by rw [State.changed, State.bus_setBus_same]; exact h.port.1)

/-- From a ready machine a call that finds its lock free and its port's clock on ends where what it does under the lock does. -/
theorem exec_goes {s : State} {i : Instr} {d : Nat} {x : Inst} {f : Config → Prog Unit} {g k : Inst → Prog Unit}
    {P : Unit → State → Prop} (hi : IsLocking s i d f g k) (hp : s.portOf i = (s.inst d).map (·.port)) (hr : Ready s) (hs : Solo s)
    (hl : LockTaken s d x) (hc : (s.bus x.port).plat.clkEn = true)
    (hk : (k x).Goes (some x.port) (Served s.cfg x.port s.instances BusState.Clocked) P) :
    ∃ u, exec i s = .next (u.withPast []) ∧ P () u := by
  have h₀ : Served s.cfg x.port s.instances BusState.Free (s.withPast []) :=
    Served.withPast ⟨fun q => ⟨hr.entry q, hr.clock q⟩, ⟨hs, rfl⟩, rfl, hc, hl.lock⟩ []
  have hx (u : State) (hu : u.instances = s.instances) : u.inst d = some x := by
    rw [State.inst, hu]
    exact hl.inst
  have hport : (s.withPast []).portOf i = some x.port := by
    rw [show (s.withPast []).portOf i = s.portOf i by cases i <;> rfl, hp, hl.inst]
    rfl
  have hgoes : ((theInst d).andThen g).Goes (some x.port) (Served s.cfg x.port s.instances BusState.Free) P :=
    (Prog.Goes.theInst hx).andThen fun y v ⟨hy, hv⟩ => by
      rw [hy, hi.lock x hl.inst]
      exact (Prog.Goes.acquire.andThen fun ok w ⟨hok, hw⟩ => by rw [hok]; exact hk w hw) v hv
  obtain ⟨_, u, hrun, hu⟩ := hgoes _ h₀
  refine ⟨u, ?_, hu⟩
  rw [hi.exec, call, driveCall_of_port hport, hi.program, hrun]

/-! The transfer. -/

/-- No entry of the port can start, and the handshake is IDLE. -/
def BusState.Idle (c : Config) (b : BusState) : Prop := (c.mode = .polled ∨ b.NoEnables c) ∧ b.intstate = .idle

theorem idle_held : PortHeld c p (·.Idle c) where
  refused := id
  runs := fun {s _} hc h hcan => by
    subst hc
    obtain hm | hn := h.1
    · rw [((canEnter_iff s p).1 hcan).1] at hm
      cases hm
    · rw [hn.canEnter] at hcan
      cases hcan
  entered := fun {s} _ h => by
    obtain ⟨t, log, hb⟩ := s.entered_bus p
    rw [hb]
    exact h

theorem idle_uses {x : Prog α} {ks : List Op.Kind} (hx : x.Uses c p ks) {s t : State} {a : α} (hs : Beside c s)
    (hq : (s.bus p).Idle c) (e : drive (some p) x s = .ok a t) (hk : ∀ k ∈ ks, k ∉ .round :: .handshake :: Op.cr2Kinds := by decide) :
    (t.bus p).Idle c ∧ Beside c t :=
  idle_held.uses hx (fun k h => ⟨fun hr => hk k h (by simp [hr]), fun hb hq =>
    ⟨hq.1.imp id fun hn => hb.noEnables (fun hm => hk k h (by simp [hm])) hn, (hb.intstate fun hr => hk k h (by simp [hr])).trans hq.2⟩⟩)
    hs hq e

/-- Step 7 leaves the handshake IDLE and no entry of the port that could change it. -/
theorem completionWait_idle {msgs : List Message} {s t : State} {ok : Bool} (hs : Beside c s)
    (h : drive (some p) (completionWait c p msgs) s = .ok ok t) : (t.bus p).Idle c := by
  obtain ⟨u, hwait, hidle, hd⟩ := completionWait_ok_inv h
  refine ⟨?_, hd⟩
  have hu := (Prog.Uses.modeWait msgs).beside hs hwait
  unfold modeWait at hwait
  split at hwait
  · exact .inr (noEnables_uses (Prog.Uses.op (.handshake .idle) (ks := [.handshake])) hu (waitInterrupt_noEnables hwait) hidle).1
  · exact .inl ‹_›

/-- What a transfer that ends leaves of its port. -/
theorem runTransfer_leaves {d : Nat} {x : Inst} {msgs : List Message} {s t : State} {a : Unit} (hs : Beside c s)
    (h : drive (some x.port) (runTransfer c d x msgs) s = .ok a t) : (t.bus x.port).lock = .free ∧ (t.bus x.port).intstate = .idle ∧
      (t.bus x.port).msgs = msgs ∧ t.ret = returnValue c t.errval := by
  obtain ⟨saved, ok, e, s₁, s₂, s₃, s₄, s₅, h₁, h₂, h₃, h₄, h₅, h₆⟩ := runTransfer_ok_inv h
  have b₁ := (Prog.Uses.openFsmc (p := x.port) _).beside hs h₁
  have b₂ := (Prog.Uses.startTransfer d x msgs _).beside b₁ h₂
  have b₃ := (Prog.Uses.completionWait msgs).beside b₂ h₃
  have i₄ := idle_uses (Prog.Uses.transferResult ok) b₃ (completionWait_idle b₂ h₃) h₄
  have i₅ := idle_uses (Prog.Uses.closeFsmc msgs _ saved) i₄.2 i₄.1 h₅
  have i₆ := idle_uses (Prog.Uses.closeTransfer e) i₅.2 i₅.1 h₆
  obtain ⟨he, hr, hl⟩ := closeTransfer_ok_inv h₆
  have m₃ := chain_uses (Prog.Uses.completionWait msgs) b₂ (startTransfer_chain d x msgs _ _ _ _ b₁ h₂) h₃
  have m₄ := chain_uses (Prog.Uses.transferResult ok) m₃.2 m₃.1 h₄
  have m₅ := chain_uses (Prog.Uses.closeFsmc msgs _ saved) m₄.2 m₄.1 h₅
  have m₆ := chain_uses (Prog.Uses.closeTransfer e) m₅.2 m₅.1 h₆
  exact ⟨hl, i₆.1.2, m₆.1, by rw [hr, he]⟩

/-- Settles O36: from a ready machine every action of the transfer goes on, and every entry beside it; what it leaves is read off
its steps. -/
theorem transferCompletes : Obligations.TransferCompletes := by
  intro s i d msgs x hr hs hc hl hne hm hf hclk
  obtain ⟨f, g, hi⟩ := callOf_program hc
  have hx (u : State) (hu : u.instances = s.instances) : u.inst d = some x := by
    rw [State.inst, hu]
    exact hl.inst
  obtain ⟨v, hex, hv⟩ := exec_goes (hi.locking hne) (portOf_of_callOf hc) hr hs hl hclk
    (Prog.Goes.runTransfer hx hm (clockRefusal_eq_none hf))
  have ht := hv.withPast []
  obtain ⟨a, b, u, k⟩ := exec_transfer_inv hs hc hl hex
  obtain ⟨h₁, h₂, h₃, h₄⟩ := runTransfer_leaves k.beside.2 k.ran
  have hbus : ((v.withPast []).bus x.port) = u.bus x.port := by rw [k.eq, State.withPast_bus]
  refine ⟨_, hex, ht.toReady, ht.beside.toSolo, by rw [hbus, h₁], by rw [hbus, h₂], by rw [hbus, h₃], ?_, ?_⟩
  · rw [(ht.ready x.port).entry.coherent.count, hbus, h₃]
  · rw [k.eq]
    exact h₄

end Sys2Proof.Machine
end

section
/-! That OP_RESET completes from a ready machine (47_lifecycle_trace_ops R343). -/

namespace Sys2Proof.Machine

variable {α β : Type} {c : Config} {p : Port} {insts : List (Option Inst)} {Z Z' : BusState → Prop}

/-! Changes of the platform. -/

/-- The transfer fields do not depend on the platform and the registers. -/
theorem EntryReady.platform {b : BusState} (h : EntryReady c b) (x : Platform) (r : Regs) :
    EntryReady c { b with plat := x, regs := r } := h.congr { h.coherent with } rfl rfl rfl

/-- One write of the port's Bus State. -/
theorem Prog.Goes.write {own : Option Port} {f : BusState → BusState} (hz : EntriesKeep Z) (o : Op) (ha : o.Allowed c)
    (ho : o.run c p = do updBus p f; return .unit) (hf : ∀ b, BusReady c b → Z b → BusReady c (f b) ∧ Z' (f b)) :
    (Machine.write p f).Goes own (Served c p insts Z) fun _ => Served c p insts Z' :=
  .act (Served.window hz own) fun s h => by
    obtain ⟨hb, hz'⟩ := hf _ (h.ready p) h.port
    have hrun : o.run c p s = .ok .unit (s.setBus p (f (s.bus p))) := by rw [ho]; rfl
    exact ⟨.unit, s.setBus p (f (s.bus p)), rfl, fun xs => Served.withPast (h.moved ((OpMoved.op o ha).ok hrun h.beside.cfg)
      (State.setBus_instances ..) (by rwa [State.bus_setBus_same]) (by rwa [State.bus_setBus_same])) xs⟩

/-- The port's clock is on and its lines are detached. -/
def BusState.Parting (b : BusState) : Prop := b.Clocked ∧ b.Detached

theorem parting_kept : EntriesKeep BusState.Parting := fun h k => ⟨clocked_kept h k.1, detached_kept h k.2⟩

/-- R341: the lines detached before the clock goes. -/
theorem Prog.Goes.lifeDown {own : Option Port} :
    (lifeDown p).Goes own (Served c p insts BusState.Clocked) fun _ => Served c p insts BusState.Detached :=
  (Prog.All.goes clocked_kept (Prog.Sure.op (On.put .cr1 0))).andThen fun _ =>
    (Goes.write (Z' := BusState.Parting) clocked_kept (.irqs false) nofun rfl
      fun b hb hc => ⟨⟨hb.entry.platform _ _, nofun⟩, hc, rfl⟩).andThen fun _ =>
    (Goes.write (Z' := BusState.Parting) parting_kept (.pins .unconf) trivial rfl
      fun b hb hc => ⟨⟨hb.entry.platform _ _, hb.clock⟩, hc⟩).andThen fun _ =>
    Goes.write parting_kept .clockOff trivial rfl fun b hb hc =>
      ⟨⟨hb.entry.platform _ _, fun h => by rw [show b.clockOff.plat.evIrq.attached = b.plat.evIrq.attached from rfl, hc.2] at h; cases h⟩, hc.2⟩

/-- R342 with a clock its fields hold: the lines attached after the clock is on. -/
theorem Prog.Goes.lifeUp {own : Option Port} (hz : EntriesKeep Z) (hf : BringUpFits c) :
    (lifeUp c p).Goes own (Served c p insts Z) fun _ => Served c p insts BusState.Clocked := by
  have sure {γ : Type} {y : Prog γ} (hy : y.Sure c p insts) := Prog.All.goes clocked_kept (own := own) hy
  refine (Goes.write (Z' := BusState.Clocked) hz .clockOn trivial rfl fun b hb _ => ⟨⟨hb.entry.platform _ _, fun _ => rfl⟩, rfl⟩).andThen fun _ => ?_
  refine (Goes.write (Z' := BusState.Clocked) clocked_kept .pulsed trivial rfl
    fun b hb hc => ⟨⟨hb.entry.platform _ _, fun _ => hc⟩, hc⟩).andThen fun _ => ?_
  refine (Goes.write (Z' := BusState.Clocked) clocked_kept (.pins .afOd) trivial rfl
    fun b hb hc => ⟨⟨hb.entry.platform _ _, fun _ => hc⟩, hc⟩).andThen fun _ => ?_
  have hirqs : (Prog.onlyIf (c.mode == .interrupt) (Machine.write p (·.irqs true))).Goes own (Served c p insts BusState.Clocked)
      fun _ => Served c p insts BusState.Clocked := by
    unfold Prog.onlyIf
    split
    · rename_i hm
      exact Goes.write clocked_kept (.irqs true) (fun _ => by simpa using hm) rfl
        fun b hb hc => ⟨⟨hb.entry.platform _ _, fun _ => hc⟩, hc⟩
    · exact sure (.ret _)
  refine hirqs.andThen fun _ => sure ?_
  rw [demand, if_pos (by simpa using hf.1)]
  exact .andThen (.ret _) fun _ => .andThen (.op (On.put .cr2 _)) fun _ => .andThen (.clkProgram (clockRefusal_eq_none hf.2)) fun _ =>
    .op (On.modify .cr1 _ _)

/-! The recovery. -/

/-- Actions that always go on keep the invariant. -/
theorem Prog.Uses.goes {own : Option Port} {ks : List Op.Kind} {x : Prog α} (hx : x.Uses c p ks) (hz : EntriesKeep Z) (hk : CalmKeeps Z)
    (ht : ks ⊆ Op.totalKinds := by decide) : x.Goes own (Served c p insts Z) fun _ => Served c p insts Z :=
  Prog.All.goes hz <| hx.all fun o ho ha =>
    Machine.Sure.op hk (List.mem_cons_of_mem _ (List.mem_cons_of_mem _ (ht ho))) ha fun s _ => by
      obtain ⟨a, t, h, -⟩ := Op.completes (c := c) (p := p) (ht ho) s trivial
      exact ⟨a, t, h⟩

/-- R343, whatever the pins read. -/
theorem Prog.Goes.recoverBus {own : Option Port} (hf : BringUpFits c) :
    (recoverBus c p).Goes own (Served c p insts BusState.Clocked) fun _ => Served c p insts BusState.Clocked := by
  have pins (m : PinMode) : (Machine.write p (·.pins m)).Goes own (Served c p insts BusState.Detached)
      fun _ => Served c p insts BusState.Detached :=
    Goes.write detached_kept (.pins m) trivial rfl fun b hb hd => ⟨⟨hb.entry.platform _ _, hb.clock⟩, hd⟩
  have lines {γ : Type} {y : Prog γ} (hy : y.Uses c p [.line]) : y.Goes own (Served c p insts BusState.Detached)
      fun _ => Served c p insts BusState.Detached := hy.goes detached_kept detached_calm
  exact Goes.lifeDown.andThen fun _ => (pins .gpio).andThen fun _ => (lines (.op (.driven .sda true))).andThen fun _ =>
    (lines (.pulseLoop _)).andThen fun _ => (lines .manualStartStop).andThen fun _ => (pins .afOd).andThen fun _ =>
    .lifeUp detached_kept hf

/-! What it returns, and what it leaves of the references. -/

/-- The return of OP_RESET. -/
theorem Prog.Goes.releaseAndReturn {own : Option Port} (x : Int) :
    (releaseAndReturn p x).Goes own (Served c p insts BusState.Clocked)
      fun _ s => Served c p insts BusState.Clocked s ∧ s.ret = x ∧ (s.bus p).lock = .free :=
  .act (Served.window clocked_kept own) fun s h => by
    obtain ⟨a, t, hrun, ht⟩ := (On.total (c := c) (p := p) (insts := insts) (.unlock x)) s h
    refine ⟨a, t, hrun, fun xs => ⟨ht.withPast xs, ?_, ?_⟩⟩
    all_goals
      cases hrun
      simp [BusState.unlocked]

/-- References are counted by opening and releasing a handle only. -/
theorem Books.moves {q : Port} {ks : List Op.Kind} {x : Prog α} (hx : x.Uses c p ks) (hk : ∀ k ∈ ks, k ∉ Books.counting := by decide) :
    x.Moves c (Books q False False) :=
  .uses soloChain hx fun _ ho ha =>
    have hop := op (q := q) (p := p) (hk _ ho) ha
    ⟨fun e => (hop.ok e).mono nofun nofun, fun e => (hop.error e).mono nofun nofun⟩

theorem exec_opReset_refs {s t : State} {d : Nat} (hs : Solo s) (h : exec (.opReset d) s = .next t) (q : Port) :
    (t.bus q).refs = (s.bus q).refs := by
  refine (Books.soloChain (q := q) (L := False) (C := False)).call_finds (c := s.cfg) (p := .i2c1) (fun _ _ => .congr (by simp) rfl)
    s.cfg.recoveryOn .optionOff (f := (opReset · d)) rfl (finds_getInst d) ⟨.getInst d, trivial, rfl⟩ (fun x => ?_) ⟨hs, rfl⟩ h |>.refs
  exact Books.moves (p := x.port) (ks := .lock :: .unlock :: .answer :: Prog.Uses.recoveryKinds)
    (Prog.Uses.andThen (.op (.tryAcquire d)) fun _ => .ite
      (Prog.Uses.andThen Prog.Uses.recoverBus.mono fun _ => .op (.unlock _)) (.op (.answer _)))

/-- Settles O51: shut-down, the lines and bring-up go on from a ready machine, and so does every entry in between. -/
theorem resetAlwaysCompletes : Obligations.ResetAlwaysCompletes := by
  intro s d x hr hs hon hl hf hclk
  have hi : IsLocking s (.opReset d) d (opReset · d) _
      fun x => (recoverBus s.cfg x.port).andThen fun _ => releaseAndReturn x.port 0 :=
    ⟨rfl, by rw [opReset, offered, if_pos hon], fun _ _ => rfl⟩
  obtain ⟨u, hex, hu, hret, hlock⟩ := exec_goes hi rfl hr hs hl hclk
    ((Prog.Goes.recoverBus hf).andThen fun _ => Prog.Goes.releaseAndReturn 0)
  have ht := hu.withPast []
  exact ⟨_, hex, ht.toReady, hret, by simpa using hlock, ht.port, ht.instances, ht.beside.toSolo, exec_opReset_refs hs hex⟩

end Sys2Proof.Machine
end

section
/-! The recorder seen from outside (47_lifecycle_trace_ops section 3): whatever runs, what it answers and leaves but for the
rings, the host logs and the clock of dumps is the same whatever these were. -/

namespace Sys2Proof.Machine

variable {α β : Type} {c : Config} {p : Port}

/-! States without the recorder's part. -/

theorem State.sansTrace_setBus (s : State) (p : Port) (b : BusState) : (s.setBus p b).sansTrace = s.sansTrace.setBus p b.sansTrace := by
  cases p <;> rfl

theorem State.bus_sansTrace (s : State) (p : Port) : s.sansTrace.bus p = (s.bus p).sansTrace := by
  cases p <;> rfl

/-- What a function of the state does not read of the recorder. -/
def Ignores (f : State → α) : Prop := ∀ s, f s = f s.sansTrace

/-- A change of the state that is the same whatever the recorder holds, but for what it leaves there. -/
def Respects (f : State → State) : Prop := Ignores fun s => (f s).sansTrace

theorem Ignores.eq {f : State → α} (h : Ignores f) {s t : State} (e : s.sansTrace = t.sansTrace) : f s = f t := by
  rw [h s, e, ← h t]

theorem Respects.eq {f : State → State} (h : Respects f) {s t : State} (e : s.sansTrace = t.sansTrace) :
    (f s).sansTrace = (f t).sansTrace := Ignores.eq h e

theorem Respects.comp {f g : State → State} (hg : Respects g) (hf : Respects f) : Respects fun s => g (f s) :=
  fun s => hg.eq (hf s)

theorem Ignores.bus {f : BusState → α} (h : ∀ b, f b = f b.sansTrace) (p : Port) : Ignores fun s => f (s.bus p) :=
  fun s => (h _).trans (congrArg f (s.bus_sansTrace p).symm)

theorem Respects.setBus {f : BusState → BusState} (h : ∀ b, (f b).sansTrace = (f b.sansTrace).sansTrace) (p : Port) :
    Respects fun s => s.setBus p (f (s.bus p)) := fun s => by
  show (s.setBus p (f (s.bus p))).sansTrace = (s.sansTrace.setBus p (f (s.sansTrace.bus p))).sansTrace
  rw [State.sansTrace_setBus, State.sansTrace_setBus, State.bus_sansTrace, h]
  rfl

theorem Respects.stored (w : Option Port) (a : Nat) (v : Byte) : Respects (·.stored w a v) := fun s => by
  show (s.stored w a v).sansTrace = (s.sansTrace.stored w a v).sansTrace
  have ho : s.sansTrace.ownedByOther w a = s.ownedByOther w a := rfl
  have hr : s.sansTrace.raceOf a = s.raceOf a := rfl
  unfold State.stored
  rw [ho, hr]
  split <;> rfl

theorem Respects.decided : Respects State.decided := fun _ => rfl

theorem BusState.sansTrace_stopped (b : BusState) (e : Stop) : (b.stopped e).sansTrace = (b.sansTrace.stopped e).sansTrace := by
  cases e <;> rfl

theorem Respects.stopped (e : Stop) (q : Option Port) : Respects (·.stopped e q) := by
  cases q with
  | none => exact fun _ => rfl
  | some q => exact .comp (g := (·.withIntsOff false)) (fun _ => rfl) (.setBus (fun b => b.sansTrace_stopped e) q)

theorem Respects.released (p : Port) : Respects fun s => (s.setBus p (s.bus p).released).decided :=
  .comp .decided (.setBus (fun _ => rfl) p)

theorem Respects.givenBack (x : Thread) : Respects (·.givenBack x) := by
  unfold State.givenBack
  split
  · exact .comp (g := (·.withFsmc _)) (fun _ => rfl) (.released _)
  · exact .released _
  · exact fun _ => rfl

theorem Respects.answered (k : Nat) (x : Thread) (a : Ans) (done : Bool) : Respects (·.answered k x a done) := by
  cases done <;> exact fun _ => rfl

/-! Pieces that are blind to the recorder. -/

/-- An outcome without what it leaves in the recorder. -/
def sansTrace : EStateM.Result Stop State α → EStateM.Result Stop State α
  | .ok a t => .ok a t.sansTrace
  | .error e t => .error e t.sansTrace

/-- A piece answers, stops and leaves the same whatever the recorder holds, but for what it leaves there. -/
def Blind (m : M α) : Prop := ∀ s t : State, s.sansTrace = t.sansTrace → sansTrace (m s) = sansTrace (m t)

/-- Two runs without the recorder's part are the same: they end alike. -/
theorem sansTrace_eq {r r' : EStateM.Result Stop State α} (h : sansTrace r = sansTrace r') :
    (∃ a t t', r = .ok a t ∧ r' = .ok a t' ∧ t.sansTrace = t'.sansTrace) ∨
    (∃ e t t', r = .error e t ∧ r' = .error e t' ∧ t.sansTrace = t'.sansTrace) := by
  cases r <;> cases r' <;> simp only [sansTrace, EStateM.Result.ok.injEq, EStateM.Result.error.injEq, reduceCtorEq] at h
  · obtain ⟨rfl, h⟩ := h
    exact .inl ⟨_, _, _, rfl, rfl, h⟩
  · obtain ⟨rfl, h⟩ := h
    exact .inr ⟨_, _, _, rfl, rfl, h⟩

namespace Blind

theorem pure (a : α) : Blind (Pure.pure a : M α) := fun _ _ h => congrArg (EStateM.Result.ok a) h

theorem bind {m : M α} {k : α → M β} (hm : Blind m) (hk : ∀ a, Blind (k a)) : Blind (m >>= k) := fun s t h => by
  obtain ⟨a, u, u', e, e', hu⟩ | ⟨x, u, u', e, e', hu⟩ := sansTrace_eq (hm s t h)
  · rw [run_bind_ok e, run_bind_ok e']
    exact hk a u u' hu
  · rw [run_bind_error e, run_bind_error e']
    exact congrArg (EStateM.Result.error x) hu

/-- A value looked up: what follows is blind for each value there can be. -/
theorem lookThen {f : State → α} {k : α → M β} (hf : Ignores f) (hk : ∀ s, Blind (k (f s))) : Blind (look f >>= k) := fun s t h => by
  rw [run_bind_ok (run_look _ _), run_bind_ok (run_look _ _), ← hf.eq h]
  exact hk s s t h

theorem look {f : State → α} (hf : Ignores f) : Blind (look f) := fun s t h => by
  show EStateM.Result.ok (f s) _ = EStateM.Result.ok (f t) _
  rw [hf.eq h, h]

theorem lookBus {f : BusState → α} (hf : ∀ b, f b = f b.sansTrace) : Blind (lookBus p f) := look (.bus hf p)

/-- The whole Bus State looked up, by what uses nothing of its recorder. -/
theorem wholeBus {k : BusState → M β} (hk : ∀ b, k b = k b.sansTrace) (h : ∀ b, Blind (k b)) : Blind (Machine.lookBus p id >>= k) := by
  have e : (Machine.lookBus p id >>= k) = (Machine.lookBus p BusState.sansTrace >>= k) := by
    funext s
    rw [run_bind_ok (run_lookBus _ _ _), run_bind_ok (run_lookBus _ _ _)]
    exact congrFun (hk _) s
  rw [e]
  exact bind (lookBus fun _ => rfl) h

theorem upd {f : State → State} (hf : Respects f) : Blind (upd f) := fun _ _ h =>
  congrArg (EStateM.Result.ok ()) (hf.eq h)

theorem updBus {f : BusState → BusState} (hf : ∀ b, (f b).sansTrace = (f b.sansTrace).sansTrace) :
    Blind (updBus p f) := upd (.setBus hf p)

/-- A piece that always goes on, its value and what it leaves given. -/
theorem runs {f : State → α} {g : State → State} (hf : Ignores f) (hg : Respects g) :
    Blind (fun s => .ok (f s) (g s) : M α) := fun s t h => by
  show EStateM.Result.ok (f s) _ = EStateM.Result.ok (f t) _
  rw [hf.eq h, hg.eq h]

theorem stop (e : Stop) : Blind (fun s => .error e s : M α) := fun _ _ h => congrArg (EStateM.Result.error e) h

theorem ite {a : Prop} [Decidable a] {m n : M α} (hm : Blind m) (hn : Blind n) : Blind (if a then m else n) := by
  split <;> assumption

theorem ensure (a : Bool) (f : Fault) : Blind (ensure a f) := ite (pure _) (stop _)

theorem require (a : Bool) (r : Refusal) : Blind (require a r) := ite (pure _) (stop _)

theorem onlyIf (a : Bool) {m : M Unit} (hm : Blind m) : Blind (onlyIf a m) := ite hm (pure _)

theorem whenTracing {m : M Unit} (hm : Blind m) : Blind (whenTracing m) := bind (look fun _ => rfl) fun _ => onlyIf _ hm

/-- What changes nothing but the recorder is blind to it, whatever it does there. -/
theorem hidden {m : M Unit} (h : ∀ s, ∃ t, m s = .ok () t ∧ t.sansTrace = s.sansTrace) : Blind m := fun s t hst => by
  obtain ⟨u, e, hu⟩ := h s
  obtain ⟨v, e', hv⟩ := h t
  rw [e, e']
  exact congrArg (EStateM.Result.ok ()) (hu.trans (hst.trans hv.symm))

/-! The recorder. -/

theorem sample (p : Port) (w : Word32) : Blind (sample p w) := by
  have hsame (s : State) (d : Draws) (t : Trace) (log : List LogItem) (hd : d = s.draws ∨ d = s.nowDrawn) :
      (s.recorded p d t log).sansTrace = s.sansTrace := by
    obtain rfl | rfl := hd <;> cases p <;> rfl
  refine hidden fun s => ?_
  by_cases h₀ : (s.bus p).trace.current.count = 0
  · exact ⟨_, sample_fresh rfl h₀, hsame _ _ _ _ (.inr rfl)⟩
  by_cases hw : w = (s.bus p).trace.current.status
  · exact ⟨_, sample_repeated rfl h₀ hw, hsame _ _ _ _ (.inl rfl)⟩
  by_cases hlast : s.cfg.traceCap ≤ (s.bus p).trace.cur + 1
  · exact ⟨_, sample_overflow rfl h₀ hw hlast, hsame _ _ _ _ (.inl rfl)⟩
  · exact ⟨_, sample_next rfl h₀ hw hlast, hsame _ _ _ _ (.inr rfl)⟩

theorem traceSample (p : Port) (w : Word32) : Blind (traceSample p w) := whenTracing (sample p w)

theorem emit (ev : EvName) (x : Int) : Blind (emit p ev x) := whenTracing (updBus fun _ => rfl)

theorem traceReset (p : Port) : Blind (traceReset p) := whenTracing (hidden fun _ => ⟨_, rfl, by cases p <;> rfl⟩)

theorem traceDump (p : Port) : Blind (traceDump p) := whenTracing (updBus fun _ => rfl)

/-! The accessors. -/

theorem regGet (r : Reg) : Blind (regGet p r) :=
  bind (ensure _ _) fun _ => bind (lookBus fun _ => rfl) fun _ => bind (ensure _ _) fun _ =>
  bind (runs (fun _ => rfl) fun _ => rfl) fun _ => bind (updBus fun _ => rfl) fun _ => pure _

theorem regPut (r : Reg) (v : Half) : Blind (regPut p r v) :=
  bind (ensure _ _) fun _ => bind (ensure _ _) fun _ => bind (lookBus fun _ => rfl) fun _ => bind (ensure _ _) fun _ =>
  updBus fun _ => rfl

theorem regModify (r : Reg) (clr set : Half) : Blind (regModify p r clr set) :=
  bind (ensure _ _) fun _ => bind (ensure _ _) fun _ => bind (regGet _) fun _ => regPut _ _

theorem setCr1 (i : BitLayout → Fin 16) : Blind (setCr1 p i) := bind (look fun _ => rfl) fun _ => regModify _ _ _

theorem clrCr1 (i : BitLayout → Fin 16) : Blind (clrCr1 p i) := bind (look fun _ => rfl) fun _ => regModify _ _ _

theorem setItbufen : Blind (setItbufen p) := bind (look fun _ => rfl) fun _ => regModify _ _ _

theorem disableAll : Blind (disableAll p) := bind (look fun _ => rfl) fun _ => regModify _ _ _

theorem bufferAccess : Blind (bufferAccess p) :=
  bind (lookBus fun _ => rfl) fun _ => bind (ensure _ _) fun _ => bind (lookBus fun _ => rfl) fun _ =>
  bind (look fun _ => rfl) fun _ => bind (ensure _ _) fun _ => pure _

theorem readByte : Blind (readByte p) :=
  bind (regGet _) fun _ => bind bufferAccess fun _ => bind (upd (.stored _ _ _)) fun _ =>
  bind (updBus fun _ => rfl) fun _ => updBus fun _ => rfl

theorem loadByte (a : Nat) : Blind (loadByte a) := runs (fun _ => rfl) fun _ => rfl

theorem writeByte : Blind (writeByte p) :=
  bind bufferAccess fun _ => bind (loadByte _) fun _ => bind (updBus fun _ => rfl) fun _ => bind (regPut _ _) fun _ =>
  updBus fun _ => rfl

/-! The engine. -/

theorem readSr2 : Blind (readSr2 p) := bind (regGet _) fun _ => upd fun _ => rfl

theorem nextMessage : Blind (nextMessage p) := bind (lookBus fun _ => rfl) fun o => by
  cases o
  · exact stop _
  · exact pure _

theorem ackPosPolicy (n : Nat) (read : Bool) : Blind (ackPosPolicy p n read) :=
  ite (bind (clrCr1 _) fun _ => clrCr1 _) (ite (bind (setCr1 _) fun _ => setCr1 _) (bind (clrCr1 _) fun _ => setCr1 _))

theorem writePreamble : Blind (writePreamble p) :=
  bind (look fun _ => rfl) fun _ => bind (look fun _ => rfl) fun _ => ite (bind readSr2 fun _ => updBus fun _ => rfl) (pure _)

theorem finalPair : Blind (finalPair p) := bind (setCr1 _) fun _ => bind readByte fun _ => bind readByte fun _ =>
  updBus fun _ => rfl

theorem capture : Blind (capture p) := bind (look fun _ => rfl) fun _ => updBus fun _ => rfl

theorem signalled : Blind (Machine.updBus p BusState.signalled) := updBus fun b => by
  show (BusState.signalled b).sansTrace = (BusState.signalled b.sansTrace).sansTrace
  have hi : b.sansTrace.intstate = b.intstate := rfl
  unfold BusState.signalled
  rw [hi]
  split <;> rfl

theorem ofEntryPort {f : Port → M β} (hf : ∀ p, Blind (f p)) : Blind (entryPort >>= f) := bind (look fun _ => rfl) hf

theorem runSubcase (x : Subcase) : Blind (runSubcase x) := by
  cases x
  case advance =>
    exact ofEntryPort fun _ => bind nextMessage fun _ => bind (look fun _ => rfl) fun _ => bind (require _ _) fun _ =>
      bind (updBus fun _ => rfl) fun _ => emit _ _
  case sbAddr =>
    exact ofEntryPort fun _ => wholeBus (fun _ => rfl) fun _ => bind (ackPosPolicy _ _) fun _ =>
      bind (regPut _ _) fun _ => bind (updBus fun _ => rfl) fun _ => emit _ _
  case sbEmpty => exact ofEntryPort fun _ => bind (updBus fun _ => rfl) fun _ => bind setItbufen fun _ => emit _ _
  case addrNack => exact ofEntryPort fun _ => bind (updBus fun _ => rfl) fun _ => bind (setCr1 _) fun _ => emit _ _
  case raddr1 =>
    exact ofEntryPort fun _ => bind setItbufen fun _ => bind readSr2 fun _ => bind (setCr1 _) fun _ =>
      bind (updBus fun _ => rfl) fun _ => emit _ _
  case raddr2 =>
    exact ofEntryPort fun _ => bind (clrCr1 _) fun _ => bind readSr2 fun _ => bind (updBus fun _ => rfl) fun _ => emit _ _
  case raddrN =>
    exact ofEntryPort fun _ => bind readSr2 fun _ => bind (updBus fun _ => rfl) fun _ =>
      bind (lookBus fun _ => rfl) fun _ => emit _ _
  case wByte =>
    exact ofEntryPort fun _ => bind writePreamble fun _ => bind writeByte fun _ => bind (updBus fun _ => rfl) fun _ =>
      bind (lookBus fun _ => rfl) fun _ => emit _ _
  case wStop | wRestart =>
    exact ofEntryPort fun _ => bind writePreamble fun _ => bind (setCr1 _) fun _ =>
      bind (updBus fun _ => rfl) fun _ => emit _ _
  case wNorestart => exact ofEntryPort fun _ => bind writePreamble fun _ => bind (updBus fun _ => rfl) fun _ => emit _ _
  case wFlagerr => exact ofEntryPort fun _ => bind writePreamble fun _ => bind nextMessage fun _ => emit _ _
  case wNone => exact ofEntryPort fun _ => bind writePreamble fun _ => emit _ _
  case r1Last =>
    exact ofEntryPort fun _ => bind readByte fun _ => bind (updBus fun _ => rfl) fun _ => bind (emit _ _) fun _ => readSr2
  case r2Wait => exact ofEntryPort fun _ => bind (emit _ _) fun _ => readSr2
  case r2Final | rnFinal => exact ofEntryPort fun _ => bind finalPair fun _ => bind (emit _ _) fun _ => readSr2
  case rnWait => exact ofEntryPort fun _ => bind (lookBus fun _ => rfl) fun _ => bind (emit _ _) fun _ => readSr2
  case rnByte =>
    exact ofEntryPort fun _ => bind readByte fun _ => bind (updBus fun _ => rfl) fun _ => bind (lookBus fun _ => rfl) fun _ =>
      bind (emit _ _) fun _ => readSr2
  case rnNackprep =>
    exact ofEntryPort fun _ => bind (clrCr1 _) fun _ => bind readByte fun _ => bind (updBus fun _ => rfl) fun _ =>
      bind (emit _ _) fun _ => readSr2
  case rErr =>
    exact ofEntryPort fun _ => bind (lookBus fun _ => rfl) fun _ => bind (emit _ _) fun _ =>
      bind (updBus fun _ => rfl) fun _ => readSr2
  case emptyTerm | fallbackPoll => exact ofEntryPort fun _ => emit _ _
  case fallbackInt => exact ofEntryPort fun _ => bind (look fun _ => rfl) fun _ => bind (emit _ _) fun _ => updBus fun _ => rfl
  case termPoll => exact ofEntryPort fun _ => bind capture fun _ => bind (updBus fun _ => rfl) fun _ => emit _ _
  case termInt => exact ofEntryPort fun _ => bind capture fun _ => bind disableAll fun _ => bind signalled fun _ => emit _ _

theorem currentSelector (sr1 : Half) : Blind (currentSelector p sr1) := bind (look fun _ => rfl) fun _ =>
  bind (lookBus fun _ => rfl) fun o => by
  cases o
  · exact stop _
  · exact bind (ensure _ _) fun _ => pure _

theorem branchOf (w : Selector) : Blind (branchOf w) := by
  unfold Machine.branchOf
  split
  · exact pure _
  · exact stop _

theorem prelude (sr1 : Half) : Blind (prelude p sr1) := bind (currentSelector _) fun _ => onlyIf _ (runSubcase .advance)

theorem terminal (sr1 : Half) : Blind (terminal p sr1) := bind (currentSelector _) fun w => by
  split
  · exact runSubcase _
  · exact pure _

theorem engineEntry (p : Port) : Blind (engineEntry p) :=
  bind (regGet _) fun _ => bind (upd fun _ => rfl) fun _ => bind (traceSample _ _) fun _ => bind (prelude _) fun _ =>
    bind (currentSelector _) fun _ => bind (branchOf _) fun _ => bind (runSubcase _) fun _ =>
    bind (onlyIf _ (terminal _)) fun _ => upd fun _ => rfl

/-! The actions of the calls. -/

/-- A program with no other agent between its actions. -/
theorem direct {x : Prog α} (hx : x.All Blind) : Blind x.direct := by
  induction hx with
  | ret a => exact pure a
  | act hm _ ih => exact bind hm ih

theorem conclude (e : ErrVal) : Blind (conclude c e) := bind (upd fun _ => rfl) fun _ => upd fun _ => rfl

end Blind

/-- The actions but those that open and close a port. -/
theorem Op.blind_of_simple {o : Op} (ho : o ≠ .openPort) (hc : o ≠ .closePort) : Blind (o.run c p) := by
  have one {β : Type} {m : M β} {f : β → Ans} (hm : Blind m) : Blind (do return f (← m) : M Ans) := hm.bind fun _ => .pure _
  have does {m : M Unit} (hm : Blind m) : Blind (do m; return Ans.unit : M Ans) := one hm
  cases o
  case get r => exact one (.regGet r)
  case put r v => exact does (.regPut r v)
  case modify r x v => exact does (.regModify r x v)
  case refuse r => exact does (.stop _)
  case getInst d => exact one (.bind (.look fun _ => rfl) fun o => by cases o; exacts [.stop _, .pure _])
  case tryAcquire d =>
    exact one (.bind (.lookBus fun _ => rfl) fun _ => .ite (.bind (.updBus fun _ => rfl) fun _ =>
      .pure _) (.bind (.runs (fun _ => rfl) fun _ => rfl) fun _ =>
      .ite (.pure _) (.stop _)))
  case tryAcquireRestart d => exact does (.bind (.lookBus fun _ => rfl) fun _ => .ite (.updBus fun _ => rfl) (.stop _))
  case updInst d f => exact does (.upd fun _ => rfl)
  case unlock x => exact does (.bind (.updBus fun _ => rfl) fun _ => .upd fun _ => rfl)
  case answer x => exact does (.upd fun _ => rfl)
  case startWait msgs => exact one (.bind (.updBus fun _ => rfl) fun _ => .runs (fun _ => rfl) fun _ => rfl)
  case emit ev x => exact does (.emit ev x)
  case polledRound => exact one (.bind (.engineEntry p) fun _ => .bind (.lookBus fun _ => rfl) fun _ => .pure _)
  case takeOrSignal =>
    exact one (.bind (.lookBus fun _ => rfl) fun _ => .ite (.bind (.updBus fun _ => rfl) fun _ => .pure _) (.pure _))
  case expire =>
    exact one (.wholeBus (fun _ => rfl) fun _ => .ite (.bind (.updBus fun _ => rfl) fun _ =>
      .pure _) (.bind (.updBus fun _ => rfl) fun _ => .pure _))
  case traceReset => exact does (.traceReset p)
  case traceDump => exact does (.traceDump p)
  case lookDone | lookStatus => exact one (.lookBus fun _ => rfl)
  case frequencyOf d x => exact one (.look fun _ => rfl)
  case saveFsmc => exact one (.bind (.look fun _ => rfl) fun _ => .bind (.upd fun _ => rfl) fun _ => .pure _)
  case restoreFsmc x => exact does (.upd fun _ => rfl)
  case conclude e => exact does (.bind (.updBus fun _ => rfl) fun _ => .bind (.upd .decided) fun _ => .conclude e)
  case readPin l => exact one (.bind (.runs (fun _ => rfl) fun _ => rfl) fun _ => .bind (.updBus fun _ => rfl) fun _ => .pure _)
  case driven l v => exact does (.updBus fun b => by cases l <;> rfl)
  case install | begun | handshake | clockOn | pulsed | pins | irqs | clockOff | delay => exact does (.updBus fun _ => rfl)
  case uninitTests d =>
    refine one (.bind (.look fun _ => rfl) fun o => ?_)
    cases o
    · exact .stop _
    · exact .wholeBus (fun _ => rfl) fun _ => .bind (.require _ _) fun _ => .bind (.require _ _) fun _ => .pure _
  case freeHandle d => exact does (.bind (.upd fun _ => rfl) fun _ => .upd fun _ => rfl)
  case openPort => exact absurd rfl ho
  case closePort => exact absurd rfl hc

/-- Every action of a call. -/
theorem Op.blind (o : Op) : Blind (o.run c p) := by
  have simple {ks : List Op.Kind} {x : Prog Unit} (hx : x.Uses c p ks) (hk : .openPort ∉ ks ∧ .closePort ∉ ks) : Blind x.direct :=
    .direct (hx.all fun o ho _ => Op.blind_of_simple (by rintro rfl; exact hk.1 ho) (by rintro rfl; exact hk.2 ho))
  have does {m : M Unit} (hm : Blind m) : Blind (do m; return Ans.unit : M Ans) := hm.bind fun _ => .pure _
  by_cases ho : o = .openPort
  · subst ho
    exact does (.bind (.upd fun _ => rfl) fun _ => .bind (.lookBus fun _ => rfl) fun _ =>
      .bind (.onlyIf _ (simple Prog.Uses.lifeUp (by decide))) fun _ =>
      .bind (.updBus fun _ => rfl) fun _ => .bind (.upd fun _ => rfl) fun _ =>
      .bind (.runs (fun _ => rfl) fun _ => rfl) fun _ => .upd fun _ => rfl)
  by_cases hc : o = .closePort
  · subst hc
    exact does (.bind (.lookBus fun _ => rfl) fun _ => .bind (.require _ _) fun _ => .bind (.upd fun _ => rfl) fun _ =>
      .bind (.updBus fun _ => rfl) fun _ => .bind (.lookBus fun _ => rfl) fun _ =>
      .bind (.onlyIf _ (simple Prog.Uses.lifeDown (by decide))) fun _ => .upd fun _ => rfl)
  exact Op.blind_of_simple ho hc

end Sys2Proof.Machine
end

section
/-! The recorder is free of side effects (47_lifecycle_trace_ops section 3), whoever moves: what every piece beside an
instruction and every action of it is blind to, every instruction is blind to. -/

namespace Sys2Proof.Machine

variable {α : Type} {c : Config} {p : Port} {own : Option Port}

/-! What the schedule reads of a state is nothing of the recorder. -/

theorem Ignores.live (p : Port) : Ignores fun s => (s.bus p).live := .bus (fun _ => rfl) p

theorem Ignores.portLive (q : Option Port) : Ignores (·.portLive q) := by
  cases q
  · exact fun _ => rfl
  · exact .live _

theorem Ignores.canEnter (p : Port) : Ignores (canEnter · p) := by
  cases p <;> exact fun _ => rfl

theorem Ignores.nextCall : Ignores State.nextCall := fun s => by
  have hl (q : Option Port) : s.sansTrace.portLive q = s.portLive q := (Ignores.portLive q s).symm
  have hq (i : Instr) : s.sansTrace.portOf i = s.portOf i := by cases i <;> rfl
  unfold State.nextCall
  simp only [hl, hq]
  rfl

theorem Ignores.portOf (i : Instr) : Ignores (·.portOf i) := by
  cases i <;> exact fun _ => rfl

theorem Ignores.threadPort (x : Thread) : Ignores (·.threadPort x) := by
  unfold State.threadPort
  split
  · exact .portOf _
  · exact fun _ => rfl

/-- A refused call returns. -/
theorem Respects.returnsRefused (k : Nat) (x : Thread) (r : Refusal) : Respects fun s =>
    ((s.givenBack x).withThreads (s.threads.eraseIdx k)).withReturned (s.returned ++ [⟨x.call, .refused r⟩]) := fun s =>
  congrArg (fun u : State => (u.withThreads (s.threads.eraseIdx k)).withReturned (s.returned ++ [Returned.mk x.call (.refused r)]))
    (Respects.givenBack x s)

/-- What a thread does next is an action of its call. -/
theorem Thread.next_blind {x : Thread} {m : M Ans} {rest : Ans → Prog Unit} (h : x.next c = some (m, rest)) : Blind m := by
  unfold Thread.next at h
  split at h
  · cases h
  rename_i f hf
  have hx := (programOf_acts hf).after x.past
  split at h
  case h_2 => cases h
  case h_1 hk =>
    cases h
    rw [hk] at hx
    cases hx with
    | act hm _ =>
      obtain ⟨p, o, -, rfl⟩ := hm
      exact o.blind

namespace Blind

/-! Pieces beside an instruction. -/

theorem beside {q : Option Port} {m : M Unit} (hm : Blind m) : Blind (beside own q m) := fun s t h => by
  unfold Machine.beside
  obtain ⟨a, u, u', e, e', hu⟩ | ⟨x, u, u', e, e', hu⟩ := sansTrace_eq (hm s t h)
  · rw [e, e']
    exact congrArg (EStateM.Result.ok a) hu
  · rw [e, e']
    have hstop := congrArg (EStateM.Result.ok (ε := Stop) ()) ((Respects.stopped x q).eq hu)
    cases x with
    | fault f =>
      by_cases hq : (q.isSome && q == own) = true
      · simp only [hq]
        exact congrArg (EStateM.Result.error (Stop.fault f)) hu
      · simp only [hq]
        exact hstop
    | refusal r => exact hstop
    | lockWait => exact hstop

theorem threadAction {k : Nat} {x : Thread} {m : M Ans} {rest : Ans → Prog Unit} (hm : Blind m) : Blind (threadAction k x m rest) :=
  fun s t h => by
    unfold Machine.threadAction
    obtain ⟨a, u, u', e, e', hu⟩ | ⟨y, u, u', e, e', hu⟩ := sansTrace_eq (hm s t h)
    · rw [e, e']
      exact congrArg (EStateM.Result.ok ()) ((Respects.answered k x a _).eq hu)
    · rw [e, e']
      cases y with
      | fault f =>
        exact congrArg (EStateM.Result.error (Stop.fault f))
          (Respects.eq (f := fun v => v.withThreads (v.threads.eraseIdx k)) (fun _ => rfl) hu)
      | refusal r => exact congrArg (EStateM.Result.error (Stop.refusal r)) ((Respects.returnsRefused k x r).eq hu)
      | lockWait => exact congrArg (EStateM.Result.ok ()) hu

theorem moveThread (k : Nat) : Blind (moveThread own k) := lookThen (fun _ => rfl) fun s => by
  cases s.threads[k]? with
  | none => exact pure _
  | some x =>
    refine lookThen (fun _ => rfl) fun s => ?_
    cases hn : x.next s.cfg with
    | none => exact pure _
    | some n =>
      obtain ⟨m, rest⟩ := n
      exact bind (look (.threadPort x)) fun q => bind (look (.portLive q)) fun _ =>
        onlyIf _ (beside (threadAction (Thread.next_blind hn)))

theorem beginCall : Blind beginCall := bind (look .nextCall) fun o => by
  cases o
  · exact pure _
  · exact upd fun _ => rfl

theorem outsideStore : Blind outsideStore := bind (look fun _ => rfl) fun cs => by
  cases cs
  · exact pure _
  · exact bind (upd fun _ => rfl) fun _ => bind (look fun _ => rfl) fun _ => onlyIf _ (upd (.stored _ _ _))

theorem runAgent (own : Option Port) (a : Agent) : Blind (runAgent own a) := by
  cases a with
  | entry p => exact bind (look (.canEnter p)) fun _ => onlyIf _ (beside (engineEntry p))
  | thread k => exact moveThread k
  | caller => exact beginCall
  | store => exact outsideStore

theorem runAgents (own : Option Port) (as : List Agent) : Blind (runAgents own as) := by
  induction as with
  | nil => exact pure _
  | cons a as ih => exact bind (runAgent own a) fun _ => ih

theorem window (own : Option Port) : Blind (window own) :=
  bind (look fun _ => rfl) fun _ => ite (bind (runs (fun _ => rfl) fun _ => rfl) fun _ => runAgents own _) (pure _)

/-! Calls. -/

theorem drive (own : Option Port) {x : Prog α} (hx : x.All Blind) : Blind (drive own x) := by
  induction hx with
  | ret a => exact pure a
  | act hm _ ih => exact bind (window own) fun _ => bind hm fun a => bind (upd fun _ => rfl) fun _ => ih a

theorem driveUnopened (i : Instr) {x : Prog Unit} (hx : x.All Blind) : Blind (driveUnopened i x) := by
  cases hx with
  | ret a => exact pure a
  | act hm hk =>
    exact bind (window none) fun _ => bind (look (.portOf i)) fun own => bind (look (.portLive own)) fun _ => bind (ensure _ _) fun _ =>
      bind hm fun a => bind (upd fun _ => rfl) fun _ => drive own (hk a)

theorem driveCall (i : Instr) {x : Prog Unit} (hx : x.All Blind) : Blind (driveCall i x) := bind (look (.portOf i)) fun o => by
  cases o
  · exact driveUnopened i hx
  · exact drive _ hx

/-! Instructions. -/

theorem errClassify (x : Word32) (e : ErrVal) : Blind (errClassify x e) := bind (look fun _ => rfl) fun _ => conclude _

theorem finish {m : M Unit} (hm : Blind m) {s t : State} (h : s.sansTrace = t.sansTrace) : SameProtocol (finish m s) (finish m t) := by
  unfold Machine.finish
  obtain ⟨a, u, u', e, e', hu⟩ | ⟨x, u, u', e, e', hu⟩ := sansTrace_eq (hm s t h)
  · rw [e, e']
    exact hu
  · rw [e, e']
    cases x with
    | fault f => rfl
    | refusal r => rfl
    | lockWait => exact hu

end Blind

theorem Prog.Acts.blind {x : Prog α} (h : x.Acts c) : x.All Blind :=
  Prog.All.mono h fun _ ⟨_, o, _, hm⟩ => hm ▸ o.blind

/-- A call whose actions are those of the calls. -/
theorem call_sameProtocol {i : Instr} {f : Config → Prog Unit} (hf : ∀ c, (f c).Acts c) {s t : State} (h : s.sansTrace = t.sansTrace) :
    SameProtocol (call i f s) (call i f t) := by
  have hc : s.cfg = t.cfg := Ignores.eq (f := (·.cfg)) (fun _ => rfl) h
  have h₀ : (s.withPast []).sansTrace = (t.withPast []).sansTrace := Respects.eq (f := (·.withPast [])) (fun _ => rfl) h
  unfold call
  obtain ⟨a, u, u', e, e', hu⟩ | ⟨x, u, u', e, e', hu⟩ := sansTrace_eq (Blind.driveCall i (hf s.cfg).blind _ _ h₀)
  · rw [← hc, e, e']
    exact Respects.eq (f := (·.withPast [])) (fun _ => rfl) hu
  · rw [← hc, e, e']
    cases x with
    | fault f => rfl
    | refusal r => rfl
    | lockWait =>
      exact Respects.eq (f := fun v => (v.withThreads (v.threads ++ [⟨i, portFound v.past, v.past⟩])).withPast []) (fun _ => rfl) hu

/-- Settles O56: every action, every engine entry and every move beside them answers and leaves the same whatever the
recorder holds, but for what it leaves in the recorder; so then does every instruction made of them. -/
theorem traceIsSideEffectFree : Obligations.TraceIsSideEffectFree := by
  intro s t i h
  have host (i : Instr) (f : Config → Prog Unit) (hf : ∀ c, programOf c i = some (f c)) :
      SameProtocol (call i f s) (call i f t) := call_sameProtocol (fun c => programOf_acts (hf c)) h
  have own {i : Instr} {f : Config → Prog Unit} {p : Port} {ks : List Op.Kind} (hf : ∀ c, (f c).Uses c p ks) :
      SameProtocol (call i f s) (call i f t) := call_sameProtocol (fun c => (hf c).acts) h
  cases hs : i.isSubcase with
  | true =>
    obtain ⟨x, rfl⟩ := exists_subcase_of_isSubcase hs
    rw [exec_subcase, exec_subcase]
    exact (Blind.runSubcase x).finish h
  | false =>
    cases i
    case regGet p r => exact (Blind.bind (.regGet r) fun _ => .upd fun _ => rfl).finish h
    case regPut p r v => exact (Blind.regPut r v).finish h
    case regModify p r x v => exact (Blind.regModify r x v).finish h
    case traceSample p w => exact (Blind.traceSample p w).finish h
    case traceEvent p ev x => exact (Blind.emit ev x).finish h
    case traceReset p => exact (Blind.traceReset p).finish h
    case traceDump p => exact (Blind.traceDump p).finish h
    case engEntry p => exact (Blind.engineEntry p).finish h
    case errClassify w k => exact (Blind.errClassify w k).finish h
    case clkProgram p fp ft => exact own fun _ => Prog.Uses.clkProgram fp ft
    case lifeUp p => exact own fun _ => Prog.Uses.lifeUp
    case lifeDown p => exact own fun _ => Prog.Uses.lifeDown
    case opInit p => exact host (.opInit p) (opInit · p) fun _ => rfl
    case opUninit d => exact host (.opUninit d) (fun _ => opUninit d) fun _ => rfl
    case opReset d => exact host (.opReset d) (opReset · d) fun _ => rfl
    case opSetfrequency d f => exact host (.opSetfrequency d f) (setFrequency · d f) fun _ => rfl
    case opSetaddress d a n => exact host (.opSetaddress d a n) (setAddress · d a n) fun _ => rfl
    case opWrite d b n => exact host (.opWrite d b n) (opWrite · d b n) fun _ => rfl
    case opRead d b n => exact host (.opRead d b n) (opRead · d b n) fun _ => rfl
    case opTransfer d ms => exact host (.opTransfer d ms) (opTransfer · d ms) fun _ => rfl
    case opProcess d ms => exact host (.opProcess d ms) (opProcess · d ms) fun _ => rfl
    all_goals cases hs

end Sys2Proof.Machine
end
